-- ==== Sys2Proof/Word.lean ====
section
/-!
DEFINITION. The widths of the engine's words: 32-bit registers and command words (00_scope.md R10, R14) and 8-bit bytes
(20_memory.md R73).
-/
namespace Sys2Proof

/-- A 32-bit register, bus or command word. -/
abbrev Word := BitVec 32

/-- One byte of compressed data or of the byte-addressed memory. -/
abbrev Byte := BitVec 8

end Sys2Proof
end

