-- ==== Sys2Proof/Syntax.lean ====
section
/-!
DEFINITION. The commands of the engine (30_encoding.md R110): one constructor per row of the opcode table, its operands as the
formats R102 to R108 give them.
-/
namespace Sys2Proof

/-- Subband orientation (10_state.md R27, 30_encoding.md R105): 0 LL, 1 HL, 2 LH, 3 HH. -/
inductive Orient where
  | ll | hl | lh | hh
deriving DecidableEq, Repr

/-- Direction of a coding pass (30_encoding.md R108): DIR 0 encode, 1 decode. -/
inductive Dir where
  | enc | dec
deriving DecidableEq, Repr

/-- One neighbour of a CTX.SC query (30_encoding.md R106): the pair NEG, SIGF. -/
structure SignNbr where
  neg : Bool
  sigf : Bool
deriving DecidableEq, Repr

/-- The 27 commands (30_encoding.md R110). -/
inductive Instr where
  | ctxZc (orient : Orient) (mask : BitVec 8)
  | ctxSc (w e n s : SignNbr)
  | ctxMr (refined anysig : Bool)
  | mqInitenc
  | mqEncode (cx : BitVec 5) (d : Bool)
  | mqFlush
  | mqErterm
  | mqInitdec
  | mqDecode (cx : BitVec 5)
  | mqResetctx
  | rawInitenc
  | rawPutbit (d : Bool)
  | rawFlush
  | rawInitdec
  | rawGetbit
  | bpcClear
  | bpcSpp (plane : BitVec 5) (dir : Dir) (raw : Bool)
  | bpcMrp (plane : BitVec 5) (dir : Dir) (raw : Bool)
  | bpcCup (plane : BitVec 5) (dir : Dir)
  | bpcStore
  | melInitenc
  | melPut (d : Bool)
  | melFlush
  | melInitdec
  | melGet
  | cbEncode
  | cbDecode
deriving DecidableEq, Repr

end Sys2Proof
end

