-- ==== Sys2Proof/WellFormed.lean ====
section
/-!
DEFINITION. Which terms of Instr are commands of the engine: the field values 30_encoding.md R101 step 3 calls illegal are
excluded (CX > 18, PLANE = 31). RAW = 1 in BPC.CUP and D = 1 in MQ.DECODE have no term at all.
-/
namespace Sys2Proof

/-- CX is a context index, 0 to 18 (30_encoding.md R103). -/
abbrev LegalCx (cx : BitVec 5) : Prop := cx.toNat ≤ 18

/-- PLANE is a bit-plane, 0 to 30 (30_encoding.md R108). -/
abbrev LegalPlane (p : BitVec 5) : Prop := p.toNat ≤ 30

/-- The command has no illegal field value (30_encoding.md R101 step 3). -/
def Instr.wellFormed : Instr → Bool
  | .mqEncode cx _ => decide (LegalCx cx)
  | .mqDecode cx => decide (LegalCx cx)
  | .bpcSpp p _ _ => decide (LegalPlane p)
  | .bpcMrp p _ _ => decide (LegalPlane p)
  | .bpcCup p _ => decide (LegalPlane p)
  | .ctxZc _ _ => true
  | .ctxSc _ _ _ _ => true
  | .ctxMr _ _ => true
  | .mqInitenc => true
  | .mqFlush => true
  | .mqErterm => true
  | .mqInitdec => true
  | .mqResetctx => true
  | .rawInitenc => true
  | .rawPutbit _ => true
  | .rawFlush => true
  | .rawInitdec => true
  | .rawGetbit => true
  | .bpcClear => true
  | .bpcStore => true
  | .melInitenc => true
  | .melPut _ => true
  | .melFlush => true
  | .melInitdec => true
  | .melGet => true
  | .cbEncode => true
  | .cbDecode => true

end Sys2Proof
end

