-- ==== Sys2Proof/Decode.lean ====
section
/-!
DEFINITION. The decoder of command words, total, rejecting by name in the order of 30_encoding.md R101, and after it the encoder
written from the same formats R102 to R108 and the opcode map R110.
-/
namespace Sys2Proof

/-- Why a command word is no command (30_encoding.md R101 steps 1 to 3). Every reason raises E_ILLEGAL_CMD. -/
inductive DecodeError where
  /-- OPC is not assigned (R101 step 1, R111). -/
  | unassignedOpcode
  /-- A bit the format marks reserved is 1 (R101 step 2, R112). -/
  | reservedBit
  /-- A field holds a value its format marks illegal (R101 step 3). -/
  | illegalField
deriving DecidableEq, Repr

/-- OPC = w[31:26] (R100). -/
def opcOf (w : Word) : BitVec 6 := w.extractLsb' 26 6

/-- The bits of w that lie in `mask` are all 0: the reserved bits of a format (R101 step 2). -/
def reservedZero (w mask : Word) : Bool := w &&& mask == 0

/-- ORIENT from its two bits (R105). -/
def orientOfBits (b : BitVec 2) : Orient :=
  if b = 0 then .ll else if b = 1 then .hl else if b = 2 then .lh else .hh

/-- The two bits of ORIENT (R105). -/
def orientBits : Orient → BitVec 2
  | .ll => 0
  | .hl => 1
  | .lh => 2
  | .hh => 3

/-- DIR from its bit (R108). -/
def dirOfBit (b : Bool) : Dir := if b then .dec else .enc

/-- The bit of DIR (R108). -/
def dirBit : Dir → Bool
  | .enc => false
  | .dec => true

/-- The neighbour pair NEG, SIGF whose lower bit SIGF is bit i of the word (R106). -/
def signNbrAt (w : Word) (i : Nat) : SignNbr := ⟨w.getLsbD (i + 1), w.getLsbD i⟩

/-- Format N (R102): every bit under OPC is reserved. -/
def decodeN (w : Word) (i : Instr) : Except DecodeError Instr :=
  if reservedZero w 0x03FFFFFF then .ok i else .error .reservedBit

/-- Format B (R104): D = w[20], the rest reserved. -/
def decodeB (w : Word) (f : Bool → Instr) : Except DecodeError Instr :=
  if reservedZero w 0x03EFFFFF then .ok (f (w.getLsbD 20)) else .error .reservedBit

/-- The checks of a format in their order (R101 steps 2 and 3): reserved bits, then field values. -/
def decodeChecked (w mask : Word) (i : Instr) : Except DecodeError Instr :=
  if reservedZero w mask then (if i.wellFormed then .ok i else .error .illegalField) else .error .reservedBit

/-- The field w[25:21]: CX of format CX (R103), PLANE of format PASS (R108). -/
def field25 (w : Word) : BitVec 5 := w.extractLsb' 21 5

/-- BPC.CUP (R108): RAW = 1 is an illegal field value there, and so is PLANE = 31. -/
def decodeCup (w : Word) : Except DecodeError Instr :=
  if reservedZero w 0x0007FFFF then
    (if w.getLsbD 19 then .error .illegalField
     else decodeChecked w 0 (.bpcCup (field25 w) (dirOfBit (w.getLsbD 20))))
  else .error .reservedBit

/-- The command a word stands for (R100 to R112). -/
def decode (w : Word) : Except DecodeError Instr :=
  match (opcOf w).toNat with
  | 0x01 => decodeChecked w 0x0000FFFF (.ctxZc (orientOfBits (w.extractLsb' 24 2)) (w.extractLsb' 16 8))
  | 0x02 => decodeChecked w 0x0300FFFF
      (.ctxSc (signNbrAt w 16) (signNbrAt w 18) (signNbrAt w 20) (signNbrAt w 22))
  | 0x03 => decodeChecked w 0x03CFFFFF (.ctxMr (w.getLsbD 21) (w.getLsbD 20))
  | 0x08 => decodeN w .mqInitenc
  | 0x09 => decodeChecked w 0x000FFFFF (.mqEncode (field25 w) (w.getLsbD 20))
  | 0x0A => decodeN w .mqFlush
  | 0x0B => decodeN w .mqErterm
  | 0x0C => decodeN w .mqInitdec
  | 0x0D => decodeChecked w 0x001FFFFF (.mqDecode (field25 w))
  | 0x0E => decodeN w .mqResetctx
  | 0x10 => decodeN w .rawInitenc
  | 0x11 => decodeB w .rawPutbit
  | 0x12 => decodeN w .rawFlush
  | 0x13 => decodeN w .rawInitdec
  | 0x14 => decodeN w .rawGetbit
  | 0x18 => decodeN w .bpcClear
  | 0x19 => decodeChecked w 0x0007FFFF (.bpcSpp (field25 w) (dirOfBit (w.getLsbD 20)) (w.getLsbD 19))
  | 0x1A => decodeChecked w 0x0007FFFF (.bpcMrp (field25 w) (dirOfBit (w.getLsbD 20)) (w.getLsbD 19))
  | 0x1B => decodeCup w
  | 0x1C => decodeN w .bpcStore
  | 0x20 => decodeN w .melInitenc
  | 0x21 => decodeB w .melPut
  | 0x22 => decodeN w .melFlush
  | 0x23 => decodeN w .melInitdec
  | 0x24 => decodeN w .melGet
  | 0x30 => decodeN w .cbEncode
  | 0x31 => decodeN w .cbDecode
  | _ => .error .unassignedOpcode

/-- The instruction of an opcode-table row whose low nbits bits are w: a command is one 32-bit word, so the bits above
nbits are 0 and the word is given to the decoder as it is. -/
def decodeTableWord (nbits w : Nat) : Option Instr :=
  match decode (BitVec.ofNat 32 (w % 2 ^ nbits)) with
  | .ok i => some i
  | .error _ => none

/-- A word of format N (R102). -/
def encodeN (opc : BitVec 6) : Word := opc ++ (0#26 : BitVec 26)

/-- A word of format B (R104). -/
def encodeB (opc : BitVec 6) (d : Bool) : Word := opc ++ (0#5 : BitVec 5) ++ BitVec.ofBool d ++ (0#20 : BitVec 20)

/-- A word of format CX (R103). -/
def encodeCx (opc : BitVec 6) (cx : BitVec 5) (d : Bool) : Word := opc ++ cx ++ BitVec.ofBool d ++ (0#20 : BitVec 20)

/-- A word of format PASS (R108). -/
def encodePass (opc : BitVec 6) (p : BitVec 5) (dir : Dir) (raw : Bool) : Word :=
  opc ++ p ++ BitVec.ofBool (dirBit dir) ++ BitVec.ofBool raw ++ (0#19 : BitVec 19)

/-- The two bits NEG, SIGF of a neighbour (R106), SIGF the lower. -/
def signNbrBits (n : SignNbr) : BitVec 2 := BitVec.ofBool n.neg ++ BitVec.ofBool n.sigf

/-- The word of a command (R102 to R110). -/
def encode : Instr → Word
  | .ctxZc o m => (0x01#6 : BitVec 6) ++ orientBits o ++ m ++ (0#16 : BitVec 16)
  | .ctxSc w e n s =>
      (0x02#6 : BitVec 6) ++ (0#2 : BitVec 2) ++ signNbrBits s ++ signNbrBits n ++ signNbrBits e ++ signNbrBits w ++
        (0#16 : BitVec 16)
  | .ctxMr r a => (0x03#6 : BitVec 6) ++ (0#4 : BitVec 4) ++ BitVec.ofBool r ++ BitVec.ofBool a ++ (0#20 : BitVec 20)
  | .mqInitenc => encodeN 0x08
  | .mqEncode cx d => encodeCx 0x09 cx d
  | .mqFlush => encodeN 0x0A
  | .mqErterm => encodeN 0x0B
  | .mqInitdec => encodeN 0x0C
  | .mqDecode cx => encodeCx 0x0D cx false
  | .mqResetctx => encodeN 0x0E
  | .rawInitenc => encodeN 0x10
  | .rawPutbit d => encodeB 0x11 d
  | .rawFlush => encodeN 0x12
  | .rawInitdec => encodeN 0x13
  | .rawGetbit => encodeN 0x14
  | .bpcClear => encodeN 0x18
  | .bpcSpp p dir raw => encodePass 0x19 p dir raw
  | .bpcMrp p dir raw => encodePass 0x1A p dir raw
  | .bpcCup p dir => encodePass 0x1B p dir false
  | .bpcStore => encodeN 0x1C
  | .melInitenc => encodeN 0x20
  | .melPut d => encodeB 0x21 d
  | .melFlush => encodeN 0x22
  | .melInitdec => encodeN 0x23
  | .melGet => encodeN 0x24
  | .cbEncode => encodeN 0x30
  | .cbDecode => encodeN 0x31

end Sys2Proof
end

