-- ==== Sys2Proof/Machine/MelCode.lean ====
section
/-!
DEFINITION. The MEL code as functions of symbols, bits and bytes alone (45_ht_block_coder.md R280 to R287): the tables of the MEL
coder, the byte string a symbol sequence is coded to, and the symbols a byte string is read as. Machine/Mel.lean holds the
coder of the registers; the laws of HTCodec (R300) speak of these functions.
-/
namespace Sys2Proof.Machine

/-- The exponents E[0..12] (R280). -/
def melTable : List Nat := [0, 0, 0, 1, 1, 1, 2, 2, 2, 3, 3, 4, 5]

/-- E[k] (R280). -/
def melE (k : Fin 13) : Nat := melTable.getD k.val 0

/-- The run threshold T(k) = 2^E[k] (R280). -/
def melT (k : Fin 13) : Nat := 2 ^ melE k

/-- min(k + 1, 12) (R284, R287). -/
def melUp (k : Fin 13) : Fin 13 := if h : k.val + 1 < 13 then ⟨k.val + 1, h⟩ else k

/-- max(k − 1, 0) (R284, R287). -/
def melDown (k : Fin 13) : Fin 13 := ⟨k.val - 1, Nat.lt_of_le_of_lt (Nat.sub_le _ _) k.isLt⟩

/-! ### Coding -/

/-- Bits n − 1 down to 0 of v, MSB first. -/
def msbBits (v : Nat) : Nat → List Bool
  | 0 => []
  | n + 1 => v.testBit n :: msbBits v n

/-- The symbol completes a run (R284): a hit. -/
def melHit (k : Fin 13) (run : Nat) (sym : Bool) : Bool := !sym && run + 1 == melT k

/-- The bits MELPUT(sym) sends in state k after `run` zeros (R284). -/
def melBits (k : Fin 13) (run : Nat) (sym : Bool) : List Bool :=
  if sym then false :: msbBits run (melE k) else if melHit k run sym then [true] else []

/-- The state index after MELPUT(sym) (R284). -/
def melNextK (k : Fin 13) (run : Nat) (sym : Bool) : Fin 13 :=
  if sym then melDown k else if melHit k run sym then melUp k else k

/-- The run after MELPUT(sym) (R284). -/
def melNextRun (k : Fin 13) (run : Nat) (sym : Bool) : Nat :=
  if sym || melHit k run sym then 0 else run + 1

/-- The bits of a symbol sequence from state k and a run on; at its end MELFLUSH sends an incomplete run as a hit (R284). -/
def melSequence : List Bool → Fin 13 → Nat → List Bool
  | [], _, run => if run = 0 then [] else [true]
  | s :: rest, k, run => melBits k run s ++ melSequence rest (melNextK k run s) (melNextRun k run s)

/-- The positions free in the byte after b (R284): 7 after 0xFF. -/
def melFree (b : Byte) : Nat := if b = 0xFF then 7 else 8

/-- Bits into bytes, most significant first (R284): `c` holds the bits of the open byte, which has `ct` of its `full` positions
free. A partial last byte is padded with 1 bits. -/
def melPack : List Bool → Nat → Nat → Nat → List Byte
  | [], c, full, ct => if ct < full then [BitVec.ofNat 8 (c * 2 ^ ct + (2 ^ ct - 1))] else []
  | v :: rest, c, full, ct =>
      if ct = 1 then
        let b : Byte := BitVec.ofNat 8 (2 * c + v.toNat)
        b :: melPack rest 0 (melFree b) (melFree b)
      else melPack rest (2 * c + v.toNat) full (ct - 1)

/-- The bytes of MELINITENC, MELPUT of each symbol and MELFLUSH (R284). -/
def melStream (syms : List Bool) : List Byte := melPack (melSequence syms 0 0) 0 8 8

/-! ### Reading -/

/-- Where a MEL reader stands (R285): the bytes not yet taken, the byte being read and its unread bits, the state index, the
zeros still to be returned, and whether a 1 follows them. -/
structure MelReader where
  bytes : List Byte
  c : Byte
  ct : Nat
  k : Fin 13
  run : Nat
  one : Bool
deriving DecidableEq, Repr

/-- MELGETBIT (R287), 0xFF standing for the bytes past the end. -/
def MelReader.bit (r : MelReader) : Bool × MelReader :=
  let r := if r.ct = 0 then { r with c := r.bytes.headD 0xFF, bytes := r.bytes.tail, ct := melFree r.c } else r
  (r.c.getLsbD (r.ct - 1), { r with ct := r.ct - 1 })

/-- v followed by n more bits, MSB first (R287). -/
def MelReader.bits : Nat → Nat → MelReader → Nat × MelReader
  | 0, v, r => (v, r)
  | n + 1, v, r => MelReader.bits n (2 * v + r.bit.1.toNat) r.bit.2

/-- MELGET (R287). -/
def MelReader.symbol (r : MelReader) : Bool × MelReader :=
  if r.run ≠ 0 then (false, { r with run := r.run - 1 })
  else if r.one then (true, { r with one := false })
  else if r.bit.1 then (false, { r.bit.2 with run := melT r.k - 1, k := melUp r.k })
  else
    let x := MelReader.bits (melE r.k) 0 r.bit.2
    if x.1 = 0 then (true, { x.2 with k := melDown r.k })
    else (false, { x.2 with k := melDown r.k, run := x.1 - 1, one := true })

/-- n symbols from a reader on. -/
def MelReader.symbols : Nat → MelReader → List Bool
  | 0, _ => []
  | n + 1, r => r.symbol.1 :: MelReader.symbols n r.symbol.2

/-- The symbols of MELINITDEC and n MELGETs on a byte string (R287). -/
def melSymbols (n : Nat) (b : List Byte) : List Bool := MelReader.symbols n ⟨b, 0, 0, 0, 0, false⟩

end Sys2Proof.Machine
end

