-- ==== Sys2Proof/Config.lean ====
section
/-!
DEFINITION. The implementation parameters of 00_scope.md R9 that the spec leaves OPEN. Each is an opaque constant with no
body, so no proof can use a particular value. The fixed limits of R9 stand with the operations that use them.
-/
namespace Sys2Proof

/-- One coefficient as HTCodec.decode returns it (45_ht_block_coder.md R296): its magnitude, and whether it is negative. -/
structure HtCoef where
  mag : BitVec 31
  neg : Bool
deriving DecidableEq, Repr

/-- What HTCodec.decode answers (45_ht_block_coder.md R296): the coefficients, or Malformed. -/
inductive HtDecoded where
  | ok (coefs : List HtCoef)
  | malformed
deriving DecidableEq, Repr

/-- The extents in bytes of the streams of one cleanup segment (45_ht_block_coder.md R292): MagSgn forward from byte 0, bytes of no
stream, MEL forward from the start of the last Scup bytes, padding, and VLC backward from the end. R292 and R298 do not say
whether bytes may lie between MagSgn and MEL, nor whether the padding counts in Scup: DESIGN CHOICE (log entry 22), `gap` may
hold bytes, and the padding between MEL and VLC lies inside Scup. -/
structure HtStreams where
  magSgn : Nat
  gap : Nat
  mel : Nat
  pad : Nat
  vlc : Nat
deriving DecidableEq, Repr

/-- How HTCodec.decode reads its input (45_ht_block_coder.md R292, R299, R300): the extents of the cleanup segment's streams; the
bytes of SigProp, forward from the refinement segment's first byte, and of MagRef, backward from its last; whether the
forward and backward streams converge; whether every VLC codeword has an entry in the tables; and, in coding order, the
quads whose context is 0, each as the indices of its coefficients. -/
structure HtReading where
  streams : HtStreams
  sigProp : Nat
  magRef : Nat
  converged : Bool
  codewords : Bool
  quads : List (List Nat)
deriving DecidableEq, Repr

/-- The parameter HTCodec (45_ht_block_coder.md R296): a pair of total functions of the arguments R296 lists
(W, H, P, VCAUSAL, q and W, H, P, VCAUSAL, Z, D, cup, ref). Beside them stand what the laws R292 and R298 to R300 speak about
and the engine never reads: the streams of an encoder output, the quads whose context is 0 in a block, and how decode reads
its input. -/
structure HtCodec where
  encode : Nat → Nat → Nat → Bool → List Int → List Byte
  decode : Nat → Nat → Nat → Bool → Nat → Nat → List Byte → List Byte → HtDecoded
  streams : Nat → Nat → Nat → Bool → List Int → HtStreams
  quads : Nat → Nat → Nat → Bool → List Int → List (List Nat)
  reading : Nat → Nat → Nat → Bool → Nat → Nat → List Byte → List Byte → HtReading

/-- A block shape and plane count HTCodec accepts (45_ht_block_coder.md R297). -/
def HtShape (w h p : Nat) : Prop := 1 ≤ w ∧ 1 ≤ h ∧ w * h ≤ 4096 ∧ 1 ≤ p ∧ p ≤ 31

/-- A legal block of HTCodec.encode (45_ht_block_coder.md R296, R297): W·H coefficients with |q| < 2^P. -/
def HtBlock (w h p : Nat) (q : List Int) : Prop :=
  HtShape w h p ∧ q.length = w * h ∧ ∀ v ∈ q, v.natAbs < 2 ^ p

/-- Magnitude and sign of one coefficient, as the round-trip law 45_ht_block_coder.md R297 writes them. -/
def htCoefOf (v : Int) : HtCoef := ⟨BitVec.ofNat 31 v.natAbs, decide (v < 0)⟩

/-- Scup of a cleanup segment (45_ht_block_coder.md R292): 16·byte[Lcup − 1] + (byte[Lcup − 2] mod 16). -/
def scup (b : List Byte) : Nat :=
  16 * (b.getD (b.length - 1) 0).toNat + (b.getD (b.length - 2) 0).toNat % 16

/-- A legal call of HTCodec.decode (45_ht_block_coder.md R296): Z ∈ {0, 1} and 1 ≤ D ≤ 1 + 2·Z. -/
def HtCall (w h p z d : Nat) : Prop := HtShape w h p ∧ z ≤ 1 ∧ 1 ≤ d ∧ d ≤ 1 + 2 * z

/-- Scup of a cleanup segment has a value R292 allows: 2 ≤ Scup ≤ min(Lcup, 4079). -/
def ScupLegal (b : List Byte) : Prop := 2 ≤ scup b ∧ scup b ≤ min b.length 4079

/-- The streams lie in the segment as R292 says, with no overlap: MagSgn ends before the last Scup bytes, and MEL and VLC share
these (log entry 22). -/
def HtStreams.layOut (s : HtStreams) (b : List Byte) : Prop :=
  s.magSgn + s.gap + scup b = b.length ∧ s.mel + s.pad + s.vlc = scup b

/-- The bytes of the MEL stream (45_ht_block_coder.md R292): n bytes forward from byte Lcup − Scup. -/
def melBytesOf (b : List Byte) (n : Nat) : List Byte := (b.drop (b.length - scup b)).take n

/-- The two segments agree wherever a stream lies (45_ht_block_coder.md R292): same length and Scup, the same MagSgn, MEL and VLC
bytes. -/
def SameStreams (s : HtStreams) (b b' : List Byte) : Prop :=
  b'.length = b.length ∧ scup b' = scup b ∧ b'.take s.magSgn = b.take s.magSgn ∧
    melBytesOf b' s.mel = melBytesOf b s.mel ∧ b'.drop (b.length - s.vlc) = b.drop (b.length - s.vlc)

/-- Quads of a W × H block: at most 4 coefficients each (45_ht_block_coder.md, introduction: "4-coefficient quad"), none in two
quads. -/
def HtQuads (w h : Nat) (quads : List (List Nat)) : Prop :=
  (∀ quad ∈ quads, quad.length ≤ 4 ∧ ∀ i ∈ quad, i < w * h) ∧ quads.flatten.Nodup

/-- The significance event of a quad (45_ht_block_coder.md R280): it has a coefficient with a magnitude bit at plane z or above,
the planes the cleanup codes (R296). -/
def quadEvent (z : Nat) (mags : List Nat) (quad : List Nat) : Bool := quad.any fun i => decide (2 ^ z ≤ mags.getD i 0)

namespace Config

/-- BYTE_CAP counted in steps of 4 above 8: every legal BYTE_CAP (00_scope.md R9: a multiple of 4, 8 to 0xF0000) is one. -/
opaque byteCapSteps : Fin 245759

/-- BYTE_CAP: the capacity of the byte memory (00_scope.md R9, 20_memory.md R73). -/
def byteCap : Nat := 4 * byteCapSteps.val + 8

/-- TRUNC_FILL_LIMIT (00_scope.md R9, 46_coordinator.md R341): fill reads a segment may take before truncation is reported. -/
opaque truncFillLimit : Nat

/-- HT_PAD (00_scope.md R9, 45_ht_block_coder.md R298): the largest gap between the converging HT streams. -/
opaque htPad : Nat

/-- N_ENGINES less one (00_scope.md R9: an integer ≥ 1). -/
opaque otherEngines : Nat

/-- N_ENGINES: the number of independent engines of a system (60_exceptions.md R384). -/
def nEngines : Nat := otherEngines + 1

end Config

/-- The laws that bind HTCodec (45_ht_block_coder.md R292, R296 to R300; log entries 4 and 22). That both functions depend on their
arguments alone, that encode never fails and that decode never faults (R299, R300) is in their types. -/
structure HtCodec.Lawful (c : HtCodec) : Prop where
  /-- R296: a decode result has W·H entries; undecoded bits are 0, and SIGN is 0 where MAG = 0. -/
  shape : ∀ w h p v z d cup ref r, HtCall w h p z d → c.decode w h p v z d cup ref = .ok r →
    r.length = w * h ∧ ∀ x ∈ r, x.mag.toNat < 2 ^ p ∧ (x.mag = 0 → x.neg = false) ∧
      (z = 1 → d = 1 → x.mag.getLsbD 0 = false)
  /-- R297, law HT-roundtrip. -/
  roundtrip : ∀ w h p v q, HtBlock w h p q →
    c.decode w h p v 0 1 (c.encode w h p v q) [] = .ok (q.map htCoefOf)
  /-- R292: an encoder output holds its Scup, within the range. -/
  layout : ∀ w h p v q, HtBlock w h p q → ScupLegal (c.encode w h p v q)
  /-- R298, law HT-convergence: no overlap, and the bytes between streams are at most HT_PAD (log entry 22). -/
  converge : ∀ w h p v q, HtBlock w h p q →
    (c.streams w h p v q).layOut (c.encode w h p v q) ∧
    (c.streams w h p v q).gap ≤ Config.htPad ∧ (c.streams w h p v q).pad ≤ Config.htPad
  /-- R300: the MEL stream of an encoder output is coded by MELPUT and MELFLUSH; its symbols are the significance events of the
  quads whose context is 0. -/
  melCoded : ∀ w h p v q, HtBlock w h p q →
    HtQuads w h (c.quads w h p v q) ∧
    melBytesOf (c.encode w h p v q) (c.streams w h p v q).mel =
      Machine.melStream ((c.quads w h p v q).map (quadEvent 0 (q.map Int.natAbs)))
  /-- R299, law HT-malformed: Malformed exactly when the streams do not reconcile. -/
  malformed : ∀ w h p v z d cup ref, HtCall w h p z d →
    (c.decode w h p v z d cup ref = .malformed ↔
      (c.reading w h p v z d cup ref).converged = false ∨ (c.reading w h p v z d cup ref).codewords = false)
  /-- R292, what decode accepts: streams that converge lie as R292 says, in a segment with a legal Scup and, forward and
  backward, in the refinement segment; a pass that is not decoded reads nothing. -/
  accepts : ∀ w h p v z d cup ref, HtCall w h p z d → (c.reading w h p v z d cup ref).converged = true →
    ScupLegal cup ∧ (c.reading w h p v z d cup ref).streams.layOut cup ∧
    (c.reading w h p v z d cup ref).sigProp + (c.reading w h p v z d cup ref).magRef ≤ ref.length ∧
    (d ≤ 1 → (c.reading w h p v z d cup ref).sigProp = 0) ∧ (d ≤ 2 → (c.reading w h p v z d cup ref).magRef = 0)
  /-- R292, where the streams lie: a decode result depends on no byte outside them. -/
  readsStreams : ∀ w h p v z d cup ref cup' ref' r, HtCall w h p z d → c.decode w h p v z d cup ref = .ok r →
    SameStreams (c.reading w h p v z d cup ref).streams cup cup' → ref'.length = ref.length →
    ref'.take (c.reading w h p v z d cup ref).sigProp = ref.take (c.reading w h p v z d cup ref).sigProp →
    ref'.drop (ref.length - (c.reading w h p v z d cup ref).magRef) =
      ref.drop (ref.length - (c.reading w h p v z d cup ref).magRef) →
    c.decode w h p v z d cup' ref' = .ok r
  /-- R300: decode reads the MEL stream by MELGET; its symbols are the significance events of the quads whose context is 0. -/
  melRead : ∀ w h p v z d cup ref r, HtCall w h p z d → c.decode w h p v z d cup ref = .ok r →
    HtQuads w h (c.reading w h p v z d cup ref).quads ∧
    Machine.melSymbols (c.reading w h p v z d cup ref).quads.length
        (melBytesOf cup (c.reading w h p v z d cup ref).streams.mel) =
      (c.reading w h p v z d cup ref).quads.map (quadEvent z (r.map fun x => x.mag.toNat))

/-- A codec together with its laws. -/
structure LawfulHtCodec where
  codec : HtCodec
  lawful : codec.Lawful

/-- The implementation's HTCodec, where it is given: every codec with the laws is one value of this constant.
`Machine.htCodec` reads it (Machine/HtCodec.lean says what `none` stands for). -/
opaque Config.htCodecChoice : Option LawfulHtCodec

end Sys2Proof
end

