-- ==== Sys2Proof/Machine/State.lean ====
section
/-!
DEFINITION. The state of one engine (10_state.md R20 to R52, 20_memory.md R70 to R74), as plain data, its faults and refusals,
and the state after reset (70_reset_and_hazards.md R390). INVENTORY.md lists every field with its rule and reset value.
-/
namespace Sys2Proof.Machine

/-- The coder mode CMODE (10_state.md R44). Value 7 never occurs and has no constructor. -/
inductive CMode where
  | idle | mqe | mqd | rawe | rawd | mele | meld
deriving DecidableEq, Repr

/-- The engine's errors (60_exceptions.md R361). They are reported in STATUS; they are no faults of the model. -/
inductive ErrCode where
  | illegalCmd | notInit | config | truncated | htMalformed | overflow
deriving DecidableEq, Repr

/-- One MQ probability state: INDEX 0 to 46 and the MPS bit (10_state.md R40). -/
structure CtxEntry where
  index : Fin 47
  mps : Bool
deriving DecidableEq, Repr

/-- What the outside does in one step (log entry 1): a host read or write of `bytes` bytes at a byte address (20_memory.md R71
allows 4 only), no access, or the reset input (70_reset_and_hazards.md R390). -/
inductive HostOp where
  | read (addr : Word) (bytes : Nat)
  | write (addr : Word) (bytes : Nat) (data : Word)
  | wait
  | reset
deriving DecidableEq, Repr

/-- STATUS and the command in flight (10_state.md R23, R24). BUSY is `inflight.isSome`; ERR and ERRCODE are `err`, none for
ERR = 0 and ERRCODE = 0. -/
structure Status where
  inflight : Option Word
  done : Bool
  err : Option ErrCode
  partialRes : Bool
  segmis : Bool
  trunc : Bool
  cmode : CMode
deriving DecidableEq, Repr

/-- The configuration registers CFG_DIM, CFG_CODE, NPASS, SEGBASE, SEGLEN (10_state.md R26 to R31). -/
structure Cfg where
  dim : Word
  code : Word
  npass : BitVec 8
  segbase : Word
  seglen : Word
deriving DecidableEq, Repr

/-- The result registers RESULT, NBYTES, NPASSOUT (10_state.md R32 to R34). -/
structure Out where
  result : Word
  nbytes : Word
  npassout : BitVec 8
deriving DecidableEq, Repr

/-- The segment registers a bit coder owns (10_state.md R35 to R43) and the latched segment bounds S and E (R52 item 4). -/
structure SegRegs where
  a : BitVec 16
  c : Word
  ct : BitVec 4
  bp : Word
  b : Byte
  fillcnt : Word
  melK : Fin 13
  melRun : BitVec 16
  onePend : Bool
  start : Word
  stop : Word
deriving DecidableEq, Repr

/-- The per-coefficient arrays SIG, SIGN, VISITED, REFINED, one bit for each of 4096 elements, and MAG, the list of its
elements that are not 0 by rising index (10_state.md R45 to R50). -/
structure Arrays where
  sig : BitVec 4096
  sgn : BitVec 4096
  visited : BitVec 4096
  refined : BitVec 4096
  mag : List (Nat × BitVec 31)
deriving DecidableEq, Repr

/-- The host's accesses still to come and the word its last read returned: the model's own fields (log entries 1 and 8). -/
structure HostBus where
  pending : List HostOp
  data : Option Word
deriving DecidableEq, Repr

/-- The memories SEGTAB, COEF and BYTE at their host addresses (20_memory.md R70, R72 to R74): the bytes written since reset, by
rising address. An unlisted byte has no value (R87, log entry 5). -/
abbrev Memory := List Host.Cell

/-- The state of one engine (10_state.md R20). -/
structure State where
  status : Status
  cfg : Cfg
  out : Out
  seg : SegRegs
  ctx : Vector CtxEntry 19
  arr : Arrays
  mem : Memory
  bus : HostBus
deriving DecidableEq, Repr

/-- Why the model stops: the host protocol violations of 60_exceptions.md R368 and nothing else. Each is SAFE: the hardware goes
on in a way the spec does not give. -/
inductive Fault where
  /-- A command read a memory word or byte that nothing has written since reset (20_memory.md R76, R87; U2). Raised by the
  engine's memory reads. Safe. -/
  | engineReadUnwritten
  /-- A host read of memory that nothing has written since reset (20_memory.md R87; U2). Raised by the host bus. Safe. -/
  | hostReadUnwritten
  /-- A host access that is narrow, wide, unaligned or at a reserved address (20_memory.md R79; U3). Raised by the host bus. Safe. -/
  | hostBadAccess
  /-- A host access other than a read of STATUS or ID while BUSY = 1 (70_reset_and_hazards.md R406; U4). Raised by the host bus. Safe. -/
  | hostWhileBusy
deriving DecidableEq, Repr

/-- An instruction without a meaning. -/
inductive Refusal where
  /-- The command of that mnemonic is not modelled. Raised by no arm of `exec`: every command has its meaning. Safe. -/
  | notModelled (mnemonic : String)
deriving DecidableEq, Repr

/-- The initial state of context cx (10_state.md R40, 42_mq_coder.md R186): INDEX 4 for 0, 3 for 17, 46 for 18, 0 for the
others, MPS 0. -/
def initialCtx : Vector CtxEntry 19 :=
  (((Vector.replicate 19 ⟨0, false⟩).set 0 ⟨4, false⟩).set 17 ⟨3, false⟩).set 18 ⟨46, false⟩

/-- Every array element 0 (70_reset_and_hazards.md R390; the effect of BPC.CLEAR, 44_bitplane_coder.md R249). -/
def clearedArrays : Arrays := ⟨0, 0, 0, 0, []⟩

/-- The state after reset (70_reset_and_hazards.md R390). Nothing of memory is written; the host has made no access. -/
def State.reset : State where
  status := { inflight := none, done := false, err := none, partialRes := false, segmis := false, trunc := false,
              cmode := .idle }
  cfg := { dim := 0, code := 0, npass := 0, segbase := 0, seglen := 0 }
  out := { result := 0, nbytes := 0, npassout := 0 }
  seg := { a := 0, c := 0, ct := 0, bp := 0, b := 0, fillcnt := 0, melK := 0, melRun := 0, onePend := false,
           start := 0, stop := 0 }
  ctx := initialCtx
  arr := clearedArrays
  mem := []
  bus := { pending := [], data := none }

end Sys2Proof.Machine
end

