-- ==== Sys2Proof/Machine/Ops.lean ====
section
/-!
DEFINITION. The named operations every command is built from: sparse storage, memory accesses (20_memory.md R76, R77), the
command type `Cmd`, raising an error and completing a command (60_exceptions.md R360, 70_reset_and_hazards.md R404).
-/
namespace Sys2Proof.Machine

/-! ### Sparse storage: key and value pairs by strictly rising key -/

/-- The value stored under a key. -/
def sparseGet {α : Type} : List (Nat × α) → Nat → Option α
  | [], _ => none
  | (k, v) :: rest, a => if a = k then some v else sparseGet rest a

/-- Store a value under a key, in its place by rising key. -/
def sparseSet {α : Type} : List (Nat × α) → Nat → α → List (Nat × α)
  | [], a, v => [(a, v)]
  | (k, w) :: rest, a, v =>
      if a = k then (a, v) :: rest
      else if a < k then (a, v) :: (k, w) :: rest
      else (k, w) :: sparseSet rest a v

/-- Take a key out. -/
def sparseErase {α : Type} : List (Nat × α) → Nat → List (Nat × α)
  | [], _ => []
  | (k, w) :: rest, a => if a = k then rest else (k, w) :: sparseErase rest a

/-- Keys strictly rising: the one form of a sparse store. -/
abbrev sparseSorted {α : Type} (l : List (Nat × α)) : Prop := l.Pairwise fun x y => x.1 < y.1

/-! ### Memory -/

/-- The canonical form of memory: addresses strictly rising. An unlisted byte has no value, so no entry can equal it. -/
abbrev Memory.wf (m : Memory) : Prop := sparseSorted m

/-- Host address of COEF[i] (20_memory.md R72). -/
def coefAddr (i : Nat) : Nat := 0x04000 + 4 * i

/-- Host address of SEGTAB[k] (20_memory.md R74). -/
def segtabAddr (k : Nat) : Nat := 0x01000 + 4 * k

/-- Address of byte offset j of BYTE memory (20_memory.md R73, R76). -/
def byteAddr (j : Nat) : Nat := 0x10000 + j

/-- The byte at an address, if it has been written since reset (20_memory.md R87). -/
def Memory.getByte (m : Memory) (a : Nat) : Option Byte := sparseGet m a

/-- The word at an address, little-endian (20_memory.md R73; log entry 6): it has a value when all four bytes have one (R87). -/
def Memory.getWord (m : Memory) (a : Nat) : Option Word :=
  match m.getByte a, m.getByte (a + 1), m.getByte (a + 2), m.getByte (a + 3) with
  | some b0, some b1, some b2, some b3 => some (b3 ++ b2 ++ b1 ++ b0)
  | _, _, _, _ => none

/-- Write one byte (20_memory.md R77). -/
def Memory.setByte (m : Memory) (a : Nat) (v : Byte) : Memory := sparseSet m a v

/-- Write one word, little-endian (20_memory.md R73, R77; log entry 6). -/
def Memory.setWord (m : Memory) (a : Nat) (v : Word) : Memory :=
  (((m.setByte a (v.extractLsb' 0 8)).setByte (a + 1) (v.extractLsb' 8 8)).setByte (a + 2)
    (v.extractLsb' 16 8)).setByte (a + 3) (v.extractLsb' 24 8)

/-! ### The coefficient arrays -/

/-- Set bit i of an array of one-bit elements. -/
def bitSet (b : BitVec 4096) (i : Nat) : BitVec 4096 := b ||| (1#4096 <<< i)

/-- Write bit i of an array of one-bit elements. -/
def bitPut (b : BitVec 4096) (i : Nat) (v : Bool) : BitVec 4096 :=
  if v then bitSet b i else b &&& ~~~(1#4096 <<< i)

/-- MAG[i] (10_state.md R50): 0 where the list has no entry. -/
def magGet (m : List (Nat × BitVec 31)) (i : Nat) : BitVec 31 := (sparseGet m i).getD 0

/-- MAG[i] ← v, keeping only elements that are not 0. -/
def magSet (m : List (Nat × BitVec 31)) (i : Nat) (v : BitVec 31) : List (Nat × BitVec 31) :=
  if v = 0 then sparseErase m i else sparseSet m i v

/-! ### Commands -/

/-- Why a command stops before its end: an engine error (60_exceptions.md R360) or a fault of the model. -/
inductive Stop where
  | err (e : ErrCode)
  | fault (f : Fault)
deriving DecidableEq, Repr

/-- A piece of a command: it reads and writes the state and may stop. What it wrote before it stopped stays
(60_exceptions.md R360 step 2). -/
abbrev Cmd := EStateM Stop State

/-- Read from the state. -/
def see {α : Type} (f : State → α) : Cmd α := fun s => .ok (f s) s

/-- Write the state. -/
def upd (f : State → State) : Cmd Unit := fun s => .ok () (f s)

/-- `raise E` (60_exceptions.md R360): no further pseudocode of the command runs. -/
def raise {α : Type} (e : ErrCode) : Cmd α := fun s => .error (.err e) s

/-- The model stops with a fault. -/
def faultOut {α : Type} (f : Fault) : Cmd α := fun s => .error (.fault f) s

/-- `if c: raise E` (60_exceptions.md R363: checks in their order). -/
def check (bad : Bool) (e : ErrCode) : Cmd Unit := if bad then raise e else pure ()

/-- Run f on each element in order. -/
def forEach {α : Type} : List α → (α → Cmd Unit) → Cmd Unit
  | [], _ => pure ()
  | x :: rest, f => do
      f x
      forEach rest f

/-- Update of the segment registers. -/
def updSeg (f : SegRegs → SegRegs) : Cmd Unit := upd fun s => { s with seg := f s.seg }

/-- Update of the coefficient arrays. -/
def updArr (f : Arrays → Arrays) : Cmd Unit := upd fun s => { s with arr := f s.arr }

/-- CMODE ← m (10_state.md R44). -/
def setMode (m : CMode) : Cmd Unit := upd fun s => { s with status := { s.status with cmode := m } }

/-- `if CMODE != m: raise E_NOT_INIT` (10_state.md R44, 60_exceptions.md R361). -/
def needMode (m : CMode) : Cmd Unit := do
  check (decide ((← see (·.status.cmode)) ≠ m)) .notInit

/-- RESULT ← v (10_state.md R32). -/
def setResult (v : Word) : Cmd Unit := upd fun s => { s with out := { s.out with result := v } }

/-- zext_32 of one decision (10_state.md R32). -/
def zextBit (d : Bool) : Word := if d then 1 else 0

/-- NBYTES ← v (10_state.md R33). -/
def setNbytes (v : Word) : Cmd Unit := upd fun s => { s with out := { s.out with nbytes := v } }

/-- NPASSOUT ← v (10_state.md R34). -/
def setNpassout (v : Nat) : Cmd Unit := upd fun s => { s with out := { s.out with npassout := BitVec.ofNat 8 v } }

/-- MemRead(a, 4) (20_memory.md R76): a word nothing has written is a fault (R87). -/
def memReadWord (a : Nat) : Cmd Word := do
  match (← see (·.mem)).getWord a with
  | some v => pure v
  | none => faultOut .engineReadUnwritten

/-- MemRead(a, 1) (20_memory.md R76). -/
def memReadByte (a : Nat) : Cmd Byte := do
  match (← see (·.mem)).getByte a with
  | some v => pure v
  | none => faultOut .engineReadUnwritten

/-- MemWrite(a, 4, v) (20_memory.md R77). -/
def memWriteWord (a : Nat) (v : Word) : Cmd Unit := upd fun s => { s with mem := s.mem.setWord a v }

/-- MemWrite(a, 1, v) (20_memory.md R77). -/
def memWriteByte (a : Nat) (v : Byte) : Cmd Unit := upd fun s => { s with mem := s.mem.setByte a v }

/-! ### Ending a command: completion, and taking an error -/

/-- The end of a command without error (70_reset_and_hazards.md R404): BUSY ← 0, DONE ← 1. -/
def State.complete (s : State) : State :=
  { s with status := { s.status with inflight := none, done := true } }

/-- Taking an error (60_exceptions.md R360 step 3): ERR ← 1, ERRCODE ← the code, DONE ← 1, BUSY ← 0; CMODE and all else stay. -/
def State.takeError (s : State) (e : ErrCode) : State :=
  { s with status := { s.status with inflight := none, done := true, err := some e } }

/-- Acknowledging an error, the engine's only return from one (60_exceptions.md R366, R370; 10_state.md R25): ERR ← 0,
ERRCODE ← 0. -/
def State.ackError (s : State) : State := { s with status := { s.status with err := none } }

/-- One command as one step (70_reset_and_hazards.md R405): its end, the error it raised, or the fault. -/
def runCmd (c : Cmd Unit) (s : State) : Host.Outcome State Fault Refusal :=
  match c s with
  | .ok _ t => .next t.complete
  | .error (.err e) t => .next (t.takeError e)
  | .error (.fault f) _ => .fault f

end Sys2Proof.Machine
end

