-- ==== Sys2Proof/Machine/Flags.lean ====
section
/-!
DEFINITION. The STATUS register (10_state.md R24, R25): its fields as one word, the effect of a host write, and the codes of
ERRCODE (60_exceptions.md R361) and CMODE (10_state.md R44).
-/
namespace Sys2Proof.Machine

/-- STATUS.ERRCODE of an error (60_exceptions.md R361). -/
def ErrCode.code : ErrCode → BitVec 8
  | .illegalCmd => 0x01
  | .notInit => 0x02
  | .config => 0x03
  | .truncated => 0x04
  | .htMalformed => 0x05
  | .overflow => 0x06

/-- STATUS.CMODE of a mode (10_state.md R44). -/
def CMode.code : CMode → BitVec 3
  | .idle => 0
  | .mqe => 1
  | .mqd => 2
  | .rawe => 3
  | .rawd => 4
  | .mele => 5
  | .meld => 6

/-- BUSY (10_state.md R24): a command is in flight. -/
def Status.busy (st : Status) : Bool := st.inflight.isSome

/-- ERRCODE (10_state.md R24): 0 when ERR = 0. -/
def Status.errcode (st : Status) : BitVec 8 :=
  match st.err with
  | some e => e.code
  | none => 0

/-- The word a host read of STATUS returns (10_state.md R24): BUSY 0, DONE 1, ERR 2, PARTIAL 3, SEGMIS 4, TRUNC 5,
CMODE 10:8, ERRCODE 23:16, the rest 0. -/
def Status.word (st : Status) : Word :=
  (0#8 : BitVec 8) ++ st.errcode ++ (0#5 : BitVec 5) ++ st.cmode.code ++ (0#2 : BitVec 2) ++
    BitVec.ofBool st.trunc ++ BitVec.ofBool st.segmis ++ BitVec.ofBool st.partialRes ++
    BitVec.ofBool st.err.isSome ++ BitVec.ofBool st.done ++ BitVec.ofBool st.busy

/-- A host write of w to STATUS (10_state.md R25): write 1 to clear; BUSY and CMODE ignore it. -/
def writeStatus (w : Word) (s : State) : State :=
  let s1 := { s with status := { s.status with
    done := s.status.done && !w.getLsbD 1
    partialRes := s.status.partialRes && !w.getLsbD 3
    segmis := s.status.segmis && !w.getLsbD 4
    trunc := s.status.trunc && !w.getLsbD 5 } }
  if w.getLsbD 2 then s1.ackError else s1

/-- STATUS.SEGMIS ← 1 (44_bitplane_coder.md R254, R255). -/
def setSegmis : Cmd Unit := upd fun s => { s with status := { s.status with segmis := true } }

/-- STATUS.TRUNC ← 1 (46_coordinator.md R345). -/
def setTrunc : Cmd Unit := upd fun s => { s with status := { s.status with trunc := true } }

/-- STATUS.PARTIAL ← 1 (46_coordinator.md R345). -/
def setPartial : Cmd Unit := upd fun s => { s with status := { s.status with partialRes := true } }

/-- PARTIAL, SEGMIS and TRUNC ← 0 at a block's start (46_coordinator.md R321 step 1, 10_state.md R25). -/
def clearBlockFlags : Cmd Unit :=
  upd fun s => { s with status := { s.status with partialRes := false, segmis := false, trunc := false } }

end Sys2Proof.Machine
end

