-- ==== Sys2Proof/Machine/Operands.lean ====
section
/-!
DEFINITION. The operands commands take from the configuration registers (10_state.md R26 to R31): the fields of CFG_DIM and
CFG_CODE, the shape check, and the segment a decoder latches.
-/
namespace Sys2Proof.Machine

/-- W, the block width (10_state.md R26). -/
def Cfg.w (c : Cfg) : Nat := (c.dim.extractLsb' 0 16).toNat

/-- H, the block height (10_state.md R26). -/
def Cfg.h (c : Cfg) : Nat := (c.dim.extractLsb' 16 16).toNat

/-- P, the number of magnitude bit-planes (10_state.md R27). -/
def Cfg.p (c : Cfg) : Nat := (c.code.extractLsb' 0 5).toNat

/-- ORIENT (10_state.md R27). -/
def Cfg.orient (c : Cfg) : Orient :=
  match (c.code.extractLsb' 8 2).toNat with
  | 0 => .ll
  | 1 => .hl
  | 2 => .lh
  | _ => .hh

/-- CBSTYLE.BYPASS (10_state.md R28). -/
def Cfg.bypass (c : Cfg) : Bool := c.code.getLsbD 16
/-- CBSTYLE.RESET (10_state.md R28). -/
def Cfg.resetCtx (c : Cfg) : Bool := c.code.getLsbD 17
/-- CBSTYLE.TERMALL (10_state.md R28). -/
def Cfg.termall (c : Cfg) : Bool := c.code.getLsbD 18
/-- CBSTYLE.VCAUSAL (10_state.md R28). -/
def Cfg.vcausal (c : Cfg) : Bool := c.code.getLsbD 19
/-- CBSTYLE.PREDICTABLE (10_state.md R28). -/
def Cfg.predictable (c : Cfg) : Bool := c.code.getLsbD 20
/-- CBSTYLE.SEGMARK (10_state.md R28). -/
def Cfg.segmark (c : Cfg) : Bool := c.code.getLsbD 21
/-- CBSTYLE.HT, the coding mode (10_state.md R28). -/
def Cfg.ht (c : Cfg) : Bool := c.code.getLsbD 22
/-- CBSTYLE[7], which must be 0 (10_state.md R28). -/
def Cfg.styleReserved (c : Cfg) : Bool := c.code.getLsbD 23
/-- TOLERATE (10_state.md R27). -/
def Cfg.tolerate (c : Cfg) : Bool := c.code.getLsbD 24

/-- W = 0, H = 0, W > 1024, H > 1024 or W·H > 4096 (10_state.md R26, 44_bitplane_coder.md R240 step 2,
46_coordinator.md R320 step 1). -/
def Cfg.badShape (c : Cfg) : Bool :=
  c.w == 0 || c.h == 0 || decide (1024 < c.w) || decide (1024 < c.h) || decide (4096 < c.w * c.h)

/-- The defined fields of CFG_CODE: P, ORIENT, CBSTYLE, TOLERATE. Every other bit is reserved, reads 0 and ignores writes
(10_state.md R27). -/
def cfgCodeMask : Word := 0x01FF031F

/-- `if CFG_DIM is illegal: raise E_CONFIG` (44_bitplane_coder.md R240 step 2, R250). -/
def checkShape : Cmd Unit := do
  check (← see (·.cfg.badShape)) .config

/-- SEGBASE + SEGLEN > BYTE_CAP, computed without wrap (42_mq_coder.md R194, 46_coordinator.md R320 step 5). -/
def Cfg.segOutside (c : Cfg) : Bool := decide (Config.byteCap < c.segbase.toNat + c.seglen.toNat)

/-- `if SEGBASE + SEGLEN > BYTE_CAP: raise E_CONFIG` (42_mq_coder.md R194, 43_raw_bypass.md R223, 45_ht_block_coder.md R313). -/
def checkSegment : Cmd Unit := do
  check (← see (·.cfg.segOutside)) .config

/-- Latch the start S of an encoder segment (20_memory.md R81). -/
def latchStart (start : Word) : Cmd Unit := updSeg fun r => { r with start := start }

/-- Latch the bounds [S, E) of a decoder segment (20_memory.md R80). -/
def latchBounds (start stop : Word) : Cmd Unit := updSeg fun r => { r with start := start, stop := stop }

/-- Latch S = SEGBASE (20_memory.md R81). -/
def latchSegbase : Cmd Unit := do
  latchStart (← see (·.cfg.segbase))

/-- Latch S = SEGBASE, E = SEGBASE + SEGLEN (20_memory.md R80). -/
def latchCfgSegment : Cmd Unit := do
  let c ← see (·.cfg)
  latchBounds c.segbase (c.segbase + c.seglen)

/-- R101 step 3 for a term of Instr: an illegal field value raises E_ILLEGAL_CMD before all else (log entry 17). -/
def checkFields (i : Instr) : Cmd Unit := check (!i.wellFormed) .illegalCmd

end Sys2Proof.Machine
end

