-- ==== Sys2Proof/Machine/Context.lean ====
section
/-!
DEFINITION. The context model (41_context_model.md): the label functions R130 to R138, the neighbourhood they are formed from, and
the commands CTX.ZC, CTX.SC and CTX.MR (R140 to R142).
-/
namespace Sys2Proof.Machine

/-- A context label (41_context_model.md R130). -/
abbrev Label := Fin 19

/-- 1 for true, as the counts of R131 use it. -/
def count (b : Bool) : Nat := if b then 1 else 0

/-- The significance label of LL and LH (R134). -/
def zcLL (h v d : Nat) : Label :=
  if 2 ≤ h then 8
  else if h = 1 then
    (if 1 ≤ v then 7 else if 1 ≤ d then 6 else 5)
  else if 2 ≤ v then 4
  else if v = 1 then 3
  else if 2 ≤ d then 2
  else if d = 1 then 1
  else 0

/-- The significance label of HH (R136). -/
def zcHH (h v d : Nat) : Label :=
  if 3 ≤ d then 8
  else if d = 2 then (if 1 ≤ h + v then 7 else 6)
  else if d = 1 then (if 2 ≤ h + v then 5 else if h + v = 1 then 4 else 3)
  else if 2 ≤ h + v then 2
  else if h + v = 1 then 1
  else 0

/-- The significance label of a subband (R134 to R136): HL is the table of R134 with h and v exchanged (R135). -/
def zcLabel (o : Orient) (h v d : Nat) : Label :=
  match o with
  | .ll => zcLL h v d
  | .lh => zcLL h v d
  | .hl => zcLL v h d
  | .hh => zcHH h v d

/-- clamp (00_scope.md R11). -/
def clamp (v : Int) : Int := if v < -1 then -1 else if 1 < v then 1 else v

/-- The contribution of one direct neighbour to the sign context (R132): 0, +1 or −1. -/
def contrib (sig neg : Bool) : Int := if sig then (if neg then -1 else 1) else 0

/-- The sign label and the sign-prediction bit xorbit (R138). -/
def scTable (hc vc : Int) : Label × Bool :=
  if hc = 1 then
    (if vc = 1 then (13, false) else if vc = 0 then (12, false) else (11, false))
  else if hc = 0 then
    (if vc = 1 then (10, false) else if vc = 0 then (9, false) else (10, true))
  else
    (if vc = 1 then (11, true) else if vc = 0 then (12, true) else (13, true))

/-- The refinement label (R137, R142). -/
def mrLabel (refined anysig : Bool) : Label :=
  if refined then 16 else if anysig then 15 else 14

/-! ### The neighbourhood of a coefficient -/

/-- What a pass reads of the configuration when it starts (44_bitplane_coder.md R231, R240). -/
structure Geometry where
  w : Nat
  h : Nat
  orient : Orient
  vcausal : Bool
deriving DecidableEq, Repr

/-- The geometry the CSRs give (10_state.md R26 to R28). -/
def Cfg.geometry (c : Cfg) : Geometry := ⟨c.w, c.h, c.orient, c.vcausal⟩

/-- Index y·W + x of coefficient (x, y) (00_scope.md R13). -/
def coefIndex (g : Geometry) (x y : Nat) : Nat := y * g.w + x

/-- The index of the neighbour (x + dx, y + dy), none outside the block (R131) or excluded by vertically causal mode: the row
below the last row of a stripe (R133). -/
def neighbour (g : Geometry) (x y : Nat) (dx dy : Int) : Option Nat :=
  let x' := (x : Int) + dx
  let y' := (y : Int) + dy
  if g.vcausal && y % 4 == 3 && decide (dy = 1) then none
  else if 0 ≤ x' ∧ x' < g.w ∧ 0 ≤ y' ∧ y' < g.h then some (coefIndex g x'.toNat y'.toNat)
  else none

/-- The neighbour is significant (R131). -/
def nbrSig (g : Geometry) (r : Arrays) (x y : Nat) (dx dy : Int) : Bool :=
  match neighbour g x y dx dy with
  | some i => r.sig.getLsbD i
  | none => false

/-- The neighbour's contribution to the sign context (R132). -/
def nbrContrib (g : Geometry) (r : Arrays) (x y : Nat) (dx dy : Int) : Int :=
  match neighbour g x y dx dy with
  | some i => contrib (r.sig.getLsbD i) (r.sgn.getLsbD i)
  | none => 0

/-- h = sig(W) + sig(E) (R131). -/
def countH (g : Geometry) (r : Arrays) (x y : Nat) : Nat :=
  count (nbrSig g r x y (-1) 0) + count (nbrSig g r x y 1 0)

/-- v = sig(N) + sig(S) (R131). -/
def countV (g : Geometry) (r : Arrays) (x y : Nat) : Nat :=
  count (nbrSig g r x y 0 (-1)) + count (nbrSig g r x y 0 1)

/-- d = sig(NW) + sig(NE) + sig(SW) + sig(SE) (R131). -/
def countD (g : Geometry) (r : Arrays) (x y : Nat) : Nat :=
  count (nbrSig g r x y (-1) (-1)) + count (nbrSig g r x y 1 (-1)) +
    count (nbrSig g r x y (-1) 1) + count (nbrSig g r x y 1 1)

/-- The ZC label of (x, y) (R131, R134 to R136). -/
def zcAt (g : Geometry) (r : Arrays) (x y : Nat) : Label :=
  zcLabel g.orient (countH g r x y) (countV g r x y) (countD g r x y)

/-- The SC label and xorbit of (x, y) (R132, R138). -/
def scAt (g : Geometry) (r : Arrays) (x y : Nat) : Label × Bool :=
  scTable (clamp (nbrContrib g r x y (-1) 0 + nbrContrib g r x y 1 0))
    (clamp (nbrContrib g r x y 0 (-1) + nbrContrib g r x y 0 1))

/-- The MR label of (x, y) (R137). -/
def mrAt (g : Geometry) (r : Arrays) (x y : Nat) : Label :=
  mrLabel (r.refined.getLsbD (coefIndex g x y)) (decide (1 ≤ countH g r x y + countV g r x y + countD g r x y))

/-! ### Commands -/

/-- A label in RESULT[4:0] (10_state.md R32). -/
def labelWord (cx : Label) : Word := BitVec.ofNat 32 cx.val

/-- The RESULT of CTX.ZC (R140): SIGMASK bits 0 to 7 are W, E, N, S, NW, NE, SW, SE. -/
def ctxZcResult (o : Orient) (m : BitVec 8) : Word :=
  labelWord (zcLabel o (count (m.getLsbD 0) + count (m.getLsbD 1)) (count (m.getLsbD 2) + count (m.getLsbD 3))
    (count (m.getLsbD 4) + count (m.getLsbD 5) + count (m.getLsbD 6) + count (m.getLsbD 7)))

/-- The RESULT of CTX.SC (R141): cx in bits 4:0, xorbit in bit 8. -/
def ctxScResult (w e n s : SignNbr) : Word :=
  let r := scTable (clamp (contrib w.sigf w.neg + contrib e.sigf e.neg))
    (clamp (contrib n.sigf n.neg + contrib s.sigf s.neg))
  (0#23 : BitVec 23) ++ BitVec.ofBool r.2 ++ (0#3 : BitVec 3) ++ BitVec.ofNat 5 r.1.val

/-- CTX.ZC orient, mask (R140). -/
def execCtxZc (o : Orient) (m : BitVec 8) (s : State) : Host.Outcome State Fault Refusal :=
  runCmd (setResult (ctxZcResult o m)) s

/-- CTX.SC w, e, n, s (R141). -/
def execCtxSc (w e n s' : SignNbr) (s : State) : Host.Outcome State Fault Refusal :=
  runCmd (setResult (ctxScResult w e n s')) s

/-- CTX.MR refined, anysig (R142). -/
def execCtxMr (refined anysig : Bool) (s : State) : Host.Outcome State Fault Refusal :=
  runCmd (setResult (labelWord (mrLabel refined anysig))) s

end Sys2Proof.Machine
end

