-- ==== Sys2Proof/Machine/Segment.lean ====
section
/-!
DEFINITION. The byte primitives every bit coder shares: EmitByte, SetLastByte, DropLastByte (20_memory.md R81) and SegByte with the
count of fill steps (R80).
-/
namespace Sys2Proof.Machine

/-- The BYTE offset S + MQ_BP, computed without wrap (20_memory.md R81; log entry 10). -/
def SegRegs.outOffset (r : SegRegs) : Nat := r.start.toNat + r.bp.toNat

/-- EmitByte(v) (20_memory.md R81): E_OVERFLOW at BYTE_CAP, writing nothing (60_exceptions.md R364). -/
def emitByte (v : Byte) : Cmd Unit := do
  let r ← see (·.seg)
  check (decide (Config.byteCap ≤ r.outOffset)) .overflow
  memWriteByte (byteAddr r.outOffset) v
  updSeg fun r => { r with bp := r.bp + 1 }

/-- SetLastByte(v) (20_memory.md R81): the byte at S + MQ_BP − 1. It is only called with MQ_BP ≥ 1 and that byte inside BYTE
memory; elsewhere it writes nothing (log entry 11). -/
def setLastByte (v : Byte) : Cmd Unit := do
  let r ← see (·.seg)
  if 1 ≤ r.bp.toNat ∧ r.outOffset - 1 < Config.byteCap then memWriteByte (byteAddr (r.outOffset - 1)) v
  else pure ()

/-- DropLastByte() (20_memory.md R81): memory keeps the byte. -/
def dropLastByte : Cmd Unit := updSeg fun r => { r with bp := r.bp - 1 }

/-- `if MQ_BP >= 1 and MQ_B = 0xFF: DropLastByte()` (42_mq_coder.md R170, 43_raw_bypass.md R213). -/
def dropTrailingFF : Cmd Unit := do
  let r ← see (·.seg)
  if 1 ≤ r.bp.toNat ∧ r.b = 0xFF then dropLastByte else pure ()

/-- SegByte(i) (20_memory.md R80): byte i of the segment, or the fill value 0xFF past its end; the second component is the
fill flag. -/
def segByte (i : Nat) : Cmd (Byte × Bool) := do
  let r ← see (·.seg)
  if r.start.toNat + i < r.stop.toNat then
    pure ((← memReadByte (byteAddr (r.start.toNat + i))), false)
  else pure (0xFF, true)

/-- The end of a byte-in step (20_memory.md R80): a step that read the fill value adds 1 to FILLCNT, saturating
(10_state.md R39). -/
def countFill (fill : Bool) : Cmd Unit :=
  if fill then updSeg fun r => { r with fillcnt := if r.fillcnt = 0xFFFFFFFF then r.fillcnt else r.fillcnt + 1 }
  else pure ()

end Sys2Proof.Machine
end

