-- ==== Sys2Proof/Machine/Mq.lean ====
section
/-!
DEFINITION. The MQ arithmetic coder (42_mq_coder.md): the probability table R160, the encoder R162 to R175, the decoder R181 to
R185, and the commands MQ.* (R190 to R196).
-/
namespace Sys2Proof.Machine

/-- One row of the probability table (42_mq_coder.md R160). -/
structure MqRow where
  qe : BitVec 16
  nmps : Fin 47
  nlps : Fin 47
  sw : Bool
deriving DecidableEq, Repr

/-- Rows 0 to 15 of R160. -/
def mqRows0 : List MqRow :=
  [⟨0x5601, 1, 1, true⟩, ⟨0x3401, 2, 6, false⟩, ⟨0x1801, 3, 9, false⟩, ⟨0x0AC1, 4, 12, false⟩,
   ⟨0x0521, 5, 29, false⟩, ⟨0x0221, 38, 33, false⟩, ⟨0x5601, 7, 6, true⟩, ⟨0x5401, 8, 14, false⟩,
   ⟨0x4801, 9, 14, false⟩, ⟨0x3801, 10, 14, false⟩, ⟨0x3001, 11, 17, false⟩, ⟨0x2401, 12, 18, false⟩,
   ⟨0x1C01, 13, 20, false⟩, ⟨0x1601, 29, 21, false⟩, ⟨0x5601, 15, 14, true⟩, ⟨0x5401, 16, 14, false⟩]

/-- Rows 16 to 31 of R160. -/
def mqRows1 : List MqRow :=
  [⟨0x5101, 17, 15, false⟩, ⟨0x4801, 18, 16, false⟩, ⟨0x3801, 19, 17, false⟩, ⟨0x3401, 20, 18, false⟩,
   ⟨0x3001, 21, 19, false⟩, ⟨0x2801, 22, 19, false⟩, ⟨0x2401, 23, 20, false⟩, ⟨0x2201, 24, 21, false⟩,
   ⟨0x1C01, 25, 22, false⟩, ⟨0x1801, 26, 23, false⟩, ⟨0x1601, 27, 24, false⟩, ⟨0x1401, 28, 25, false⟩,
   ⟨0x1201, 29, 26, false⟩, ⟨0x1101, 30, 27, false⟩, ⟨0x0AC1, 31, 28, false⟩, ⟨0x09C1, 32, 29, false⟩]

/-- Rows 32 to 46 of R160. -/
def mqRows2 : List MqRow :=
  [⟨0x08A1, 33, 30, false⟩, ⟨0x0521, 34, 31, false⟩, ⟨0x0441, 35, 32, false⟩, ⟨0x02A1, 36, 33, false⟩,
   ⟨0x0221, 37, 34, false⟩, ⟨0x0141, 38, 35, false⟩, ⟨0x0111, 39, 36, false⟩, ⟨0x0085, 40, 37, false⟩,
   ⟨0x0049, 41, 38, false⟩, ⟨0x0025, 42, 39, false⟩, ⟨0x0015, 43, 40, false⟩, ⟨0x0009, 44, 41, false⟩,
   ⟨0x0005, 45, 42, false⟩, ⟨0x0001, 45, 43, false⟩, ⟨0x5601, 46, 46, false⟩]

/-- The 47 rows of R160. -/
def mqTable : List MqRow := mqRows0 ++ mqRows1 ++ mqRows2

/-- Row i of the table. The default is never read: the table has 47 rows. -/
def mqRow (i : Fin 47) : MqRow := mqTable.getD i.val ⟨0x5601, 46, 46, false⟩

/-- CTX[cx] ← v (10_state.md R40). -/
def setCtx (cx : Label) (v : CtxEntry) : Cmd Unit := upd fun s => { s with ctx := s.ctx.set cx v }

/-- The state after an MPS that renormalises (R166, R185): INDEX ← NMPS. -/
def CtxEntry.afterMps (e : CtxEntry) : CtxEntry := { e with index := (mqRow e.index).nmps }

/-- The state after an LPS (R166, R167, R185): INDEX ← NLPS, and the MPS flips when SWITCH = 1. -/
def CtxEntry.afterLps (e : CtxEntry) : CtxEntry :=
  ⟨(mqRow e.index).nlps, if (mqRow e.index).sw then !e.mps else e.mps⟩

/-- All 19 contexts to their initial state (R186, R196). -/
def resetContexts : Cmd Unit := upd fun s => { s with ctx := initialCtx }

/-! ### Encoder -/

/-- INITENC (R162). -/
def mqInitEnc : Cmd Unit :=
  updSeg fun r => { r with a := 0x8000, c := 0, ct := 12, b := 0, bp := 0 }

/-- A byte-out after a byte 0xFF (R164): MQ_B ← MQ_C[27:20], emitted; 7 shifts to the next. -/
def stuffedOut : Cmd Unit := do
  updSeg fun r => { r with b := r.c.extractLsb' 20 8 }
  emitByte (← see (·.seg.b))
  updSeg fun r => { r with c := r.c &&& 0xFFFFF, ct := 7 }

/-- A byte-out after any other byte (R164): MQ_B ← MQ_C[26:19], emitted; 8 shifts to the next. -/
def plainOut : Cmd Unit := do
  updSeg fun r => { r with b := r.c.extractLsb' 19 8 }
  emitByte (← see (·.seg.b))
  updSeg fun r => { r with c := r.c &&& 0x7FFFF, ct := 8 }

/-- BYTEOUT (R164). -/
def byteOut : Cmd Unit := do
  let r ← see (·.seg)
  if r.b = 0xFF then stuffedOut
  else if r.c < 0x8000000 then plainOut
  else do
    updSeg fun r => { r with b := r.b + 1 }
    setLastByte (r.b + 1)
    if r.b + 1 = 0xFF then do
      updSeg fun r => { r with c := r.c &&& 0x7FFFFFF }
      stuffedOut
    else plainOut

/-- One turn of RENORME (R165): shift, and a byte-out when CT reaches 0. -/
def renormEStep : Cmd Unit := do
  updSeg fun r => { r with a := r.a <<< 1, c := (r.c <<< 1) &&& 0xFFFFFFF, ct := r.ct - 1 }
  if (← see (·.seg.ct)) = 0 then byteOut else pure ()

/-- RENORME (R165): turns until A[15] = 1. Sixteen are enough for every A that is not 0, and A is never 0 there
(log entry 12). -/
def renormE : Nat → Cmd Unit
  | 0 => pure ()
  | n + 1 => do
      renormEStep
      if (← see (·.seg.a.msb)) then pure () else renormE n

/-- CODEMPS (R166). -/
def codeMps (cx : Label) (e : CtxEntry) (q : BitVec 16) : Cmd Unit := do
  let r ← see (·.seg)
  if r.a.msb then updSeg fun r => { r with c := r.c + q.zeroExtend 32 }
  else do
    if r.a < q then updSeg fun r => { r with a := q }
    else updSeg fun r => { r with c := r.c + q.zeroExtend 32 }
    setCtx cx e.afterMps
    renormE 16

/-- CODELPS (R166). -/
def codeLps (cx : Label) (e : CtxEntry) (q : BitVec 16) : Cmd Unit := do
  let r ← see (·.seg)
  if r.a < q then updSeg fun r => { r with c := r.c + q.zeroExtend 32 }
  else updSeg fun r => { r with a := q }
  setCtx cx e.afterLps
  renormE 16

/-- ENCODE(cx, d) (R166). -/
def mqEncode (cx : Label) (d : Bool) : Cmd Unit := do
  let e ← see (·.ctx[cx])
  let q := (mqRow e.index).qe
  updSeg fun r => { r with a := r.a - q }
  if d = e.mps then codeMps cx e q else codeLps cx e q

/-- SETBITS, the first three lines of FLUSH (R169). -/
def setBits : Cmd Unit :=
  updSeg fun r =>
    let t := r.c + r.a.zeroExtend 32
    let c := r.c ||| 0xFFFF
    { r with c := if t ≤ c then c - 0x8000 else c }

/-- MQ_C ← (MQ_C << MQ_CT)[27:0] (R169, R175). -/
def shiftByCt : Cmd Unit := updSeg fun r => { r with c := (r.c <<< r.ct.toNat) &&& 0xFFFFFFF }

/-- FLUSH, standard termination (R169). -/
def mqFlush : Cmd Unit := do
  setBits
  shiftByCt
  byteOut
  shiftByCt
  byteOut
  dropTrailingFF

/-- The loop of ERTERM (R175) with k code bits to push out. Each turn pushes 7 or 8, and k ≤ 12, so two turns are enough. -/
def ertermLoop : Nat → Int → Cmd Unit
  | 0, _ => pure ()
  | n + 1, k =>
      if 0 < k then do
        shiftByCt
        updSeg fun r => { r with ct := 0 }
        byteOut
        ertermLoop n (k - (← see (·.seg.ct.toNat)))
      else pure ()

/-- ERTERM, predictable termination (R175). -/
def mqErterm : Cmd Unit := do
  ertermLoop 2 (12 - (← see (·.seg.ct.toNat)))
  dropTrailingFF

/-! ### Decoder -/

/-- BYTEIN_BODY (R183): it answers the fill flag of its SegByte calls. -/
def byteInBody : Cmd Bool := do
  let bp ← see (·.seg.bp.toNat)
  let (b0, f0) ← segByte bp
  let (b1, f1) ← segByte (bp + 1)
  if b0 = 0xFF then
    if 0x8F < b1 then do
      updSeg fun r => { r with c := r.c + 0xFF00, ct := 8 }
      pure (f0 || f1)
    else do
      updSeg fun r => { r with bp := r.bp + 1, c := r.c + (b1.zeroExtend 32 <<< 9), ct := 7 }
      pure (f0 || f1)
  else do
    updSeg fun r => { r with bp := r.bp + 1, c := r.c + (b1.zeroExtend 32 <<< 8), ct := 8 }
    pure (f0 || f1)

/-- BYTEIN (R183). -/
def byteIn : Cmd Unit := do
  countFill (← byteInBody)

/-- INITDEC (R181) on the latched segment. -/
def mqInitDec : Cmd Unit := do
  updSeg fun r => { r with fillcnt := 0, bp := 0 }
  let (b, f) ← segByte 0
  updSeg fun r => { r with c := b.zeroExtend 32 <<< 16 }
  let f' ← byteInBody
  countFill (f || f')
  updSeg fun r => { r with c := r.c <<< 7, ct := r.ct - 7, a := 0x8000 }

/-- One turn of RENORMD (R184). -/
def renormDStep : Cmd Unit := do
  if (← see (·.seg.ct)) = 0 then byteIn else pure ()
  updSeg fun r => { r with a := r.a <<< 1, c := r.c <<< 1, ct := r.ct - 1 }

/-- RENORMD (R184): turns until A[15] = 1, as in `renormE` (log entry 12). -/
def renormD : Nat → Cmd Unit
  | 0 => pure ()
  | n + 1 => do
      renormDStep
      if (← see (·.seg.a.msb)) then pure () else renormD n

/-- The LPS sub-interval of DECODE (R185, LPS_EXCHANGE): the decision it returns. -/
def decodeLps (cx : Label) (e : CtxEntry) (q : BitVec 16) : Cmd Bool := do
  let mps ← see (fun s => decide (s.seg.a < q))
  updSeg fun r => { r with a := q }
  setCtx cx (if mps then e.afterMps else e.afterLps)
  renormD 16
  pure (if mps then e.mps else !e.mps)

/-- The MPS sub-interval of DECODE (R185, MPS_EXCHANGE): the decision it returns. -/
def decodeMps (cx : Label) (e : CtxEntry) (q : BitVec 16) : Cmd Bool := do
  updSeg fun r => { r with c := r.c - (q.zeroExtend 32 <<< 16) }
  let a ← see (·.seg.a)
  if a.msb then pure e.mps
  else do
    setCtx cx (if a < q then e.afterLps else e.afterMps)
    renormD 16
    pure (if a < q then !e.mps else e.mps)

/-- DECODE(cx) (R185). -/
def mqDecode (cx : Label) : Cmd Bool := do
  let e ← see (·.ctx[cx])
  let q := (mqRow e.index).qe
  updSeg fun r => { r with a := r.a - q }
  if (← see (·.seg.c.extractLsb' 16 16)) < q then decodeLps cx e q else decodeMps cx e q

/-! ### Commands -/

/-- The context a command's CX field names, 0 to 18 (30_encoding.md R103). -/
def labelOf (cx : BitVec 5) : Label := Fin.ofNat 19 cx.toNat

/-- NBYTES ← MQ_BP; CMODE ← IDLE: the end of every encoder termination command (10_state.md R33, R44). -/
def endSegment : Cmd Unit := do
  setNbytes (← see (·.seg.bp))
  setMode .idle

/-- MQ.INITENC (R190). -/
def execMqInitenc (s : State) : Host.Outcome State Fault Refusal :=
  runCmd (do latchSegbase; mqInitEnc; setMode .mqe) s

/-- MQ.ENCODE cx, d (R191). -/
def execMqEncode (cx : BitVec 5) (d : Bool) (s : State) : Host.Outcome State Fault Refusal :=
  runCmd (do checkFields (.mqEncode cx d); needMode .mqe; mqEncode (labelOf cx) d) s

/-- MQ.FLUSH (R192). -/
def execMqFlush (s : State) : Host.Outcome State Fault Refusal :=
  runCmd (do needMode .mqe; mqFlush; endSegment) s

/-- MQ.ERTERM (R193). -/
def execMqErterm (s : State) : Host.Outcome State Fault Refusal :=
  runCmd (do needMode .mqe; mqErterm; endSegment) s

/-- MQ.INITDEC (R194). -/
def execMqInitdec (s : State) : Host.Outcome State Fault Refusal :=
  runCmd (do checkSegment; latchCfgSegment; mqInitDec; setMode .mqd) s

/-- MQ.DECODE cx (R195). -/
def execMqDecode (cx : BitVec 5) (s : State) : Host.Outcome State Fault Refusal :=
  runCmd (do checkFields (.mqDecode cx); needMode .mqd; setResult (zextBit (← mqDecode (labelOf cx)))) s

/-- MQ.RESETCTX (R196). -/
def execMqResetctx (s : State) : Host.Outcome State Fault Refusal :=
  runCmd resetContexts s

end Sys2Proof.Machine
end

