-- ==== Sys2Proof/Machine/Raw.lean ====
section
/-!
DEFINITION. The raw (bypass) bit coder (43_raw_bypass.md R210 to R217) and the commands RAW.* (R220 to R224).
-/
namespace Sys2Proof.Machine

/-- The effect of RAW.INITENC on the segment registers (R220). -/
def rawInitEnc : Cmd Unit := updSeg fun r => { r with c := 0, ct := 8, b := 0, bp := 0 }

/-- The positions free in an empty byte: 7 after a byte 0xFF (R211), else 8. -/
def freeAfter (b : Byte) : BitVec 4 := if b = 0xFF then 7 else 8

/-- Emit the byte assembled in MQ_C[7:0] and remember it in MQ_B (R212, 45_ht_block_coder.md R284). -/
def emitAssembled : Cmd Unit := do
  let r ← see (·.seg)
  emitByte (r.c.extractLsb' 0 8)
  updSeg fun r => { r with b := r.c.extractLsb' 0 8 }

/-- A complete byte leaves the assembly register (R212, 45_ht_block_coder.md R284): 7 positions are free after 0xFF. -/
def nextByte : Cmd Unit := do
  emitAssembled
  updSeg fun r => { r with ct := freeAfter r.b, c := 0 }

/-- RAWPUT(d) (R212). -/
def rawPut (d : Bool) : Cmd Unit := do
  updSeg fun r => { r with ct := r.ct - 1 }
  updSeg fun r => { r with c := r.c + (zextBit d <<< r.ct.toNat) }
  if (← see (·.seg.ct)) = 0 then nextByte else pure ()

/-- The padding 0, 1, 0, … of R213, from the next free position: n turns are enough for MQ_CT = n. -/
def rawPad : Nat → Bool → Cmd Unit
  | 0, _ => pure ()
  | n + 1, b => do
      updSeg fun r => { r with ct := r.ct - 1 }
      updSeg fun r => { r with c := r.c + (zextBit b <<< r.ct.toNat) }
      rawPad n (!b)

/-- The positions an empty byte has at a termination (R213, 45_ht_block_coder.md R284): 7 when the last byte emitted is 0xFF. -/
def SegRegs.fullCt (r : SegRegs) : BitVec 4 := if 1 ≤ r.bp.toNat ∧ r.b = 0xFF then 7 else 8

/-- RAWFLUSH (R213). -/
def rawFlush : Cmd Unit := do
  let r ← see (·.seg)
  if r.ct < r.fullCt then do
    rawPad r.ct.toNat false
    emitAssembled
    updSeg fun r => { r with ct := 8, c := 0 }
  else pure ()
  dropTrailingFF

/-- RAWINITDEC (R216) on the latched segment. -/
def rawInitDec : Cmd Unit := updSeg fun r => { r with bp := 0, c := 0, ct := 0, fillcnt := 0 }

/-- The byte-in step of RAWGET (R217). -/
def rawByteIn : Cmd Unit := do
  let r ← see (·.seg)
  let (b, f) ← segByte r.bp.toNat
  if r.c.extractLsb' 0 8 = 0xFF then
    if 0x8F < b then updSeg fun r => { r with c := 0xFF, ct := 8 }
    else updSeg fun r => { r with c := b.zeroExtend 32, bp := r.bp + 1, ct := 7 }
  else updSeg fun r => { r with c := b.zeroExtend 32, bp := r.bp + 1, ct := 8 }
  countFill f

/-- The next unread bit of MQ_C: MQ_CT ← MQ_CT − 1; return MQ_C[MQ_CT] (R217, 45_ht_block_coder.md R287). -/
def takeBit : Cmd Bool := do
  updSeg fun r => { r with ct := r.ct - 1 }
  see fun s => s.seg.c.getLsbD s.seg.ct.toNat

/-- RAWGET (R217). -/
def rawGet : Cmd Bool := do
  if (← see (·.seg.ct)) = 0 then rawByteIn else pure ()
  takeBit

/-- RAW.INITENC (R220). -/
def execRawInitenc (s : State) : Host.Outcome State Fault Refusal :=
  runCmd (do latchSegbase; rawInitEnc; setMode .rawe) s

/-- RAW.PUTBIT d (R221). -/
def execRawPutbit (d : Bool) (s : State) : Host.Outcome State Fault Refusal :=
  runCmd (do needMode .rawe; rawPut d) s

/-- RAW.FLUSH (R222). -/
def execRawFlush (s : State) : Host.Outcome State Fault Refusal :=
  runCmd (do needMode .rawe; rawFlush; endSegment) s

/-- RAW.INITDEC (R223). -/
def execRawInitdec (s : State) : Host.Outcome State Fault Refusal :=
  runCmd (do checkSegment; latchCfgSegment; rawInitDec; setMode .rawd) s

/-- RAW.GETBIT (R224). -/
def execRawGetbit (s : State) : Host.Outcome State Fault Refusal :=
  runCmd (do needMode .rawd; setResult (zextBit (← rawGet))) s

end Sys2Proof.Machine
end

