-- ==== Sys2Proof/Machine/BitPlane.lean ====
section
/-!
DEFINITION. The bit-plane coder (44_bitplane_coder.md): the scan R230, the decisions R232 to R236, the passes R237 to R254 and the
commands BPC.* (R240 to R250).
-/
namespace Sys2Proof.Machine

/-- What one pass is run with (R240): its geometry, bit-plane, direction, coder, and whether a cleanup pass ends with a
segmentation symbol (R254). -/
structure PassArgs where
  g : Geometry
  plane : Nat
  dir : Dir
  raw : Bool
  segmark : Bool
deriving DecidableEq, Repr

/-! ### Scan -/

/-- The stripes' first rows 0, 4, 8, … below h (R230). -/
def stripeTops (h : Nat) : List Nat := (List.range ((h + 3) / 4)).map (4 * ·)

/-- The rows of the stripe that starts at y0: at most 4 (R230). -/
def stripeRows (h y0 : Nat) : List Nat := (List.range (min 4 (h - y0))).map (y0 + ·)

/-- The columns (x, y0) in scan order: stripe by stripe, x from 0 (R230, R239). -/
def scanColumns (g : Geometry) : List (Nat × Nat) :=
  (stripeTops g.h).flatMap fun y0 => (List.range g.w).map fun x => (x, y0)

/-- SCAN (R230): the coefficients in the order a pass visits them. -/
def scan (g : Geometry) : List (Nat × Nat) :=
  (scanColumns g).flatMap fun c => (stripeRows g.h c.2).map fun y => (c.1, y)

/-! ### Decisions -/

/-- bit(q, p) = floor(|q| / 2^p) mod 2 of a signed 32-bit coefficient (R232). -/
def magBitOf (q : Word) (p : Nat) : Bool := q.toInt.natAbs.testBit p

/-- bit(COEF[i], p), read from memory (R232). -/
def coefBit (i p : Nat) : Cmd Bool := do
  pure (magBitOf (← memReadWord (coefAddr i)) p)

/-- sign(COEF[i]): 1 when negative (R232). -/
def coefSign (i : Nat) : Cmd Bool := do
  pure (← memReadWord (coefAddr i)).msb

/-- CODE(cx, e) (R233). The encoder's decision e is computed only when encoding. -/
def code (pa : PassArgs) (cx : Label) (e : Cmd Bool) : Cmd Bool :=
  match pa.dir with
  | .enc => do
      let d ← e
      if pa.raw then rawPut d else mqEncode cx d
      pure d
  | .dec => if pa.raw then rawGet else mqDecode cx

/-- MAG[i][p] ← 1 (R235). -/
def setMagBit (i p : Nat) : Cmd Unit :=
  updArr fun r => { r with mag := magSet r.mag i (magGet r.mag i ||| (1#31 <<< p)) }

/-- MAG[i][p] ← 1 when decoding; encoding does not write MAG (R235, R239, 10_state.md R50). -/
def markMagBit (pa : PassArgs) (i : Nat) : Cmd Unit :=
  if pa.dir = .dec then setMagBit i pa.plane else pure ()

/-- MAGBIT(i, p, cx) (R235). -/
def magBit (pa : PassArgs) (i : Nat) (cx : Label) : Cmd Bool := do
  let d ← code pa cx (coefBit i pa.plane)
  if d then markMagBit pa i else pure ()
  pure d

/-- The last two lines of SIGNSTEP (R236): SIGN[i] ← s; SIG[i] ← 1. -/
def setSign (i : Nat) (neg : Bool) : Cmd Unit :=
  updArr fun r => { r with sgn := bitPut r.sgn i neg, sig := bitSet r.sig i }

/-- SIGNSTEP(x, y, raw) (R236): raw codes the sign itself, otherwise its xor with the prediction. -/
def signStep (pa : PassArgs) (x y : Nat) : Cmd Unit := do
  let i := coefIndex pa.g x y
  if pa.raw then setSign i (← code pa 0 (coefSign i))
  else do
    let (cx, xb) ← see fun s => scAt pa.g s.arr x y
    let d ← code pa cx (do pure ((← coefSign i) ^^ xb))
    setSign i (d ^^ xb)

/-! ### Significance propagation (R237) -/

/-- VISITED[i] ← 1 (R237). -/
def setVisited (i : Nat) : Cmd Unit := updArr fun r => { r with visited := bitSet r.visited i }

/-- SPP at one coefficient (R237). -/
def sppVisit (pa : PassArgs) (xy : Nat × Nat) : Cmd Unit := do
  let i := coefIndex pa.g xy.1 xy.2
  let r ← see (·.arr)
  let c := zcAt pa.g r xy.1 xy.2
  if r.sig.getLsbD i = false ∧ c ≠ 0 then do
    let d ← magBit pa i c
    setVisited i
    if d then signStep pa xy.1 xy.2 else pure ()
  else pure ()

/-- SPP(p) (R237). -/
def spp (pa : PassArgs) : Cmd Unit := forEach (scan pa.g) (sppVisit pa)

/-! ### Magnitude refinement (R238) -/

/-- REFINED[i] ← 1 (R238). -/
def setRefined (i : Nat) : Cmd Unit := updArr fun r => { r with refined := bitSet r.refined i }

/-- MRP at one coefficient (R238). -/
def mrpVisit (pa : PassArgs) (xy : Nat × Nat) : Cmd Unit := do
  let i := coefIndex pa.g xy.1 xy.2
  let r ← see (·.arr)
  if r.sig.getLsbD i = true ∧ r.visited.getLsbD i = false then do
    let _ ← magBit pa i (mrAt pa.g r xy.1 xy.2)
    setRefined i
  else pure ()

/-- MRP(p) (R238). -/
def mrp (pa : PassArgs) : Cmd Unit := forEach (scan pa.g) (mrpVisit pa)

/-! ### Cleanup (R239) -/

/-- The coefficient (x, y) is neither significant nor visited (R239). -/
def untouched (g : Geometry) (r : Arrays) (x y : Nat) : Bool :=
  !r.sig.getLsbD (coefIndex g x y) && !r.visited.getLsbD (coefIndex g x y)

/-- The column of (x, y0) is coded in run mode (R239): four rows, all untouched, all with ZC label 0. -/
def runMode (g : Geometry) (r : Arrays) (x y0 : Nat) : Bool :=
  (stripeRows g.h y0).length == 4 &&
    (stripeRows g.h y0).all fun y => untouched g r x y && zcAt g r x y == 0

/-- CUP at one coefficient outside run mode (R239). -/
def cupVisit (pa : PassArgs) (x y : Nat) : Cmd Unit := do
  let r ← see (·.arr)
  if untouched pa.g r x y then do
    let d ← magBit pa (coefIndex pa.g x y) (zcAt pa.g r x y)
    if d then signStep pa x y else pure ()
  else pure ()

/-- The bits at plane p of a column's rows, top row first: what the encoder's run decisions are made from (R239). -/
def columnBits (pa : PassArgs) (x : Nat) : List Nat → Cmd (List Bool)
  | [] => pure []
  | y :: rest => do
      let b ← coefBit (coefIndex pa.g x y) pa.plane
      let bs ← columnBits pa x rest
      pure (b :: bs)

/-- The encoder's run: none when the four bits are 0, else the first row offset with bit 1 (R239). Decoding reads no COEF. -/
def columnRun (pa : PassArgs) (x y0 : Nat) : Cmd (Option Nat) :=
  match pa.dir with
  | .enc => do
      pure ((← columnBits pa x (stripeRows pa.g.h y0)).findIdx? id)
  | .dec => pure none

/-- The run position: two UNIFORM decisions, MSB first (R239). -/
def runPosition (pa : PassArgs) (k : Nat) : Cmd Nat := do
  let k1 ← code pa 18 (pure (k / 2 % 2 == 1))
  let k0 ← code pa 18 (pure (k % 2 == 1))
  pure (2 * count k1 + count k0)

/-- A column in run mode (R239): it answers the first row still to be coded one by one, none when the run decision is 0. -/
def runColumn (pa : PassArgs) (x y0 : Nat) : Cmd (Option Nat) := do
  let run ← columnRun pa x y0
  let r ← code pa 17 (pure run.isSome)
  if r then do
    let k ← runPosition pa (run.getD 0)
    markMagBit pa (coefIndex pa.g x (y0 + k))
    signStep pa x (y0 + k)
    pure (some (y0 + k + 1))
  else pure none

/-- CUP at one column (R239). -/
def cupColumn (pa : PassArgs) (c : Nat × Nat) : Cmd Unit := do
  let first ← (do
    if (← see fun s => runMode pa.g s.arr c.1 c.2) then runColumn pa c.1 c.2 else pure (some c.2))
  match first with
  | none => pure ()
  | some y1 => forEach ((stripeRows pa.g.h c.2).filter (y1 ≤ ·)) (cupVisit pa c.1)

/-- CLEARVISITED (R252). -/
def clearVisited : Cmd Unit := updArr fun r => { r with visited := 0 }

/-- SEGMARK (R254, R255). -/
def segMark (pa : PassArgs) : Cmd Unit := do
  let v3 ← code pa 18 (pure true)
  let v2 ← code pa 18 (pure false)
  let v1 ← code pa 18 (pure true)
  let v0 ← code pa 18 (pure false)
  if pa.dir = .dec ∧ ¬ (v3 = true ∧ v2 = false ∧ v1 = true ∧ v0 = false) then setSegmis else pure ()

/-- CUP(p) (R239). -/
def cup (pa : PassArgs) : Cmd Unit := do
  forEach (scanColumns pa.g) (cupColumn pa)
  clearVisited
  if pa.segmark then segMark pa else pure ()

/-! ### Commands -/

/-- The mode a pass needs (R240 step 1). -/
def passMode (dir : Dir) (raw : Bool) : CMode :=
  match dir, raw with
  | .enc, false => .mqe
  | .enc, true => .rawe
  | .dec, false => .mqd
  | .dec, true => .rawd

/-- The arguments of a pass: plane, direction and coder as given, the rest from the CSRs (R240). -/
def Cfg.passArgs (c : Cfg) (plane : Nat) (dir : Dir) (raw : Bool) : PassArgs := ⟨c.geometry, plane, dir, raw, c.segmark⟩

/-- The common checks of a pass command (R240), and its arguments. -/
def passCommand (plane : BitVec 5) (dir : Dir) (raw : Bool) : Cmd PassArgs := do
  needMode (passMode dir raw)
  checkShape
  see (·.cfg.passArgs plane.toNat dir raw)

/-- The effect of BPC.CLEAR (R249). -/
def clearArrays : Cmd Unit := updArr fun _ => clearedArrays

/-- −MAG[i] if SIGN[i] = 1 else MAG[i], as a 32-bit word (R250, 46_coordinator.md R348). -/
def Arrays.value (r : Arrays) (i : Nat) : Word :=
  let m := (magGet r.mag i).zeroExtend 32
  if r.sgn.getLsbD i then -m else m

/-- STORE (R250, 46_coordinator.md R348). -/
def store : Cmd Unit := do
  let c ← see (·.cfg)
  forEach (List.range (c.w * c.h)) fun i => do
    memWriteWord (coefAddr i) (← see (·.arr.value i))

/-- BPC.CLEAR (R249). -/
def execBpcClear (s : State) : Host.Outcome State Fault Refusal :=
  runCmd clearArrays s

/-- BPC.SPP plane, dir, raw (R241). -/
def execBpcSpp (plane : BitVec 5) (dir : Dir) (raw : Bool) (s : State) : Host.Outcome State Fault Refusal :=
  runCmd (do checkFields (.bpcSpp plane dir raw); spp (← passCommand plane dir raw)) s

/-- BPC.MRP plane, dir, raw (R245). -/
def execBpcMrp (plane : BitVec 5) (dir : Dir) (raw : Bool) (s : State) : Host.Outcome State Fault Refusal :=
  runCmd (do checkFields (.bpcMrp plane dir raw); mrp (← passCommand plane dir raw)) s

/-- BPC.CUP plane, dir (R247). -/
def execBpcCup (plane : BitVec 5) (dir : Dir) (s : State) : Host.Outcome State Fault Refusal :=
  runCmd (do checkFields (.bpcCup plane dir); cup (← passCommand plane dir false)) s

/-- BPC.STORE (R250). -/
def execBpcStore (s : State) : Host.Outcome State Fault Refusal :=
  runCmd (do checkShape; store) s

end Sys2Proof.Machine
end

