-- ==== Sys2Proof/Machine/HtCodec.lean ====
section
/-!
DEFINITION. The HT back end the coordinator calls (45_ht_block_coder.md R290 to R300): the implementation's HTCodec, a parameter.
-/
namespace Sys2Proof.Machine

/-- Four bytes of one coefficient: magnitude, with the sign in the top bit. -/
def spareCoefBytes (x : HtCoef) : List Byte :=
  let w : Word := BitVec.ofBool x.neg ++ x.mag
  [w.extractLsb' 0 8, w.extractLsb' 8 8, w.extractLsb' 16 8, w.extractLsb' 24 8]

/-- Read coefficients back until the two bytes of Scup = 2. -/
def spareParse : List Byte → Option (List HtCoef)
  | b0 :: b1 :: b2 :: b3 :: rest =>
      let w : Word := b3 ++ b2 ++ b1 ++ b0
      (spareParse rest).map fun l => ⟨w.extractLsb' 0 31, w.msb⟩ :: l
  | [a, b] => if a = 2 ∧ b = 0 then some [] else none
  | _ => none

/-- What 45_ht_block_coder.md R296 asks of a decode result. -/
def spareShapeOk (w h p z d : Nat) (r : List HtCoef) : Bool :=
  r.length == w * h && r.all fun x =>
    decide (x.mag.toNat < 2 ^ p) && (!(x.mag == 0) || !x.neg) && (!(z == 1 && d == 1) || !x.mag.getLsbD 0)

/-- What the stored codec decodes. -/
def spareDecode (w h p z d : Nat) (cup : List Byte) : HtDecoded :=
  match spareParse cup with
  | some r => if spareShapeOk w h p z d r then .ok r else .malformed
  | none => .malformed

/-- A codec that stores coefficients as they are, with no MEL symbol: the model uses it only to show that codecs with the laws
exist. -/
def spareCodec : HtCodec where
  encode _ _ _ _ q := (q.map htCoefOf).flatMap spareCoefBytes ++ [2, 0]
  decode w h p _ z d cup _ := spareDecode w h p z d cup
  streams _ _ _ _ q := ⟨4 * q.length, 0, 0, 0, 2⟩
  quads _ _ _ _ _ := []
  reading w h p _ z d cup _ :=
    ⟨⟨cup.length - 2, 0, 0, 0, 2⟩, 0, 0, decide (spareDecode w h p z d cup ≠ .malformed), true, []⟩

theorem spareParse_append (l : List HtCoef) : spareParse (l.flatMap spareCoefBytes ++ [2, 0]) = some l := by
  induction l with
  | nil => rfl
  | cons x l ih =>
      have hw : (((BitVec.ofBool x.neg ++ x.mag : Word).extractLsb' 24 8 ++ (BitVec.ofBool x.neg ++ x.mag : Word).extractLsb' 16 8 ++
          (BitVec.ofBool x.neg ++ x.mag : Word).extractLsb' 8 8 ++ (BitVec.ofBool x.neg ++ x.mag : Word).extractLsb' 0 8 : Word))
          = (BitVec.ofBool x.neg ++ x.mag : Word) := by
        generalize (BitVec.ofBool x.neg ++ x.mag : Word) = w
        apply BitVec.eq_of_getLsbD_eq
        intro i hi
        simp only [BitVec.getLsbD_append, BitVec.getLsbD_extractLsb']
        grind
      simp only [List.flatMap_cons, List.append_assoc]
      simp only [spareCoefBytes, List.cons_append, List.nil_append, spareParse]
      rw [ih, hw]
      have h1 : (BitVec.ofBool x.neg ++ x.mag : Word).extractLsb' 0 31 = x.mag := by
        apply BitVec.eq_of_getLsbD_eq
        intro i hi
        simp only [BitVec.getLsbD_append, BitVec.getLsbD_extractLsb']
        grind
      have h2 : (BitVec.ofBool x.neg ++ x.mag : Word).msb = x.neg := by
        rw [BitVec.msb_append]; simp
      simp [h1, h2]

/-- What the stored codec can read ends in the bytes of Scup = 2. -/
theorem spareParse_ends (b : List Byte) (l : List HtCoef) (h : spareParse b = some l) : ∃ b', b = b' ++ [2, 0] := by
  induction b using spareParse.induct generalizing l with
  | case1 b0 b1 b2 b3 rest ih =>
      simp only [spareParse, Option.map_eq_some_iff] at h
      obtain ⟨l', hl, -⟩ := h
      obtain ⟨b', rfl⟩ := ih l' hl
      exact ⟨b0 :: b1 :: b2 :: b3 :: b', rfl⟩
  | case2 a b hab => exact ⟨[], by rw [hab.1, hab.2]; rfl⟩
  | case3 a b hab =>
      rw [spareParse, if_neg hab] at h
      cases h
  | case4 b h1 h2 => simp [spareParse] at h

/-- Scup of a segment that ends so is 2. -/
theorem scup_spare (b : List Byte) : scup (b ++ [2#8, 0#8]) = 2 := by
  simp [scup, List.getD_eq_getElem?_getD]

/-- A result of the stored codec: the coefficients it read, of a legal shape. -/
theorem spareDecode_ok {w h p z d : Nat} {cup : List Byte} {r : List HtCoef} (hr : spareDecode w h p z d cup = .ok r) :
    spareParse cup = some r ∧ spareShapeOk w h p z d r = true := by
  unfold spareDecode at hr
  split at hr
  · split at hr
    · cases hr
      exact ⟨by assumption, by assumption⟩
    · cases hr
  · cases hr

/-- The stored codec decodes what it has encoded. -/
theorem spareShapeOk_map {w h p : Nat} {q : List Int} (hq : HtBlock w h p q) :
    spareShapeOk w h p 0 1 (q.map htCoefOf) = true := by
  obtain ⟨⟨_, _, _, hp1, hp⟩, hlen, hbound⟩ := hq
  have hmag : ∀ a ∈ q, (htCoefOf a).mag.toNat = a.natAbs := by
    intro a ha
    have := hbound a ha
    have h2 : (2 : Nat) ^ p ≤ 2 ^ 31 := Nat.pow_le_pow_right (by decide) hp
    simp only [htCoefOf, BitVec.toNat_ofNat]
    exact Nat.mod_eq_of_lt (by omega)
  simp only [spareShapeOk, List.length_map, hlen, beq_self_eq_true, Bool.true_and, List.all_eq_true]
  intro x hx
  obtain ⟨a, ha, rfl⟩ := List.mem_map.1 hx
  have hb := hbound a ha
  have hm := hmag a ha
  simp only [Bool.and_eq_true, decide_eq_true_eq, Bool.or_eq_true, Bool.not_eq_true']
  refine ⟨⟨by omega, ?_⟩, by simp⟩
  by_cases h0 : a < 0
  · left
    have : (htCoefOf a).mag ≠ 0 := by
      intro h
      rw [h] at hm
      simp at hm
      omega
    simpa using this
  · right
    simp [htCoefOf, h0]

/-- The stored codec obeys the laws of HTCodec. -/
theorem spareCodec_lawful : spareCodec.Lawful where
  shape := by
    intro w h p v z d cup ref r _ hr
    obtain ⟨-, hs⟩ := spareDecode_ok hr
    simp only [spareShapeOk, Bool.and_eq_true, beq_iff_eq, List.all_eq_true, decide_eq_true_eq,
      Bool.or_eq_true, Bool.not_eq_true'] at hs
    refine ⟨hs.1, fun x hx => ?_⟩
    obtain ⟨⟨h1, h2⟩, h3⟩ := hs.2 x hx
    refine ⟨h1, fun h0 => ?_, fun hz hd => ?_⟩
    · simpa [h0] using h2
    · simpa [hz, hd] using h3
  roundtrip := by
    intro w h p v q hq
    simp only [spareCodec, spareDecode]
    rw [spareParse_append]
    simp [spareShapeOk_map hq]
  layout := by
    intro w h p v q _
    simp [spareCodec, ScupLegal, scup_spare]
  converge := by
    intro w h p v q _
    have : ((fun x => (spareCoefBytes x).length) ∘ htCoefOf) = fun _ => 4 := rfl
    refine ⟨⟨?_, ?_⟩, Nat.zero_le _, Nat.zero_le _⟩
    · simp [spareCodec, scup_spare, List.length_flatMap, this, Nat.mul_comm]
    · simp [spareCodec, scup_spare]
  melCoded := by
    intro w h p v q _
    refine ⟨⟨fun _ h => absurd h List.not_mem_nil, List.nodup_nil⟩, ?_⟩
    simp [spareCodec, melBytesOf, melStream, melSequence, melPack]
  malformed := by
    intro w h p v z d cup ref _
    simp [spareCodec]
  accepts := by
    intro w h p v z d cup ref _ hc
    have hok : spareDecode w h p z d cup ≠ .malformed := of_decide_eq_true hc
    cases hd : spareDecode w h p z d cup with
    | malformed => exact absurd hd hok
    | ok r =>
      obtain ⟨b, rfl⟩ := spareParse_ends _ _ (spareDecode_ok hd).1
      simp [spareCodec, ScupLegal, HtStreams.layOut, scup_spare]
  readsStreams := by
    intro w h p v z d cup ref cup' ref' r _ hr ⟨hlen, _, htake, _, hdrop⟩ _ _ _
    simp only [spareCodec] at htake hdrop
    have hcup : cup' = cup := by
      rw [← List.take_append_drop (cup.length - 2) cup, ← htake, ← hdrop, List.take_append_drop]
    exact hcup ▸ hr
  melRead := by
    intro w h p v z d cup ref r _ _
    exact ⟨⟨fun _ h => absurd h List.not_mem_nil, List.nodup_nil⟩, rfl⟩

/-- HTCodec of the implementation (45_ht_block_coder.md R296). Every codec that obeys the laws is a value of the opaque constant
`Config.htCodecChoice`, so nothing but the laws can be proved of this one; the stored codec stands for `none`, so that a value
exists (log entry 4). -/
def htCodec : LawfulHtCodec := Config.htCodecChoice.getD ⟨spareCodec, spareCodec_lawful⟩

end Sys2Proof.Machine
end

