-- ==== Sys2Proof/Machine/Coordinator.lean ====
section
/-!
DEFINITION. The block-level schedule (44_bitplane_coder.md R256 to R264), the code-block coordinator (46_coordinator.md) and the
commands CB.ENCODE and CB.DECODE (R350, R351).
-/
namespace Sys2Proof.Machine

/-! ### Schedule -/

/-- The three coding passes (44_bitplane_coder.md). -/
inductive PassType where
  | spp | mrp | cup
deriving DecidableEq, Repr

/-- NP = 3·P − 2, and 0 when P = 0 (R256). -/
def numPasses (p : Nat) : Nat := 3 * p - 2

/-- The type of pass k (R256). -/
def passType (k : Nat) : PassType :=
  if k = 0 then .cup
  else if (k - 1) % 3 = 0 then .spp
  else if (k - 1) % 3 = 1 then .mrp
  else .cup

/-- The bit-plane of pass k of a block with p bit-planes (R256). -/
def passPlane (p k : Nat) : Nat := if k = 0 then p - 1 else p - 1 - ((k - 1) / 3 + 1)

/-- raw(k): pass k is coded by the raw coder (R261). -/
def passRaw (c : Cfg) (k : Nat) : Bool := c.bypass && decide (10 ≤ k) && !(passType k == .cup)

/-- Pass k terminates its segment (R262). -/
def passTerminates (c : Cfg) (np k : Nat) : Bool :=
  k + 1 == np || c.termall || (c.bypass && decide (9 ≤ k) && !(passType k == .spp))

/-- Run pass k (R256, R261) in a direction. -/
def runPass (dir : Dir) (k : Nat) : Cmd Unit := do
  let c ← see (·.cfg)
  let pa := c.passArgs (passPlane c.p k) dir (passRaw c k)
  match passType k with
  | .spp => spp pa
  | .mrp => mrp pa
  | .cup => cup pa

/-- `if CBSTYLE.RESET = 1: MQ.RESETCTX's effect` (R264). -/
def resetAfterPass : Cmd Unit := do
  if (← see (·.cfg.resetCtx)) then resetContexts else pure ()

/-! ### Validation and start -/

/-- Steps 1 and 2 of the validation (R320): the shape and the reserved style bit. -/
def checkBlock : Cmd Unit := do
  checkShape
  check (← see (·.cfg.styleReserved)) .config

/-- Step 3 (R320): |COEF[i]| < 2^P for every coefficient, read and tested in order (log entry 15). -/
def checkCoefs : Cmd Unit := do
  let c ← see (·.cfg)
  forEach (List.range (c.w * c.h)) fun i => do
    let q ← memReadWord (coefAddr i)
    check (decide (2 ^ c.p ≤ q.toInt.natAbs)) .config

/-- The number of passes NPASS is checked against (R320 step 4; 45_ht_block_coder.md R294 for HT). -/
def Cfg.maxPasses (c : Cfg) : Nat :=
  if c.ht then (if c.p = 0 then 0 else if c.p = 1 then 1 else 3) else numPasses c.p

/-- Steps 4 and 5 (R320): NPASS and the segment's bounds. -/
def checkDecodeArgs : Cmd Unit := do
  let c ← see (·.cfg)
  check (decide (c.maxPasses < c.npass.toNat)) .config
  check c.segOutside .config

/-- Block start (R321). -/
def blockStart : Cmd Unit := do
  clearBlockFlags
  clearArrays
  resetContexts

/-! ### Segments of a block -/

/-- The segments of passes first … np − 1 (44_bitplane_coder.md R262), as pairs (a, b) of their first and last pass: `n` is
the number of passes left, `a` the first pass of the open segment. -/
def segmentsFrom (c : Cfg) (np : Nat) : Nat → Nat → List (Nat × Nat)
  | 0, _ => []
  | n + 1, a =>
      let k := np - (n + 1)
      if passTerminates c np k then (a, k) :: segmentsFrom c np n (k + 1) else segmentsFrom c np n a

/-- The segments of a block (44_bitplane_coder.md R262). -/
def Cfg.segments (c : Cfg) : List (Nat × Nat) := segmentsFrom c (numPasses c.p) (numPasses c.p) 0

/-- A segment a decode uses: its passes a to b and its bytes [from, to) relative to SEGBASE (R331). -/
structure SegUse where
  a : Nat
  b : Nat
  lo : Nat
  hi : Nat
deriving DecidableEq, Repr

/-- A segment end from SEGTAB[k], where 0xFFFFFFFF means L = SEGLEN (R331, R347). -/
def segtabEnd (k : Nat) : Cmd Nat := do
  let v ← memReadWord (segtabAddr k)
  let len ← see (·.cfg.seglen)
  pure (if v = 0xFFFFFFFF then len.toNat else v.toNat)

/-- e_g of a segment whose last pass is b (R331): from SEGTAB when the block can have more than one segment, else L. -/
def segmentEnd (b : Nat) : Cmd Nat := do
  let c ← see (·.cfg)
  if c.termall || c.bypass then segtabEnd b else pure c.seglen.toNat

/-- Step 6 (R320) in Part 1 mode: the ends of the segments, from the one that follows the end `lo`; an end before it is
E_CONFIG. -/
def part1Segments : List (Nat × Nat) → Nat → Cmd (List SegUse)
  | [], _ => pure []
  | (a, b) :: rest, lo => do
      let hi ← segmentEnd b
      check (decide (hi < lo)) .config
      let l ← part1Segments rest hi
      pure (⟨a, b, lo, hi⟩ :: l)

/-- The segments a decode of N passes uses: those with a_g < N (R331). -/
def part1Uses : Cmd (List SegUse) := do
  let c ← see (·.cfg)
  part1Segments (c.segments.filter fun ab => ab.1 < c.npass.toNat) 0

/-- The ends e0 and e1 of an HT decode (R347): e0 read when N ≥ 1, e1 when N ≥ 2; e1 < e0 is E_CONFIG (R320 step 6). -/
def htEnds : Cmd (Nat × Nat) := do
  let n ← see (·.cfg.npass.toNat)
  if n = 0 then pure (0, 0)
  else do
    let e0 ← segtabEnd 0
    if n = 1 then pure (e0, e0)
    else do
      let e1 ← segtabEnd (n - 1)
      check (decide (e1 < e0)) .config
      pure (e0, e1)

/-! ### Encoding -/

/-- Start a segment at BYTE offset SEGBASE + total (R325, R328). -/
def openSegment (raw : Bool) (total : Word) : Cmd Unit := do
  latchStart ((← see (·.cfg.segbase)) + total)
  if raw then do
    rawInitEnc
    setMode .rawe
  else do
    mqInitEnc
    setMode .mqe

/-- Terminate a segment (44_bitplane_coder.md R263). -/
def closeSegment (raw : Bool) : Cmd Unit := do
  if raw then rawFlush
  else if (← see (·.cfg.predictable)) then mqErterm
  else mqFlush

/-- The passes of PART1_ENCODE (R328), n of them still to run: `total` bytes are in closed segments, `isOpen` says whether a
segment is open. It answers the total. -/
def encodePasses (np : Nat) : Nat → Word → Bool → Cmd Word
  | 0, total, _ => pure total
  | n + 1, total, isOpen => do
      let k := np - (n + 1)
      let c ← see (·.cfg)
      if isOpen then pure () else openSegment (passRaw c k) total
      runPass .enc k
      resetAfterPass
      if passTerminates c np k then do
        closeSegment (passRaw c k)
        let total' := total + (← see (·.seg.bp))
        memWriteWord (segtabAddr k) total'
        encodePasses np n total' false
      else do
        memWriteWord (segtabAddr k) 0xFFFFFFFF
        encodePasses np n total true

/-- The last line of the encode and decode procedures' outputs: NBYTES, NPASSOUT, CMODE ← IDLE (R328, R329). -/
def endEncode (nbytes : Word) (passes : Nat) : Cmd Unit := do
  setNbytes nbytes
  setNpassout passes
  setMode .idle

/-- PART1_ENCODE (R328). -/
def part1Encode : Cmd Unit := do
  let c ← see (·.cfg)
  if c.p = 0 then do
    latchSegbase
    mqInitEnc
    mqFlush
    endEncode (← see (·.seg.bp)) 0
  else do
    let total ← encodePasses (numPasses c.p) (numPasses c.p) 0 false
    endEncode total (numPasses c.p)

/-- COEF[i], COEF[i + 1], … (R329), n of them, as integers. -/
def readCoefs : Nat → Nat → Cmd (List Int)
  | 0, _ => pure []
  | n + 1, i => do
      let q ← memReadWord (coefAddr i)
      let l ← readCoefs n (i + 1)
      pure (q.toInt :: l)

/-- HT_ENCODE (R329). -/
def htEncode : Cmd Unit := do
  let c ← see (·.cfg)
  if c.p = 0 then endEncode 0 0
  else do
    let q ← readCoefs (c.w * c.h) 0
    let b := htCodec.codec.encode c.w c.h c.p c.vcausal q
    latchSegbase
    updSeg fun r => { r with bp := 0 }
    forEach b emitByte
    memWriteWord (segtabAddr 0) (BitVec.ofNat 32 b.length)
    endEncode (BitVec.ofNat 32 b.length) 1

/-- CB.ENCODE (R350). -/
def execCbEncode (s : State) : Host.Outcome State Fault Refusal :=
  runCmd (do
    checkBlock
    checkCoefs
    blockStart
    if (← see (·.cfg.ht)) then htEncode else part1Encode) s

/-! ### Decoding -/

/-- The passes k, k + 1, … of one segment, n of them (R346): the number of passes done, and whether fill truncation stopped
them (R341). -/
def decodePasses : Nat → Nat → Nat → Cmd (Nat × Bool)
  | 0, _, done => pure (done, false)
  | n + 1, k, _ => do
      runPass .dec k
      resetAfterPass
      if Config.truncFillLimit < (← see (·.seg.fillcnt.toNat)) then pure (k + 1, true)
      else decodePasses n (k + 1) (k + 1)

/-- Start the decoder of a segment (R346). -/
def openDecoder (u : SegUse) : Cmd Unit := do
  let c ← see (·.cfg)
  latchBounds (c.segbase + BitVec.ofNat 32 u.lo) (c.segbase + BitVec.ofNat 32 u.hi)
  if passRaw c u.a then do
    rawInitDec
    setMode .rawd
  else do
    mqInitDec
    setMode .mqd

/-- The segments of PART1_DECODE in order (R346), `done` passes decoded so far: the passes done, and whether the input is
truncated (R341). -/
def decodeSegments : List SegUse → Nat → Cmd (Nat × Bool)
  | [], done => pure (done, false)
  | u :: rest, done => do
      let c ← see (·.cfg)
      if c.seglen.toNat < u.hi then pure (done, true)
      else do
        openDecoder u
        let (done', trunc) ← decodePasses (min (u.b + 1) c.npass.toNat - u.a) u.a done
        if trunc then pure (done', true) else decodeSegments rest done'

/-- The end of a decode (R345 to R348): STORE, NPASSOUT, CMODE ← IDLE, then the flags and E_TRUNCATED of R345. `short` says
that fewer passes were asked for than the block has. -/
def endDecode (done : Nat) (trunc short : Bool) : Cmd Unit := do
  store
  setNpassout done
  setMode .idle
  if trunc then do
    setTrunc
    if (← see (·.cfg.tolerate)) then setPartial else raise .truncated
  else if short then setPartial
  else pure ()

/-- PART1_DECODE (R346) on the segments of the validation. -/
def part1Decode (uses : List SegUse) : Cmd Unit := do
  let (done, trunc) ← decodeSegments uses 0
  let c ← see (·.cfg)
  endDecode done trunc (decide (c.npass.toNat < numPasses c.p))

/-- BYTE[j], BYTE[j + 1], … (R347), n of them. -/
def readBytes : Nat → Nat → Cmd (List Byte)
  | 0, _ => pure []
  | n + 1, j => do
      let b ← memReadByte (byteAddr j)
      let l ← readBytes n (j + 1)
      pure (b :: l)

/-- (MAG, SIGN) ← r; SIG[i] ← (MAG[i] ≠ 0) (R347), from index i on. -/
def storeHt : List HtCoef → Nat → Cmd Unit
  | [], _ => pure ()
  | x :: rest, i => do
      updArr fun r => { r with
        mag := magSet r.mag i x.mag
        sgn := bitPut r.sgn i x.neg
        sig := bitPut r.sig i (!(x.mag == 0)) }
      storeHt rest (i + 1)

/-- `done` and `trunc` of HT_DECODE (R347) for N passes, the ends e0 and e1, and L. -/
def htDone (n e0 e1 len : Nat) : Nat × Bool :=
  if n = 0 then (0, false)
  else if len < e0 then (0, true)
  else if n = 1 then (1, false)
  else if len < e1 then (1, true)
  else (n, false)

/-- The call of HTCodec.decode in HT_DECODE (R347), for `done` ≥ 1 passes. -/
def htDecodeBlock (e0 e1 done : Nat) : Cmd Unit := do
  let c ← see (·.cfg)
  let cup ← readBytes e0 c.segbase.toNat
  let refn ← if 2 ≤ done then readBytes (e1 - e0) (c.segbase.toNat + e0) else pure []
  match htCodec.codec.decode c.w c.h c.p c.vcausal (if c.npass.toNat = 1 then 0 else 1) done cup refn with
  | .malformed => raise .htMalformed
  | .ok r => storeHt r 0

/-- HT_DECODE (R347) with the ends of the validation. -/
def htDecode (ends : Nat × Nat) : Cmd Unit := do
  let c ← see (·.cfg)
  let (done, trunc) := htDone c.npass.toNat ends.1 ends.2 c.seglen.toNat
  if 1 ≤ done then htDecodeBlock ends.1 ends.2 done else pure ()
  endDecode done trunc (decide (c.npass.toNat = 0) && decide (0 < c.p))

/-- CB.DECODE (R351). -/
def execCbDecode (s : State) : Host.Outcome State Fault Refusal :=
  runCmd (do
    checkBlock
    checkDecodeArgs
    if (← see (·.cfg.ht)) then do
      let ends ← htEnds
      blockStart
      htDecode ends
    else do
      let uses ← part1Uses
      blockStart
      part1Decode uses) s

end Sys2Proof.Machine
end

