-- ==== Sys2Proof/Machine/HostBus.lean ====
section
/-!
DEFINITION. The host's accesses (20_memory.md R70, R71, R79; 10_state.md R21 to R43): what a read of each location returns and what a
write of each location does, and the protocol while BUSY (70_reset_and_hazards.md R406).
-/
namespace Sys2Proof.Machine

/-- ID (10_state.md R21): the constant "J2T1". -/
def idValue : Word := 0x4A325431

/-- The word of a context register (10_state.md R40): INDEX in bits 5:0, MPS in bit 8. -/
def CtxEntry.word (e : CtxEntry) : Word :=
  (0#23 : BitVec 23) ++ BitVec.ofBool e.mps ++ (0#2 : BitVec 2) ++ BitVec.ofNat 6 e.index.val

/-- A host write of w to CTX[cx] (10_state.md R40): ignored as a whole when its INDEX exceeds 46. -/
def writeCtx (cx : Label) (w : Word) (s : State) : State :=
  if h : (w.extractLsb' 0 6).toNat < 47 then
    { s with ctx := s.ctx.set cx ⟨⟨(w.extractLsb' 0 6).toNat, h⟩, w.getLsbD 8⟩ }
  else s

/-- MEL_RUN (10_state.md R43): the run in bits 15:0, ONEPEND in bit 16. -/
def SegRegs.melRunWord (r : SegRegs) : Word := (0#15 : BitVec 15) ++ BitVec.ofBool r.onePend ++ r.melRun

/-- Word i of the STATE_FLAGS window (20_memory.md R75). -/
def Arrays.flagsWord (r : Arrays) (i : Nat) : Word :=
  (0#28 : BitVec 28) ++ BitVec.ofBool (r.refined.getLsbD i) ++ BitVec.ofBool (r.visited.getLsbD i) ++
    BitVec.ofBool (r.sgn.getLsbD i) ++ BitVec.ofBool (r.sig.getLsbD i)

/-- Word i of the STATE_MAG window (20_memory.md R75). -/
def Arrays.magWord (r : Arrays) (i : Nat) : Word := (magGet r.mag i).zeroExtend 32

/-- A CSR as the host reads it (10_state.md, the table before R21); none at an offset that is no CSR (R79). -/
def csrRead (s : State) (a : Nat) : Option Word :=
  match a with
  | 0x000 => some idValue
  | 0x004 => some 0
  | 0x008 => some s.status.word
  | 0x00C => some s.cfg.dim
  | 0x010 => some s.cfg.code
  | 0x014 => some (s.cfg.npass.zeroExtend 32)
  | 0x018 => some s.cfg.segbase
  | 0x01C => some s.cfg.seglen
  | 0x020 => some s.out.result
  | 0x024 => some s.out.nbytes
  | 0x028 => some (s.out.npassout.zeroExtend 32)
  | 0x02C => some (s.seg.a.zeroExtend 32)
  | 0x030 => some s.seg.c
  | 0x034 => some (s.seg.ct.zeroExtend 32)
  | 0x038 => some s.seg.bp
  | 0x03C => some s.seg.fillcnt
  | 0x08C => some (BitVec.ofNat 32 s.seg.melK.val)
  | 0x090 => some s.seg.melRunWord
  | 0x094 => some (s.seg.b.zeroExtend 32)
  | a => if h : 0x040 ≤ a ∧ a ≤ 0x088 ∧ a % 4 = 0 then some (s.ctx[(a - 0x040) / 4]'(by omega)).word else none

/-- The start of the STATE_FLAGS window (20_memory.md R70). -/
def flagsBase : Nat := 0x08000
/-- The start of the STATE_MAG window (20_memory.md R70). -/
def magBase : Nat := 0x0C000

/-- An aligned address of the three memories (20_memory.md R70): SEGTAB, COEF or BYTE. -/
def isMemory (a : Nat) : Bool :=
  (decide (0x1000 ≤ a) && decide (a < 0x1200)) || (decide (0x4000 ≤ a) && decide (a < 0x8000)) ||
    (decide (0x10000 ≤ a) && decide (a < 0x10000 + Config.byteCap))

/-- What a host read of the aligned word at a returns (20_memory.md R70 to R75), or the fault it is (R79, R87). -/
def hostReadWord (s : State) (a : Nat) : Except Fault Word :=
  if isMemory a then
    match s.mem.getWord a with
    | some v => .ok v
    | none => .error .hostReadUnwritten
  else if flagsBase ≤ a ∧ a < magBase then .ok (s.arr.flagsWord ((a - flagsBase) / 4))
  else if magBase ≤ a ∧ a < 0x10000 then .ok (s.arr.magWord ((a - magBase) / 4))
  else
    match csrRead s a with
    | some v => .ok v
    | none => .error .hostBadAccess

/-- A host write to CMD (10_state.md R23, 60_exceptions.md R366): accepted when ERR = 0, which sets BUSY; ignored when ERR = 1. -/
def writeCmd (w : Word) (s : State) : State :=
  if s.status.err.isSome then s else { s with status := { s.status with inflight := some w } }

/-- A host write of w to the CSR at offset a (10_state.md, the table before R21); none at an offset that is no CSR. A write to
a read-only register is ignored. -/
def csrWrite (w : Word) (s : State) (a : Nat) : Option State :=
  match a with
  | 0x000 => some s
  | 0x004 => some (writeCmd w s)
  | 0x008 => some (writeStatus w s)
  | 0x00C => some { s with cfg := { s.cfg with dim := w } }
  | 0x010 => some { s with cfg := { s.cfg with code := w &&& cfgCodeMask } }
  | 0x014 => some { s with cfg := { s.cfg with npass := w.extractLsb' 0 8 } }
  | 0x018 => some { s with cfg := { s.cfg with segbase := w } }
  | 0x01C => some { s with cfg := { s.cfg with seglen := w } }
  | 0x020 => some s
  | 0x024 => some s
  | 0x028 => some s
  | 0x02C => some s
  | 0x030 => some s
  | 0x034 => some s
  | 0x038 => some s
  | 0x03C => some s
  | 0x08C => some s
  | 0x090 => some s
  | 0x094 => some s
  | a => if h : 0x040 ≤ a ∧ a ≤ 0x088 ∧ a % 4 = 0 then some (writeCtx ⟨(a - 0x040) / 4, by omega⟩ w s) else none

/-- A host write of w to the aligned word at a (20_memory.md R70 to R75): the windows ignore it (R75). -/
def hostWriteWord (s : State) (a : Nat) (w : Word) : Except Fault State :=
  if isMemory a then .ok { s with mem := s.mem.setWord a w }
  else if flagsBase ≤ a ∧ a < 0x10000 then .ok s
  else
    match csrWrite w s a with
    | some t => .ok t
    | none => .error .hostBadAccess

/-- Every host access is of 32 bits at a 4-byte-aligned address (20_memory.md R71, R79). -/
def wholeWord (addr : Word) (bytes : Nat) : Bool := bytes == 4 && addr.toNat % 4 == 0

/-- A host read (20_memory.md R71): while BUSY only STATUS and ID may be read (70_reset_and_hazards.md R406). It changes nothing
of the engine (20_memory.md R87); the word read is what the host gets. -/
def hostRead (addr : Word) (bytes : Nat) (s : State) : Host.Outcome State Fault Refusal :=
  if !wholeWord addr bytes then .fault .hostBadAccess
  else if s.status.busy && !(addr == 0x008) && !(addr == 0x000) then .fault .hostWhileBusy
  else
    match hostReadWord s addr.toNat with
    | .ok v => .next { s with bus := { s.bus with data := some v } }
    | .error f => .fault f

/-- A host write (20_memory.md R71): none may be made while BUSY (70_reset_and_hazards.md R406). -/
def hostWrite (addr : Word) (bytes : Nat) (w : Word) (s : State) : Host.Outcome State Fault Refusal :=
  if !wholeWord addr bytes then .fault .hostBadAccess
  else if s.status.busy then .fault .hostWhileBusy
  else
    match hostWriteWord s addr.toNat w with
    | .ok t => .next t
    | .error f => .fault f

/-- The reset input (70_reset_and_hazards.md R390): the state after reset, whatever command was in flight (log entry 13). -/
def hardReset (s : State) : State := { State.reset with bus := { pending := s.bus.pending, data := none } }

end Sys2Proof.Machine
end

