-- ==== Sys2Proof/Machine/Mel.lean ====
section
/-!
DEFINITION. The MEL run coder (45_ht_block_coder.md R280 to R287) and the commands MEL.* (R310 to R314).
-/
namespace Sys2Proof.Machine

/-- MELINITENC (R284). The whole register MEL_RUN is cleared (log entry 14). -/
def melInitEnc : Cmd Unit :=
  updSeg fun r => { r with melK := 0, melRun := 0, onePend := false, c := 0, ct := 8, b := 0, bp := 0 }

/-- MELBIT(v) (R284). -/
def melBit (v : Bool) : Cmd Unit := do
  updSeg fun r => { r with c := 2 * r.c + zextBit v, ct := r.ct - 1 }
  if (← see (·.seg.ct)) = 0 then nextByte else pure ()

/-- MELBIT(run[t]) for t from n − 1 down to 0: the run length, MSB first (R284). -/
def melRunBits (run : BitVec 16) : Nat → Cmd Unit
  | 0 => pure ()
  | n + 1 => do
      melBit (run.getLsbD n)
      melRunBits run n

/-- MELPUT(0) (R284): a complete run is a hit. -/
def melPutZero : Cmd Unit := do
  updSeg fun r => { r with melRun := r.melRun + 1 }
  let r ← see (·.seg)
  if r.melRun.toNat = melT r.melK then do
    melBit true
    updSeg fun r => { r with melRun := 0, melK := melUp r.melK }
  else pure ()

/-- MELPUT(1) (R284): the run ends. -/
def melPutOne : Cmd Unit := do
  let r ← see (·.seg)
  melBit false
  melRunBits r.melRun (melE r.melK)
  updSeg fun r => { r with melRun := 0, melK := melDown r.melK }

/-- MELPUT(s) (R284). -/
def melPut (sym : Bool) : Cmd Unit := if sym then melPutOne else melPutZero

/-- MELBIT(1) n times (R284). -/
def melOnes : Nat → Cmd Unit
  | 0 => pure ()
  | n + 1 => do
      melBit true
      melOnes n

/-- MELFLUSH (R284): an incomplete run is sent as a hit, a partial byte is padded with 1 bits, a trailing 0xFF stays. -/
def melFlush : Cmd Unit := do
  if (← see (·.seg.melRun)) = 0 then pure ()
  else do
    melBit true
    updSeg fun r => { r with melRun := 0 }
  let r ← see (·.seg)
  if r.ct < r.fullCt then melOnes r.ct.toNat else pure ()

/-- MELINITDEC (R287) on the latched segment. -/
def melInitDec : Cmd Unit :=
  updSeg fun r => { r with melK := 0, melRun := 0, onePend := false, c := 0, ct := 0, bp := 0, fillcnt := 0 }

/-- The byte-in step of MELGETBIT (R287): after 0xFF, bit 7 is a stuffed 0. -/
def melByteIn : Cmd Unit := do
  let r ← see (·.seg)
  let (b, f) ← segByte r.bp.toNat
  updSeg fun r' => { r' with c := b.zeroExtend 32, bp := r'.bp + 1, ct := freeAfter (r.c.extractLsb' 0 8) }
  countFill f

/-- MELGETBIT (R287). -/
def melGetBit : Cmd Bool := do
  if (← see (·.seg.ct)) = 0 then melByteIn else pure ()
  takeBit

/-- r ← 2·r + MELGETBIT, n times (R287). -/
def melReadRun : Nat → Nat → Cmd Nat
  | 0, r => pure r
  | n + 1, r => do
      let b ← melGetBit
      melReadRun n (2 * r + count b)

/-- MELGET once no symbol of an earlier run is left (R287): read a hit or a run length. -/
def melGetNew : Cmd Bool := do
  let k ← see (·.seg.melK)
  if (← melGetBit) then do
    updSeg fun r => { r with melRun := BitVec.ofNat 16 (melT k - 1), melK := melUp k }
    pure false
  else do
    let run ← melReadRun (melE k) 0
    updSeg fun r => { r with melK := melDown k }
    if run = 0 then pure true
    else do
      updSeg fun r => { r with melRun := BitVec.ofNat 16 (run - 1), onePend := true }
      pure false

/-- MELGET (R287). -/
def melGet : Cmd Bool := do
  let r ← see (·.seg)
  if r.melRun ≠ 0 then do
    updSeg fun r => { r with melRun := r.melRun - 1 }
    pure false
  else if r.onePend then do
    updSeg fun r => { r with onePend := false }
    pure true
  else melGetNew

/-- MEL.INITENC (R310). -/
def execMelInitenc (s : State) : Host.Outcome State Fault Refusal :=
  runCmd (do latchSegbase; melInitEnc; setMode .mele) s

/-- MEL.PUT d (R311). -/
def execMelPut (d : Bool) (s : State) : Host.Outcome State Fault Refusal :=
  runCmd (do needMode .mele; melPut d) s

/-- MEL.FLUSH (R312). -/
def execMelFlush (s : State) : Host.Outcome State Fault Refusal :=
  runCmd (do needMode .mele; melFlush; endSegment) s

/-- MEL.INITDEC (R313). -/
def execMelInitdec (s : State) : Host.Outcome State Fault Refusal :=
  runCmd (do checkSegment; latchCfgSegment; melInitDec; setMode .meld) s

/-- MEL.GET (R314). -/
def execMelGet (s : State) : Host.Outcome State Fault Refusal :=
  runCmd (do needMode .meld; setResult (zextBit (← melGet))) s

end Sys2Proof.Machine
end

