-- ==== Sys2Proof/Machine/Dispatch.lean ====
section
/-!
DEFINITION. The meaning of each command: one arm per constructor of Instr, each a direct call of its definition.
-/
namespace Sys2Proof.Machine

/-- One command, run as one step (70_reset_and_hazards.md R405). -/
def exec (i : Instr) (s : State) : Host.Outcome State Fault Refusal :=
  match i with
  | .ctxZc o m => Sys2Proof.Machine.execCtxZc o m s
  | .ctxSc w e n s' => Sys2Proof.Machine.execCtxSc w e n s' s
  | .ctxMr r a => Sys2Proof.Machine.execCtxMr r a s
  | .mqInitenc => Sys2Proof.Machine.execMqInitenc s
  | .mqEncode cx d => Sys2Proof.Machine.execMqEncode cx d s
  | .mqFlush => Sys2Proof.Machine.execMqFlush s
  | .mqErterm => Sys2Proof.Machine.execMqErterm s
  | .mqInitdec => Sys2Proof.Machine.execMqInitdec s
  | .mqDecode cx => Sys2Proof.Machine.execMqDecode cx s
  | .mqResetctx => Sys2Proof.Machine.execMqResetctx s
  | .rawInitenc => Sys2Proof.Machine.execRawInitenc s
  | .rawPutbit d => Sys2Proof.Machine.execRawPutbit d s
  | .rawFlush => Sys2Proof.Machine.execRawFlush s
  | .rawInitdec => Sys2Proof.Machine.execRawInitdec s
  | .rawGetbit => Sys2Proof.Machine.execRawGetbit s
  | .bpcClear => Sys2Proof.Machine.execBpcClear s
  | .bpcSpp p dir raw => Sys2Proof.Machine.execBpcSpp p dir raw s
  | .bpcMrp p dir raw => Sys2Proof.Machine.execBpcMrp p dir raw s
  | .bpcCup p dir => Sys2Proof.Machine.execBpcCup p dir s
  | .bpcStore => Sys2Proof.Machine.execBpcStore s
  | .melInitenc => Sys2Proof.Machine.execMelInitenc s
  | .melPut d => Sys2Proof.Machine.execMelPut d s
  | .melFlush => Sys2Proof.Machine.execMelFlush s
  | .melInitdec => Sys2Proof.Machine.execMelInitdec s
  | .melGet => Sys2Proof.Machine.execMelGet s
  | .cbEncode => Sys2Proof.Machine.execCbEncode s
  | .cbDecode => Sys2Proof.Machine.execCbDecode s

end Sys2Proof.Machine
end

