-- ==== Sys2Proof/Machine/Step.lean ====
section
/-!
DEFINITION. One step of the machine: the host's next bus event, or the engine running the command in flight.
-/
namespace Sys2Proof.Machine

/-- The engine's turn: a command in flight is decoded and run; a word that is no command raises E_ILLEGAL_CMD
(30_encoding.md R101); with BUSY = 0 the engine does nothing (60_exceptions.md R388). -/
def engineStep (s : State) : Host.Outcome State Fault Refusal :=
  match s.status.inflight with
  | none => .next s
  | some w =>
    match decode w with
    | .ok i => exec i s
    | .error _ => .next (s.takeError .illegalCmd)

/-- One step (log entry 1): the first of the host's events still to come, or, when none is left or the host waits, the
engine's turn. -/
def step (s : State) : Host.Outcome State Fault Refusal :=
  match s.bus.pending with
  | [] => engineStep s
  | .wait :: rest => engineStep { s with bus := { s.bus with pending := rest } }
  | .reset :: rest => .next (hardReset { s with bus := { s.bus with pending := rest } })
  | .read a n :: rest => hostRead a n { s with bus := { s.bus with pending := rest } }
  | .write a n w :: rest => hostWrite a n w { s with bus := { s.bus with pending := rest } }

/-- The state s with the command word w accepted (70_reset_and_hazards.md R404: the CMD write sets BUSY) and the host waiting,
so that the next step runs that command. A command is one 32-bit word; the bits above nbits are 0. -/
def State.withFetchWord (s : State) (nbits w : Nat) : State :=
  { s with
    status := { s.status with inflight := some (BitVec.ofNat 32 (w % 2 ^ nbits)) }
    bus := { s.bus with pending := [] } }

end Sys2Proof.Machine
end

