-- ==== Sys2Proof/Machine/System.lean ====
section
/-!
DEFINITION. A system of engines (60_exceptions.md R384): N_ENGINES engines that share nothing; a step of the system is a step of
one of them.
-/
namespace Sys2Proof.Machine

/-- A system has N_ENGINES engines (60_exceptions.md R384, 00_scope.md R9). -/
abbrev SystemWf (sys : List State) : Prop := sys.length = Config.nEngines

/-- Engine k of the system makes one step; a number that is no engine's changes nothing. -/
def systemStep (k : Nat) (sys : List State) : Host.Outcome (List State) Fault Refusal :=
  match sys[k]? with
  | none => .next sys
  | some s =>
    match step s with
    | .next t => .next (sys.set k t)
    | .fault f => .fault f
    | .refused r => .refused r

end Sys2Proof.Machine
end

