-- ==== Sys2Proof/Safety.lean ====
section
/-!
DEFINITION. The terms claims use: what a state must be like for a command to find what it reads, how much room an encoder needs,
and the invariants every step keeps.
-/
namespace Sys2Proof.Machine

/-! ### What a command finds -/

/-- Every byte of the latched segment [S, E) has been written (20_memory.md R80, R87). -/
def SegmentWritten (s : State) : Prop :=
  ∀ j < s.seg.stop.toNat, s.seg.start.toNat ≤ j → (s.mem.getByte (byteAddr j)).isSome = true

/-- Every byte of [SEGBASE, SEGBASE + SEGLEN) has been written. -/
def CfgSegmentWritten (s : State) : Prop :=
  ∀ j < s.cfg.segbase.toNat + s.cfg.seglen.toNat, s.cfg.segbase.toNat ≤ j →
    (s.mem.getByte (byteAddr j)).isSome = true

/-- Every coefficient COEF[0 .. W·H − 1] has been written (20_memory.md R72, R87). -/
def CoefsWritten (s : State) : Prop :=
  ∀ i < s.cfg.w * s.cfg.h, (s.mem.getWord (coefAddr i)).isSome = true

/-- Every coefficient is written and its magnitude is below 2^P (46_coordinator.md R320 step 3). -/
def CoefsLegal (s : State) : Prop :=
  ∀ i < s.cfg.w * s.cfg.h, ∃ q ∈ s.mem.getWord (coefAddr i), q.toInt.natAbs < 2 ^ s.cfg.p

/-- Every SEGTAB entry a block of at most 31 bit-planes can use has been written (20_memory.md R74). -/
def SegtabWritten (s : State) : Prop :=
  ∀ k < 91, (s.mem.getWord (segtabAddr k)).isSome = true

/-- The encoder segment has room for n more bytes (20_memory.md R81). -/
def HasRoom (s : State) (n : Nat) : Prop := s.seg.outOffset + n ≤ Config.byteCap

/-- Bytes one encoding pass can emit at most: 3 for each of its decisions; a full column of 4 rows has at most 10 decisions,
any other coefficient at most 2, and a segmentation symbol 4 (44_bitplane_coder.md R237 to R239, R254). -/
def passRoom (c : Cfg) : Nat := (if c.h < 4 then 6 else 8) * (c.w * c.h) + (if c.segmark then 12 else 0)

/-- Bytes a Part 1 block can take at most: its passes, and 2 for each termination (42_mq_coder.md R171). -/
def blockRoom (c : Cfg) : Nat := numPasses c.p * (passRoom c + 2)

/-- The mode a coding command needs (10_state.md R44, 60_exceptions.md R361 row 0x02, 44_bitplane_coder.md R240). -/
def neededMode : Instr → Option CMode
  | .mqEncode _ _ => some .mqe
  | .mqFlush => some .mqe
  | .mqErterm => some .mqe
  | .mqDecode _ => some .mqd
  | .rawPutbit _ => some .rawe
  | .rawFlush => some .rawe
  | .rawGetbit => some .rawd
  | .bpcSpp _ dir raw => some (passMode dir raw)
  | .bpcMrp _ dir raw => some (passMode dir raw)
  | .bpcCup _ dir => some (passMode dir false)
  | .melPut _ => some .mele
  | .melFlush => some .mele
  | .melGet => some .meld
  | .ctxZc _ _ => none
  | .ctxSc _ _ _ _ => none
  | .ctxMr _ _ => none
  | .mqInitenc => none
  | .mqInitdec => none
  | .mqResetctx => none
  | .rawInitenc => none
  | .rawInitdec => none
  | .bpcClear => none
  | .bpcStore => none
  | .melInitenc => none
  | .melInitdec => none
  | .cbEncode => none
  | .cbDecode => none

/-- The command is one of the three pass commands. -/
def isPass : Instr → Bool
  | .bpcSpp _ _ _ => true
  | .bpcMrp _ _ _ => true
  | .bpcCup _ _ => true
  | _ => false

/-! ### Memory outside a range -/

/-- Every byte whose address is not in [lo, hi) reads in t as in s. -/
def SameOutside (s t : State) (lo hi : Nat) : Prop :=
  ∀ a, ¬ (lo ≤ a ∧ a < hi) → t.mem.getByte a = s.mem.getByte a

/-- Every byte of memory reads in t as in s. -/
def SameMemory (s t : State) : Prop := ∀ a, t.mem.getByte a = s.mem.getByte a

/-! ### Invariants -/

/-- The byte address a lies in SEGTAB, COEF or BYTE (20_memory.md R70). -/
def InMemories (a : Nat) : Prop :=
  (0x1000 ≤ a ∧ a < 0x1200) ∨ (0x4000 ≤ a ∧ a < 0x8000) ∨ (0x10000 ≤ a ∧ a < 0x10000 + Config.byteCap)

/-- Nothing is stored outside the memories (20_memory.md R70, R76). -/
def MemoryMapped (s : State) : Prop := ∀ c ∈ s.mem, InMemories c.1

/-- The coefficient arrays (10_state.md R45 to R50): MAG in its one form, SIGN and MAG are 0 and REFINED is 0 wherever SIG is 0. -/
structure ArraysWf (r : Arrays) : Prop where
  magSorted : sparseSorted r.mag
  magEntries : ∀ e ∈ r.mag, e.1 < 4096 ∧ e.2 ≠ 0
  magSig : ∀ i, magGet r.mag i ≠ 0 → r.sig.getLsbD i = true
  signSig : ∀ i, r.sgn.getLsbD i = true → r.sig.getLsbD i = true
  refinedSig : ∀ i, r.refined.getLsbD i = true → r.sig.getLsbD i = true

/-- Reserved bits of CFG_CODE read 0 (10_state.md R27), and a latched segment ends inside BYTE memory (42_mq_coder.md R194,
46_coordinator.md R320 step 5). -/
structure RegistersWf (s : State) : Prop where
  codeReserved : s.cfg.code &&& ~~~cfgCodeMask = 0
  segmentInside : s.seg.stop.toNat ≤ Config.byteCap

/-- The invariant of the whole engine. -/
structure EngineWf (s : State) : Prop where
  memorySorted : s.mem.wf
  memoryMapped : MemoryMapped s
  arrays : ArraysWf s.arr
  registers : RegistersWf s

/-! ### Terms of single commands -/

/-- The decision DECODE returns in context state e from the registers A and C (42_mq_coder.md R185): below Qe the LPS
sub-interval, else the MPS one, each with its conditional exchange. -/
def decodedDecision (e : CtxEntry) (a : BitVec 16) (c : Word) : Bool :=
  let q := (mqRow e.index).qe
  if c.extractLsb' 16 16 < q then (if a - q < q then e.mps else !e.mps)
  else if (a - q).msb then e.mps
  else if a - q < q then !e.mps else e.mps

/-- Context state e after decision d is coded in an interval whose register holds a (42_mq_coder.md R167): an LPS moves it to NLPS
and flips MPS when SWITCH = 1; an MPS moves it to NMPS only when it renormalises. -/
def ctxAfter (e : CtxEntry) (a : BitVec 16) (d : Bool) : CtxEntry :=
  if d = e.mps then
    (if (a - (mqRow e.index).qe).msb then e else ⟨(mqRow e.index).nmps, e.mps⟩)
  else ⟨(mqRow e.index).nlps, if (mqRow e.index).sw then !e.mps else e.mps⟩

/-- The lowest BYTE offset an encoder can still write (42_mq_coder.md R163): its last byte, which a carry can change, or the
segment's start when it has emitted none. -/
def SegRegs.openOffset (r : SegRegs) : Nat := if r.bp = 0 then r.outOffset else r.outOffset - 1

/-- Byte i of the segment [start, stop) of BYTE memory, or the fill value past its end (20_memory.md R80). -/
def fillByte (m : Memory) (start stop i : Nat) : Byte :=
  if start + i < stop then (m.getByte (byteAddr (start + i))).getD 0 else 0xFF

/-- FILLCNT after a byte-in step (20_memory.md R80, 10_state.md R39). -/
def fillAfter (n : Word) (fill : Bool) : Word := if fill && n != 0xFFFFFFFF then n + 1 else n

/-- The printed table of the LL and LH significance labels (41_context_model.md R134): rows h, v; columns d = 0 to 4. -/
def printedZcLL : List (List (List Nat)) :=
  [[[0, 1, 2, 2, 2], [3, 3, 3, 3, 3], [4, 4, 4, 4, 4]],
   [[5, 6, 6, 6, 6], [7, 7, 7, 7, 7], [7, 7, 7, 7, 7]],
   [[8, 8, 8, 8, 8], [8, 8, 8, 8, 8], [8, 8, 8, 8, 8]]]

/-- The printed table of the HL significance labels (41_context_model.md R135). -/
def printedZcHL : List (List (List Nat)) :=
  [[[0, 1, 2, 2, 2], [5, 6, 6, 6, 6], [8, 8, 8, 8, 8]],
   [[3, 3, 3, 3, 3], [7, 7, 7, 7, 7], [8, 8, 8, 8, 8]],
   [[4, 4, 4, 4, 4], [7, 7, 7, 7, 7], [8, 8, 8, 8, 8]]]

/-- The printed table of the HH significance labels (41_context_model.md R136). -/
def printedZcHH : List (List (List Nat)) :=
  [[[0, 3, 6, 8, 8], [1, 4, 7, 8, 8], [2, 5, 7, 8, 8]],
   [[1, 4, 7, 8, 8], [2, 5, 7, 8, 8], [2, 5, 7, 8, 8]],
   [[2, 5, 7, 8, 8], [2, 5, 7, 8, 8], [2, 5, 7, 8, 8]]]

/-- The printed table of a subband. -/
def printedZc : Orient → List (List (List Nat))
  | .ll => printedZcLL
  | .lh => printedZcLL
  | .hl => printedZcHL
  | .hh => printedZcHH

/-- The printed sign table (41_context_model.md R138): rows Hc = +1, 0, −1; columns Vc = +1, 0, −1; label and xorbit. -/
def printedSc : List (List (Nat × Bool)) :=
  [[(13, false), (12, false), (11, false)], [(10, false), (9, false), (10, true)], [(11, true), (12, true), (13, true)]]

/-- The row or column of the printed sign table a clamped sum of two contributions stands in (41_context_model.md R132). -/
def printedScIndex (a b : Int) : Nat := if 0 < a + b then 0 else if a + b = 0 then 1 else 2

/-- The contribution of a neighbour pair (41_context_model.md R141). -/
def pairContrib (n : SignNbr) : Int := if n.sigf then (if n.neg then -1 else 1) else 0

/-- The neighbour of (x, y) at offset (dx, dy) is significant: inside the block, SIG = 1, and not the row below a stripe's last row in
vertically causal mode (41_context_model.md R131, R133). -/
def sigAt (g : Geometry) (r : Arrays) (x y : Nat) (dx dy : Int) : Bool :=
  decide (0 ≤ x + dx ∧ x + dx < g.w ∧ 0 ≤ y + dy ∧ y + dy < g.h) &&
    !(g.vcausal && decide (y % 4 = 3) && decide (dy = 1)) && r.sig.getLsbD ((y + dy) * g.w + (x + dx)).toNat

/-- Its contribution to the sign label (41_context_model.md R132). -/
def contribAt (g : Geometry) (r : Arrays) (x y : Nat) (dx dy : Int) : Int :=
  if sigAt g r x y dx dy then (if r.sgn.getLsbD ((y + dy) * g.w + (x + dx)).toNat then -1 else 1) else 0

/-- The significant ones among the neighbours at these offsets (41_context_model.md R131). -/
def countAt (g : Geometry) (r : Arrays) (x y : Nat) (l : List (Int × Int)) : Nat := l.countP fun o => sigAt g r x y o.1 o.2

/-- The printed exponents of the MEL coder (45_ht_block_coder.md R280). -/
def printedMelE : List Nat := [0, 0, 0, 1, 1, 1, 2, 2, 2, 3, 3, 4, 5]

/-- T(k) = 2^E[k] (45_ht_block_coder.md R280). -/
def melThreshold (k : Fin 13) : Nat := 2 ^ printedMelE.getD k.val 0

/-- The registers and memory after MELBIT of each of these bits, with room for the bytes (45_ht_block_coder.md R284). -/
def melAppend : List Bool → SegRegs × Memory → SegRegs × Memory
  | [], x => x
  | v :: rest, (r, m) =>
      let c := 2 * r.c + (if v then 1 else 0)
      let b : Byte := c.extractLsb' 0 8
      if r.ct = 1 then
        melAppend rest ({ r with c := 0, ct := if b = 0xFF then 7 else 8, b := b, bp := r.bp + 1 },
          m.setByte (byteAddr r.outOffset) b)
      else melAppend rest ({ r with c := c, ct := r.ct - 1 }, m)

/-- The bit MELGETBIT takes, and the registers after it (45_ht_block_coder.md R287). -/
def melTake (m : Memory) (r : SegRegs) : Bool × SegRegs :=
  let r := if r.ct = 0 then
      { r with
        c := (fillByte m r.start.toNat r.stop.toNat r.bp.toNat).zeroExtend 32
        ct := if r.c.extractLsb' 0 8 = 0xFF then 7 else 8
        bp := r.bp + 1
        fillcnt := fillAfter r.fillcnt (decide (r.stop.toNat ≤ r.start.toNat + r.bp.toNat)) }
    else r
  (r.c.getLsbD (r.ct - 1).toNat, { r with ct := r.ct - 1 })

/-- v followed by n more bits, MSB first, and the registers after them (45_ht_block_coder.md R287). -/
def melTakeMore (m : Memory) : Nat → Nat → SegRegs → Nat × SegRegs
  | 0, v, r => (v, r)
  | n + 1, v, r => melTakeMore m n (2 * v + (melTake m r).1.toNat) (melTake m r).2

/-- Pass k of a block of np passes ends a segment (44_bitplane_coder.md R262); of the passes after the first, those with
k mod 3 = 1 are the SPPs (R256). -/
def endsSegment (c : Cfg) (np k : Nat) : Prop :=
  k + 1 = np ∨ c.termall = true ∨ (c.bypass = true ∧ 9 ≤ k ∧ k % 3 ≠ 1)

/-- Passes a to b of a block of np passes are one segment (44_bitplane_coder.md R262). -/
def IsSegment (c : Cfg) (np a b : Nat) : Prop :=
  a ≤ b ∧ b < np ∧ (a = 0 ∨ endsSegment c np (a - 1)) ∧ endsSegment c np b ∧ ∀ k, a ≤ k → k < b → ¬ endsSegment c np k

/-- The segment end a SEGTAB entry stands for (46_coordinator.md R331, R347): 0xFFFFFFFF means SEGLEN. -/
def tabEnd (s : State) (v : Word) : Nat := if v = 0xFFFFFFFF then s.cfg.seglen.toNat else v.toNat

/-- The segments a decode uses, as their first and last pass (46_coordinator.md R331). -/
def usedSegments (s : State) : List (Nat × Nat) := s.cfg.segments.filter fun ab => ab.1 < s.cfg.npass.toNat

/-- The end of the segment whose last pass is b (46_coordinator.md R331), where its SEGTAB entry has been written. -/
def segEnd (s : State) (b : Nat) : Option Nat :=
  if s.cfg.termall || s.cfg.bypass then
    (s.mem.getWord (segtabAddr b)).map (tabEnd s)
  else some s.cfg.seglen.toNat

/-- The segments a decode uses have their ends written, and no end is smaller than the one before (46_coordinator.md R320
step 6, R331). -/
def SegtabFits (s : State) : Prop :=
  ∃ ends : List Nat,
    (usedSegments s).map (fun ab => segEnd s ab.2) = ends.map some ∧
      ends.Pairwise (· ≤ ·)

/-- What a pass command does to the arrays beyond the frame all passes share (44_bitplane_coder.md R237 to R239, R252). Of the
coefficients of the block, the SPP marks as visited those that were not significant and had a significant neighbour before it,
and every one it makes significant, and none but coefficients that were not significant before it; it changes no REFINED. The
MRP refines exactly those that are significant and not visited, and changes no SIG, SIGN or VISITED. The CUP makes no visited
coefficient significant, leaves none visited and changes no REFINED. -/
def PassArrays (i : Instr) (g : Geometry) (r r' : Arrays) : Prop :=
  match i with
  | .bpcSpp _ _ _ => r'.refined = r.refined ∧
      (∀ j, r.visited.getLsbD j = true → r'.visited.getLsbD j = true) ∧
      (∀ j, r'.sig.getLsbD j = true → r.sig.getLsbD j = false → r'.visited.getLsbD j = true) ∧
      (∀ j, r'.visited.getLsbD j = true → r.visited.getLsbD j = false → j < g.w * g.h ∧ r.sig.getLsbD j = false) ∧
      (∀ x < g.w, ∀ y < g.h, r.sig.getLsbD (y * g.w + x) = false → zcAt g r x y ≠ 0 →
        r'.visited.getLsbD (y * g.w + x) = true)
  | .bpcMrp _ _ _ => r'.sig = r.sig ∧ r'.sgn = r.sgn ∧ r'.visited = r.visited ∧
      (∀ j, r'.refined.getLsbD j =
        (r.refined.getLsbD j || (decide (j < g.w * g.h) && r.sig.getLsbD j && !r.visited.getLsbD j)))
  | .bpcCup _ _ => r'.refined = r.refined ∧ r'.visited = 0 ∧
      (∀ j, r'.sig.getLsbD j = true → r.sig.getLsbD j = false → r.visited.getLsbD j = false)
  | _ => True

/-- bit(COEF[j], p) = 1 (44_bitplane_coder.md R232), for a coefficient that is written. -/
def coefHasBit (m : Memory) (j p : Nat) : Bool :=
  match m.getWord (coefAddr j) with
  | some q => q.toInt.natAbs / 2 ^ p % 2 == 1
  | none => false

/-- Which coefficients of the block an encoding pass makes significant at plane p (44_bitplane_coder.md R237, R239): the SPP those it
newly visits whose bit is 1, the CUP those not visited whose bit is 1. -/
def EncodedSig (i : Instr) (g : Geometry) (m : Memory) (p : Nat) (r r' : Arrays) : Prop :=
  match i with
  | .bpcSpp _ _ _ => ∀ j < g.w * g.h, r.visited.getLsbD j = false → r'.visited.getLsbD j = true →
      r'.sig.getLsbD j = coefHasBit m j p
  | .bpcCup _ _ => ∀ j < g.w * g.h,
      r'.sig.getLsbD j = (r.sig.getLsbD j || (!r.visited.getLsbD j && coefHasBit m j p))
  | _ => True

/-- Elements from n on are left alone (10_state.md R45), but for VISITED, which `PassArrays` bounds: a CUP clears it everywhere
(44_bitplane_coder.md R252). -/
def ArraysBeyond (n : Nat) (r r' : Arrays) : Prop :=
  ∀ j, n ≤ j → r'.sig.getLsbD j = r.sig.getLsbD j ∧ r'.sgn.getLsbD j = r.sgn.getLsbD j ∧
    r'.refined.getLsbD j = r.refined.getLsbD j ∧ magGet r'.mag j = magGet r.mag j

/-- The commands of a list run one after the other. -/
def execAll : List Instr → State → Host.Outcome State Fault Refusal
  | [], s => .next s
  | i :: rest, s =>
    match exec i s with
    | .next t => execAll rest t
    | .fault f => .fault f
    | .refused r => .refused r

/-- RESULT[0] after each of n RAW.GETBIT commands, where all of them end without an error. -/
def rawBits : Nat → State → Option (List Bool)
  | 0, _ => some []
  | n + 1, s =>
    match exec .rawGetbit s with
    | .next t => if t.status.err = s.status.err then (rawBits n t).map (t.out.result.getLsbD 0 :: ·) else none
    | _ => none

/-- RESULT[0] after each of n MEL.GET commands, where all of them end without an error. -/
def melResults : Nat → State → Option (List Bool)
  | 0, _ => some []
  | n + 1, s =>
    match exec .melGet s with
    | .next t => if t.status.err = s.status.err then (melResults n t).map (t.out.result.getLsbD 0 :: ·) else none
    | _ => none

/-- The bytes of [SEGBASE, SEGBASE + SEGLEN), 0 for one that is not written. -/
def cfgSegmentBytes (s : State) : List Byte :=
  (List.range s.cfg.seglen.toNat).map fun j => (s.mem.getByte (byteAddr (s.cfg.segbase.toNat + j))).getD 0

/-- The commands that write RESULT (10_state.md R32). -/
def writesResult : Instr → Bool
  | .ctxZc _ _ => true
  | .ctxSc _ _ _ _ => true
  | .ctxMr _ _ => true
  | .mqDecode _ => true
  | .rawGetbit => true
  | .melGet => true
  | _ => false

/-- The commands that write NBYTES (10_state.md R33). -/
def writesNbytes : Instr → Bool
  | .mqFlush => true
  | .mqErterm => true
  | .rawFlush => true
  | .melFlush => true
  | .cbEncode => true
  | _ => false

/-- The commands that start a block (46_coordinator.md R321). -/
def isBlock : Instr → Bool
  | .cbEncode => true
  | .cbDecode => true
  | _ => false

/-- The commands that can emit bytes (60_exceptions.md R361 row 0x06). -/
def emitsBytes : Instr → Bool
  | .mqEncode _ _ => true
  | .mqFlush => true
  | .mqErterm => true
  | .rawPutbit _ => true
  | .rawFlush => true
  | .melPut _ => true
  | .melFlush => true
  | .bpcSpp _ dir _ => dir == .enc
  | .bpcMrp _ dir _ => dir == .enc
  | .bpcCup _ dir => dir == .enc
  | .cbEncode => true
  | _ => false

end Sys2Proof.Machine
end

