-- ==== Sys2Proof/Reference.lean ====
section
/-!
DEFINITION. What the rules say of the MQ coder, of a coding pass and of a block, as functions a statement compares commands with: the
MQ coder on registers and memory alone, a pass on the arrays and a list of coded decisions, and the command list of a host that
runs a block pass by pass.
-/
namespace Sys2Proof.Machine

/-! ### The MQ coder (42_mq_coder.md) -/

/-- The printed probability table (42_mq_coder.md R160): Qe, NMPS, NLPS and SWITCH of rows 0 to 23, the left half. -/
def printedMqLeft : List (Nat × Nat × Nat × Nat) :=
  [(0x5601, 1, 1, 1), (0x3401, 2, 6, 0), (0x1801, 3, 9, 0), (0x0AC1, 4, 12, 0), (0x0521, 5, 29, 0),
   (0x0221, 38, 33, 0), (0x5601, 7, 6, 1), (0x5401, 8, 14, 0), (0x4801, 9, 14, 0), (0x3801, 10, 14, 0),
   (0x3001, 11, 17, 0), (0x2401, 12, 18, 0), (0x1C01, 13, 20, 0), (0x1601, 29, 21, 0), (0x5601, 15, 14, 1),
   (0x5401, 16, 14, 0), (0x5101, 17, 15, 0), (0x4801, 18, 16, 0), (0x3801, 19, 17, 0), (0x3401, 20, 18, 0),
   (0x3001, 21, 19, 0), (0x2801, 22, 19, 0), (0x2401, 23, 20, 0), (0x2201, 24, 21, 0)]

/-- Rows 24 to 46 of the printed probability table, the right half. -/
def printedMqRight : List (Nat × Nat × Nat × Nat) :=
  [(0x1C01, 25, 22, 0), (0x1801, 26, 23, 0), (0x1601, 27, 24, 0), (0x1401, 28, 25, 0), (0x1201, 29, 26, 0),
   (0x1101, 30, 27, 0), (0x0AC1, 31, 28, 0), (0x09C1, 32, 29, 0), (0x08A1, 33, 30, 0), (0x0521, 34, 31, 0),
   (0x0441, 35, 32, 0), (0x02A1, 36, 33, 0), (0x0221, 37, 34, 0), (0x0141, 38, 35, 0), (0x0111, 39, 36, 0),
   (0x0085, 40, 37, 0), (0x0049, 41, 38, 0), (0x0025, 42, 39, 0), (0x0015, 43, 40, 0), (0x0009, 44, 41, 0),
   (0x0005, 45, 42, 0), (0x0001, 45, 43, 0), (0x5601, 46, 46, 0)]

/-- MQ_B ← v with EmitByte (20_memory.md R81), and the C and CT a byte-out leaves. There is room for the byte. -/
def mqEmit (v : Byte) (c : Word) (ct : BitVec 4) (x : SegRegs × Memory) : SegRegs × Memory :=
  ({ x.1 with b := v, c := c, ct := ct, bp := x.1.bp + 1 }, x.2.setByte (byteAddr x.1.outOffset) v)

/-- A byte of 7 bits of C (42_mq_coder.md R164): C[27:20]. -/
def mqEmit7 (c : Word) (x : SegRegs × Memory) : SegRegs × Memory := mqEmit (c.extractLsb' 20 8) (c &&& 0xFFFFF) 7 x

/-- A byte of 8 bits of C (42_mq_coder.md R164): C[26:19]. -/
def mqEmit8 (c : Word) (x : SegRegs × Memory) : SegRegs × Memory := mqEmit (c.extractLsb' 19 8) (c &&& 0x7FFFF) 8 x

/-- The carry added to the last byte (42_mq_coder.md R163, R164). With no byte emitted, which no run reaches, memory stays
(log entry 11). -/
def mqCarry (x : SegRegs × Memory) : SegRegs × Memory :=
  ({ x.1 with b := x.1.b + 1 }, if x.1.bp = 0 then x.2 else x.2.setByte (byteAddr (x.1.outOffset - 1)) (x.1.b + 1))

/-- BYTEOUT (42_mq_coder.md R164), with room for the byte. -/
def mqByteOut (x : SegRegs × Memory) : SegRegs × Memory :=
  if x.1.b = 0xFF then mqEmit7 x.1.c x
  else if x.1.c < 0x8000000 then mqEmit8 x.1.c x
  else if x.1.b = 0xFE then mqEmit7 (x.1.c &&& 0x7FFFFFF) (mqCarry x)
  else mqEmit8 x.1.c (mqCarry x)

/-- The turns of RENORME and RENORMD (42_mq_coder.md R165, R184): the shifts that bring a 1 to A[15]. -/
def renormTurns (a : BitVec 16) : Nat := 15 - a.toNat.log2

/-- n turns of RENORME (42_mq_coder.md R165). -/
def mqShiftOut : Nat → SegRegs × Memory → SegRegs × Memory
  | 0, x => x
  | n + 1, x =>
      let y := ({ x.1 with a := x.1.a <<< 1, c := (x.1.c <<< 1).extractLsb' 0 28 |>.zeroExtend 32, ct := x.1.ct - 1 }, x.2)
      mqShiftOut n (if x.1.ct = 1 then mqByteOut y else y)

/-- The coder after ENCODE of decision d in context state e (42_mq_coder.md R166), from an A of at least 0x8000: the MPS and the LPS
each take the larger or the smaller part of the interval, by the conditional exchange, and renormalise unless A[15] is still 1
after an MPS. -/
def mqCoded (e : CtxEntry) (d : Bool) (x : SegRegs × Memory) : SegRegs × Memory :=
  let q := (mqRow e.index).qe
  let rest := x.1.a - q
  let upper := { x.1 with a := rest, c := x.1.c + q.zeroExtend 32 }
  if d = e.mps ∧ 0x8000 ≤ rest then (upper, x.2)
  else if (d = e.mps ↔ rest < q) then mqShiftOut (renormTurns q) ({ x.1 with a := q }, x.2)
  else mqShiftOut (renormTurns rest) (upper, x.2)

/-- The end of a segment whose last byte is 0xFF: the byte is dropped (42_mq_coder.md R170). -/
def mqDropFF (x : SegRegs × Memory) : SegRegs × Memory :=
  if 1 ≤ x.1.bp.toNat ∧ x.1.b = 0xFF then ({ x.1 with bp := x.1.bp - 1 }, x.2) else x

/-- All bits of the byte being assembled are pushed out (42_mq_coder.md R169, R175). -/
def mqPush (x : SegRegs × Memory) : SegRegs × Memory :=
  mqByteOut ({ x.1 with c := (x.1.c <<< x.1.ct.toNat).extractLsb' 0 28 |>.zeroExtend 32 }, x.2)

/-- The C with the most trailing 1 bits in the interval (42_mq_coder.md R169, SETBITS). -/
def mqSetBits (r : SegRegs) : Word :=
  if r.c + r.a.zeroExtend 32 ≤ (r.c ||| 0xFFFF) then (r.c ||| 0xFFFF) - 0x8000 else r.c ||| 0xFFFF

/-- The coder after FLUSH (42_mq_coder.md R169). -/
def mqFlushed (x : SegRegs × Memory) : SegRegs × Memory := mqDropFF (mqPush (mqPush ({ x.1 with c := mqSetBits x.1 }, x.2)))

/-- The coder after ERTERM (42_mq_coder.md R175): with 12 − CT > 0 bits to push out a byte, and a second one while bits are left
(log entry 21). -/
def mqErtermed (x : SegRegs × Memory) : SegRegs × Memory :=
  let y := mqPush x
  mqDropFF (if 12 ≤ x.1.ct.toNat then x else if 12 ≤ x.1.ct.toNat + y.1.ct.toNat then y else mqPush y)

/-- The decoder after BYTEIN (42_mq_coder.md R183). -/
def mqByteIn (m : Memory) (r : SegRegs) : SegRegs :=
  let b1 := fillByte m r.start.toNat r.stop.toNat (r.bp.toNat + 1)
  let r := { r with fillcnt := fillAfter r.fillcnt (decide (r.stop.toNat ≤ r.start.toNat + (r.bp.toNat + 1))) }
  if fillByte m r.start.toNat r.stop.toNat r.bp.toNat = 0xFF then
    if 0x8F < b1 then { r with c := r.c + 0xFF00, ct := 8 }
    else { r with bp := r.bp + 1, c := r.c + b1.zeroExtend 32 <<< 9, ct := 7 }
  else { r with bp := r.bp + 1, c := r.c + b1.zeroExtend 32 <<< 8, ct := 8 }

/-- n turns of RENORMD (42_mq_coder.md R184). -/
def mqShiftIn (m : Memory) : Nat → SegRegs → SegRegs
  | 0, r => r
  | n + 1, r =>
      let r := if r.ct = 0 then mqByteIn m r else r
      mqShiftIn m n { r with a := r.a <<< 1, c := r.c <<< 1, ct := r.ct - 1 }

/-- The decoder after DECODE in context state e (42_mq_coder.md R185), from an A of at least 0x8000: the sub-interval of size Qe, or
the rest, which renormalises unless A[15] is still 1. -/
def mqDecoded (e : CtxEntry) (m : Memory) (r : SegRegs) : SegRegs :=
  let q := (mqRow e.index).qe
  let rest := r.a - q
  if r.c.extractLsb' 16 16 < q then mqShiftIn m (renormTurns q) { r with a := q }
  else if 0x8000 ≤ rest then { r with a := rest, c := r.c - q.zeroExtend 32 <<< 16 }
  else mqShiftIn m (renormTurns rest) { r with a := rest, c := r.c - q.zeroExtend 32 <<< 16 }

/-! ### A pass and the decisions it codes (44_bitplane_coder.md) -/

/-- The rows of the stripe that starts at y0 (R230). -/
def rowsOf (g : Geometry) (y0 : Nat) : List Nat := ((List.range 4).map (y0 + ·)).filter (· < g.h)

/-- The columns (x, y0) in the order of the scan (R230, R239). -/
def columnOrder (g : Geometry) : List (Nat × Nat) :=
  (List.range ((g.h + 3) / 4)).flatMap fun k => (List.range g.w).map fun x => (x, 4 * k)

/-- The coefficients in the order of the scan (R230). -/
def scanOrder (g : Geometry) : List (Nat × Nat) := (columnOrder g).flatMap fun c => (rowsOf g c.2).map (c.1, ·)

/-- What a pass is replayed with: the block's geometry, the bit-plane, the coder, and COEF memory when the pass encodes (R232). -/
structure Replay where
  g : Geometry
  plane : Nat
  raw : Bool
  coef : Option Memory

/-- COEF[i], when the pass encodes (R232). -/
def Replay.word (p : Replay) (i : Nat) : Option Word := p.coef.map fun m => (m.getWord (coefAddr i)).getD 0

/-- bit(COEF[i], p) = floor(|q| / 2^p) mod 2, when the pass encodes (R232). -/
def Replay.bit (p : Replay) (i : Nat) : Option Bool := (p.word i).map fun q => q.toInt.natAbs / 2 ^ p.plane % 2 == 1

/-- Where a replay stands: the arrays, and the decisions still to come, each with its label. -/
structure Replayed where
  arr : Arrays
  todo : List (Label × Bool)

/-- The next decision, which must stand in label cx and be the encoder's where there is one (R231, R233). -/
def Replayed.next (x : Replayed) (want : Option Bool) (cx : Label) : Option (Bool × Replayed) :=
  match x.todo with
  | (k, d) :: rest => if k = cx ∧ (want = none ∨ want = some d) then some (d, { x with todo := rest }) else none
  | [] => none

/-- MAG[i][p] ← 1, when the pass decodes (R235). -/
def Replay.mark (p : Replay) (i : Nat) (r : Arrays) : Arrays :=
  if p.coef = none then { r with mag := magSet r.mag i (magGet r.mag i ||| (1#31 <<< p.plane)) } else r

/-- SIGNSTEP (R236): SIGN[i] and SIG[i]. -/
def Replay.sign (p : Replay) (x y : Nat) (z : Replayed) : Option Replayed :=
  let i := y * p.g.w + x
  let label : Label × Bool := if p.raw then (0, false) else scAt p.g z.arr x y
  (z.next ((p.word i).map fun q => q.msb ^^ label.2) label.1).map fun dz =>
    { dz.2 with arr := { dz.2.arr with sgn := bitPut dz.2.arr.sgn i (dz.1 ^^ label.2), sig := bitSet dz.2.arr.sig i } }

/-- The magnitude decision of a coefficient that is not significant, and its sign when the decision is 1 (R235 to R237, R239). -/
def Replay.newCoef (p : Replay) (x y : Nat) (z : Replayed) : Option Replayed := do
  let i := y * p.g.w + x
  let (d, z) ← z.next (p.bit i) (zcAt p.g z.arr x y)
  if d then p.sign x y { z with arr := p.mark i z.arr } else some z

/-- SPP at one coefficient (R237). -/
def Replay.spp (p : Replay) (z : Replayed) (xy : Nat × Nat) : Option Replayed :=
  let i := xy.2 * p.g.w + xy.1
  if z.arr.sig.getLsbD i = false ∧ zcAt p.g z.arr xy.1 xy.2 ≠ 0 then
    (p.newCoef xy.1 xy.2 z).map fun z => { z with arr := { z.arr with visited := bitSet z.arr.visited i } }
  else some z

/-- MRP at one coefficient (R238). -/
def Replay.mrp (p : Replay) (z : Replayed) (xy : Nat × Nat) : Option Replayed := do
  let i := xy.2 * p.g.w + xy.1
  if z.arr.sig.getLsbD i = true ∧ z.arr.visited.getLsbD i = false then
    let (d, z) ← z.next (p.bit i) (mrAt p.g z.arr xy.1 xy.2)
    let r := if d then p.mark i z.arr else z.arr
    some { z with arr := { r with refined := bitSet r.refined i } }
  else some z

/-- The coefficient (x, y) is neither significant nor visited (R239). -/
def Replay.fresh (p : Replay) (x y : Nat) (z : Replayed) : Bool :=
  !z.arr.sig.getLsbD (y * p.g.w + x) && !z.arr.visited.getLsbD (y * p.g.w + x)

/-- CUP at one coefficient outside run mode (R239). -/
def Replay.cupCoef (p : Replay) (x : Nat) (z : Replayed) (y : Nat) : Option Replayed :=
  if p.fresh x y z then p.newCoef x y z else some z

/-- The run decision of a column in run mode, and with 1 the two decisions of its position and the coefficient there (R239): the first
row still to be coded, 4 rows below y0 when there is none. -/
def Replay.run (p : Replay) (x y0 : Nat) (z : Replayed) : Option (Nat × Replayed) := do
  let bits := p.coef.map fun _ => [0, 1, 2, 3].map fun k => (p.bit ((y0 + k) * p.g.w + x)).getD false
  let (r, z) ← z.next (bits.map fun l => l.any id) 17
  if r then
    let (k1, z) ← z.next (bits.map fun l => decide (2 ≤ l.idxOf true)) 18
    let (k0, z) ← z.next (bits.map fun l => l.idxOf true % 2 == 1) 18
    let y := y0 + (2 * k1.toNat + k0.toNat)
    let z ← p.sign x y { z with arr := p.mark (y * p.g.w + x) z.arr }
    some (y + 1, z)
  else some (y0 + 4, z)

/-- CUP at the column of x in the stripe that starts at y0 (R239). -/
def Replay.cup (p : Replay) (z : Replayed) (c : Nat × Nat) : Option Replayed := do
  let rows := rowsOf p.g c.2
  let inRun := rows.length == 4 && rows.all fun y => p.fresh c.1 y z && zcAt p.g z.arr c.1 y == 0
  let (first, z) ← if inRun then p.run c.1 c.2 z else some (c.2, z)
  (rows.filter (first ≤ ·)).foldlM (p.cupCoef c.1) z

/-- The decisions of SEGMARK (R254): 1, 0, 1, 0 in the UNIFORM context when encoding. -/
def Replay.segmark (p : Replay) (z : Replayed) : Option Replayed :=
  [true, false, true, false].foldlM (fun z v => (z.next (p.coef.map fun _ => v) 18).map (·.2)) z

/-- The arrays after the pass of command i whose decisions, in order and each with its label, are l: none when a label or an encoder's
decision is not the one the rules give, or decisions are left over (R237 to R239, R252, R254). -/
def replayPass (i : Instr) (p : Replay) (segmark : Bool) (r : Arrays) (l : List (Label × Bool)) : Option Arrays :=
  let run : Option Replayed := match i with
    | .bpcSpp _ _ _ => (scanOrder p.g).foldlM p.spp ⟨r, l⟩
    | .bpcMrp _ _ _ => (scanOrder p.g).foldlM p.mrp ⟨r, l⟩
    | _ => do
        let z ← (columnOrder p.g).foldlM p.cup ⟨r, l⟩
        let z : Replayed := { z with arr := { z.arr with visited := 0 } }
        if segmark then p.segmark z else some z
  run.bind fun z => if z.todo.isEmpty then some z.arr else none

/-- The commands that code these decisions (R233). -/
def codingCommands (raw : Bool) (l : List (Label × Bool)) : List Instr :=
  l.map fun kd => if raw then .rawPutbit kd.2 else .mqEncode (BitVec.ofNat 5 kd.1.val) kd.2

/-- The state after the commands that decode these decisions (R233), where they answer them without an error. -/
def decodingCommands (raw : Bool) : List (Label × Bool) → State → Option State
  | [], s => some s
  | (k, d) :: rest, s =>
    match exec (if raw then .rawGetbit else .mqDecode (BitVec.ofNat 5 k.val)) s with
    | .next t =>
      if t.status.err = s.status.err ∧ t.out.result = (if d then 1 else 0) then decodingCommands raw rest t else none
    | _ => none

/-! ### A block run pass by pass (44_bitplane_coder.md R266) -/

/-- Pass k of a block (R256, R261) as a command. -/
def passOf (c : Cfg) (dir : Dir) (k : Nat) : Instr :=
  let plane := BitVec.ofNat 5 (c.p - 1 - (k + 2) / 3)
  let raw := c.bypass && decide (10 ≤ k)
  if k % 3 = 1 then .bpcSpp plane dir raw else if k % 3 = 2 then .bpcMrp plane dir raw else .bpcCup plane dir

/-- A segment whose first pass is a is raw (R261, R262): its passes are SPP or MRP from pass 10 on. -/
def rawSegment (c : Cfg) (a : Nat) : Bool := c.bypass && decide (10 ≤ a) && decide (a % 3 ≠ 0)

/-- The n passes from pass a on, each with its MQ.RESETCTX when RESET is set (R264). -/
def passesFrom (c : Cfg) (dir : Dir) (a n : Nat) : List Instr :=
  (List.range n).flatMap fun j => passOf c dir (a + j) :: (if c.resetCtx then [.mqResetctx] else [])

/-- The commands of an encoder segment of passes a to b (R263, R266). -/
def segmentEncode (c : Cfg) (a b : Nat) : List Instr :=
  (if rawSegment c a then Instr.rawInitenc else .mqInitenc) :: passesFrom c .enc a (b + 1 - a) ++
    [if rawSegment c a then .rawFlush else if c.predictable then .mqErterm else .mqFlush]

/-- The host encodes these segments, SEGBASE set to the end of each before the next (R266). -/
def hostEncode : List (Nat × Nat) → State → Option State
  | [], s => some s
  | (a, b) :: rest, s =>
    match execAll (segmentEncode s.cfg a b) s with
    | .next t =>
      if t.status.err = s.status.err then
        hostEncode rest { t with cfg := { t.cfg with segbase := t.cfg.segbase + t.out.nbytes } }
      else none
    | _ => none

/-- The host decodes the first n passes of these segments (R266): s0 holds SEGBASE and the segment ends, and `lo` is where the next
segment starts. -/
def hostDecode (s0 : State) (n : Nat) : List (Nat × Nat) → Nat → State → Option State
  | [], _, s => some s
  | (a, b) :: rest, lo, s =>
    if n ≤ a then some s
    else
      let hi := (segEnd s0 b).getD 0
      let cfg := { s.cfg with segbase := s0.cfg.segbase + BitVec.ofNat 32 lo, seglen := BitVec.ofNat 32 (hi - lo) }
      match execAll ((if rawSegment s.cfg a then Instr.rawInitdec else .mqInitdec) ::
          passesFrom s.cfg .dec a (min (b + 1) n - a)) { s with cfg := cfg } with
      | .next t => if t.status.err = s.status.err then hostDecode s0 n rest hi t else none
      | _ => none

/-- The state a host starts a block in (R266): after BPC.CLEAR and MQ.RESETCTX, SEGMIS being clear. -/
def hostStart (s : State) : Option State :=
  match execAll [.bpcClear, .mqResetctx] { s with status := { s.status with segmis := false } } with
  | .next t => some t
  | _ => none

end Sys2Proof.Machine
end

