-- ==== Sys2Proof/Certificates/Slice0/Obligations.lean ====
section
/-!
DEFINITION. The statements for the provers, in the order of OBLIGATIONS.json: encoding, the host's accesses and reset, the context
model, the MQ coder, the raw coder, the bit-plane coder, the MEL coder, the coordinator, whole-machine rules, invariants.
-/

open Sys2Proof Sys2Proof.Machine

/-! ### Encoding (30_encoding.md) -/

/-- Decode and encode agree: a word decodes to a command exactly when the command is well formed and the word is its encoding. So
the word of every well-formed command decodes to it, with every operand, and no bit of a word is dropped (R100 to R112). -/
def Obligations.DecodeEncodeAgree : Prop :=
  ∀ (w : Word) (i : Instr), decode w = .ok i ↔ i.wellFormed = true ∧ encode i = w

/-- The examples of R113: the words of the commands it lists, and the three words that raise E_ILLEGAL_CMD. -/
def Obligations.EncodingExamples : Prop :=
  decode 0x24100000 = .ok (.mqEncode 0 true) ∧
  decode 0x25300000 = .ok (.mqEncode 9 true) ∧
  decode 0x26400000 = .ok (.mqEncode 18 false) ∧
  decode 0x36400000 = .ok (.mqDecode 18) ∧
  decode 0x04010000 = .ok (.ctxZc .ll 0x01) ∧
  decode 0x07700000 = .ok (.ctxZc .hh 0x70) ∧
  decode 0x08310000 = .ok (.ctxSc ⟨false, true⟩ ⟨false, false⟩ ⟨true, true⟩ ⟨false, false⟩) ∧
  decode 0x0C100000 = .ok (.ctxMr false true) ∧
  decode 0x6C400000 = .ok (.bpcCup 2 .enc) ∧
  decode 0x64380000 = .ok (.bpcSpp 1 .dec true) ∧
  decode 0xC0000000 = .ok .cbEncode ∧
  decode 0xC4000000 = .ok .cbDecode ∧
  ∀ w ∈ [(0x24080000 : Word), 0x26600000, 0x6C480000], ∀ s : State,
    s.bus.pending = [] → s.status.inflight = some w → step s = .next (s.takeError .illegalCmd)

/-- A command whose OPC is unassigned raises E_ILLEGAL_CMD and changes nothing but STATUS (R111). -/
def Obligations.UnassignedOpcodesIllegal : Prop :=
  ∀ (s : State) (w : Word), s.bus.pending = [] → s.status.inflight = some w →
    ((opcOf w).toNat = 0x00 ∨ (0x04 ≤ (opcOf w).toNat ∧ (opcOf w).toNat ≤ 0x07) ∨ (opcOf w).toNat = 0x0F ∨
      (0x15 ≤ (opcOf w).toNat ∧ (opcOf w).toNat ≤ 0x17) ∨ (0x1D ≤ (opcOf w).toNat ∧ (opcOf w).toNat ≤ 0x1F) ∨
      (0x25 ≤ (opcOf w).toNat ∧ (opcOf w).toNat ≤ 0x2F) ∨ (0x32 ≤ (opcOf w).toNat ∧ (opcOf w).toNat ≤ 0x3F)) →
    step s = .next (s.takeError .illegalCmd)

/-- A word that is not the word of a well-formed command, a reserved bit set among them, is not executed: it raises E_ILLEGAL_CMD
(R101, R112), and every register and memory but STATUS stays (60_exceptions.md R362). -/
def Obligations.OtherWordsIllegal : Prop :=
  ∀ (s : State) (w : Word), s.bus.pending = [] → s.status.inflight = some w →
    (∀ i : Instr, i.wellFormed = true → encode i ≠ w) →
    step s = .next (s.takeError .illegalCmd)

/-- A step runs the decoded command: with a command in flight and the host silent or waiting, step is exec of it; only the host's
`wait` event is taken off its list (log entry 1). -/
def Obligations.StepRunsDecoded : Prop :=
  ∀ (s : State) (w : Word) (i : Instr), s.status.inflight = some w → decode w = .ok i →
    (s.bus.pending = [] → step s = exec i s) ∧
    (∀ rest, s.bus.pending = .wait :: rest → step s = exec i { s with bus := { s.bus with pending := rest } })

/-! ### The host's accesses and reset (10_state.md, 20_memory.md, 60_exceptions.md, 70_reset_and_hazards.md) -/

/-- A CMD write with BUSY = 0 and ERR = 0 sets BUSY and changes nothing else; the engine with BUSY = 0 and a silent host does
nothing and keeps all its state (R23, R404, R388). -/
def Obligations.CommandAccepted : Prop :=
  (∀ (s : State) (w : Word) (rest : List HostOp), s.bus.pending = .write 0x004 4 w :: rest →
    s.status.inflight = none → s.status.err = none →
    step s = .next { s with status := { s.status with inflight := some w }, bus := { s.bus with pending := rest } }) ∧
  (∀ s : State, s.bus.pending = [] → s.status.inflight = none → step s = .next s)

/-- While ERR = 1 a CMD write is ignored; the host acknowledges by writing STATUS with bit 2 = 1, which clears ERR and ERRCODE; the
next CMD write is then accepted (R366). -/
def Obligations.ErrorBlocksUntilAcknowledged : Prop :=
  ∀ (s : State) (e : ErrCode) (w v w' : Word) (rest : List HostOp),
    s.bus.pending = .write 0x004 4 w :: .write 0x008 4 v :: .write 0x004 4 w' :: rest →
    s.status.inflight = none → s.status.err = some e → v.getLsbD 2 = true →
    ∃ s1 s2 s3, step s = .next s1 ∧ step s1 = .next s2 ∧ step s2 = .next s3 ∧
      s1 = { s with bus := { s.bus with pending := .write 0x008 4 v :: .write 0x004 4 w' :: rest } } ∧
      s2.status.err = none ∧ s2.status.errcode = 0 ∧
      s3.status.inflight = some w' ∧ s3.status.err = none

/-- A host write to STATUS clears exactly the flags whose bit is 1; BUSY and CMODE ignore it; and of the engine's commands none
clears ERR, and only CB.ENCODE and CB.DECODE clear PARTIAL, SEGMIS or TRUNC (R25). -/
def Obligations.StatusFlagsCleared : Prop :=
  (∀ (s : State) (w : Word) (rest : List HostOp), s.bus.pending = .write 0x008 4 w :: rest → s.status.inflight = none →
    step s = .next { s with
      status := { s.status with
        done := s.status.done && !w.getLsbD 1
        err := if w.getLsbD 2 then none else s.status.err
        partialRes := s.status.partialRes && !w.getLsbD 3
        segmis := s.status.segmis && !w.getLsbD 4
        trunc := s.status.trunc && !w.getLsbD 5 }
      bus := { s.bus with pending := rest } }) ∧
  (∀ (i : Instr) (s t : State), exec i s = .next t →
    (s.status.err.isSome = true → t.status.err.isSome = true) ∧
    (isBlock i = false →
      (s.status.partialRes = true → t.status.partialRes = true) ∧
      (s.status.segmis = true → t.status.segmis = true) ∧
      (s.status.trunc = true → t.status.trunc = true)))

/-- The fields of STATUS stand at their bits, CMODE with the seven numbers of R44 and ERRCODE with the six of 60_exceptions.md
R361, the reserved bits read 0, ERRCODE is 0 exactly when ERR = 0, and a host read of STATUS returns the word also while BUSY = 1
(R24, R406). -/
def Obligations.StatusWordLayout : Prop :=
  ∀ s : State,
    s.status.word.getLsbD 0 = s.status.inflight.isSome ∧
    s.status.word.getLsbD 1 = s.status.done ∧
    s.status.word.getLsbD 2 = s.status.err.isSome ∧
    s.status.word.getLsbD 3 = s.status.partialRes ∧
    s.status.word.getLsbD 4 = s.status.segmis ∧
    s.status.word.getLsbD 5 = s.status.trunc ∧
    s.status.word.extractLsb' 6 2 = 0 ∧
    s.status.word.extractLsb' 8 3 = (match s.status.cmode with
      | .idle => 0 | .mqe => 1 | .mqd => 2 | .rawe => 3 | .rawd => 4 | .mele => 5 | .meld => 6) ∧
    s.status.word.extractLsb' 11 5 = 0 ∧
    s.status.word.extractLsb' 16 8 = (match s.status.err with
      | none => 0x00
      | some .illegalCmd => 0x01 | some .notInit => 0x02 | some .config => 0x03 | some .truncated => 0x04
      | some .htMalformed => 0x05 | some .overflow => 0x06) ∧
    s.status.word.extractLsb' 16 8 = s.status.errcode ∧
    s.status.word.extractLsb' 24 8 = 0 ∧
    (s.status.errcode = 0 ↔ s.status.err = none) ∧
    (∀ rest, s.bus.pending = .read 0x008 4 :: rest →
      step s = .next { s with bus := { pending := rest, data := some s.status.word } })

/-- Host reads have no side effect: a read that answers leaves everything of the engine as it was (R87), and every read of a CSR
answers when BUSY = 0. Each CSR that is no configuration register reads the register its row of the CSR table names, CMD reading
0 (10_state.md R21, R23, R32 to R43), and a write to a read-only CSR is ignored. -/
def Obligations.HostReadsKeepState : Prop :=
  (∀ (s t : State) (a : Word) (n : Nat) (rest : List HostOp), s.bus.pending = .read a n :: rest → step s = .next t →
    ∃ v, t = { s with bus := { pending := rest, data := some v } }) ∧
  (∀ (s : State) (a : Word) (rest : List HostOp), s.bus.pending = .read a 4 :: rest → s.status.inflight = none →
    a.toNat ≤ 0x094 → a.toNat % 4 = 0 → ∃ t, step s = .next t) ∧
  (∀ (s : State) (a v : Word) (rest : List HostOp), s.bus.pending = .read a 4 :: rest → s.status.inflight = none →
    ((a, v) ∈ [((0x000 : Word), (0x4A325431 : Word)), (0x004, 0), (0x020, s.out.result), (0x024, s.out.nbytes),
        (0x028, s.out.npassout.zeroExtend 32), (0x02C, s.seg.a.zeroExtend 32), (0x030, s.seg.c),
        (0x034, s.seg.ct.zeroExtend 32), (0x038, s.seg.bp), (0x03C, s.seg.fillcnt), (0x08C, BitVec.ofNat 32 s.seg.melK.val),
        (0x090, s.seg.melRun.zeroExtend 32 + if s.seg.onePend then 0x10000 else 0), (0x094, s.seg.b.zeroExtend 32)] ∨
      ∃ cx : Label, a = BitVec.ofNat 32 (0x040 + 4 * cx.val) ∧
        v = BitVec.ofNat 32 (s.ctx[cx].index.val + 256 * s.ctx[cx].mps.toNat)) →
    step s = .next { s with bus := { pending := rest, data := some v } }) ∧
  (∀ (s : State) (a w : Word) (rest : List HostOp), s.bus.pending = .write a 4 w :: rest → s.status.inflight = none →
    a ∈ [(0x000 : Word), 0x020, 0x024, 0x028, 0x02C, 0x030, 0x034, 0x038, 0x03C, 0x08C, 0x090, 0x094] →
    step s = .next { s with bus := { s.bus with pending := rest } })

/-- The configuration registers read back what was written, CFG_CODE and NPASS without their reserved bits (R26 to R31), and a
write to one changes nothing else, the other four among it. -/
def Obligations.ConfigReadsBack : Prop :=
  ∀ (s : State) (a w m : Word) (rest : List HostOp),
    (a, m) ∈ [((0x00C : Word), (0xFFFFFFFF : Word)), (0x010, 0x01FF031F), (0x014, 0x000000FF), (0x018, 0xFFFFFFFF),
      (0x01C, 0xFFFFFFFF)] →
    s.bus.pending = .write a 4 w :: .read a 4 :: rest → s.status.inflight = none →
    ∃ t u, step s = .next t ∧ step t = .next u ∧ u.bus.data = some (w &&& m) ∧
      t = { s with cfg := t.cfg, bus := { s.bus with pending := .read a 4 :: rest } } ∧
      (a ≠ 0x00C → t.cfg.dim = s.cfg.dim) ∧ (a ≠ 0x010 → t.cfg.code = s.cfg.code) ∧
      (a ≠ 0x014 → t.cfg.npass = s.cfg.npass) ∧ (a ≠ 0x018 → t.cfg.segbase = s.cfg.segbase) ∧
      (a ≠ 0x01C → t.cfg.seglen = s.cfg.seglen)

/-- A host write to CTX[cx] stores INDEX and MPS, the reserved bits reading 0, and is ignored as a whole when bits 5:0 exceed 46
(R40). -/
def Obligations.ContextWrites : Prop :=
  ∀ (s : State) (cx : Label) (w : Word) (rest : List HostOp),
    s.bus.pending = .write (BitVec.ofNat 32 (0x040 + 4 * cx.val)) 4 w :: .read (BitVec.ofNat 32 (0x040 + 4 * cx.val)) 4 :: rest →
    s.status.inflight = none →
    ∃ t u, step s = .next t ∧ step t = .next u ∧
      (46 < (w.extractLsb' 0 6).toNat →
        t = { s with bus := { s.bus with pending := .read (BitVec.ofNat 32 (0x040 + 4 * cx.val)) 4 :: rest } }) ∧
      ((w.extractLsb' 0 6).toNat ≤ 46 → u.bus.data = some (w &&& 0x0000013F) ∧
        (∀ k : Label, k ≠ cx → t.ctx[k] = s.ctx[k]) ∧
        t = { s with ctx := t.ctx, bus := { s.bus with pending := .read (BitVec.ofNat 32 (0x040 + 4 * cx.val)) 4 :: rest } })

/-- A word written to memory reads back (R71), every byte outside it is left alone, and the four bytes of a BYTE word are its bits
from the least significant on (R73). -/
def Obligations.MemoryWordAccess : Prop :=
  ∀ (s : State) (a w : Word) (rest : List HostOp), a.toNat % 4 = 0 → InMemories a.toNat →
    s.bus.pending = .write a 4 w :: .read a 4 :: rest → s.status.inflight = none →
    ∃ t u, step s = .next t ∧ step t = .next u ∧ u.bus.data = some w ∧
      t = { s with mem := t.mem, bus := { s.bus with pending := .read a 4 :: rest } } ∧
      SameOutside s t a.toNat (a.toNat + 4) ∧
      (∀ j < 4, t.mem.getByte (a.toNat + j) = some (w.extractLsb' (8 * j) 8))

/-- The state windows read the arrays, and host writes to them are ignored (R75). -/
def Obligations.StateWindows : Prop :=
  ∀ (s : State) (i : Nat) (w : Word) (rest : List HostOp), i < 4096 → s.status.inflight = none →
    let flags : BitVec 4 := BitVec.ofBool (s.arr.refined.getLsbD i) ++ BitVec.ofBool (s.arr.visited.getLsbD i) ++
      BitVec.ofBool (s.arr.sgn.getLsbD i) ++ BitVec.ofBool (s.arr.sig.getLsbD i)
    (s.bus.pending = .read (BitVec.ofNat 32 (0x08000 + 4 * i)) 4 :: rest →
      step s = .next { s with bus := { pending := rest, data := some (flags.zeroExtend 32) } }) ∧
    (s.bus.pending = .read (BitVec.ofNat 32 (0x0C000 + 4 * i)) 4 :: rest →
      step s = .next { s with bus := { pending := rest, data := some ((magGet s.arr.mag i).zeroExtend 32) } }) ∧
    (s.bus.pending = .write (BitVec.ofNat 32 (0x08000 + 4 * i)) 4 w :: rest ∨
        s.bus.pending = .write (BitVec.ofNat 32 (0x0C000 + 4 * i)) 4 w :: rest →
      step s = .next { s with bus := { s.bus with pending := rest } })

/-- Host protocol violations are faults of the model, each by its name (R368; log entry 7): an access that is not a 32-bit aligned
access to a defined location, the undefined ones being the reserved rows of R70 and CSR offsets 0x098 to 0xFFF (R79); while
BUSY = 1 a write, or a read of anything but STATUS and ID (R406); a read of a memory word of which a byte has not been written
since reset (R87). -/
def Obligations.HostViolationsFault : Prop :=
  (∀ (s : State) (a w : Word) (n : Nat) (rest : List HostOp),
    (s.bus.pending = .read a n :: rest ∨ s.bus.pending = .write a n w :: rest) → s.status.inflight = none →
    (n ≠ 4 ∨ a.toNat % 4 ≠ 0 ∨ (0x00098 ≤ a.toNat ∧ a.toNat ≤ 0x00FFF) ∨ (0x01200 ≤ a.toNat ∧ a.toNat ≤ 0x03FFF) ∨
      0x10000 + Config.byteCap ≤ a.toNat) →
    step s = .fault .hostBadAccess) ∧
  (∀ (s : State) (a w : Word) (rest : List HostOp), s.status.inflight.isSome = true → a.toNat % 4 = 0 →
    (s.bus.pending = .write a 4 w :: rest ∨ (s.bus.pending = .read a 4 :: rest ∧ a ≠ 0x000 ∧ a ≠ 0x008)) →
    step s = .fault .hostWhileBusy) ∧
  (∀ (s : State) (a : Word) (rest : List HostOp) (j : Nat), s.status.inflight = none → a.toNat % 4 = 0 →
    InMemories a.toNat → s.bus.pending = .read a 4 :: rest → j < 4 → s.mem.getByte (a.toNat + j) = none →
    step s = .fault .hostReadUnwritten)

/-- Reset, at any time and also while BUSY = 1: every CSR reads its reset value, the latched bounds are 0, every array element is 0
and no memory byte has a value (R390). -/
def Obligations.ResetValues : Prop :=
  (∀ a ∈ [0x004, 0x008, 0x00C, 0x010, 0x014, 0x018, 0x01C, 0x020, 0x024, 0x028, 0x02C, 0x030, 0x034, 0x038, 0x03C, 0x044,
      0x048, 0x04C, 0x050, 0x054, 0x058, 0x05C, 0x060, 0x064, 0x068, 0x06C, 0x070, 0x074, 0x078, 0x07C, 0x080, 0x08C,
      0x090, 0x094], csrRead State.reset a = some 0) ∧
  csrRead State.reset 0x000 = some 0x4A325431 ∧
  csrRead State.reset 0x040 = some 0x00000004 ∧
  csrRead State.reset 0x084 = some 0x00000003 ∧
  csrRead State.reset 0x088 = some 0x0000002E ∧
  State.reset.seg.start = 0 ∧ State.reset.seg.stop = 0 ∧
  (∀ i, State.reset.arr.flagsWord i = 0 ∧ State.reset.arr.magWord i = 0) ∧
  (∀ a, State.reset.mem.getByte a = none) ∧
  (∀ (s : State) (rest : List HostOp), s.bus.pending = .reset :: rest →
    ∃ t, step s = .next t ∧ { t with bus := State.reset.bus } = State.reset)

/-! ### The context model (41_context_model.md) -/

/-- CTX.ZC writes into RESULT the label of the printed tables of R134, R135 and R136, and nothing else but DONE and BUSY (R140). -/
def Obligations.CtxZcPrintedTables : Prop :=
  ∀ (o : Orient) (m : BitVec 8) (s : State),
    let h := (m.getLsbD 0).toNat + (m.getLsbD 1).toNat
    let v := (m.getLsbD 2).toNat + (m.getLsbD 3).toNat
    let d := (m.getLsbD 4).toNat + (m.getLsbD 5).toNat + (m.getLsbD 6).toNat + (m.getLsbD 7).toNat
    exec (.ctxZc o m) s = .next (State.complete { s with
      out := { s.out with result := BitVec.ofNat 32 ((((printedZc o).getD h []).getD v []).getD d 0) } })

/-- CTX.SC writes the label and xorbit of the printed table of R138 into RESULT[4:0] and RESULT[8], the sign of an insignificant
neighbour being ignored (R132, R141); CTX.MR writes 16, 15 or 14 (R137, R142); nothing else changes but DONE and BUSY. -/
def Obligations.CtxScAndMrLabels : Prop :=
  (∀ (w e n s' : SignNbr) (s : State),
    let r := ((printedSc.getD (printedScIndex (pairContrib w) (pairContrib e)) []).getD
      (printedScIndex (pairContrib n) (pairContrib s')) (0, false))
    exec (.ctxSc w e n s') s = .next (State.complete { s with
      out := { s.out with result := BitVec.ofNat 32 (r.1 + 256 * r.2.toNat) } })) ∧
  (∀ (refined anysig : Bool) (s : State),
    exec (.ctxMr refined anysig) s = .next (State.complete { s with
      out := { s.out with result := if refined then 16 else if anysig then 15 else 14 } }))

/-- The labels a pass uses are those of the printed tables, from the neighbours of R131 to R133: significance by R134 to R136, sign
label and xorbit by R138, refinement by R137. A ZC label is 0 exactly when no neighbour in the context window is significant
(44_bitplane_coder.md R237). -/
def Obligations.PassLabelsPrintedTables : Prop :=
  (∀ (g : Geometry) (r : Arrays) (x y : Nat),
    let h := countAt g r x y [(-1, 0), (1, 0)]
    let v := countAt g r x y [(0, -1), (0, 1)]
    let d := countAt g r x y [(-1, -1), (1, -1), (-1, 1), (1, 1)]
    (zcAt g r x y).val = (((printedZc g.orient).getD h []).getD v []).getD d 0 ∧
    ((scAt g r x y).1.val, (scAt g r x y).2) =
      (printedSc.getD (printedScIndex (contribAt g r x y (-1) 0) (contribAt g r x y 1 0)) []).getD
        (printedScIndex (contribAt g r x y 0 (-1)) (contribAt g r x y 0 1)) (0, false) ∧
    (mrAt g r x y).val = if r.refined.getLsbD (y * g.w + x) then 16 else if 1 ≤ h + v + d then 15 else 14) ∧
  (∀ (g : Geometry) (r : Arrays) (x y : Nat),
    zcAt g r x y = 0 ↔
      ∀ dx ∈ [(-1 : Int), 0, 1], ∀ dy ∈ [(-1 : Int), 0, 1], (dx, dy) ≠ (0, 0) → nbrSig g r x y dx dy = false)

/-- Vertically causal mode: in the last row of a stripe no label depends on the row below, and with nothing significant in the row
below every label is that of the plain neighbourhood, so only that row is excluded; in every other row, and without the mode,
the labels are those of the plain neighbourhood (R133). -/
def Obligations.VerticallyCausal : Prop :=
  (∀ (g : Geometry) (r r' : Arrays) (x y : Nat), g.vcausal = true → y % 4 = 3 → x < g.w → y < g.h →
    (∀ x' y', x' < g.w → y' < g.h → y' ≠ y + 1 →
      r'.sig.getLsbD (coefIndex g x' y') = r.sig.getLsbD (coefIndex g x' y') ∧
      r'.sgn.getLsbD (coefIndex g x' y') = r.sgn.getLsbD (coefIndex g x' y')) →
    r'.refined.getLsbD (coefIndex g x y) = r.refined.getLsbD (coefIndex g x y) →
    zcAt g r' x y = zcAt g r x y ∧ scAt g r' x y = scAt g r x y ∧ mrAt g r' x y = mrAt g r x y) ∧
  (∀ (g : Geometry) (r : Arrays) (x y : Nat), ¬ (g.vcausal = true ∧ y % 4 = 3) →
    zcAt g r x y = zcAt { g with vcausal := false } r x y ∧
    scAt g r x y = scAt { g with vcausal := false } r x y ∧
    mrAt g r x y = mrAt { g with vcausal := false } r x y) ∧
  (∀ (g : Geometry) (r : Arrays) (x y : Nat),
    (∀ x', x' < g.w → y + 1 < g.h → r.sig.getLsbD (coefIndex g x' (y + 1)) = false) →
    zcAt g r x y = zcAt { g with vcausal := false } r x y ∧
    scAt g r x y = scAt { g with vcausal := false } r x y ∧
    mrAt g r x y = mrAt { g with vcausal := false } r x y)

/-! ### The MQ coder (42_mq_coder.md) -/

/-- The three encoder initialisations, exactly, from every state: the segment starts at SEGBASE, the coder's registers and CMODE
take the values of R162, R220 and R284, and nothing else changes but DONE and BUSY. That the latched end E is among what stays is
the model's reading (log entry 9; 10_state.md R52, 20_memory.md R81), and so is that MEL.INITENC clears the whole of MEL_RUN,
ONEPEND with it (log entry 14). -/
def Obligations.EncoderInitialisation : Prop :=
  ∀ s : State,
    exec .mqInitenc s = .next (State.complete { s with
      status := { s.status with cmode := .mqe }
      seg := { s.seg with start := s.cfg.segbase, a := 0x8000, c := 0, ct := 12, b := 0, bp := 0 } }) ∧
    exec .rawInitenc s = .next (State.complete { s with
      status := { s.status with cmode := .rawe }
      seg := { s.seg with start := s.cfg.segbase, c := 0, ct := 8, b := 0, bp := 0 } }) ∧
    exec .melInitenc s = .next (State.complete { s with
      status := { s.status with cmode := .mele }
      seg := { s.seg with start := s.cfg.segbase, melK := 0, melRun := 0, onePend := false, c := 0, ct := 8, b := 0,
                          bp := 0 } })

/-- MQ.ENCODE with room for three bytes, from an interval register with bit 15 set: it completes, the coder's registers and memory
become those of ENCODE with its RENORME and BYTEOUT, `mqCoded` (R164 to R166; a carry with no byte emitted, which no run
reaches, is log entry 11), context cx moves as R167 says and no other context changes, A has bit 15 set again, only A, C, CT, B
and BP change, and memory changes only from the open last byte to the new end of the segment. An MPS coded with A still at least
0x8000 after the subtraction changes only A and C (R191). The rows of the probability table are the printed ones (R160). -/
def Obligations.MqEncodeCompletes : Prop :=
  (∀ (s : State) (cx : BitVec 5) (d : Bool), cx.toNat ≤ 18 → s.status.cmode = .mqe → s.seg.a.msb = true → HasRoom s 3 →
    ∃ (r : SegRegs) (m : Memory),
      exec (.mqEncode cx d) s = .next (State.complete { s with
        seg := r, mem := m
        ctx := s.ctx.set (labelOf cx) (ctxAfter s.ctx[labelOf cx] s.seg.a d) }) ∧
      (r, m) = mqCoded s.ctx[labelOf cx] d (s.seg, s.mem) ∧
      r = { s.seg with a := r.a, c := r.c, ct := r.ct, b := r.b, bp := r.bp } ∧
      r.a.msb = true ∧ s.seg.bp.toNat ≤ r.bp.toNat ∧ r.bp.toNat ≤ s.seg.bp.toNat + 3 ∧
      SameOutside s { s with mem := m } (byteAddr s.seg.openOffset) (byteAddr r.outOffset)) ∧
  (∀ (s : State) (cx : BitVec 5), cx.toNat ≤ 18 → s.status.cmode = .mqe →
    (s.seg.a - (mqRow s.ctx[labelOf cx].index).qe).msb = true →
    exec (.mqEncode cx s.ctx[labelOf cx].mps) s = .next (State.complete { s with
      seg := { s.seg with
        a := s.seg.a - (mqRow s.ctx[labelOf cx].index).qe
        c := s.seg.c + (mqRow s.ctx[labelOf cx].index).qe.zeroExtend 32 } })) ∧
  (∀ i : Fin 47, (printedMqLeft ++ printedMqRight)[i.val]? =
    some ((mqRow i).qe.toNat, (mqRow i).nmps.val, (mqRow i).nlps.val, (mqRow i).sw.toNat))

/-- MQ.FLUSH emits one or two bytes; a segment with no decision at all is the two bytes 0xFF 0x7F (R171). The coder's registers and
memory become those of FLUSH with its two BYTEOUTs, `mqFlushed` (R164, R169; a carry with no byte emitted, which no run reaches,
is log entry 11). The segment does not end in 0xFF (R170), NBYTES is its length, CMODE is IDLE, and nothing else changes but C, CT,
B, BP and the bytes from the open last byte on. -/
def Obligations.MqFlushCompletes : Prop :=
  (∀ s : State, s.status.cmode = .mqe → HasRoom s 2 →
    ∃ (r : SegRegs) (m : Memory),
      exec .mqFlush s = .next (State.complete { s with
        status := { s.status with cmode := .idle }
        out := { s.out with nbytes := r.bp }
        seg := r, mem := m }) ∧
      (r, m) = mqFlushed (s.seg, s.mem) ∧
      r = { s.seg with c := r.c, ct := r.ct, b := r.b, bp := r.bp } ∧
      (r.bp.toNat = s.seg.bp.toNat + 1 ∨ r.bp.toNat = s.seg.bp.toNat + 2) ∧
      (∃ v ∈ m.getByte (byteAddr (r.outOffset - 1)), v ≠ 0xFF) ∧
      SameOutside s { s with mem := m } (byteAddr s.seg.openOffset) (byteAddr (s.seg.outOffset + 2))) ∧
  (∀ s : State, s.cfg.segbase.toNat + 2 ≤ Config.byteCap →
    ∃ t, execAll [.mqInitenc, .mqFlush] s = .next t ∧ t.out.nbytes = 2 ∧
      t.mem.getByte (byteAddr s.cfg.segbase.toNat) = some 0xFF ∧
      t.mem.getByte (byteAddr (s.cfg.segbase.toNat + 1)) = some 0x7F)

/-- MQ.ERTERM with room for two bytes completes: the coder's registers and memory become those of ERTERM with its BYTEOUTs,
`mqErtermed` (R164, R175; log entries 11 and 21), NBYTES is the segment's length, CMODE is IDLE, at most two bytes are emitted and
at most one is dropped; a segment with no decision has no byte and changes no memory (R193). -/
def Obligations.MqErtermCompletes : Prop :=
  (∀ s : State, s.status.cmode = .mqe → HasRoom s 2 →
    ∃ (r : SegRegs) (m : Memory),
      exec .mqErterm s = .next (State.complete { s with
        status := { s.status with cmode := .idle }
        out := { s.out with nbytes := r.bp }
        seg := r, mem := m }) ∧
      (r, m) = mqErtermed (s.seg, s.mem) ∧
      r = { s.seg with c := r.c, ct := r.ct, b := r.b, bp := r.bp } ∧
      s.seg.bp.toNat ≤ r.bp.toNat + 1 ∧ r.bp.toNat ≤ s.seg.bp.toNat + 2 ∧
      SameOutside s { s with mem := m } (byteAddr s.seg.openOffset) (byteAddr (s.seg.outOffset + 2))) ∧
  (∀ s : State, ∃ t, execAll [.mqInitenc, .mqErterm] s = .next t ∧ t.out.nbytes = 0 ∧ t.mem = s.mem)

/-- MQ.INITDEC, exactly: E_CONFIG with nothing but STATUS changed when the segment ends past BYTE memory (R194); else the registers
R181 computes from the segment's first two bytes, the fill value 0xFF standing for a byte past its end. -/
def Obligations.MqInitdecExact : Prop :=
  ∀ s : State,
    (Config.byteCap < s.cfg.segbase.toNat + s.cfg.seglen.toNat → exec .mqInitdec s = .next (s.takeError .config)) ∧
    (s.cfg.segbase.toNat + s.cfg.seglen.toNat ≤ Config.byteCap → CfgSegmentWritten s →
      let stop := s.cfg.segbase.toNat + s.cfg.seglen.toNat
      let b0 := fillByte s.mem s.cfg.segbase.toNat stop 0
      let b1 := fillByte s.mem s.cfg.segbase.toNat stop 1
      let c0 : Word := b0.zeroExtend 32 <<< 16
      exec .mqInitdec s = .next (State.complete { s with
        status := { s.status with cmode := .mqd }
        seg := { s.seg with
          start := s.cfg.segbase
          stop := s.cfg.segbase + s.cfg.seglen
          a := 0x8000
          c := (if b0 = 0xFF then (if 0x8F < b1 then c0 + 0xFF00 else c0 + (b1.zeroExtend 32 <<< 9))
                else c0 + (b1.zeroExtend 32 <<< 8)) <<< 7
          ct := if b0 = 0xFF ∧ ¬ 0x8F < b1 then 0 else 1
          bp := if b0 = 0xFF ∧ 0x8F < b1 then 0 else 1
          fillcnt := if s.cfg.seglen.toNat < 2 then 1 else 0 } }))

/-- MQ.DECODE on a written segment completes: RESULT is the decision R185 takes from C[31:16], A and Qe, context cx moves with that
decision exactly as MQ.ENCODE moves it (R167, R185), memory is unchanged, and only A, C, CT, BP and FILLCNT of the coder change
(R195). From an interval register with bit 15 set they become those of DECODE with its RENORMD and BYTEIN, `mqDecoded`
(R183 to R185). -/
def Obligations.MqDecodeCompletes : Prop :=
  ∀ (s : State) (cx : BitVec 5), cx.toNat ≤ 18 → s.status.cmode = .mqd → SegmentWritten s →
    ∃ (d : Bool) (r : SegRegs),
      exec (.mqDecode cx) s = .next (State.complete { s with
        out := { s.out with result := if d then 1 else 0 }
        seg := r
        ctx := s.ctx.set (labelOf cx) (ctxAfter s.ctx[labelOf cx] s.seg.a d) }) ∧
      d = decodedDecision s.ctx[labelOf cx] s.seg.a s.seg.c ∧
      r = { s.seg with a := r.a, c := r.c, ct := r.ct, bp := r.bp, fillcnt := r.fillcnt } ∧
      (s.seg.a.msb = true → r = mqDecoded s.ctx[labelOf cx] s.mem s.seg ∧ r.a.msb = true)

/-! ### The raw coder (43_raw_bypass.md) -/

/-- RAW.PUTBIT, exactly, in RAWE mode: the bit goes to the next free position; the last free position emits the byte, or raises
E_OVERFLOW at BYTE_CAP with the bit counted and nothing written (R212, R221, 60_exceptions.md R364). -/
def Obligations.RawPutbitExact : Prop :=
  ∀ (s : State) (d : Bool), s.status.cmode = .rawe →
    let c := s.seg.c + ((if d then 1 else 0 : Word) <<< (s.seg.ct - 1).toNat)
    (s.seg.ct ≠ 1 → exec (.rawPutbit d) s = .next (State.complete { s with
      seg := { s.seg with ct := s.seg.ct - 1, c := c } })) ∧
    (s.seg.ct = 1 → HasRoom s 1 → exec (.rawPutbit d) s = .next (State.complete { s with
      mem := s.mem.setByte (byteAddr s.seg.outOffset) (c.extractLsb' 0 8)
      seg := { s.seg with
        ct := if c.extractLsb' 0 8 = 0xFF then 7 else 8, c := 0, b := c.extractLsb' 0 8, bp := s.seg.bp + 1 } })) ∧
    (s.seg.ct = 1 → ¬ HasRoom s 1 → exec (.rawPutbit d) s = .next (State.takeError { s with
      seg := { s.seg with ct := 0, c := c } } .overflow))

/-- RAW.FLUSH, exactly, with room for one byte: a partial byte is padded 0, 1, 0, … from its next free position and emitted, a
trailing 0xFF is dropped, NBYTES is the length and CMODE is IDLE (R213, R222). -/
def Obligations.RawFlushExact : Prop :=
  ∀ s : State, s.status.cmode = .rawe → HasRoom s 1 →
    let full := if 1 ≤ s.seg.bp.toNat ∧ s.seg.b = 0xFF then 7 else 8
    let v : Byte := (s.seg.c + ((0x55 : Word) >>> (8 - s.seg.ct.toNat))).extractLsb' 0 8
    (s.seg.ct.toNat < full →
      let n := if v = 0xFF then s.seg.bp else s.seg.bp + 1
      exec .rawFlush s = .next (State.complete { s with
        status := { s.status with cmode := .idle }
        out := { s.out with nbytes := n }
        mem := s.mem.setByte (byteAddr s.seg.outOffset) v
        seg := { s.seg with ct := 8, c := 0, b := v, bp := n } })) ∧
    (¬ s.seg.ct.toNat < full →
      let n := if 1 ≤ s.seg.bp.toNat ∧ s.seg.b = 0xFF then s.seg.bp - 1 else s.seg.bp
      exec .rawFlush s = .next (State.complete { s with
        status := { s.status with cmode := .idle }
        out := { s.out with nbytes := n }
        seg := { s.seg with bp := n } }))

/-- RAW.INITDEC and MEL.INITDEC, exactly: E_CONFIG with nothing but STATUS changed when the segment ends past BYTE memory; else the
bounds are latched, the coder's registers are those of R216 and R287, and no byte is read (R223, R313). -/
def Obligations.RawAndMelInitdecExact : Prop :=
  ∀ s : State,
    (Config.byteCap < s.cfg.segbase.toNat + s.cfg.seglen.toNat →
      exec .rawInitdec s = .next (s.takeError .config) ∧ exec .melInitdec s = .next (s.takeError .config)) ∧
    (s.cfg.segbase.toNat + s.cfg.seglen.toNat ≤ Config.byteCap →
      exec .rawInitdec s = .next (State.complete { s with
        status := { s.status with cmode := .rawd }
        seg := { s.seg with start := s.cfg.segbase, stop := s.cfg.segbase + s.cfg.seglen, bp := 0, c := 0, ct := 0,
                            fillcnt := 0 } }) ∧
      exec .melInitdec s = .next (State.complete { s with
        status := { s.status with cmode := .meld }
        seg := { s.seg with start := s.cfg.segbase, stop := s.cfg.segbase + s.cfg.seglen, melK := 0, melRun := 0,
                            onePend := false, bp := 0, c := 0, ct := 0, fillcnt := 0 } }))

/-- RAW.GETBIT, exactly, on a written segment: with bits left the next one is returned; with none left a byte is taken in first, and
after 0xFF a byte above 0x8F (a marker, or the fill value) is not taken but feeds 1 bits (R217, R224). -/
def Obligations.RawGetbitExact : Prop :=
  ∀ s : State, s.status.cmode = .rawd → SegmentWritten s →
    (s.seg.ct ≠ 0 → exec .rawGetbit s = .next (State.complete { s with
      out := { s.out with result := if s.seg.c.getLsbD (s.seg.ct - 1).toNat then 1 else 0 }
      seg := { s.seg with ct := s.seg.ct - 1 } })) ∧
    (s.seg.ct = 0 →
      let v := fillByte s.mem s.seg.start.toNat s.seg.stop.toNat s.seg.bp.toNat
      let fill := decide (s.seg.stop.toNat ≤ s.seg.start.toNat + s.seg.bp.toNat)
      let mark := decide (s.seg.c.extractLsb' 0 8 = 0xFF ∧ 0x8F < v)
      let n : Nat := if s.seg.c.extractLsb' 0 8 = 0xFF ∧ mark = false then 7 else 8
      let c : Byte := if mark then 0xFF else v
      exec .rawGetbit s = .next (State.complete { s with
        out := { s.out with result := if c.getLsbD (n - 1) then 1 else 0 }
        seg := { s.seg with
          ct := BitVec.ofNat 4 (n - 1)
          c := c.zeroExtend 32
          bp := if mark then s.seg.bp else s.seg.bp + 1
          fillcnt := fillAfter s.seg.fillcnt fill } }))

/-- Raw round trip: any bit sequence, coded by RAW.PUTBIT after RAW.INITENC and terminated by RAW.FLUSH, comes back bit by bit from
RAW.GETBIT after RAW.INITDEC on the segment, whose length is NBYTES (R218). -/
def Obligations.RawRoundTrip : Prop :=
  ∀ (ds : List Bool) (s : State), s.cfg.segbase.toNat + ds.length + 1 ≤ Config.byteCap →
    ∃ t u, execAll (.rawInitenc :: ds.map .rawPutbit ++ [.rawFlush]) s = .next t ∧
      t.status.err = s.status.err ∧
      exec .rawInitdec { t with cfg := { t.cfg with seglen := t.out.nbytes } } = .next u ∧
      u.status.err = s.status.err ∧
      rawBits ds.length u = some ds

/-! ### The bit-plane coder (44_bitplane_coder.md) -/

/-- The two clearing commands, exactly, from every state: BPC.CLEAR sets every array element to 0 (R249) and MQ.RESETCTX every
context to its initial state (42_mq_coder.md R186, R196); nothing else changes but DONE and BUSY. -/
def Obligations.ClearingCommands : Prop :=
  ∀ s : State,
    (∃ r : Arrays, exec .bpcClear s = .next (State.complete { s with arr := r }) ∧
      ∀ i, r.sig.getLsbD i = false ∧ r.sgn.getLsbD i = false ∧ r.visited.getLsbD i = false ∧
        r.refined.getLsbD i = false ∧ magGet r.mag i = 0) ∧
    (∃ ctx : Vector CtxEntry 19, exec .mqResetctx s = .next (State.complete { s with ctx := ctx }) ∧
      ∀ cx : Label, ctx[cx] = ⟨if cx = 0 then 4 else if cx = 17 then 3 else if cx = 18 then 46 else 0, false⟩)

/-- The scan visits every coefficient of the block exactly once: stripes of 4 rows from the top, in a stripe the columns from the
left, in a column the rows from the top (R230). -/
def Obligations.ScanOrder : Prop :=
  ∀ g : Geometry,
    (∀ x y, (x, y) ∈ scan g ↔ x < g.w ∧ y < g.h) ∧
    (scan g).Pairwise fun p q =>
      p.2 / 4 < q.2 / 4 ∨ (p.2 / 4 = q.2 / 4 ∧ (p.1 < q.1 ∨ (p.1 = q.1 ∧ p.2 < q.2)))

/-- A decoding pass in its mode, with a legal shape and a written segment, completes: memory, configuration and outputs are
unchanged; no SIG is cleared; elements past W·H stay, but for VISITED, which a cleanup pass clears everywhere; a raw pass leaves the
contexts. The pass is a sequence of decisions, each in the label the rules give at that moment (R231): the coder ends as MQ.DECODE
or RAW.GETBIT of each leaves it, the arrays are those the decisions give, `replayPass` (R237 to R239), and SEGMIS is set when the
last four decisions of a cleanup pass with SEGMARK are not 1, 0, 1, 0 (R254, R255). So in an SPP or CUP the coefficients that become
significant, and no others, gain the pass's bit of MAG; in an MRP only that bit can be gained. The SPP newly visits exactly as
R237 says; the MRP refines exactly the significant ones that are not visited (R238); the CUP leaves none visited (R252). -/
def Obligations.DecodingPassCompletes : Prop :=
  ∀ (i : Instr) (p : BitVec 5) (raw : Bool) (s : State),
    (i = .bpcSpp p .dec raw ∨ i = .bpcMrp p .dec raw ∨ (raw = false ∧ i = .bpcCup p .dec)) → p.toNat ≤ 30 →
    s.status.cmode = (if raw then .rawd else .mqd) → s.cfg.badShape = false → SegmentWritten s →
    ∃ (sm : Bool) (r : SegRegs) (ctx : Vector CtxEntry 19) (arr : Arrays),
      exec i s = .next (State.complete { s with
        status := { s.status with segmis := sm }, seg := r, ctx := ctx, arr := arr }) ∧
      (∃ (l : List (Label × Bool)) (u : State),
        replayPass i ⟨s.cfg.geometry, p.toNat, raw, none⟩ s.cfg.segmark s.arr l = some arr ∧
        decodingCommands raw l s = some u ∧ r = u.seg ∧ ctx = u.ctx ∧
        sm = (s.status.segmis || (i == .bpcCup p .dec && s.cfg.segmark &&
          !((l.map (·.2)).drop (l.length - 4) == [true, false, true, false])))) ∧
      r = { s.seg with a := r.a, c := r.c, ct := r.ct, bp := r.bp, fillcnt := r.fillcnt } ∧
      (raw = true → ctx = s.ctx) ∧
      PassArrays i s.cfg.geometry s.arr arr ∧ ArraysBeyond (s.cfg.w * s.cfg.h) s.arr arr ∧
      (∀ j, s.arr.sig.getLsbD j = true → arr.sig.getLsbD j = true ∧ arr.sgn.getLsbD j = s.arr.sgn.getLsbD j) ∧
      (∀ j, magGet arr.mag j = magGet s.arr.mag j ∨ magGet arr.mag j = magGet s.arr.mag j ||| (1#31 <<< p.toNat)) ∧
      (i ≠ .bpcMrp p .dec raw → ∀ j, magGet arr.mag j =
        if arr.sig.getLsbD j && !s.arr.sig.getLsbD j then magGet s.arr.mag j ||| (1#31 <<< p.toNat) else magGet s.arr.mag j)

/-- An encoding pass in its mode, with a legal shape, written coefficients and room for the bytes it can emit at most, completes:
MAG is unchanged and memory changes only from the open last byte to the new end of the segment (10_state.md R50). The pass is a
sequence of decisions, each in the label and with the value the rules give at that moment (R231, R232): the coder and memory end
as MQ.ENCODE or RAW.PUTBIT of each leaves them, and the arrays are those the decisions give, `replayPass` (R237 to R239). So a
coefficient an SPP newly visits, or that a CUP finds not visited, becomes significant exactly when its bit at the pass's plane is
1, and takes the sign of its COEF word (R236); which coefficients an SPP visits and an MRP refines is as R237 and R238 say. -/
def Obligations.EncodingPassCompletes : Prop :=
  ∀ (i : Instr) (p : BitVec 5) (raw : Bool) (s : State),
    (i = .bpcSpp p .enc raw ∨ i = .bpcMrp p .enc raw ∨ (raw = false ∧ i = .bpcCup p .enc)) → p.toNat ≤ 30 →
    s.status.cmode = (if raw then .rawe else .mqe) → s.cfg.badShape = false → CoefsWritten s →
    HasRoom s (passRoom s.cfg) →
    ∃ (r : SegRegs) (ctx : Vector CtxEntry 19) (arr : Arrays) (m : Memory),
      exec i s = .next (State.complete { s with seg := r, ctx := ctx, arr := arr, mem := m }) ∧
      (∃ (l : List (Label × Bool)) (u : State),
        replayPass i ⟨s.cfg.geometry, p.toNat, raw, some s.mem⟩ s.cfg.segmark s.arr l = some arr ∧
        execAll (codingCommands raw l) s = .next u ∧ u.status.err = s.status.err ∧
        r = u.seg ∧ ctx = u.ctx ∧ m = u.mem) ∧
      r = { s.seg with a := r.a, c := r.c, ct := r.ct, b := r.b, bp := r.bp } ∧
      s.seg.bp.toNat ≤ r.bp.toNat ∧ r.bp.toNat ≤ s.seg.bp.toNat + passRoom s.cfg ∧
      (raw = true → ctx = s.ctx) ∧
      arr.mag = s.arr.mag ∧
      PassArrays i s.cfg.geometry s.arr arr ∧ ArraysBeyond (s.cfg.w * s.cfg.h) s.arr arr ∧
      EncodedSig i s.cfg.geometry s.mem p.toNat s.arr arr ∧
      (∀ j, s.arr.sig.getLsbD j = true → arr.sig.getLsbD j = true ∧ arr.sgn.getLsbD j = s.arr.sgn.getLsbD j) ∧
      (∀ j, arr.sig.getLsbD j = true → s.arr.sig.getLsbD j = false →
        ∃ q ∈ s.mem.getWord (coefAddr j), arr.sgn.getLsbD j = q.msb) ∧
      SameOutside s { s with mem := m } (byteAddr s.seg.openOffset) (byteAddr r.outOffset)

/-- A significance propagation pass over a block with no significant coefficient codes nothing and changes nothing but DONE and
BUSY, in either direction and with either coder (R237, R241). -/
def Obligations.SppOnInsignificantBlock : Prop :=
  ∀ (s : State) (p : BitVec 5) (dir : Dir) (raw : Bool), p.toNat ≤ 30 → s.status.cmode = passMode dir raw →
    s.cfg.badShape = false → (∀ i < s.cfg.w * s.cfg.h, s.arr.sig.getLsbD i = false) →
    exec (.bpcSpp p dir raw) s = .next s.complete

/-- BPC.STORE with a legal shape completes: every COEF[i], i < W·H, is −MAG[i] where SIGN[i] = 1 and MAG[i] otherwise, and no other
byte and no register changes (R250). -/
def Obligations.BpcStoreCompletes : Prop :=
  ∀ s : State, s.cfg.badShape = false →
    ∃ m : Memory, exec .bpcStore s = .next (State.complete { s with mem := m }) ∧
      (∀ i < s.cfg.w * s.cfg.h, m.getWord (coefAddr i) = some
        (if s.arr.sgn.getLsbD i then -((magGet s.arr.mag i).zeroExtend 32) else (magGet s.arr.mag i).zeroExtend 32)) ∧
      SameOutside s { s with mem := m } (coefAddr 0) (coefAddr (s.cfg.w * s.cfg.h))

/-- A coding command issued when CMODE is not the mode it needs raises E_NOT_INIT and changes nothing but STATUS (10_state.md R44,
60_exceptions.md R361, R362): the thirteen commands of R361's row 0x02. -/
def Obligations.WrongModeRaises : Prop :=
  ∀ (i : Instr) (m : CMode) (s : State), i.wellFormed = true → neededMode i = some m → s.status.cmode ≠ m →
    exec i s = .next (s.takeError .notInit)

/-- A block shape outside the limits raises E_CONFIG in every command that uses the shape, with nothing changed but STATUS: the pass
commands (in their mode), BPC.STORE, CB.ENCODE and CB.DECODE (R240, R250, 46_coordinator.md R320 step 1). -/
def Obligations.IllegalShapeRaises : Prop :=
  ∀ (i : Instr) (s : State),
    (s.cfg.w = 0 ∨ s.cfg.h = 0 ∨ 1024 < s.cfg.w ∨ 1024 < s.cfg.h ∨ 4096 < s.cfg.w * s.cfg.h) →
    i.wellFormed = true → (isPass i = true ∧ neededMode i = some s.status.cmode ∨ i = .bpcStore ∨ isBlock i = true) →
    exec i s = .next (s.takeError .config)

/-! ### The MEL coder (45_ht_block_coder.md) -/

/-- MEL.PUT with room for one byte completes: a 1 symbol ends the run and moves k down; a 0 symbol that completes the run moves k up
and empties it; any other 0 symbol only counts. The bits sent are those of R284, `melBits`: 0 and the run length in E[k] bits for
a 1, one bit 1 for a complete run, none otherwise; MELBIT appends each (R284, R311). -/
def Obligations.MelPutCompletes : Prop :=
  ∀ (s : State) (d : Bool), s.status.cmode = .mele → HasRoom s 1 →
    ∃ (r : SegRegs) (m : Memory),
      exec (.melPut d) s = .next (State.complete { s with seg := r, mem := m }) ∧
      r = { s.seg with c := r.c, ct := r.ct, b := r.b, bp := r.bp, melK := r.melK, melRun := r.melRun } ∧
      (d = true → r.melRun = 0 ∧ r.melK.val = s.seg.melK.val - 1) ∧
      (d = false → (s.seg.melRun + 1).toNat = melThreshold s.seg.melK →
        r.melRun = 0 ∧ r.melK.val = min (s.seg.melK.val + 1) 12) ∧
      (d = false → (s.seg.melRun + 1).toNat ≠ melThreshold s.seg.melK →
        r = { s.seg with melRun := s.seg.melRun + 1 } ∧ m = s.mem) ∧
      (let x := melAppend (melBits s.seg.melK s.seg.melRun.toNat d) (s.seg, s.mem)
       r = { x.1 with melK := melNextK s.seg.melK s.seg.melRun.toNat d,
                      melRun := BitVec.ofNat 16 (melNextRun s.seg.melK s.seg.melRun.toNat d) } ∧ m = x.2) ∧
      s.seg.bp.toNat ≤ r.bp.toNat ∧ r.bp.toNat ≤ s.seg.bp.toNat + 1 ∧
      SameOutside s { s with mem := m } (byteAddr s.seg.outOffset) (byteAddr r.outOffset)

/-- MEL.FLUSH with room for one byte completes: an incomplete run is sent as one bit 1, a partial byte is filled with bits 1, the
run is empty after it, NBYTES is the segment's length, CMODE is IDLE, and at most one byte is emitted; with no symbol coded there
is no byte (R284, R312). MEL.INITENC, MEL.PUT of each symbol and MEL.FLUSH write the bytes `melStream` of the symbols. -/
def Obligations.MelFlushCompletes : Prop :=
  (∀ s : State, s.status.cmode = .mele → HasRoom s 1 →
    ∃ (r : SegRegs) (m : Memory),
      exec .melFlush s = .next (State.complete { s with
        status := { s.status with cmode := .idle }
        out := { s.out with nbytes := r.bp }
        seg := r, mem := m }) ∧
      r = { s.seg with c := r.c, ct := r.ct, b := r.b, bp := r.bp, melRun := 0 } ∧
      (let x := melAppend (if s.seg.melRun = 0 then [] else [true]) (s.seg, s.mem)
       let full : BitVec 4 := if 1 ≤ x.1.bp.toNat ∧ x.1.b = 0xFF then 7 else 8
       let y := if x.1.ct < full then melAppend (List.replicate x.1.ct.toNat true) x else x
       r = { y.1 with melRun := 0 } ∧ m = y.2) ∧
      s.seg.bp.toNat ≤ r.bp.toNat ∧ r.bp.toNat ≤ s.seg.bp.toNat + 1 ∧
      SameOutside s { s with mem := m } (byteAddr s.seg.outOffset) (byteAddr r.outOffset)) ∧
  (∀ s : State, ∃ t, execAll [.melInitenc, .melFlush] s = .next t ∧ t.out.nbytes = 0 ∧ t.mem = s.mem) ∧
  (∀ (syms : List Bool) (s : State), s.cfg.segbase.toNat + (melStream syms).length ≤ Config.byteCap →
    ∃ t, execAll (.melInitenc :: syms.map .melPut ++ [.melFlush]) s = .next t ∧ t.status.err = s.status.err ∧
      t.out.nbytes = BitVec.ofNat 32 (melStream syms).length ∧
      ∀ j < (melStream syms).length, t.mem.getByte (byteAddr (s.cfg.segbase.toNat + j)) = (melStream syms)[j]?)

/-- MEL.GET on a written segment completes without writing memory: a 0 of a pending run, then its pending 1, and only then bits: a
bit 1, a hit, gives a run of T(k) zeros and moves k up; a bit 0 and a run length of E[k] bits move k down (R287, R314). After
MEL.INITDEC, n MEL.GETs return the symbols `melSymbols` reads from the segment's bytes; of the bytes of `melStream` these are the
symbols that were coded (R288). -/
def Obligations.MelGetCompletes : Prop :=
  (∀ s : State, s.status.cmode = .meld → SegmentWritten s →
    ∃ (d : Bool) (r : SegRegs),
      exec .melGet s = .next (State.complete { s with
        out := { s.out with result := if d then 1 else 0 }, seg := r }) ∧
      (s.seg.melRun ≠ 0 → d = false ∧ r = { s.seg with melRun := s.seg.melRun - 1 }) ∧
      (s.seg.melRun = 0 → s.seg.onePend = true → d = true ∧ r = { s.seg with onePend := false }) ∧
      (s.seg.melRun = 0 → s.seg.onePend = false →
        r = { s.seg with c := r.c, ct := r.ct, bp := r.bp, fillcnt := r.fillcnt, melK := r.melK, melRun := r.melRun,
                         onePend := r.onePend } ∧
        ((r.melK.val = min (s.seg.melK.val + 1) 12 ∧ d = false ∧ r.melRun.toNat = melThreshold s.seg.melK - 1 ∧
            r.onePend = false) ∨
          (r.melK.val = s.seg.melK.val - 1 ∧ d = true ∧ r.melRun = 0 ∧ r.onePend = false) ∨
          (r.melK.val = s.seg.melK.val - 1 ∧ d = false ∧ r.melRun.toNat + 1 < melThreshold s.seg.melK ∧
            r.onePend = true)) ∧
        (let b := melTake s.mem s.seg
         let x := melTakeMore s.mem (printedMelE.getD s.seg.melK.val 0) 0 b.2
         if b.1 then d = false ∧
           r = { b.2 with melK := melUp s.seg.melK, melRun := BitVec.ofNat 16 (melThreshold s.seg.melK - 1) }
         else if x.1 = 0 then d = true ∧ r = { x.2 with melK := melDown s.seg.melK }
         else d = false ∧
           r = { x.2 with melK := melDown s.seg.melK, melRun := BitVec.ofNat 16 (x.1 - 1), onePend := true }))) ∧
  (∀ (n : Nat) (s : State), n ≤ 2 ^ 31 → s.cfg.segbase.toNat + s.cfg.seglen.toNat ≤ Config.byteCap → CfgSegmentWritten s →
    ∃ u, exec .melInitdec s = .next u ∧ u.status.err = s.status.err ∧
      melResults n u = some (melSymbols n (cfgSegmentBytes s))) ∧
  (∀ syms : List Bool, melSymbols syms.length (melStream syms) = syms)

/-! ### The coordinator (46_coordinator.md) -/

/-- Block validation raises E_CONFIG with nothing changed but STATUS (R320 steps 2 to 6): the reserved style bit; in CB.ENCODE a
coefficient not below 2^P, all being written; in CB.DECODE more passes than the block has, a segment past BYTE memory, or, the
entries being written, a segment end smaller than the one before it (step 6), in Part 1 mode and in HT mode. -/
def Obligations.BlockValidation : Prop :=
  ∀ s : State, s.cfg.badShape = false →
    (s.cfg.styleReserved = true →
      exec .cbEncode s = .next (s.takeError .config) ∧ exec .cbDecode s = .next (s.takeError .config)) ∧
    (CoefsWritten s → (∃ i < s.cfg.w * s.cfg.h, ∃ q ∈ s.mem.getWord (coefAddr i), 2 ^ s.cfg.p ≤ q.toInt.natAbs) →
      exec .cbEncode s = .next (s.takeError .config)) ∧
    ((if s.cfg.p = 0 then 0 else if s.cfg.ht then (if s.cfg.p = 1 then 1 else 3) else 3 * s.cfg.p - 2) <
        s.cfg.npass.toNat →
      exec .cbDecode s = .next (s.takeError .config)) ∧
    (Config.byteCap < s.cfg.segbase.toNat + s.cfg.seglen.toNat → exec .cbDecode s = .next (s.takeError .config)) ∧
    (s.cfg.ht = false → ∀ ends : List Nat, (usedSegments s).map (fun ab => segEnd s ab.2) = ends.map some →
      ¬ ends.Pairwise (· ≤ ·) → exec .cbDecode s = .next (s.takeError .config)) ∧
    (s.cfg.ht = true → 2 ≤ s.cfg.npass.toNat → ∀ v0 v1 : Word, s.mem.getWord (segtabAddr 0) = some v0 →
      s.mem.getWord (segtabAddr (s.cfg.npass.toNat - 1)) = some v1 → tabEnd s v1 < tabEnd s v0 →
      exec .cbDecode s = .next (s.takeError .config))

/-- CB.ENCODE of a block with P = 0 in Part 1 mode, with room for two bytes: the two bytes 0xFF 0x7F, NBYTES 2, NPASSOUT 0, CMODE
IDLE, the flags and arrays cleared, and no other byte of memory changed (R328). -/
def Obligations.CbEncodeZeroPlanes : Prop :=
  ∀ s : State, s.cfg.badShape = false → s.cfg.styleReserved = false → s.cfg.ht = false → s.cfg.p = 0 →
    CoefsLegal s → s.cfg.segbase.toNat + 2 ≤ Config.byteCap →
    ∃ (r : SegRegs) (m : Memory),
      exec .cbEncode s = .next (State.complete { s with
        status := { s.status with cmode := .idle, partialRes := false, segmis := false, trunc := false }
        out := { s.out with nbytes := 2, npassout := 0 }
        seg := r, ctx := initialCtx, arr := clearedArrays, mem := m }) ∧
      m.getByte (byteAddr s.cfg.segbase.toNat) = some 0xFF ∧
      m.getByte (byteAddr (s.cfg.segbase.toNat + 1)) = some 0x7F ∧
      SameOutside s { s with mem := m } (byteAddr s.cfg.segbase.toNat) (byteAddr (s.cfg.segbase.toNat + 2))

/-- CB.ENCODE of a legal Part 1 block with P ≥ 1 and room for the bytes it can take at most completes with all 3·P − 2 passes: the
SEGTAB entry of every pass is written: 0xFFFFFFFF where the pass ends no segment, else an end offset of at most NBYTES, not falling
from pass to pass, and NBYTES for the last; memory changes only in those entries and in the block's bytes with one dropped byte
after them (R327, R328, R350). A host that runs the block pass by pass leaves the same BYTE bytes, contexts, arrays and coder
registers, and the end of each segment is where its next one would start (44_bitplane_coder.md R266). -/
def Obligations.CbEncodeCompletes : Prop :=
  ∀ s : State, s.cfg.badShape = false → s.cfg.styleReserved = false → s.cfg.ht = false → 1 ≤ s.cfg.p →
    CoefsLegal s → s.cfg.segbase.toNat + blockRoom s.cfg ≤ Config.byteCap →
    ∃ (n : Word) (r : SegRegs) (ctx : Vector CtxEntry 19) (arr : Arrays) (m : Memory),
      exec .cbEncode s = .next (State.complete { s with
        status := { s.status with cmode := .idle, partialRes := false, segmis := false, trunc := false }
        out := { s.out with nbytes := n, npassout := BitVec.ofNat 8 (3 * s.cfg.p - 2) }
        seg := r, ctx := ctx, arr := arr, mem := m }) ∧
      n.toNat ≤ blockRoom s.cfg ∧
      m.getWord (segtabAddr (3 * s.cfg.p - 3)) = some n ∧
      (∀ k < 3 * s.cfg.p - 2, ¬ endsSegment s.cfg (3 * s.cfg.p - 2) k → m.getWord (segtabAddr k) = some 0xFFFFFFFF) ∧
      (∀ k < 3 * s.cfg.p - 2, endsSegment s.cfg (3 * s.cfg.p - 2) k →
        ∃ v ∈ m.getWord (segtabAddr k), v.toNat ≤ n.toNat ∧
          ∀ j < k, endsSegment s.cfg (3 * s.cfg.p - 2) j → ∃ u ∈ m.getWord (segtabAddr j), u.toNat ≤ v.toNat) ∧
      (∃ t u, hostStart s = some t ∧ hostEncode s.cfg.segments t = some u ∧
        r = u.seg ∧ ctx = u.ctx ∧ arr = u.arr ∧
        (∀ a, ¬ (segtabAddr 0 ≤ a ∧ a < segtabAddr (3 * s.cfg.p - 2)) → m.getByte a = u.mem.getByte a) ∧
        (∀ l ab rest, s.cfg.segments = l ++ ab :: rest →
          ∃ v, hostEncode (l ++ [ab]) t = some v ∧ m.getWord (segtabAddr ab.2) = some (v.cfg.segbase - s.cfg.segbase))) ∧
      arr.mag = [] ∧
      (∀ a, ¬ (segtabAddr 0 ≤ a ∧ a < segtabAddr (3 * s.cfg.p - 2)) →
        ¬ (byteAddr s.cfg.segbase.toNat ≤ a ∧ a < byteAddr (s.cfg.segbase.toNat + n.toNat + 1)) →
        m.getByte a = s.mem.getByte a)

/-- CB.ENCODE of a legal HT block: with P = 0 no byte; else the bytes of HTCodec.encode from SEGBASE on, NBYTES and SEGTAB[0] their
number and NPASSOUT 1, when they fit; when they do not, E_OVERFLOW with the bytes that fit in memory (R329, R350). -/
def Obligations.CbEncodeHt : Prop :=
  ∀ (s : State) (q : List Int), s.cfg.badShape = false → s.cfg.styleReserved = false → s.cfg.ht = true →
    q.length = s.cfg.w * s.cfg.h → (∀ v ∈ q, v.natAbs < 2 ^ s.cfg.p) →
    (∀ i v, q[i]? = some v → s.mem.getWord (coefAddr i) = some (BitVec.ofInt 32 v)) →
    let b := htCodec.codec.encode s.cfg.w s.cfg.h s.cfg.p s.cfg.vcausal q
    let base := s.cfg.segbase.toNat
    (s.cfg.p = 0 → exec .cbEncode s = .next (State.complete { s with
      status := { s.status with cmode := .idle, partialRes := false, segmis := false, trunc := false }
      out := { s.out with nbytes := 0, npassout := 0 }
      ctx := initialCtx, arr := clearedArrays })) ∧
    (1 ≤ s.cfg.p →
      if base + b.length ≤ Config.byteCap then
        ∃ m : Memory, exec .cbEncode s = .next (State.complete { s with
            status := { s.status with cmode := .idle, partialRes := false, segmis := false, trunc := false }
            out := { s.out with nbytes := BitVec.ofNat 32 b.length, npassout := 1 }
            seg := { s.seg with start := s.cfg.segbase, bp := BitVec.ofNat 32 b.length }
            ctx := initialCtx, arr := clearedArrays, mem := m }) ∧
          (∀ j < b.length, m.getByte (byteAddr (base + j)) = b[j]?) ∧
          m.getWord (segtabAddr 0) = some (BitVec.ofNat 32 b.length) ∧
          (∀ a, ¬ (segtabAddr 0 ≤ a ∧ a < segtabAddr 1) → ¬ (byteAddr base ≤ a ∧ a < byteAddr (base + b.length)) →
            m.getByte a = s.mem.getByte a)
      else
        ∃ t : State, exec .cbEncode s = .next (t.takeError .overflow) ∧ t.out = s.out ∧
          (∀ j, base + j < Config.byteCap → t.mem.getByte (byteAddr (base + j)) = b[j]?) ∧
          SameOutside s t (byteAddr base) (byteAddr Config.byteCap))

/-- CB.DECODE of no pass (NPASS = 0), in both modes: every coefficient is 0, NPASSOUT is 0, PARTIAL says whether the block has a
pass, and nothing but COEF, the arrays, the contexts and STATUS changes (R330, R345). -/
def Obligations.CbDecodeNoPass : Prop :=
  ∀ s : State, s.cfg.badShape = false → s.cfg.styleReserved = false → s.cfg.npass = 0 →
    s.cfg.segbase.toNat + s.cfg.seglen.toNat ≤ Config.byteCap →
    ∃ m : Memory, exec .cbDecode s = .next (State.complete { s with
        status := { s.status with cmode := .idle, partialRes := decide (1 ≤ s.cfg.p), segmis := false, trunc := false }
        out := { s.out with npassout := 0 }
        ctx := initialCtx, arr := clearedArrays, mem := m }) ∧
      (∀ i < s.cfg.w * s.cfg.h, m.getWord (coefAddr i) = some 0) ∧
      SameOutside s { s with mem := m } (coefAddr 0) (coefAddr (s.cfg.w * s.cfg.h))

/-- CB.DECODE of a valid Part 1 block whose segment bytes are written: it stores every coefficient from SIGN and MAG, changes no
other byte, sets NPASSOUT to the passes done, and reports truncation as R345 says: with TOLERATE = 1 by TRUNC and PARTIAL, with
TOLERATE = 0 by TRUNC and E_TRUNCATED; without truncation all NPASS passes are done and PARTIAL says whether the block has more.
It is truncated exactly when the segment that the next pass starts has its end past SEGLEN, or the last pass done ended with
FILLCNT above TRUNC_FILL_LIMIT (R341); no segment that was started has its end past SEGLEN. The segments are those of
44_bitplane_coder.md R262. A host that runs the passes done one by one leaves the same arrays, contexts, coder registers and
SEGMIS (44_bitplane_coder.md R266). -/
def Obligations.CbDecodeCompletes : Prop :=
  (∀ (c : Cfg) (a b : Nat), (a, b) ∈ c.segments ↔ IsSegment c (3 * c.p - 2) a b) ∧
  (∀ s : State, s.cfg.badShape = false → s.cfg.styleReserved = false → s.cfg.ht = false →
    s.cfg.npass.toNat ≤ 3 * s.cfg.p - 2 → s.cfg.segbase.toNat + s.cfg.seglen.toNat ≤ Config.byteCap →
    CfgSegmentWritten s → SegtabFits s →
    ∃ (n : Nat) (tr sm : Bool) (r : SegRegs) (ctx : Vector CtxEntry 19) (arr : Arrays) (m : Memory),
      let t : State := { s with
        status := { s.status with
          cmode := .idle, segmis := sm, trunc := tr
          partialRes := if tr then s.cfg.tolerate else decide (s.cfg.npass.toNat < 3 * s.cfg.p - 2) }
        out := { s.out with npassout := BitVec.ofNat 8 n }
        seg := r, ctx := ctx, arr := arr, mem := m }
      exec .cbDecode s = .next (if tr = true ∧ s.cfg.tolerate = false then t.takeError .truncated else t.complete) ∧
      n ≤ s.cfg.npass.toNat ∧ (tr = false → n = s.cfg.npass.toNat) ∧
      (tr = true ↔
        (∃ ab ∈ usedSegments s, ab.1 = n ∧ ∃ e ∈ segEnd s ab.2, s.cfg.seglen.toNat < e) ∨
          (1 ≤ n ∧ Config.truncFillLimit < r.fillcnt.toNat)) ∧
      (∀ ab ∈ usedSegments s, ab.1 < n → ∃ e ∈ segEnd s ab.2, e ≤ s.cfg.seglen.toNat) ∧
      (∃ t0 u, hostStart s = some t0 ∧ hostDecode s n (usedSegments s) 0 t0 = some u ∧
        r = u.seg ∧ ctx = u.ctx ∧ arr = u.arr ∧ sm = u.status.segmis) ∧
      (sm = true → s.cfg.segmark = true) ∧
      (∀ i < s.cfg.w * s.cfg.h, m.getWord (coefAddr i) = some (arr.value i)) ∧
      SameOutside s { s with mem := m } (coefAddr 0) (coefAddr (s.cfg.w * s.cfg.h)))

/-- Definite truncation before the first pass: with NPASS ≥ 1 and the first segment's end, from SEGTAB, past SEGLEN, CB.DECODE
decodes nothing: every coefficient is 0, NPASSOUT is 0 and TRUNC is set; TOLERATE = 1 adds PARTIAL, TOLERATE = 0 raises
E_TRUNCATED (R341, R345). -/
def Obligations.CbDecodeTruncatedAtStart : Prop :=
  ∀ (s : State) (b e : Nat), s.cfg.badShape = false → s.cfg.styleReserved = false → s.cfg.ht = false →
    1 ≤ s.cfg.npass.toNat → s.cfg.npass.toNat ≤ 3 * s.cfg.p - 2 →
    s.cfg.segbase.toNat + s.cfg.seglen.toNat ≤ Config.byteCap → SegtabFits s →
    IsSegment s.cfg (3 * s.cfg.p - 2) 0 b → segEnd s b = some e → s.cfg.seglen.toNat < e →
    ∃ m : Memory,
      let t : State := { s with
        status := { s.status with cmode := .idle, partialRes := s.cfg.tolerate, segmis := false, trunc := true }
        out := { s.out with npassout := 0 }
        ctx := initialCtx, arr := clearedArrays, mem := m }
      exec .cbDecode s = .next (if s.cfg.tolerate then t.complete else t.takeError .truncated) ∧
      (∀ i < s.cfg.w * s.cfg.h, m.getWord (coefAddr i) = some 0) ∧
      SameOutside s { s with mem := m } (coefAddr 0) (coefAddr (s.cfg.w * s.cfg.h))

/-- CB.DECODE of an HT block for every legal NPASS ≥ 1, the bytes of the segments that are present being written. The ends e0 and
e1 are SEGTAB[0] and SEGTAB[NPASS − 1], 0xFFFFFFFF meaning SEGLEN. With e0 past SEGLEN no pass is decoded; with e1 past it the
cleanup alone; else all NPASS. HTCodec.decode of the bytes decides, with Z = 0 for NPASS = 1 and Z = 1 otherwise; Malformed raises
E_HT_MALFORMED with COEF unchanged and the arrays cleared, whatever TOLERATE is; Ok gives MAG and SIGN, SIG where MAG is not 0,
and the coefficients they stand for. Truncation sets TRUNC, and PARTIAL with TOLERATE = 1 or E_TRUNCATED with TOLERATE = 0 (R345,
R347, 60_exceptions.md R367). -/
def Obligations.CbDecodeHt : Prop :=
  ∀ (s : State) (v0 v1 : Word) (cup ref : List Byte), s.cfg.badShape = false → s.cfg.styleReserved = false → s.cfg.ht = true →
    1 ≤ s.cfg.p → 1 ≤ s.cfg.npass.toNat → s.cfg.npass.toNat ≤ (if s.cfg.p = 1 then 1 else 3) →
    s.cfg.segbase.toNat + s.cfg.seglen.toNat ≤ Config.byteCap →
    s.mem.getWord (segtabAddr 0) = some v0 → s.mem.getWord (segtabAddr (s.cfg.npass.toNat - 1)) = some v1 →
    tabEnd s v0 ≤ tabEnd s v1 →
    (tabEnd s v0 ≤ s.cfg.seglen.toNat →
      (List.range (tabEnd s v0)).map (fun j => s.mem.getByte (byteAddr (s.cfg.segbase.toNat + j))) = cup.map some) →
    (tabEnd s v1 ≤ s.cfg.seglen.toNat →
      (List.range (tabEnd s v1 - tabEnd s v0)).map
        (fun j => s.mem.getByte (byteAddr (s.cfg.segbase.toNat + tabEnd s v0 + j))) = ref.map some) →
    let done := if s.cfg.seglen.toNat < tabEnd s v0 then 0 else if s.cfg.seglen.toNat < tabEnd s v1 then 1
      else s.cfg.npass.toNat
    let tr := decide (s.cfg.seglen.toNat < tabEnd s v1)
    match if done = 0 then .ok (List.replicate (s.cfg.w * s.cfg.h) ⟨0, false⟩)
      else htCodec.codec.decode s.cfg.w s.cfg.h s.cfg.p s.cfg.vcausal (if s.cfg.npass.toNat = 1 then 0 else 1) done cup
        (if 2 ≤ done then ref else []) with
    | .malformed => exec .cbDecode s = .next (State.takeError { s with
        status := { s.status with partialRes := false, segmis := false, trunc := false }
        ctx := initialCtx, arr := clearedArrays } .htMalformed)
    | .ok r =>
      ∃ (arr : Arrays) (m : Memory),
        let t : State := { s with
          status := { s.status with cmode := .idle, partialRes := tr && s.cfg.tolerate, segmis := false, trunc := tr }
          out := { s.out with npassout := BitVec.ofNat 8 done }
          ctx := initialCtx, arr := arr, mem := m }
        exec .cbDecode s = .next (if tr = true ∧ s.cfg.tolerate = false then t.takeError .truncated else t.complete) ∧
        arr.visited = 0 ∧ arr.refined = 0 ∧
        (∀ i x, r[i]? = some x → magGet arr.mag i = x.mag ∧ arr.sgn.getLsbD i = x.neg ∧
          arr.sig.getLsbD i = !(x.mag == 0) ∧
          m.getWord (coefAddr i) = some (if x.neg then -(x.mag.zeroExtend 32) else x.mag.zeroExtend 32)) ∧
        SameOutside s { s with mem := m } (coefAddr 0) (coefAddr (s.cfg.w * s.cfg.h))

/-- HT round trip: CB.ENCODE of a legal HT block, when its bytes fit, then CB.DECODE with NPASS = NPASSOUT and SEGLEN = NBYTES,
writes the original coefficients with PARTIAL = 0 and TRUNC = 0; when they do not fit, CB.ENCODE raises E_OVERFLOW (R349 item 1
for HT, from HTCodec's law 45_ht_block_coder.md R297). -/
def Obligations.HtBlockRoundTrip : Prop :=
  ∀ (s : State) (q : List Int), s.cfg.badShape = false → s.cfg.styleReserved = false → s.cfg.ht = true → 1 ≤ s.cfg.p →
    q.length = s.cfg.w * s.cfg.h → (∀ v ∈ q, v.natAbs < 2 ^ s.cfg.p) →
    (∀ i v, q[i]? = some v → s.mem.getWord (coefAddr i) = some (BitVec.ofInt 32 v)) →
    ∃ t, exec .cbEncode s = .next t ∧
      if s.cfg.segbase.toNat + (htCodec.codec.encode s.cfg.w s.cfg.h s.cfg.p s.cfg.vcausal q).length ≤ Config.byteCap then
        ∃ u, exec .cbDecode { t with cfg := { t.cfg with npass := t.out.npassout, seglen := t.out.nbytes } } = .next u ∧
          u.status.err = s.status.err ∧ u.status.partialRes = false ∧ u.status.trunc = false ∧
          ∀ i v, q[i]? = some v → u.mem.getWord (coefAddr i) = some (BitVec.ofInt 32 v)
      else t.status.err = some .overflow

/-! ### Rules of the whole machine -/

/-- Every command, from every state, ends in a next state or in the fault of an engine read of unwritten memory; it is never
refused; and in the next state BUSY is 0, DONE is 1, the configuration and the host's list are as before (70_reset_and_hazards.md
R404, R405). -/
def Obligations.CommandsComplete : Prop :=
  ∀ (i : Instr) (s : State),
    exec i s = .fault .engineReadUnwritten ∨
      ∃ t, exec i s = .next t ∧ t.status.inflight = none ∧ t.status.done = true ∧ t.cfg = s.cfg ∧ t.bus = s.bus

/-- Which commands write what: RESULT only those R32 names, NBYTES only the encoder terminations and CB.ENCODE (R33), NPASSOUT only
CB.ENCODE and CB.DECODE (R34); COEF only BPC.STORE and CB.DECODE, SEGTAB only CB.ENCODE, BYTE only the commands that emit bytes
(20_memory.md R72 to R74; 60_exceptions.md R361 row 0x06). -/
def Obligations.OnlyNamedCommandsWrite : Prop :=
  ∀ (i : Instr) (s t : State), exec i s = .next t →
    (writesResult i = false → t.out.result = s.out.result) ∧
    (writesNbytes i = false → t.out.nbytes = s.out.nbytes) ∧
    (isBlock i = false → t.out.npassout = s.out.npassout) ∧
    (i ≠ .bpcStore → i ≠ .cbDecode → ∀ a, 0x04000 ≤ a → a < 0x08000 → t.mem.getByte a = s.mem.getByte a) ∧
    (i ≠ .cbEncode → ∀ a, 0x01000 ≤ a → a < 0x01200 → t.mem.getByte a = s.mem.getByte a) ∧
    (emitsBytes i = false → ∀ a, 0x10000 ≤ a → t.mem.getByte a = s.mem.getByte a)

/-- Only BPC.CLEAR and the start of CB.ENCODE and CB.DECODE set an element of SIG to 0 (10_state.md R46). -/
def Obligations.SignificanceMonotone : Prop :=
  ∀ (i : Instr) (s t : State), exec i s = .next t → i ≠ .bpcClear → isBlock i = false →
    ∀ j, s.arr.sig.getLsbD j = true → t.arr.sig.getLsbD j = true

/-- E_OVERFLOW at the first byte that does not fit: only the commands that emit bytes raise it, with S + MQ_BP at BYTE_CAP or past
it in the state it is raised in, and with NBYTES, NPASSOUT and RESULT as they were (60_exceptions.md R361 row 0x06, R364). -/
def Obligations.OverflowKeepsOutputs : Prop :=
  ∀ (i : Instr) (s t : State), exec i s = .next t → s.status.err = none → t.status.err = some .overflow →
    emitsBytes i = true ∧ t.out = s.out ∧ Config.byteCap ≤ t.seg.start.toNat + t.seg.bp.toNat

/-- A command on one engine of a system depends on no other engine and changes no other (60_exceptions.md R384). -/
def Obligations.EnginesIsolated : Prop :=
  ∀ (sys sys' : List State) (k : Nat) (s t : State), sys[k]? = some s → sys'[k]? = some s → step s = .next t →
    ∃ out out', systemStep k sys = .next out ∧ systemStep k sys' = .next out' ∧
      out[k]? = some t ∧ out'[k]? = some t ∧
      (∀ j, j ≠ k → out[j]? = sys[j]? ∧ out'[j]? = sys'[j]?)

/-! ### Invariants -/

/-- Every step keeps memory's one form, addresses strictly rising, and stores nothing outside SEGTAB, COEF and BYTE
(20_memory.md R70, R76). -/
def Obligations.StepKeepsMemory : Prop :=
  ∀ s t : State, step s = .next t → s.mem.wf → MemoryMapped s → t.mem.wf ∧ MemoryMapped t

/-- Every step keeps the arrays' invariant: SIGN, MAG and REFINED are 0 wherever SIG is 0, and MAG is in its one form
(10_state.md R46 to R50). -/
def Obligations.StepKeepsArrays : Prop :=
  ∀ s t : State, step s = .next t → ArraysWf s.arr → ArraysWf t.arr

/-- Every step keeps the reserved bits of CFG_CODE at 0 (10_state.md R27) and the latched decoder segment inside BYTE memory
(42_mq_coder.md R194, 46_coordinator.md R320 step 5). -/
def Obligations.StepKeepsRegisters : Prop :=
  ∀ s t : State, step s = .next t → RegistersWf s → RegistersWf t

/-- The three invariants hold in the state after reset. -/
def Obligations.ResetMeetsInvariants : Prop := EngineWf State.reset
end

