-- ==== Sys2Proof/Laws/Cmd.lean ====
section
/-!
SUPPORT. The laws of commands: how the pieces of a command run, two ways to say what a command does (`Keeps`: whatever it answers,
the state moves along a relation; `Ends`: it runs to its end), and what a whole command can answer.
-/
namespace Sys2Proof.Laws

open Sys2Proof.Machine

/-! ### How the pieces run -/

@[simp] theorem pure_run {α : Type} (a : α) (s : State) : (pure a : Cmd α) s = .ok a s := rfl
@[simp] theorem see_run {α : Type} (f : State → α) (s : State) : see f s = .ok (f s) s := rfl
@[simp] theorem upd_run (f : State → State) (s : State) : upd f s = .ok () (f s) := rfl
@[simp] theorem raise_run {α : Type} (e : ErrCode) (s : State) : (raise e : Cmd α) s = .error (.err e) s := rfl
@[simp] theorem faultOut_run {α : Type} (f : Fault) (s : State) : (faultOut f : Cmd α) s = .error (.fault f) s := rfl
@[simp] theorem updSeg_run (f : SegRegs → SegRegs) (s : State) : updSeg f s = .ok () { s with seg := f s.seg } := rfl
@[simp] theorem updArr_run (f : Arrays → Arrays) (s : State) : updArr f s = .ok () { s with arr := f s.arr } := rfl
@[simp] theorem setMode_run (m : CMode) (s : State) :
    setMode m s = .ok () { s with status := { s.status with cmode := m } } := rfl
@[simp] theorem setResult_run (v : Word) (s : State) :
    setResult v s = .ok () { s with out := { s.out with result := v } } := rfl
@[simp] theorem setNbytes_run (v : Word) (s : State) :
    setNbytes v s = .ok () { s with out := { s.out with nbytes := v } } := rfl
@[simp] theorem setNpassout_run (v : Nat) (s : State) :
    setNpassout v s = .ok () { s with out := { s.out with npassout := BitVec.ofNat 8 v } } := rfl
@[simp] theorem memWriteWord_run (a : Nat) (v : Word) (s : State) :
    memWriteWord a v s = .ok () { s with mem := s.mem.setWord a v } := rfl
@[simp] theorem memWriteByte_run (a : Nat) (v : Byte) (s : State) :
    memWriteByte a v s = .ok () { s with mem := s.mem.setByte a v } := rfl

/-- A check raises its error or does nothing (60_exceptions.md R363). -/
theorem check_run (bad : Bool) (e : ErrCode) (s : State) :
    check bad e s = if bad then .error (.err e) s else .ok () s := by
  cases bad <;> rfl

/-- Sequencing. -/
theorem bind_run {α β : Type} (c : Cmd α) (f : α → Cmd β) (s : State) :
    (c >>= f) s = match c s with
      | .ok a t => f a t
      | .error e t => .error e t := by
  show EStateM.bind c f s = _
  unfold EStateM.bind
  cases c s <;> rfl

theorem bind_of_ok {α β : Type} {c : Cmd α} {s t : State} {a : α} (h : c s = .ok a t) (f : α → Cmd β) :
    (c >>= f) s = f a t := by rw [bind_run, h]

theorem bind_of_error {α β : Type} {c : Cmd α} {s t : State} {e : Stop} (h : c s = .error e t) (f : α → Cmd β) :
    (c >>= f) s = .error e t := by rw [bind_run, h]

theorem bind_eq_ok {α β : Type} {c : Cmd α} {f : α → Cmd β} {s u : State} {b : β} :
    (c >>= f) s = .ok b u ↔ ∃ a t, c s = .ok a t ∧ f a t = .ok b u := by
  rw [bind_run]
  cases h : c s with
  | ok a t => simp
  | error e t => simp

theorem bind_eq_error {α β : Type} {c : Cmd α} {f : α → Cmd β} {s u : State} {e : Stop} :
    (c >>= f) s = .error e u ↔ c s = .error e u ∨ ∃ a t, c s = .ok a t ∧ f a t = .error e u := by
  rw [bind_run]
  cases h : c s with
  | ok a t => simp
  | error e' t => simp

@[simp] theorem see_bind {α β : Type} (g : State → α) (f : α → Cmd β) (s : State) : (see g >>= f) s = f (g s) s := rfl
@[simp] theorem upd_bind {β : Type} (g : State → State) (f : Unit → Cmd β) (s : State) :
    (upd g >>= f) s = f () (g s) := rfl
@[simp] theorem updSeg_bind {β : Type} (g : SegRegs → SegRegs) (f : Unit → Cmd β) (s : State) :
    (updSeg g >>= f) s = f () { s with seg := g s.seg } := rfl
@[simp] theorem updArr_bind {β : Type} (g : Arrays → Arrays) (f : Unit → Cmd β) (s : State) :
    (updArr g >>= f) s = f () { s with arr := g s.arr } := rfl
@[simp] theorem pure_bind_run {α β : Type} (a : α) (f : α → Cmd β) (s : State) :
    ((pure a : Cmd α) >>= f) s = f a s := rfl

@[simp] theorem forEach_nil {α : Type} (f : α → Cmd Unit) : forEach [] f = pure () := rfl
theorem forEach_cons {α : Type} (x : α) (l : List α) (f : α → Cmd Unit) :
    forEach (x :: l) f = (do f x; forEach l f) := rfl

/-! ### Whatever a command answers -/

/-- However c ends from s, it leaves a state t with R s t. -/
structure Keeps (R : State → State → Prop) {α : Type} (c : Cmd α) : Prop where
  run : ∀ s, match c s with
    | .ok _ t => R s t
    | .error _ t => R s t

/-- A relation a sequence of steps keeps. -/
structure Chains (R : State → State → Prop) : Prop where
  refl : ∀ s, R s s
  trans : ∀ {s t u}, R s t → R t u → R s u

/-- Keeping an invariant is such a relation. -/
theorem Chains.ofInv (I : State → Prop) : Chains fun s t => I s → I t :=
  ⟨fun _ h => h, fun h1 h2 h => h2 (h1 h)⟩

/-- So is leaving the value of a function of the state alone. -/
theorem Chains.ofEq {α : Type} (f : State → α) : Chains fun s t => f t = f s :=
  ⟨fun _ => rfl, fun h1 h2 => h2.trans h1⟩

variable {R : State → State → Prop} {α β : Type}

theorem Keeps.ok {c : Cmd α} (h : Keeps R c) {s t : State} {a : α} (e : c s = .ok a t) : R s t := by
  have := h.run s; rwa [e] at this

theorem Keeps.error {c : Cmd α} (h : Keeps R c) {s t : State} {x : Stop} (e : c s = .error x t) : R s t := by
  have := h.run s; rwa [e] at this

theorem Keeps.pure (hR : Chains R) (a : α) : Keeps R (Pure.pure a : Cmd α) := ⟨fun s => hR.refl s⟩
theorem Keeps.see (hR : Chains R) (f : State → α) : Keeps R (see f) := ⟨fun s => hR.refl s⟩
theorem Keeps.raise (hR : Chains R) (e : ErrCode) : Keeps R (raise e : Cmd α) := ⟨fun s => hR.refl s⟩
theorem Keeps.faultOut (hR : Chains R) (f : Fault) : Keeps R (faultOut f : Cmd α) := ⟨fun s => hR.refl s⟩
theorem Keeps.upd {f : State → State} (h : ∀ s, R s (f s)) : Keeps R (upd f) := ⟨h⟩
theorem Keeps.updSeg {f : SegRegs → SegRegs} (h : ∀ s : State, R s { s with seg := f s.seg }) : Keeps R (updSeg f) := ⟨h⟩
theorem Keeps.updArr {f : Arrays → Arrays} (h : ∀ s : State, R s { s with arr := f s.arr }) : Keeps R (updArr f) := ⟨h⟩

theorem Keeps.bind (hR : Chains R) {c : Cmd α} {f : α → Cmd β} (hc : Keeps R c) (hf : ∀ a, Keeps R (f a)) :
    Keeps R (c >>= f) := by
  refine ⟨fun s => ?_⟩
  have h1 := hc.run s
  rw [bind_run]
  cases h : c s with
  | ok a t =>
      rw [h] at h1
      have h2 := (hf a).run t
      simp only
      cases h3 : f a t with
      | ok b u => rw [h3] at h2; exact hR.trans h1 h2
      | error e u => rw [h3] at h2; exact hR.trans h1 h2
  | error e t => rw [h] at h1; exact h1

theorem Keeps.ite {p : Prop} [Decidable p] {c d : Cmd α} (hc : Keeps R c) (hd : Keeps R d) :
    Keeps R (if p then c else d) := by
  split <;> assumption

theorem Keeps.check (hR : Chains R) (bad : Bool) (e : ErrCode) : Keeps R (check bad e) := by
  unfold Sys2Proof.Machine.check
  exact .ite (.raise hR e) (.pure hR ())

theorem Keeps.forEach (hR : Chains R) {l : List β} {f : β → Cmd Unit} (h : ∀ x ∈ l, Keeps R (f x)) :
    Keeps R (forEach l f) := by
  induction l with
  | nil => exact .pure hR ()
  | cons x l ih =>
      rw [forEach_cons]
      exact .bind hR (h x List.mem_cons_self) fun _ => ih fun y hy => h y (List.mem_cons_of_mem _ hy)

theorem Keeps.mono {R' : State → State → Prop} (h : ∀ s t, R s t → R' s t) {c : Cmd α} (hc : Keeps R c) : Keeps R' c := by
  refine ⟨fun s => ?_⟩
  have h1 := hc.run s
  cases e : c s <;> rw [e] at h1 <;> exact h _ _ h1

/-! ### A command that runs to its end -/

/-- From every state with P, c ends without an error or a fault, with its answer and state in Q. -/
def Ends (P : State → Prop) (c : Cmd α) (Q : α → State → Prop) : Prop :=
  ∀ s, P s → ∃ a t, c s = .ok a t ∧ Q a t

variable {P P' : State → Prop} {Q Q' : α → State → Prop} {V : β → State → Prop}

theorem Ends.weaken {c : Cmd α} (h : Ends P c Q) (hp : ∀ s, P' s → P s) (hq : ∀ a t, Q a t → Q' a t) : Ends P' c Q' :=
  fun s hs => let ⟨a, t, e, q⟩ := h s (hp s hs); ⟨a, t, e, hq a t q⟩

theorem Ends.pure (a : α) (h : ∀ s, P s → Q a s) : Ends P (Pure.pure a : Cmd α) Q := fun s hs => ⟨a, s, rfl, h s hs⟩
theorem Ends.see (f : State → α) (h : ∀ s, P s → Q (f s) s) : Ends P (see f) Q := fun s hs => ⟨_, s, rfl, h s hs⟩
theorem Ends.upd {W : Unit → State → Prop} (f : State → State) (h : ∀ s, P s → W () (f s)) : Ends P (upd f) W :=
  fun s hs => ⟨(), _, rfl, h s hs⟩

theorem Ends.bind {c : Cmd α} {f : α → Cmd β} (hc : Ends P c Q) (hf : ∀ a, Ends (Q a) (f a) V) : Ends P (c >>= f) V := by
  intro s hs
  obtain ⟨a, t, e, q⟩ := hc s hs
  obtain ⟨b, u, e2, v⟩ := hf a t q
  exact ⟨b, u, by rw [bind_of_ok e, e2], v⟩

theorem Ends.check {bad : Bool} {e : ErrCode} {W : Unit → State → Prop} (hb : bad = false) (h : ∀ s, P s → W () s) :
    Ends P (check bad e) W := by
  subst hb; exact fun s hs => ⟨(), s, rfl, h s hs⟩

/-- A loop: I l is what holds while the elements l are still to come. -/
theorem Ends.forEach {f : β → Cmd Unit} (I : List β → State → Prop)
    (step : ∀ x l, Ends (I (x :: l)) (f x) fun _ => I l) (l : List β) : Ends (I l) (forEach l f) fun _ => I [] := by
  induction l with
  | nil => exact .pure () fun _ h => h
  | cons x l ih => rw [forEach_cons]; exact .bind (step x l) fun _ => ih

/-! ### Whole commands (60_exceptions.md R360, 70_reset_and_hazards.md R404) -/

theorem runCmd_of_ok {c : Cmd Unit} {s t : State} (h : c s = .ok () t) : runCmd c s = .next t.complete := by
  simp [runCmd, h]

theorem runCmd_of_err {c : Cmd Unit} {s t : State} {e : ErrCode} (h : c s = .error (.err e) t) :
    runCmd c s = .next (t.takeError e) := by
  simp [runCmd, h]

theorem runCmd_of_fault {c : Cmd Unit} {s t : State} {f : Fault} (h : c s = .error (.fault f) t) :
    runCmd c s = .fault f := by
  simp [runCmd, h]

/-- A command that answers a next state has run to its end or raised one error. -/
theorem runCmd_eq_next {c : Cmd Unit} {s t : State} :
    runCmd c s = .next t ↔
      (∃ u, c s = .ok () u ∧ t = u.complete) ∨ ∃ e u, c s = .error (.err e) u ∧ t = u.takeError e := by
  unfold runCmd
  split <;> rename_i h <;> simp [h, eq_comm]

/-- A command faults only where a piece of it faults. -/
theorem runCmd_eq_fault {c : Cmd Unit} {s : State} {f : Fault} :
    runCmd c s = .fault f ↔ ∃ t, c s = .error (.fault f) t := by
  unfold runCmd
  split <;> rename_i h <;> simp [h]

/-- No command is refused. -/
theorem runCmd_ne_refused (c : Cmd Unit) (s : State) (r : Refusal) : runCmd c s ≠ .refused r := by
  unfold runCmd
  split <;> simp

end Sys2Proof.Laws
end

