-- ==== Sys2Proof/Laws/Memory.lean ====
section
/-!
SUPPORT. The laws of the sparse stores: read after write, every other place left alone, and the one canonical form kept.
-/
namespace Sys2Proof.Laws

open Sys2Proof.Machine

/-! ### Sparse stores -/

/-- A read after a write to the same key gives the value written. -/
@[simp] theorem sparseGet_set_same {α : Type} (l : List (Nat × α)) (a : Nat) (v : α) :
    sparseGet (sparseSet l a v) a = some v := by
  induction l with
  | nil => simp [sparseSet, sparseGet]
  | cons x l ih =>
      unfold sparseSet
      split_ifs with h1 h2
      · simp [sparseGet]
      · simp [sparseGet]
      · simpa [sparseGet, h1] using ih

/-- A write leaves every other key alone. -/
theorem sparseGet_set_ne {α : Type} (l : List (Nat × α)) {a b : Nat} (v : α) (h : b ≠ a) :
    sparseGet (sparseSet l a v) b = sparseGet l b := by
  induction l with
  | nil => simp [sparseSet, sparseGet, h]
  | cons x l ih =>
      unfold sparseSet
      split_ifs with h1 h2
      · subst h1; simp [sparseGet, h]
      · simp [sparseGet, h]
      · simp only [sparseGet, ih]

/-- What a key of the store reads after a write. -/
theorem sparseGet_set {α : Type} (l : List (Nat × α)) (a b : Nat) (v : α) :
    sparseGet (sparseSet l a v) b = if b = a then some v else sparseGet l b := by
  split_ifs with h
  · subst h; exact sparseGet_set_same l b v
  · exact sparseGet_set_ne l v h

/-- A key a store holds is one of its entries. -/
theorem mem_of_sparseGet {α : Type} {l : List (Nat × α)} {a : Nat} {v : α} (h : sparseGet l a = some v) :
    (a, v) ∈ l := by
  induction l with
  | nil => simp [sparseGet] at h
  | cons x l ih =>
      simp only [sparseGet] at h
      split_ifs at h with h1
      · subst h1; simp at h; subst h; simp
      · exact List.mem_cons_of_mem _ (ih h)

/-- The entries after a write are the one written and entries that were there. -/
theorem mem_sparseSet {α : Type} {l : List (Nat × α)} {a : Nat} {v : α} {x : Nat × α} (h : x ∈ sparseSet l a v) :
    x = (a, v) ∨ x ∈ l := by
  induction l with
  | nil => simpa [sparseSet] using h
  | cons y l ih =>
      unfold sparseSet at h
      split_ifs at h with h1 h2
      · rcases List.mem_cons.1 h with h | h
        · exact .inl h
        · exact .inr (List.mem_cons_of_mem _ h)
      · rcases List.mem_cons.1 h with h | h
        · exact .inl h
        · exact .inr h
      · rcases List.mem_cons.1 h with h | h
        · exact .inr (h ▸ List.mem_cons_self)
        · exact (ih h).imp id (List.mem_cons_of_mem _)

/-- The entries left after a key is taken out were there. -/
theorem mem_sparseErase {α : Type} {l : List (Nat × α)} {a : Nat} {x : Nat × α} (h : x ∈ sparseErase l a) : x ∈ l := by
  induction l with
  | nil => simp [sparseErase] at h
  | cons y l ih =>
      unfold sparseErase at h
      split_ifs at h with h1
      · exact List.mem_cons_of_mem _ h
      · rcases List.mem_cons.1 h with h | h
        · exact h ▸ List.mem_cons_self
        · exact List.mem_cons_of_mem _ (ih h)

/-- A write keeps the rising order of keys. -/
theorem sparseSorted_set {α : Type} {l : List (Nat × α)} (h : sparseSorted l) (a : Nat) (v : α) :
    sparseSorted (sparseSet l a v) := by
  induction l with
  | nil => simp [sparseSet, sparseSorted]
  | cons x l ih =>
      obtain ⟨hx, hl⟩ := List.pairwise_cons.1 h
      unfold sparseSet
      split_ifs with h1 h2
      · subst h1; exact List.pairwise_cons.2 ⟨hx, hl⟩
      · refine List.pairwise_cons.2 ⟨fun y hy => ?_, h⟩
        rcases List.mem_cons.1 hy with rfl | hy
        · exact h2
        · exact Nat.lt_trans h2 (hx y hy)
      · refine List.pairwise_cons.2 ⟨fun y hy => ?_, ih hl⟩
        rcases mem_sparseSet hy with rfl | hy
        · show x.1 < a; omega
        · exact hx y hy

/-- Taking a key out keeps the rising order of keys. -/
theorem sparseSorted_erase {α : Type} {l : List (Nat × α)} (h : sparseSorted l) (a : Nat) :
    sparseSorted (sparseErase l a) := by
  induction l with
  | nil => simp [sparseErase, sparseSorted]
  | cons x l ih =>
      obtain ⟨hx, hl⟩ := List.pairwise_cons.1 h
      unfold sparseErase
      split_ifs with h1
      · exact hl
      · exact List.pairwise_cons.2 ⟨fun y hy => hx y (mem_sparseErase hy), ih hl⟩

/-- A key taken out of a sorted store reads nothing; every other key reads as before. -/
theorem sparseGet_erase {α : Type} {l : List (Nat × α)} (h : sparseSorted l) (a b : Nat) :
    sparseGet (sparseErase l a) b = if b = a then none else sparseGet l b := by
  induction l with
  | nil => simp [sparseErase, sparseGet]
  | cons x l ih =>
      obtain ⟨hx, hl⟩ := List.pairwise_cons.1 h
      have ih := ih hl
      unfold sparseErase
      split_ifs with h1 h2 h2
      · cases hg : sparseGet l b with
        | none => rfl
        | some v =>
            have := hx _ (mem_of_sparseGet hg)
            simp at this; omega
      · have : ¬ b = x.1 := by omega
        simp [sparseGet, this]
      · have h3 : ¬ b = x.1 := by omega
        simp only [sparseGet, if_neg h3, ih, if_pos h2]
      · simp only [sparseGet, ih, if_neg h2]

/-! ### Memory -/

@[simp] theorem getByte_setByte_same (m : Memory) (a : Nat) (v : Byte) : (m.setByte a v).getByte a = some v :=
  sparseGet_set_same m a v

/-- What a byte of memory reads after a byte write (20_memory.md R77). -/
theorem getByte_setByte (m : Memory) (a b : Nat) (v : Byte) :
    (m.setByte a v).getByte b = if b = a then some v else m.getByte b := sparseGet_set m a b v

/-- A word write leaves every byte outside its four alone (20_memory.md R77). -/
theorem getByte_setWord_out (m : Memory) (a b : Nat) (v : Word) (h : ¬ (a ≤ b ∧ b < a + 4)) :
    (m.setWord a v).getByte b = m.getByte b := by
  simp only [Memory.setWord, getByte_setByte]
  rw [if_neg (by omega), if_neg (by omega), if_neg (by omega), if_neg (by omega)]

/-- The four bytes of a word write. -/
theorem getByte_setWord_in (m : Memory) (a : Nat) (v : Word) (j : Nat) (h : j < 4) :
    (m.setWord a v).getByte (a + j) = some (v.extractLsb' (8 * j) 8) := by
  obtain rfl | rfl | rfl | rfl : j = 0 ∨ j = 1 ∨ j = 2 ∨ j = 3 := by omega
  all_goals simp [Memory.setWord, getByte_setByte]

/-- A word read after a word write at the same address gives the word written (20_memory.md R71). -/
@[simp] theorem getWord_setWord_same (m : Memory) (a : Nat) (v : Word) : (m.setWord a v).getWord a = some v := by
  have h0 := getByte_setWord_in m a v 0 (by decide)
  have h1 := getByte_setWord_in m a v 1 (by decide)
  have h2 := getByte_setWord_in m a v 2 (by decide)
  have h3 := getByte_setWord_in m a v 3 (by decide)
  simp only [Nat.add_zero] at h0
  simp only [Memory.getWord, h0, h1, h2, h3, Option.some.injEq]
  apply BitVec.eq_of_getLsbD_eq
  intro i hi
  simp only [BitVec.getLsbD_append, BitVec.getLsbD_extractLsb']
  grind

/-- A word read is decided by its four bytes. -/
theorem getWord_congr {m m' : Memory} {a : Nat} (h : ∀ j < 4, m'.getByte (a + j) = m.getByte (a + j)) :
    m'.getWord a = m.getWord a := by
  have h0 := h 0 (by decide)
  simp only [Nat.add_zero] at h0
  simp only [Memory.getWord, h0, h 1 (by decide), h 2 (by decide), h 3 (by decide)]

/-- A word has a value exactly when its four bytes have one (20_memory.md R87). -/
theorem getWord_isSome (m : Memory) (a : Nat) :
    (m.getWord a).isSome = true ↔ ∀ j < 4, (m.getByte (a + j)).isSome = true := by
  constructor
  · intro h
    unfold Memory.getWord at h
    split at h
    · rename_i b0 b1 b2 b3 h0 h1 h2 h3
      intro j hj
      obtain rfl | rfl | rfl | rfl : j = 0 ∨ j = 1 ∨ j = 2 ∨ j = 3 := by omega
      all_goals simp_all
    · simp at h
  · intro h
    have h0 := h 0 (by decide)
    have h1 := h 1 (by decide)
    have h2 := h 2 (by decide)
    have h3 := h 3 (by decide)
    obtain ⟨b0, h0⟩ := Option.isSome_iff_exists.1 h0
    obtain ⟨b1, h1⟩ := Option.isSome_iff_exists.1 h1
    obtain ⟨b2, h2⟩ := Option.isSome_iff_exists.1 h2
    obtain ⟨b3, h3⟩ := Option.isSome_iff_exists.1 h3
    simp only [Nat.add_zero] at h0
    simp [Memory.getWord, h0, h1, h2, h3]

/-- A byte write keeps the canonical form. -/
theorem wf_setByte {m : Memory} (h : m.wf) (a : Nat) (v : Byte) : (m.setByte a v).wf := sparseSorted_set h a v

/-- A word write keeps the canonical form. -/
theorem wf_setWord {m : Memory} (h : m.wf) (a : Nat) (v : Word) : (m.setWord a v).wf :=
  wf_setByte (wf_setByte (wf_setByte (wf_setByte h _ _) _ _) _ _) _ _

/-- The memory after reset has the canonical form. -/
theorem wf_reset : State.reset.mem.wf := List.Pairwise.nil

/-- The entries after a byte write are the one written and entries that were there. -/
theorem mem_setByte {m : Memory} {a : Nat} {v : Byte} {c : Host.Cell} (h : c ∈ m.setByte a v) : c = (a, v) ∨ c ∈ m :=
  mem_sparseSet h

/-- The entries after a word write lie in the word or were there. -/
theorem mem_setWord {m : Memory} {a : Nat} {v : Word} {c : Host.Cell} (h : c ∈ m.setWord a v) :
    (a ≤ c.1 ∧ c.1 < a + 4) ∨ c ∈ m := by
  unfold Memory.setWord at h
  rcases mem_setByte h with rfl | h
  · left; constructor <;> simp
  rcases mem_setByte h with rfl | h
  · left; constructor <;> simp
  rcases mem_setByte h with rfl | h
  · left; constructor <;> simp
  rcases mem_setByte h with rfl | h
  · left; constructor <;> simp
  exact .inr h

/-! ### MAG -/

/-- What MAG reads after a write, on a list in its one form (10_state.md R50). -/
theorem magGet_magSet {m : List (Nat × BitVec 31)} (h : sparseSorted m) (i j : Nat) (v : BitVec 31) :
    magGet (magSet m i v) j = if j = i then v else magGet m j := by
  unfold magSet magGet
  split_ifs with h1 h2 h2
  · subst h1; simp [sparseGet_erase h, h2]
  · simp [sparseGet_erase h, h2]
  · simp [h2]
  · simp [sparseGet_set, h2]

/-- A write keeps the form of MAG. -/
theorem sparseSorted_magSet {m : List (Nat × BitVec 31)} (h : sparseSorted m) (i : Nat) (v : BitVec 31) :
    sparseSorted (magSet m i v) := by
  unfold magSet
  split_ifs
  · exact sparseSorted_erase h i
  · exact sparseSorted_set h i v

/-- The entries of MAG after a write: those that were there, and the one written when it is not 0. -/
theorem mem_magSet {m : List (Nat × BitVec 31)} {i : Nat} {v : BitVec 31} {x : Nat × BitVec 31} (h : x ∈ magSet m i v) :
    (x = (i, v) ∧ v ≠ 0) ∨ x ∈ m := by
  unfold magSet at h
  split_ifs at h with h1
  · exact .inr (mem_sparseErase h)
  · exact (mem_sparseSet h).imp (fun e => ⟨e, h1⟩) id

/-! ### Bit arrays -/

/-- What an array of one-bit elements reads after an element is set. -/
theorem getLsbD_bitSet (b : BitVec 4096) (i j : Nat) (h : i < 4096) :
    (bitSet b i).getLsbD j = (b.getLsbD j || decide (j = i)) := by
  simp only [bitSet, BitVec.getLsbD_or, BitVec.getLsbD_shiftLeft, BitVec.getLsbD_one]
  by_cases hj : j = i
  · subst hj; simp [h]
  · by_cases h2 : j < i
    · simp [hj, h2]
    · have : ¬ j - i = 0 := by omega
      simp [hj, this]

/-- An index outside the array changes no element. -/
theorem bitSet_out (b : BitVec 4096) (i : Nat) (h : 4096 ≤ i) : bitSet b i = b := by
  simp only [bitSet]
  rw [BitVec.shiftLeft_eq_zero h, BitVec.or_zero]

/-- What an array of one-bit elements reads after an element is written. -/
theorem getLsbD_bitPut (b : BitVec 4096) (i j : Nat) (v : Bool) (h : i < 4096) :
    (bitPut b i v).getLsbD j = if j = i then v else b.getLsbD j := by
  cases v
  · simp only [bitPut, Bool.false_eq_true, if_false, BitVec.getLsbD_and, BitVec.getLsbD_not,
      BitVec.getLsbD_shiftLeft, BitVec.getLsbD_one]
    by_cases hj : j = i
    · subst hj; simp [h]
    · by_cases h3 : j < 4096
      · by_cases h2 : j < i
        · simp [hj, h2, h3]
        · have : ¬ j - i = 0 := by omega
          simp [hj, this, h3]
      · have := BitVec.getLsbD_of_ge b j (by omega)
        simp [hj, h3, this]
  · simp only [bitPut, if_true, getLsbD_bitSet b i j h]
    by_cases hj : j = i <;> simp [hj]

/-! ### The capacity of BYTE memory -/

/-- BYTE_CAP is at least 8 and a multiple of 4 (00_scope.md R9). -/
theorem byteCap_ge : 8 ≤ Config.byteCap := by unfold Config.byteCap; omega

/-- BYTE_CAP is a multiple of 4 (00_scope.md R9). -/
theorem byteCap_mod : Config.byteCap % 4 = 0 := by unfold Config.byteCap; omega

/-- BYTE_CAP is at most 0xF0000 (00_scope.md R9). -/
theorem byteCap_le : Config.byteCap ≤ 0xF0000 := by
  have := Config.byteCapSteps.isLt
  unfold Config.byteCap; omega

end Sys2Proof.Laws
end

