-- ==== Sys2Proof/Laws/Operations.lean ====
section
/-!
SUPPORT. One lemma for each shared operation that says once everything it can do; the coders' and passes' frames.
-/
namespace Sys2Proof.Laws

open Sys2Proof.Machine

/-! ### Checks, memory reads, the segment's bytes -/

/-- `needMode` raises E_NOT_INIT in every other mode (10_state.md R44). -/
theorem needMode_run (m : CMode) (s : State) :
    needMode m s = if s.status.cmode = m then .ok () s else .error (.err .notInit) s := by
  unfold needMode
  rw [see_bind, check_run]
  by_cases h : s.status.cmode = m <;> simp [h]

/-- `checkFields` passes a well-formed term and raises E_ILLEGAL_CMD on any other (30_encoding.md R101). -/
theorem checkFields_run (i : Instr) (s : State) :
    checkFields i s = if i.wellFormed then .ok () s else .error (.err .illegalCmd) s := by
  unfold checkFields
  rw [check_run]
  cases i.wellFormed <;> rfl

/-- `checkShape` (44_bitplane_coder.md R240 step 2). -/
theorem checkShape_run (s : State) :
    checkShape s = if s.cfg.badShape then .error (.err .config) s else .ok () s := by
  unfold checkShape; rw [see_bind, check_run]

/-- `checkSegment` (42_mq_coder.md R194). -/
theorem checkSegment_run (s : State) :
    checkSegment s = if s.cfg.segOutside then .error (.err .config) s else .ok () s := by
  unfold checkSegment; rw [see_bind, check_run]

@[simp] theorem latchSegbase_run (s : State) :
    latchSegbase s = .ok () { s with seg := { s.seg with start := s.cfg.segbase } } := rfl

@[simp] theorem latchCfgSegment_run (s : State) :
    latchCfgSegment s = .ok () { s with seg := { s.seg with
      start := s.cfg.segbase, stop := s.cfg.segbase + s.cfg.seglen } } := rfl

/-- An engine read of a word: its value, or the fault of unwritten memory (20_memory.md R76, R87). -/
theorem memReadWord_run (a : Nat) (s : State) :
    memReadWord a s = match s.mem.getWord a with
      | some v => .ok v s
      | none => .error (.fault .engineReadUnwritten) s := by
  unfold memReadWord
  rw [see_bind]
  cases s.mem.getWord a <;> rfl

/-- An engine read of a byte: its value, or the fault of unwritten memory (20_memory.md R76, R87). -/
theorem memReadByte_run (a : Nat) (s : State) :
    memReadByte a s = match s.mem.getByte a with
      | some v => .ok v s
      | none => .error (.fault .engineReadUnwritten) s := by
  unfold memReadByte
  rw [see_bind]
  cases s.mem.getByte a <;> rfl

/-- EmitByte (20_memory.md R81). -/
theorem emitByte_run (v : Byte) (s : State) :
    emitByte v s = if Config.byteCap ≤ s.seg.outOffset then .error (.err .overflow) s
      else .ok () { s with mem := s.mem.setByte (byteAddr s.seg.outOffset) v, seg := { s.seg with bp := s.seg.bp + 1 } } := by
  unfold emitByte
  rw [see_bind, bind_run, check_run]
  by_cases h : Config.byteCap ≤ s.seg.outOffset
  · simp [h]
  · simp [h]; rfl

/-- SetLastByte (20_memory.md R81). -/
theorem setLastByte_run (v : Byte) (s : State) :
    setLastByte v s = .ok () (if 1 ≤ s.seg.bp.toNat ∧ s.seg.outOffset - 1 < Config.byteCap
      then { s with mem := s.mem.setByte (byteAddr (s.seg.outOffset - 1)) v } else s) := by
  unfold setLastByte
  rw [see_bind]
  split <;> rfl

/-- The drop of a trailing 0xFF (42_mq_coder.md R170). -/
theorem dropTrailingFF_run (s : State) :
    dropTrailingFF s = .ok () (if 1 ≤ s.seg.bp.toNat ∧ s.seg.b = 0xFF
      then { s with seg := { s.seg with bp := s.seg.bp - 1 } } else s) := by
  unfold dropTrailingFF
  rw [see_bind]
  split <;> rfl

/-- SegByte inside the segment (20_memory.md R80). -/
theorem segByte_inside {s : State} {i : Nat} {v : Byte} (h : s.seg.start.toNat + i < s.seg.stop.toNat)
    (hv : s.mem.getByte (byteAddr (s.seg.start.toNat + i)) = some v) : segByte i s = .ok (v, false) s := by
  unfold segByte
  rw [see_bind, if_pos h, bind_of_ok (a := v) (t := s)]
  · rfl
  · rw [memReadByte_run, hv]

/-- SegByte past the end of the segment (20_memory.md R80). -/
theorem segByte_past {s : State} {i : Nat} (h : s.seg.stop.toNat ≤ s.seg.start.toNat + i) :
    segByte i s = .ok (0xFF, true) s := by
  unfold segByte
  rw [see_bind, if_neg (by omega)]
  rfl

/-- SegByte changes nothing, and answers unless it reads memory nothing has written. -/
theorem segByte_cases (i : Nat) (s : State) :
    (∃ b f, segByte i s = .ok (b, f) s) ∨ segByte i s = .error (.fault .engineReadUnwritten) s := by
  by_cases h : s.seg.start.toNat + i < s.seg.stop.toNat
  · cases hv : s.mem.getByte (byteAddr (s.seg.start.toNat + i)) with
    | some v => exact .inl ⟨v, false, segByte_inside h hv⟩
    | none =>
        right
        unfold segByte
        rw [see_bind, if_pos h, bind_of_error]
        rw [memReadByte_run, hv]
  · exact .inl ⟨_, _, segByte_past (by omega)⟩

/-- The count of a fill step (20_memory.md R80). -/
theorem countFill_run (f : Bool) (s : State) :
    countFill f s = .ok () (if f then { s with seg := { s.seg with
      fillcnt := if s.seg.fillcnt = 0xFFFFFFFF then s.seg.fillcnt else s.seg.fillcnt + 1 } } else s) := by
  cases f <;> rfl

/-! ### Byte-out -/

/-- A byte-out after 0xFF (42_mq_coder.md R164). -/
theorem stuffedOut_run (s : State) :
    stuffedOut s =
      if Config.byteCap ≤ s.seg.outOffset then
        .error (.err .overflow) { s with seg := { s.seg with b := s.seg.c.extractLsb' 20 8 } }
      else .ok () { s with
        mem := s.mem.setByte (byteAddr s.seg.outOffset) (s.seg.c.extractLsb' 20 8)
        seg := { s.seg with b := s.seg.c.extractLsb' 20 8, bp := s.seg.bp + 1, c := s.seg.c &&& 0xFFFFF, ct := 7 } } := by
  unfold stuffedOut
  rw [updSeg_bind, see_bind, bind_run, emitByte_run]
  by_cases h : Config.byteCap ≤ s.seg.outOffset
  · have h' : Config.byteCap ≤ SegRegs.outOffset { s.seg with b := s.seg.c.extractLsb' 20 8 } := h
    rw [if_pos h', if_pos h]
  · have h' : ¬ Config.byteCap ≤ SegRegs.outOffset { s.seg with b := s.seg.c.extractLsb' 20 8 } := h
    rw [if_neg h', if_neg h]
    rfl

/-- A byte-out after any other byte (42_mq_coder.md R164). -/
theorem plainOut_run (s : State) :
    plainOut s =
      if Config.byteCap ≤ s.seg.outOffset then
        .error (.err .overflow) { s with seg := { s.seg with b := s.seg.c.extractLsb' 19 8 } }
      else .ok () { s with
        mem := s.mem.setByte (byteAddr s.seg.outOffset) (s.seg.c.extractLsb' 19 8)
        seg := { s.seg with b := s.seg.c.extractLsb' 19 8, bp := s.seg.bp + 1, c := s.seg.c &&& 0x7FFFF, ct := 8 } } := by
  unfold plainOut
  rw [updSeg_bind, see_bind, bind_run, emitByte_run]
  by_cases h : Config.byteCap ≤ s.seg.outOffset
  · have h' : Config.byteCap ≤ SegRegs.outOffset { s.seg with b := s.seg.c.extractLsb' 19 8 } := h
    rw [if_pos h', if_pos h]
  · have h' : ¬ Config.byteCap ≤ SegRegs.outOffset { s.seg with b := s.seg.c.extractLsb' 19 8 } := h
    rw [if_neg h', if_neg h]
    rfl

/-- The three branches of BYTEOUT (42_mq_coder.md R164). -/
theorem byteOut_run (s : State) :
    byteOut s =
      if s.seg.b = 0xFF then stuffedOut s
      else if s.seg.c < 0x8000000 then plainOut s
      else
        let s1 : State := { s with seg := { s.seg with b := s.seg.b + 1 } }
        let s2 : State := if 1 ≤ s1.seg.bp.toNat ∧ s1.seg.outOffset - 1 < Config.byteCap
          then { s1 with mem := s1.mem.setByte (byteAddr (s1.seg.outOffset - 1)) (s.seg.b + 1) } else s1
        if s.seg.b + 1 = 0xFF then stuffedOut { s2 with seg := { s2.seg with c := s2.seg.c &&& 0x7FFFFFF } }
        else plainOut s2 := by
  unfold byteOut
  rw [see_bind]
  split
  · rfl
  · split
    · rfl
    · rw [updSeg_bind, bind_of_ok (setLastByte_run _ _)]
      dsimp only
      split <;> rfl

/-- A complete byte of the raw and MEL coders (43_raw_bypass.md R212, 45_ht_block_coder.md R284). -/
theorem emitAssembled_run (s : State) :
    emitAssembled s =
      if Config.byteCap ≤ s.seg.outOffset then .error (.err .overflow) s
      else .ok () { s with
        mem := s.mem.setByte (byteAddr s.seg.outOffset) (s.seg.c.extractLsb' 0 8)
        seg := { s.seg with bp := s.seg.bp + 1, b := s.seg.c.extractLsb' 0 8 } } := by
  unfold emitAssembled
  rw [see_bind, bind_run, emitByte_run]
  by_cases h : Config.byteCap ≤ s.seg.outOffset <;> simp [h]

/-- The same, with the assembly register made empty. -/
theorem nextByte_run (s : State) :
    nextByte s =
      if Config.byteCap ≤ s.seg.outOffset then .error (.err .overflow) s
      else .ok () { s with
        mem := s.mem.setByte (byteAddr s.seg.outOffset) (s.seg.c.extractLsb' 0 8)
        seg := { s.seg with bp := s.seg.bp + 1, b := s.seg.c.extractLsb' 0 8,
                            ct := freeAfter (s.seg.c.extractLsb' 0 8), c := 0 } } := by
  unfold nextByte
  rw [bind_run, emitAssembled_run]
  by_cases h : Config.byteCap ≤ s.seg.outOffset <;> simp [h]

/-- RAWPUT (43_raw_bypass.md R212). -/
theorem rawPut_run (d : Bool) (s : State) :
    rawPut d s =
      let s1 : State := { s with seg := { s.seg with
        ct := s.seg.ct - 1, c := s.seg.c + (zextBit d <<< (s.seg.ct - 1).toNat) } }
      if s.seg.ct - 1 = 0 then nextByte s1 else .ok () s1 := by
  unfold rawPut
  rw [updSeg_bind, updSeg_bind, see_bind]
  dsimp only
  split <;> rfl

/-- MELBIT (45_ht_block_coder.md R284). -/
theorem melBit_run (v : Bool) (s : State) :
    melBit v s =
      let s1 : State := { s with seg := { s.seg with c := 2 * s.seg.c + zextBit v, ct := s.seg.ct - 1 } }
      if s.seg.ct - 1 = 0 then nextByte s1 else .ok () s1 := by
  unfold melBit
  rw [updSeg_bind, see_bind]
  dsimp only
  split <;> rfl

/-- The next unread bit (43_raw_bypass.md R217). -/
theorem takeBit_run (s : State) :
    takeBit s = .ok (s.seg.c.getLsbD (s.seg.ct - 1).toNat) { s with seg := { s.seg with ct := s.seg.ct - 1 } } := rfl

/-! ### The MQ decoder's byte-in -/

/-- BYTEIN_BODY once its two bytes are read (42_mq_coder.md R183). -/
theorem byteInBody_run {s : State} {b0 b1 : Byte} {f0 f1 : Bool} (h0 : segByte s.seg.bp.toNat s = .ok (b0, f0) s)
    (h1 : segByte (s.seg.bp.toNat + 1) s = .ok (b1, f1) s) :
    byteInBody s = .ok (f0 || f1) { s with seg :=
      if b0 = 0xFF then
        if 0x8F < b1 then { s.seg with c := s.seg.c + 0xFF00, ct := 8 }
        else { s.seg with bp := s.seg.bp + 1, c := s.seg.c + (b1.zeroExtend 32 <<< 9), ct := 7 }
      else { s.seg with bp := s.seg.bp + 1, c := s.seg.c + (b1.zeroExtend 32 <<< 8), ct := 8 } } := by
  unfold byteInBody
  rw [see_bind, bind_of_ok h0]
  dsimp only
  rw [bind_of_ok h1]
  dsimp only
  split
  · split <;> rfl
  · rfl

/-! ### Frames -/

/-- Only the segment registers, the contexts and memory may differ. -/
def CoderFrame (s t : State) : Prop := t = { s with seg := t.seg, ctx := t.ctx, mem := t.mem }

/-- Only what a coding pass writes may differ: the coder, the arrays, and STATUS.SEGMIS (44_bitplane_coder.md R241 to R247). -/
def PassFrame (s t : State) : Prop :=
  t = { s with seg := t.seg, ctx := t.ctx, mem := t.mem, arr := t.arr,
               status := { s.status with segmis := t.status.segmis } }

theorem coderFrame_chains : Chains CoderFrame where
  refl _ := rfl
  trans {s t u} h1 h2 := by
    unfold CoderFrame at *
    rw [h1] at h2
    exact h2

theorem passFrame_chains : Chains PassFrame where
  refl _ := rfl
  trans {s t u} h1 h2 := by
    unfold PassFrame at *
    rw [h1] at h2
    exact h2

theorem CoderFrame.passFrame {s t : State} (h : CoderFrame s t) : PassFrame s t := by
  unfold CoderFrame PassFrame at *
  rw [h]

theorem CoderFrame.ofSeg {s : State} (r : SegRegs) : CoderFrame s { s with seg := r } := rfl

theorem memReadWord_keeps {R : State → State → Prop} (hR : Chains R) (a : Nat) : Keeps R (memReadWord a) := by
  refine ⟨fun s => ?_⟩
  rw [memReadWord_run]
  cases s.mem.getWord a <;> exact hR.refl s

theorem memReadByte_keeps {R : State → State → Prop} (hR : Chains R) (a : Nat) : Keeps R (memReadByte a) := by
  refine ⟨fun s => ?_⟩
  rw [memReadByte_run]
  cases s.mem.getByte a <;> exact hR.refl s

theorem segByte_keeps {R : State → State → Prop} (hR : Chains R) (i : Nat) : Keeps R (segByte i) := by
  refine ⟨fun s => ?_⟩
  rcases segByte_cases i s with ⟨b, f, h⟩ | h <;> rw [h] <;> exact hR.refl s

theorem needMode_keeps {R : State → State → Prop} (hR : Chains R) (m : CMode) : Keeps R (needMode m) :=
  .bind hR (.see hR _) fun _ => .check hR _ _

theorem checkFields_keeps {R : State → State → Prop} (hR : Chains R) (i : Instr) : Keeps R (checkFields i) :=
  .check hR _ _

theorem checkShape_keeps {R : State → State → Prop} (hR : Chains R) : Keeps R checkShape :=
  .bind hR (.see hR _) fun _ => .check hR _ _

theorem checkSegment_keeps {R : State → State → Prop} (hR : Chains R) : Keeps R checkSegment :=
  .bind hR (.see hR _) fun _ => .check hR _ _

section Coder

/-- What a relation must allow for the coders to keep it: updates of the segment registers and of a context, and byte writes
inside BYTE memory. -/
structure CoderSteps (R : State → State → Prop) : Prop extends Chains R where
  seg : ∀ (s : State) (f : SegRegs → SegRegs), (f s.seg).start = s.seg.start → (f s.seg).stop = s.seg.stop →
    R s { s with seg := f s.seg }
  ctx : ∀ (s : State) (cx : Label) (v : CtxEntry), R s { s with ctx := s.ctx.set cx v }
  byte : ∀ (s : State) (j : Nat) (v : Byte), j < Config.byteCap → R s { s with mem := s.mem.setByte (byteAddr j) v }

variable {R : State → State → Prop} (h : CoderSteps R)
include h

theorem seg_keeps {f : SegRegs → SegRegs} (h1 : ∀ r, (f r).start = r.start) (h2 : ∀ r, (f r).stop = r.stop) :
    Keeps R (updSeg f) := ⟨fun s => h.seg s f (h1 _) (h2 _)⟩

theorem emitByte_keeps (v : Byte) : Keeps R (emitByte v) := by
  refine ⟨fun s => ?_⟩
  rw [emitByte_run]
  by_cases hc : Config.byteCap ≤ s.seg.outOffset
  · rw [if_pos hc]; exact h.refl s
  · rw [if_neg hc]
    exact h.trans (h.byte s s.seg.outOffset v (by omega))
      (h.seg { s with mem := s.mem.setByte (byteAddr s.seg.outOffset) v } (fun r => { r with bp := r.bp + 1 }) rfl rfl)

theorem setLastByte_keeps (v : Byte) : Keeps R (setLastByte v) := by
  refine ⟨fun s => ?_⟩
  rw [setLastByte_run]
  split_ifs with hc
  · exact h.byte s _ v hc.2
  · exact h.refl s

theorem dropTrailingFF_keeps : Keeps R dropTrailingFF := by
  refine ⟨fun s => ?_⟩
  rw [dropTrailingFF_run]
  split_ifs
  · exact h.seg s (fun r => { r with bp := r.bp - 1 }) rfl rfl
  · exact h.refl s

theorem countFill_keeps (f : Bool) : Keeps R (countFill f) :=
  .ite (seg_keeps h (fun _ => rfl) fun _ => rfl) (.pure h.toChains ())

theorem stuffedOut_keeps : Keeps R stuffedOut :=
  .bind h.toChains (seg_keeps h (fun _ => rfl) fun _ => rfl) fun _ =>
    .bind h.toChains (.see h.toChains _) fun _ =>
      .bind h.toChains (emitByte_keeps h _) fun _ => seg_keeps h (fun _ => rfl) fun _ => rfl

theorem plainOut_keeps : Keeps R plainOut :=
  .bind h.toChains (seg_keeps h (fun _ => rfl) fun _ => rfl) fun _ =>
    .bind h.toChains (.see h.toChains _) fun _ =>
      .bind h.toChains (emitByte_keeps h _) fun _ => seg_keeps h (fun _ => rfl) fun _ => rfl

theorem byteOut_keeps : Keeps R byteOut :=
  .bind h.toChains (.see h.toChains _) fun _ =>
    .ite (stuffedOut_keeps h) (.ite (plainOut_keeps h)
      (.bind h.toChains (seg_keeps h (fun _ => rfl) fun _ => rfl) fun _ =>
        .bind h.toChains (setLastByte_keeps h _) fun _ =>
          .ite (.bind h.toChains (seg_keeps h (fun _ => rfl) fun _ => rfl) fun _ => stuffedOut_keeps h)
            (plainOut_keeps h)))

theorem renormE_keeps (n : Nat) : Keeps R (renormE n) := by
  induction n with
  | zero => exact .pure h.toChains ()
  | succ n ih =>
      exact .bind h.toChains
        (.bind h.toChains (seg_keeps h (fun _ => rfl) fun _ => rfl) fun _ =>
          .bind h.toChains (.see h.toChains _) fun _ => .ite (byteOut_keeps h) (.pure h.toChains ()))
        fun _ => .bind h.toChains (.see h.toChains _) fun _ => .ite (.pure h.toChains ()) ih

theorem setCtx_keeps (cx : Label) (v : CtxEntry) : Keeps R (setCtx cx v) := ⟨fun s => h.ctx s cx v⟩

/-- ENCODE (42_mq_coder.md R166) changes nothing but what `CoderSteps` names. -/
theorem mqEncode_keeps (cx : Label) (d : Bool) : Keeps R (mqEncode cx d) := by
  unfold mqEncode codeMps codeLps
  dsimp only
  repeat' with_reducible first
    | intro _
    | exact seg_keeps h (fun _ => rfl) fun _ => rfl
    | exact .pure h.toChains _
    | exact .see h.toChains _
    | exact setCtx_keeps h _ _
    | exact renormE_keeps h _
    | apply Keeps.ite
    | apply Keeps.bind h.toChains

/-- FLUSH (42_mq_coder.md R169). -/
theorem mqFlush_keeps : Keeps R mqFlush :=
  .bind h.toChains (seg_keeps h (fun _ => rfl) fun _ => rfl) fun _ =>
    .bind h.toChains (seg_keeps h (fun _ => rfl) fun _ => rfl) fun _ =>
      .bind h.toChains (byteOut_keeps h) fun _ =>
        .bind h.toChains (seg_keeps h (fun _ => rfl) fun _ => rfl) fun _ =>
          .bind h.toChains (byteOut_keeps h) fun _ => dropTrailingFF_keeps h

theorem ertermLoop_keeps (n : Nat) (k : Int) : Keeps R (ertermLoop n k) := by
  induction n generalizing k with
  | zero => exact .pure h.toChains ()
  | succ n ih =>
      exact .ite (.bind h.toChains (seg_keeps h (fun _ => rfl) fun _ => rfl) fun _ =>
        .bind h.toChains (seg_keeps h (fun _ => rfl) fun _ => rfl) fun _ =>
          .bind h.toChains (byteOut_keeps h) fun _ => .bind h.toChains (.see h.toChains _) fun _ => ih _)
        (.pure h.toChains ())

/-- ERTERM (42_mq_coder.md R175). -/
theorem mqErterm_keeps : Keeps R mqErterm :=
  .bind h.toChains (.see h.toChains _) fun _ =>
    .bind h.toChains (ertermLoop_keeps h _ _) fun _ => dropTrailingFF_keeps h

theorem byteInBody_keeps : Keeps R byteInBody := by
  refine .bind h.toChains (.see h.toChains _) fun _ => .bind h.toChains (segByte_keeps h.toChains _) fun x =>
    .bind h.toChains (segByte_keeps h.toChains _) fun y => ?_
  refine .ite (.ite ?_ ?_) ?_ <;>
    exact .bind h.toChains (seg_keeps h (fun _ => rfl) fun _ => rfl) fun _ => .pure h.toChains _

theorem renormD_keeps (n : Nat) : Keeps R (renormD n) := by
  induction n with
  | zero => exact .pure h.toChains ()
  | succ n ih =>
      unfold renormD renormDStep byteIn
      dsimp only
      repeat' with_reducible first
        | intro _
        | exact seg_keeps h (fun _ => rfl) fun _ => rfl
        | exact .pure h.toChains _
        | exact .see h.toChains _
        | exact byteInBody_keeps h
        | exact countFill_keeps h _
        | exact ih
        | apply Keeps.ite
        | apply Keeps.bind h.toChains

/-- DECODE (42_mq_coder.md R185). -/
theorem mqDecode_keeps (cx : Label) : Keeps R (mqDecode cx) := by
  unfold mqDecode decodeLps decodeMps
  dsimp only
  repeat' with_reducible first
    | intro _
    | exact seg_keeps h (fun _ => rfl) fun _ => rfl
    | exact .pure h.toChains _
    | exact .see h.toChains _
    | exact setCtx_keeps h _ _
    | exact renormD_keeps h _
    | apply Keeps.ite
    | apply Keeps.bind h.toChains

theorem nextByte_keeps : Keeps R nextByte :=
  .bind h.toChains (.bind h.toChains (.see h.toChains _) fun _ => .bind h.toChains (emitByte_keeps h _) fun _ =>
    seg_keeps h (fun _ => rfl) fun _ => rfl) fun _ => seg_keeps h (fun _ => rfl) fun _ => rfl

/-- RAWPUT (43_raw_bypass.md R212). -/
theorem rawPut_keeps (d : Bool) : Keeps R (rawPut d) :=
  .bind h.toChains (seg_keeps h (fun _ => rfl) fun _ => rfl) fun _ =>
    .bind h.toChains (seg_keeps h (fun _ => rfl) fun _ => rfl) fun _ =>
      .bind h.toChains (.see h.toChains _) fun _ => .ite (nextByte_keeps h) (.pure h.toChains ())

theorem rawPad_keeps (n : Nat) (b : Bool) : Keeps R (rawPad n b) := by
  induction n generalizing b with
  | zero => exact .pure h.toChains ()
  | succ n ih =>
      exact .bind h.toChains (seg_keeps h (fun _ => rfl) fun _ => rfl) fun _ =>
        .bind h.toChains (seg_keeps h (fun _ => rfl) fun _ => rfl) fun _ => ih _

/-- RAWFLUSH (43_raw_bypass.md R213). -/
theorem rawFlush_keeps : Keeps R rawFlush := by
  unfold rawFlush emitAssembled
  dsimp only
  repeat' with_reducible first
    | intro _
    | exact seg_keeps h (fun _ => rfl) fun _ => rfl
    | exact .pure h.toChains _
    | exact .see h.toChains _
    | exact rawPad_keeps h _ _
    | exact emitByte_keeps h _
    | exact dropTrailingFF_keeps h
    | apply Keeps.ite
    | apply Keeps.bind h.toChains

theorem takeBit_keeps : Keeps R takeBit :=
  .bind h.toChains (seg_keeps h (fun _ => rfl) fun _ => rfl) fun _ => .see h.toChains _

/-- RAWGET (43_raw_bypass.md R217). -/
theorem rawGet_keeps : Keeps R rawGet := by
  unfold rawGet rawByteIn
  dsimp only
  repeat' with_reducible first
    | intro _
    | exact seg_keeps h (fun _ => rfl) fun _ => rfl
    | exact .pure h.toChains _
    | exact .see h.toChains _
    | exact segByte_keeps h.toChains _
    | exact countFill_keeps h _
    | exact takeBit_keeps h
    | apply Keeps.ite
    | apply Keeps.bind h.toChains

theorem melBit_keeps (v : Bool) : Keeps R (melBit v) :=
  .bind h.toChains (seg_keeps h (fun _ => rfl) fun _ => rfl) fun _ =>
    .bind h.toChains (.see h.toChains _) fun _ => .ite (nextByte_keeps h) (.pure h.toChains ())

theorem melRunBits_keeps (run : BitVec 16) (n : Nat) : Keeps R (melRunBits run n) := by
  induction n with
  | zero => exact .pure h.toChains ()
  | succ n ih => exact .bind h.toChains (melBit_keeps h _) fun _ => ih

/-- MELPUT (45_ht_block_coder.md R284). -/
theorem melPut_keeps (sym : Bool) : Keeps R (melPut sym) := by
  unfold melPut melPutOne melPutZero
  repeat' with_reducible first
    | intro _
    | exact seg_keeps h (fun _ => rfl) fun _ => rfl
    | exact .pure h.toChains _
    | exact .see h.toChains _
    | exact melBit_keeps h _
    | exact melRunBits_keeps h _ _
    | apply Keeps.ite
    | apply Keeps.bind h.toChains

theorem melOnes_keeps (n : Nat) : Keeps R (melOnes n) := by
  induction n with
  | zero => exact .pure h.toChains ()
  | succ n ih => exact .bind h.toChains (melBit_keeps h _) fun _ => ih

/-- MELFLUSH (45_ht_block_coder.md R284). -/
theorem melFlush_keeps : Keeps R melFlush := by
  unfold melFlush
  dsimp only
  repeat' with_reducible first
    | intro _
    | exact seg_keeps h (fun _ => rfl) fun _ => rfl
    | exact .pure h.toChains _
    | exact .see h.toChains _
    | exact melBit_keeps h _
    | exact melOnes_keeps h _
    | apply Keeps.ite
    | apply Keeps.bind h.toChains

theorem melGetBit_keeps : Keeps R melGetBit := by
  unfold melGetBit melByteIn
  dsimp only
  repeat' with_reducible first
    | intro _
    | exact seg_keeps h (fun _ => rfl) fun _ => rfl
    | exact .pure h.toChains _
    | exact .see h.toChains _
    | exact segByte_keeps h.toChains _
    | exact countFill_keeps h _
    | exact takeBit_keeps h
    | apply Keeps.ite
    | apply Keeps.bind h.toChains

theorem melReadRun_keeps (n r : Nat) : Keeps R (melReadRun n r) := by
  induction n generalizing r with
  | zero => exact .pure h.toChains _
  | succ n ih => exact .bind h.toChains (melGetBit_keeps h) fun _ => ih _

/-- MELGET (45_ht_block_coder.md R287). -/
theorem melGet_keeps : Keeps R melGet := by
  unfold melGet melGetNew
  repeat' with_reducible first
    | intro _
    | exact seg_keeps h (fun _ => rfl) fun _ => rfl
    | exact .pure h.toChains _
    | exact .see h.toChains _
    | exact melGetBit_keeps h
    | exact melReadRun_keeps h _ _
    | apply Keeps.ite
    | apply Keeps.bind h.toChains

end Coder

/-- The coders' frame (42_mq_coder.md R191, R195; 43_raw_bypass.md R221, R224; 45_ht_block_coder.md R311, R314). -/
theorem coderFrame_steps : CoderSteps CoderFrame where
  toChains := coderFrame_chains
  seg _ _ _ _ := rfl
  ctx _ _ _ := rfl
  byte _ _ _ _ := rfl

/-- Memory keeps its canonical form. -/
theorem memoryWf_steps : CoderSteps fun s t => s.mem.wf → t.mem.wf where
  toChains := .ofInv _
  seg _ _ _ _ h := h
  ctx _ _ _ h := h
  byte _ _ _ _ h := wf_setByte h _ _

/-- The latched segment bounds stay. -/
theorem bounds_steps : CoderSteps fun s t => (t.seg.start, t.seg.stop) = (s.seg.start, s.seg.stop) where
  toChains := .ofEq _
  seg _ _ h1 h2 := by simp [h1, h2]
  ctx _ _ _ := rfl
  byte _ _ _ _ := rfl

end Sys2Proof.Laws
end

