-- ==== Sys2Proof/Laws/Passes.lean ====
section
/-!
SUPPORT. What the coding passes can change (44_bitplane_coder.md R237 to R254), said once for every relation their steps keep.
-/
namespace Sys2Proof.Laws

open Sys2Proof.Machine

/-- What a relation must allow for the passes to keep it: the coders' steps, updates of the arrays, and STATUS.SEGMIS. -/
structure PassSteps (R : State → State → Prop) : Prop extends CoderSteps R where
  arr : ∀ (s : State) (f : Arrays → Arrays), R s { s with arr := f s.arr }
  segmis : ∀ s : State, R s { s with status := { s.status with segmis := true } }

section Pass

variable {R : State → State → Prop} (h : PassSteps R)
include h

theorem arr_keeps (f : Arrays → Arrays) : Keeps R (updArr f) := ⟨fun s => h.arr s f⟩

theorem setSegmis_keeps : Keeps R setSegmis := ⟨fun s => h.segmis s⟩

theorem coefBit_keeps (i p : Nat) : Keeps R (coefBit i p) :=
  .bind h.toChains (memReadWord_keeps h.toChains _) fun _ => .pure h.toChains _

theorem coefSign_keeps (i : Nat) : Keeps R (coefSign i) :=
  .bind h.toChains (memReadWord_keeps h.toChains _) fun _ => .pure h.toChains _

/-- CODE (44_bitplane_coder.md R233). -/
theorem code_keeps (pa : PassArgs) (cx : Label) {e : Cmd Bool} (he : Keeps R e) : Keeps R (code pa cx e) := by
  unfold code
  cases pa.dir
  · exact .bind h.toChains he fun d => .ite (.bind h.toChains (rawPut_keeps h.toCoderSteps d) fun _ => .pure h.toChains _)
      (.bind h.toChains (mqEncode_keeps h.toCoderSteps _ d) fun _ => .pure h.toChains _)
  · exact .ite (rawGet_keeps h.toCoderSteps) (mqDecode_keeps h.toCoderSteps _)

theorem setMagBit_keeps (i p : Nat) : Keeps R (setMagBit i p) := arr_keeps h _
theorem setSign_keeps (i : Nat) (neg : Bool) : Keeps R (setSign i neg) := arr_keeps h _
theorem setVisited_keeps (i : Nat) : Keeps R (setVisited i) := arr_keeps h _
theorem setRefined_keeps (i : Nat) : Keeps R (setRefined i) := arr_keeps h _
theorem clearVisited_keeps : Keeps R clearVisited := arr_keeps h _
theorem clearArrays_keeps : Keeps R clearArrays := arr_keeps h _

theorem markMagBit_keeps (pa : PassArgs) (i : Nat) : Keeps R (markMagBit pa i) :=
  .ite (setMagBit_keeps h _ _) (.pure h.toChains ())

/-- MAGBIT (44_bitplane_coder.md R235). -/
theorem magBit_keeps (pa : PassArgs) (i : Nat) (cx : Label) : Keeps R (magBit pa i cx) := by
  unfold magBit
  dsimp only
  repeat' with_reducible first
    | intro _
    | exact .pure h.toChains _
    | exact code_keeps h _ _ (coefBit_keeps h _ _)
    | exact markMagBit_keeps h _ _
    | apply Keeps.ite
    | apply Keeps.bind h.toChains

/-- SIGNSTEP (44_bitplane_coder.md R236). -/
theorem signStep_keeps (pa : PassArgs) (x y : Nat) : Keeps R (signStep pa x y) := by
  unfold signStep
  dsimp only
  repeat' with_reducible first
    | intro _
    | exact .pure h.toChains _
    | exact .see h.toChains _
    | exact coefSign_keeps h _
    | exact setSign_keeps h _ _
    | apply code_keeps h
    | apply Keeps.ite
    | apply Keeps.bind h.toChains

theorem sppVisit_keeps (pa : PassArgs) (xy : Nat × Nat) : Keeps R (sppVisit pa xy) := by
  unfold sppVisit
  dsimp only
  repeat' with_reducible first
    | intro _
    | exact .pure h.toChains _
    | exact .see h.toChains _
    | exact magBit_keeps h _ _ _
    | exact signStep_keeps h _ _ _
    | exact setVisited_keeps h _
    | apply Keeps.ite
    | apply Keeps.bind h.toChains

/-- SPP (44_bitplane_coder.md R237). -/
theorem spp_keeps (pa : PassArgs) : Keeps R (spp pa) := .forEach h.toChains fun _ _ => sppVisit_keeps h pa _

theorem mrpVisit_keeps (pa : PassArgs) (xy : Nat × Nat) : Keeps R (mrpVisit pa xy) := by
  unfold mrpVisit
  dsimp only
  repeat' with_reducible first
    | intro _
    | exact .pure h.toChains _
    | exact .see h.toChains _
    | exact magBit_keeps h _ _ _
    | exact setRefined_keeps h _
    | apply Keeps.ite
    | apply Keeps.bind h.toChains

/-- MRP (44_bitplane_coder.md R238). -/
theorem mrp_keeps (pa : PassArgs) : Keeps R (mrp pa) := .forEach h.toChains fun _ _ => mrpVisit_keeps h pa _

theorem columnBits_keeps (pa : PassArgs) (x : Nat) (l : List Nat) : Keeps R (columnBits pa x l) := by
  induction l with
  | nil => exact .pure h.toChains _
  | cons y l ih => exact .bind h.toChains (coefBit_keeps h _ _) fun _ => .bind h.toChains ih fun _ => .pure h.toChains _

theorem columnRun_keeps (pa : PassArgs) (x y0 : Nat) : Keeps R (columnRun pa x y0) := by
  unfold columnRun
  cases pa.dir
  · exact .bind h.toChains (columnBits_keeps h _ _ _) fun _ => .pure h.toChains _
  · exact .pure h.toChains _

theorem runPosition_keeps (pa : PassArgs) (k : Nat) : Keeps R (runPosition pa k) :=
  .bind h.toChains (code_keeps h _ _ (.pure h.toChains _)) fun _ =>
    .bind h.toChains (code_keeps h _ _ (.pure h.toChains _)) fun _ => .pure h.toChains _

theorem runColumn_keeps (pa : PassArgs) (x y0 : Nat) : Keeps R (runColumn pa x y0) := by
  unfold runColumn
  repeat' with_reducible first
    | intro _
    | exact .pure h.toChains _
    | exact columnRun_keeps h _ _ _
    | exact runPosition_keeps h _ _
    | exact markMagBit_keeps h _ _
    | exact signStep_keeps h _ _ _
    | apply code_keeps h
    | apply Keeps.ite
    | apply Keeps.bind h.toChains

theorem cupVisit_keeps (pa : PassArgs) (x y : Nat) : Keeps R (cupVisit pa x y) := by
  unfold cupVisit
  repeat' with_reducible first
    | intro _
    | exact .pure h.toChains _
    | exact .see h.toChains _
    | exact magBit_keeps h _ _ _
    | exact signStep_keeps h _ _ _
    | apply Keeps.ite
    | apply Keeps.bind h.toChains

theorem cupColumn_keeps (pa : PassArgs) (c : Nat × Nat) : Keeps R (cupColumn pa c) := by
  unfold cupColumn
  refine .bind h.toChains (.bind h.toChains (.see h.toChains _) fun _ =>
    .ite (runColumn_keeps h _ _ _) (.pure h.toChains _)) fun first => ?_
  cases first with
  | none => exact .pure h.toChains ()
  | some y1 => exact .forEach h.toChains fun _ _ => cupVisit_keeps h _ _ _

/-- SEGMARK (44_bitplane_coder.md R254). -/
theorem segMark_keeps (pa : PassArgs) : Keeps R (segMark pa) := by
  unfold segMark
  repeat' with_reducible first
    | intro _
    | exact .pure h.toChains _
    | exact setSegmis_keeps h
    | apply code_keeps h
    | apply Keeps.ite
    | apply Keeps.bind h.toChains

/-- CUP (44_bitplane_coder.md R239). -/
theorem cup_keeps (pa : PassArgs) : Keeps R (cup pa) :=
  .bind h.toChains (.forEach h.toChains fun _ _ => cupColumn_keeps h pa _) fun _ =>
    .bind h.toChains (clearVisited_keeps h) fun _ => .ite (segMark_keeps h pa) (.pure h.toChains ())

/-- A pass of a block (44_bitplane_coder.md R256). -/
theorem runPass_keeps (dir : Dir) (k : Nat) : Keeps R (runPass dir k) := by
  refine .bind h.toChains (.see h.toChains _) fun c => ?_
  dsimp only
  split
  · exact spp_keeps h _
  · exact mrp_keeps h _
  · exact cup_keeps h _

end Pass

/-- The passes' frame (44_bitplane_coder.md R241, R245, R247). -/
theorem passFrame_steps : PassSteps PassFrame where
  toChains := passFrame_chains
  seg _ _ _ _ := rfl
  ctx _ _ _ := rfl
  byte _ _ _ _ := rfl
  arr _ _ := rfl
  segmis _ := rfl

/-- The passes keep memory's canonical form. -/
theorem pass_memoryWf_steps : PassSteps fun s t => s.mem.wf → t.mem.wf where
  toCoderSteps := memoryWf_steps
  arr _ _ h := h
  segmis _ h := h

end Sys2Proof.Laws
end

