-- ==== Sys2Proof/Laws/PerInstr.lean ====
section
/-!
SUPPORT. The family OpcodeField: the word of a command carries the opcode the opcode map gives it (30_encoding.md R100, R110), for
every operand.
-/
namespace Sys2Proof.Laws.OpcodeField

/-- OPC of each command (30_encoding.md R110). -/
def opcode : Instr → BitVec 6
  | .ctxZc _ _ => 0x01
  | .ctxSc _ _ _ _ => 0x02
  | .ctxMr _ _ => 0x03
  | .mqInitenc => 0x08
  | .mqEncode _ _ => 0x09
  | .mqFlush => 0x0A
  | .mqErterm => 0x0B
  | .mqInitdec => 0x0C
  | .mqDecode _ => 0x0D
  | .mqResetctx => 0x0E
  | .rawInitenc => 0x10
  | .rawPutbit _ => 0x11
  | .rawFlush => 0x12
  | .rawInitdec => 0x13
  | .rawGetbit => 0x14
  | .bpcClear => 0x18
  | .bpcSpp _ _ _ => 0x19
  | .bpcMrp _ _ _ => 0x1A
  | .bpcCup _ _ => 0x1B
  | .bpcStore => 0x1C
  | .melInitenc => 0x20
  | .melPut _ => 0x21
  | .melFlush => 0x22
  | .melInitdec => 0x23
  | .melGet => 0x24
  | .cbEncode => 0x30
  | .cbDecode => 0x31

/-- The upper six bits of the command's word are its opcode. -/
def Statement (i : Instr) : Prop := opcOf (encode i) = opcode i

/-- The upper six bits of a word are those of its first field. -/
theorem opcOf_eq {w : Word} {opc : BitVec 6} (h : ∀ i, i < 6 → w.getLsbD (26 + i) = opc.getLsbD i) : opcOf w = opc := by
  apply BitVec.eq_of_getLsbD_eq
  intro i hi
  simp [opcOf, hi, h i hi]

/-- A word of format B starts with its opcode. -/
theorem encodeB_opc (opc : BitVec 6) (d : Bool) : opcOf (encodeB opc d) = opc := by
  apply opcOf_eq; intro i hi
  simp only [encodeB, BitVec.getLsbD_append]
  grind

/-- A word of format CX starts with its opcode. -/
theorem encodeCx_opc (opc : BitVec 6) (cx : BitVec 5) (d : Bool) : opcOf (encodeCx opc cx d) = opc := by
  apply opcOf_eq; intro i hi
  simp only [encodeCx, BitVec.getLsbD_append]
  grind

/-- A word of format PASS starts with its opcode. -/
theorem encodePass_opc (opc : BitVec 6) (p : BitVec 5) (dir : Dir) (raw : Bool) : opcOf (encodePass opc p dir raw) = opc := by
  apply opcOf_eq; intro i hi
  simp only [encodePass, BitVec.getLsbD_append]
  grind

theorem ctxZc (o : Orient) (m : BitVec 8) : Statement (.ctxZc o m) := by
  apply opcOf_eq; intro i hi
  simp only [encode, opcode, BitVec.getLsbD_append]
  grind
theorem ctxSc (w e n s : SignNbr) : Statement (.ctxSc w e n s) := by
  apply opcOf_eq; intro i hi
  simp only [encode, opcode, BitVec.getLsbD_append]
  grind
theorem ctxMr (r a : Bool) : Statement (.ctxMr r a) := by
  apply opcOf_eq; intro i hi
  simp only [encode, opcode, BitVec.getLsbD_append]
  grind
theorem mqInitenc : Statement .mqInitenc := by unfold Statement; decide
theorem mqEncode (cx : BitVec 5) (d : Bool) : Statement (.mqEncode cx d) := encodeCx_opc _ _ _
theorem mqFlush : Statement .mqFlush := by unfold Statement; decide
theorem mqErterm : Statement .mqErterm := by unfold Statement; decide
theorem mqInitdec : Statement .mqInitdec := by unfold Statement; decide
theorem mqDecode (cx : BitVec 5) : Statement (.mqDecode cx) := encodeCx_opc _ _ _
theorem mqResetctx : Statement .mqResetctx := by unfold Statement; decide
theorem rawInitenc : Statement .rawInitenc := by unfold Statement; decide
theorem rawPutbit (d : Bool) : Statement (.rawPutbit d) := encodeB_opc _ _
theorem rawFlush : Statement .rawFlush := by unfold Statement; decide
theorem rawInitdec : Statement .rawInitdec := by unfold Statement; decide
theorem rawGetbit : Statement .rawGetbit := by unfold Statement; decide
theorem bpcClear : Statement .bpcClear := by unfold Statement; decide
theorem bpcSpp (p : BitVec 5) (dir : Dir) (raw : Bool) : Statement (.bpcSpp p dir raw) := encodePass_opc _ _ _ _
theorem bpcMrp (p : BitVec 5) (dir : Dir) (raw : Bool) : Statement (.bpcMrp p dir raw) := encodePass_opc _ _ _ _
theorem bpcCup (p : BitVec 5) (dir : Dir) : Statement (.bpcCup p dir) := encodePass_opc _ _ _ _
theorem bpcStore : Statement .bpcStore := by unfold Statement; decide
theorem melInitenc : Statement .melInitenc := by unfold Statement; decide
theorem melPut (d : Bool) : Statement (.melPut d) := encodeB_opc _ _
theorem melFlush : Statement .melFlush := by unfold Statement; decide
theorem melInitdec : Statement .melInitdec := by unfold Statement; decide
theorem melGet : Statement .melGet := by unfold Statement; decide
theorem cbEncode : Statement .cbEncode := by unfold Statement; decide
theorem cbDecode : Statement .cbDecode := by unfold Statement; decide

end Sys2Proof.Laws.OpcodeField
end

