-- ==== Sys2Proof/Laws/Reference.lean ====
section
/-!
SUPPORT. The reference functions of Reference.lean are what the shared operations do: BYTEOUT with room for its byte, BYTEIN on a
written segment, and lists of commands joined.
-/
namespace Sys2Proof.Laws

open Sys2Proof.Machine

/-- BYTEOUT with room for the byte (42_mq_coder.md R164). -/
theorem byteOut_room {s : State} (h : s.seg.outOffset < Config.byteCap) :
    byteOut s = .ok () { s with seg := (mqByteOut (s.seg, s.mem)).1, mem := (mqByteOut (s.seg, s.mem)).2 } := by
  have hn : ¬ Config.byteCap ≤ s.seg.outOffset := Nat.not_le_of_lt h
  have hfe : s.seg.b + 1 = 0xFF ↔ s.seg.b = 0xFE := by bv_omega
  have hz : 1 ≤ s.seg.bp.toNat ↔ ¬ s.seg.bp = 0 := by bv_omega
  rw [byteOut_run]
  unfold mqByteOut
  dsimp only
  split
  · rw [stuffedOut_run, if_neg hn]; rfl
  · split
    · rw [plainOut_run, if_neg hn]; rfl
    · have hc : (1 ≤ s.seg.bp.toNat ∧ s.seg.outOffset - 1 < Config.byteCap) ↔ ¬ s.seg.bp = 0 := 
        ⟨fun hc => hz.1 hc.1, fun hc => ⟨hz.2 hc, by omega⟩⟩
      unfold SegRegs.outOffset at hc hn
      by_cases hb : s.seg.bp = 0 <;> by_cases he : s.seg.b = 0xFE <;>
        simp only [hfe, he, hc, hb, SegRegs.outOffset, stuffedOut_run, plainOut_run, mqEmit7, mqEmit8, mqEmit, mqCarry,
          not_false_eq_true, if_true, if_false] <;>
        simp_all <;> exact if_neg (Nat.not_le_of_lt hn)

/-- SegByte on a written segment (20_memory.md R80). -/
theorem segByte_written {s : State} (h : SegmentWritten s) (i : Nat) :
    segByte i s = .ok (fillByte s.mem s.seg.start.toNat s.seg.stop.toNat i,
      decide (s.seg.stop.toNat ≤ s.seg.start.toNat + i)) s := by
  by_cases hi : s.seg.start.toNat + i < s.seg.stop.toNat
  · obtain ⟨v, hv⟩ := Option.isSome_iff_exists.1 (h _ hi (Nat.le_add_right _ _))
    rw [segByte_inside hi hv]
    simp [fillByte, hi, hv]
  · rw [segByte_past (by omega)]
    simp [fillByte, hi, Nat.not_lt.1 hi]

/-- BYTEIN on a written segment (42_mq_coder.md R183). -/
theorem byteIn_written {s : State} (h : SegmentWritten s) : byteIn s = .ok () { s with seg := mqByteIn s.mem s.seg } := by
  have hf : (decide (s.seg.stop.toNat ≤ s.seg.start.toNat + s.seg.bp.toNat) ||
      decide (s.seg.stop.toNat ≤ s.seg.start.toNat + (s.seg.bp.toNat + 1))) =
      decide (s.seg.stop.toNat ≤ s.seg.start.toNat + (s.seg.bp.toNat + 1)) := by
    by_cases h1 : s.seg.stop.toNat ≤ s.seg.start.toNat + s.seg.bp.toNat
    · simp [h1]; omega
    · simp [h1]
  unfold byteIn
  rw [bind_of_ok (byteInBody_run (segByte_written h _) (segByte_written h _)), hf, countFill_run]
  unfold mqByteIn fillAfter
  dsimp only
  split <;> split <;> (try split) <;> simp_all
  omega

/-- Lists of commands one after the other. -/
theorem execAll_append (l l' : List Instr) {s t : State} (h : execAll l s = .next t) :
    execAll (l ++ l') s = execAll l' t := by
  induction l generalizing s with
  | nil => cases h; rfl
  | cons i l ih =>
    simp only [List.cons_append, execAll] at h ⊢
    split at h
    · exact ih h
    · cases h
    · cases h

end Sys2Proof.Laws
end

