-- ==== Sys2Proof/Laws/State.lean ====
section
/-!
SUPPORT. The small lemmas of the state updates: one for each field of each update, true by rfl, so that no proof unfolds an update.
-/
namespace Sys2Proof.Laws

open Sys2Proof.Machine

/-! ### Completing a command (70_reset_and_hazards.md R404) -/

@[simp] theorem complete_inflight (s : State) : s.complete.status.inflight = none := rfl
@[simp] theorem complete_done (s : State) : s.complete.status.done = true := rfl
@[simp] theorem complete_err (s : State) : s.complete.status.err = s.status.err := rfl
@[simp] theorem complete_partialRes (s : State) : s.complete.status.partialRes = s.status.partialRes := rfl
@[simp] theorem complete_segmis (s : State) : s.complete.status.segmis = s.status.segmis := rfl
@[simp] theorem complete_trunc (s : State) : s.complete.status.trunc = s.status.trunc := rfl
@[simp] theorem complete_cmode (s : State) : s.complete.status.cmode = s.status.cmode := rfl
@[simp] theorem complete_cfg (s : State) : s.complete.cfg = s.cfg := rfl
@[simp] theorem complete_out (s : State) : s.complete.out = s.out := rfl
@[simp] theorem complete_seg (s : State) : s.complete.seg = s.seg := rfl
@[simp] theorem complete_ctx (s : State) : s.complete.ctx = s.ctx := rfl
@[simp] theorem complete_arr (s : State) : s.complete.arr = s.arr := rfl
@[simp] theorem complete_mem (s : State) : s.complete.mem = s.mem := rfl
@[simp] theorem complete_bus (s : State) : s.complete.bus = s.bus := rfl

/-! ### Taking an error (60_exceptions.md R360) -/

@[simp] theorem takeError_inflight (s : State) (e : ErrCode) : (s.takeError e).status.inflight = none := rfl
@[simp] theorem takeError_done (s : State) (e : ErrCode) : (s.takeError e).status.done = true := rfl
@[simp] theorem takeError_err (s : State) (e : ErrCode) : (s.takeError e).status.err = some e := rfl
@[simp] theorem takeError_partialRes (s : State) (e : ErrCode) : (s.takeError e).status.partialRes = s.status.partialRes := rfl
@[simp] theorem takeError_segmis (s : State) (e : ErrCode) : (s.takeError e).status.segmis = s.status.segmis := rfl
@[simp] theorem takeError_trunc (s : State) (e : ErrCode) : (s.takeError e).status.trunc = s.status.trunc := rfl
@[simp] theorem takeError_cmode (s : State) (e : ErrCode) : (s.takeError e).status.cmode = s.status.cmode := rfl
@[simp] theorem takeError_cfg (s : State) (e : ErrCode) : (s.takeError e).cfg = s.cfg := rfl
@[simp] theorem takeError_out (s : State) (e : ErrCode) : (s.takeError e).out = s.out := rfl
@[simp] theorem takeError_seg (s : State) (e : ErrCode) : (s.takeError e).seg = s.seg := rfl
@[simp] theorem takeError_ctx (s : State) (e : ErrCode) : (s.takeError e).ctx = s.ctx := rfl
@[simp] theorem takeError_arr (s : State) (e : ErrCode) : (s.takeError e).arr = s.arr := rfl
@[simp] theorem takeError_mem (s : State) (e : ErrCode) : (s.takeError e).mem = s.mem := rfl
@[simp] theorem takeError_bus (s : State) (e : ErrCode) : (s.takeError e).bus = s.bus := rfl

/-! ### Acknowledging an error (60_exceptions.md R366) -/

@[simp] theorem ackError_inflight (s : State) : s.ackError.status.inflight = s.status.inflight := rfl
@[simp] theorem ackError_done (s : State) : s.ackError.status.done = s.status.done := rfl
@[simp] theorem ackError_err (s : State) : s.ackError.status.err = none := rfl
@[simp] theorem ackError_partialRes (s : State) : s.ackError.status.partialRes = s.status.partialRes := rfl
@[simp] theorem ackError_segmis (s : State) : s.ackError.status.segmis = s.status.segmis := rfl
@[simp] theorem ackError_trunc (s : State) : s.ackError.status.trunc = s.status.trunc := rfl
@[simp] theorem ackError_cmode (s : State) : s.ackError.status.cmode = s.status.cmode := rfl
@[simp] theorem ackError_cfg (s : State) : s.ackError.cfg = s.cfg := rfl
@[simp] theorem ackError_out (s : State) : s.ackError.out = s.out := rfl
@[simp] theorem ackError_seg (s : State) : s.ackError.seg = s.seg := rfl
@[simp] theorem ackError_ctx (s : State) : s.ackError.ctx = s.ctx := rfl
@[simp] theorem ackError_arr (s : State) : s.ackError.arr = s.arr := rfl
@[simp] theorem ackError_mem (s : State) : s.ackError.mem = s.mem := rfl
@[simp] theorem ackError_bus (s : State) : s.ackError.bus = s.bus := rfl

/-! ### A host write to STATUS (10_state.md R25) -/

@[simp] theorem writeStatus_inflight (w : Word) (s : State) : (writeStatus w s).status.inflight = s.status.inflight := by
  unfold writeStatus; split <;> rfl
@[simp] theorem writeStatus_cmode (w : Word) (s : State) : (writeStatus w s).status.cmode = s.status.cmode := by
  unfold writeStatus; split <;> rfl
@[simp] theorem writeStatus_done (w : Word) (s : State) :
    (writeStatus w s).status.done = (s.status.done && !w.getLsbD 1) := by
  unfold writeStatus; split <;> rfl
@[simp] theorem writeStatus_partialRes (w : Word) (s : State) :
    (writeStatus w s).status.partialRes = (s.status.partialRes && !w.getLsbD 3) := by
  unfold writeStatus; split <;> rfl
@[simp] theorem writeStatus_segmis (w : Word) (s : State) :
    (writeStatus w s).status.segmis = (s.status.segmis && !w.getLsbD 4) := by
  unfold writeStatus; split <;> rfl
@[simp] theorem writeStatus_trunc (w : Word) (s : State) :
    (writeStatus w s).status.trunc = (s.status.trunc && !w.getLsbD 5) := by
  unfold writeStatus; split <;> rfl
@[simp] theorem writeStatus_err (w : Word) (s : State) :
    (writeStatus w s).status.err = if w.getLsbD 2 then none else s.status.err := by
  unfold writeStatus; split <;> rfl
@[simp] theorem writeStatus_cfg (w : Word) (s : State) : (writeStatus w s).cfg = s.cfg := by
  unfold writeStatus; split <;> rfl
@[simp] theorem writeStatus_out (w : Word) (s : State) : (writeStatus w s).out = s.out := by
  unfold writeStatus; split <;> rfl
@[simp] theorem writeStatus_seg (w : Word) (s : State) : (writeStatus w s).seg = s.seg := by
  unfold writeStatus; split <;> rfl
@[simp] theorem writeStatus_ctx (w : Word) (s : State) : (writeStatus w s).ctx = s.ctx := by
  unfold writeStatus; split <;> rfl
@[simp] theorem writeStatus_arr (w : Word) (s : State) : (writeStatus w s).arr = s.arr := by
  unfold writeStatus; split <;> rfl
@[simp] theorem writeStatus_mem (w : Word) (s : State) : (writeStatus w s).mem = s.mem := by
  unfold writeStatus; split <;> rfl
@[simp] theorem writeStatus_bus (w : Word) (s : State) : (writeStatus w s).bus = s.bus := by
  unfold writeStatus; split <;> rfl

/-! ### A host write to CMD (10_state.md R23) -/

@[simp] theorem writeCmd_cfg (w : Word) (s : State) : (writeCmd w s).cfg = s.cfg := by
  unfold writeCmd; split <;> rfl
@[simp] theorem writeCmd_out (w : Word) (s : State) : (writeCmd w s).out = s.out := by
  unfold writeCmd; split <;> rfl
@[simp] theorem writeCmd_seg (w : Word) (s : State) : (writeCmd w s).seg = s.seg := by
  unfold writeCmd; split <;> rfl
@[simp] theorem writeCmd_ctx (w : Word) (s : State) : (writeCmd w s).ctx = s.ctx := by
  unfold writeCmd; split <;> rfl
@[simp] theorem writeCmd_arr (w : Word) (s : State) : (writeCmd w s).arr = s.arr := by
  unfold writeCmd; split <;> rfl
@[simp] theorem writeCmd_mem (w : Word) (s : State) : (writeCmd w s).mem = s.mem := by
  unfold writeCmd; split <;> rfl
@[simp] theorem writeCmd_bus (w : Word) (s : State) : (writeCmd w s).bus = s.bus := by
  unfold writeCmd; split <;> rfl
@[simp] theorem writeCmd_done (w : Word) (s : State) : (writeCmd w s).status.done = s.status.done := by
  unfold writeCmd; split <;> rfl
@[simp] theorem writeCmd_err (w : Word) (s : State) : (writeCmd w s).status.err = s.status.err := by
  unfold writeCmd; split <;> rfl
@[simp] theorem writeCmd_partialRes (w : Word) (s : State) : (writeCmd w s).status.partialRes = s.status.partialRes := by
  unfold writeCmd; split <;> rfl
@[simp] theorem writeCmd_segmis (w : Word) (s : State) : (writeCmd w s).status.segmis = s.status.segmis := by
  unfold writeCmd; split <;> rfl
@[simp] theorem writeCmd_trunc (w : Word) (s : State) : (writeCmd w s).status.trunc = s.status.trunc := by
  unfold writeCmd; split <;> rfl
@[simp] theorem writeCmd_cmode (w : Word) (s : State) : (writeCmd w s).status.cmode = s.status.cmode := by
  unfold writeCmd; split <;> rfl

/-! ### A host write to CTX (10_state.md R40) -/

@[simp] theorem writeCtx_status (cx : Label) (w : Word) (s : State) : (writeCtx cx w s).status = s.status := by
  unfold writeCtx; split <;> rfl
@[simp] theorem writeCtx_cfg (cx : Label) (w : Word) (s : State) : (writeCtx cx w s).cfg = s.cfg := by
  unfold writeCtx; split <;> rfl
@[simp] theorem writeCtx_out (cx : Label) (w : Word) (s : State) : (writeCtx cx w s).out = s.out := by
  unfold writeCtx; split <;> rfl
@[simp] theorem writeCtx_seg (cx : Label) (w : Word) (s : State) : (writeCtx cx w s).seg = s.seg := by
  unfold writeCtx; split <;> rfl
@[simp] theorem writeCtx_arr (cx : Label) (w : Word) (s : State) : (writeCtx cx w s).arr = s.arr := by
  unfold writeCtx; split <;> rfl
@[simp] theorem writeCtx_mem (cx : Label) (w : Word) (s : State) : (writeCtx cx w s).mem = s.mem := by
  unfold writeCtx; split <;> rfl
@[simp] theorem writeCtx_bus (cx : Label) (w : Word) (s : State) : (writeCtx cx w s).bus = s.bus := by
  unfold writeCtx; split <;> rfl

/-! ### The reset input (70_reset_and_hazards.md R390) -/

@[simp] theorem hardReset_status (s : State) : (hardReset s).status = State.reset.status := rfl
@[simp] theorem hardReset_cfg (s : State) : (hardReset s).cfg = State.reset.cfg := rfl
@[simp] theorem hardReset_out (s : State) : (hardReset s).out = State.reset.out := rfl
@[simp] theorem hardReset_seg (s : State) : (hardReset s).seg = State.reset.seg := rfl
@[simp] theorem hardReset_ctx (s : State) : (hardReset s).ctx = State.reset.ctx := rfl
@[simp] theorem hardReset_arr (s : State) : (hardReset s).arr = State.reset.arr := rfl
@[simp] theorem hardReset_mem (s : State) : (hardReset s).mem = State.reset.mem := rfl
@[simp] theorem hardReset_pending (s : State) : (hardReset s).bus.pending = s.bus.pending := rfl
@[simp] theorem hardReset_data (s : State) : (hardReset s).bus.data = none := rfl

/-! ### The next command word (log entry 1) -/

@[simp] theorem withFetchWord_inflight (s : State) (nbits w : Nat) :
    (s.withFetchWord nbits w).status.inflight = some (BitVec.ofNat 32 (w % 2 ^ nbits)) := rfl
@[simp] theorem withFetchWord_pending (s : State) (nbits w : Nat) : (s.withFetchWord nbits w).bus.pending = [] := rfl
@[simp] theorem withFetchWord_cfg (s : State) (nbits w : Nat) : (s.withFetchWord nbits w).cfg = s.cfg := rfl
@[simp] theorem withFetchWord_out (s : State) (nbits w : Nat) : (s.withFetchWord nbits w).out = s.out := rfl
@[simp] theorem withFetchWord_seg (s : State) (nbits w : Nat) : (s.withFetchWord nbits w).seg = s.seg := rfl
@[simp] theorem withFetchWord_ctx (s : State) (nbits w : Nat) : (s.withFetchWord nbits w).ctx = s.ctx := rfl
@[simp] theorem withFetchWord_arr (s : State) (nbits w : Nat) : (s.withFetchWord nbits w).arr = s.arr := rfl
@[simp] theorem withFetchWord_mem (s : State) (nbits w : Nat) : (s.withFetchWord nbits w).mem = s.mem := rfl

end Sys2Proof.Laws
end

