-- ==== Sys2Proof/Tests/Slice0.lean ====
section
/-!
SUPPORT. Tests: the well-formedness smoke, a word of every command written out from the encoding (spec/95_test_vectors.md L2.1,
30_encoding.md R113), one step of each command on a small state with the values the spec's examples give, and for every
statement with hypotheses a state and operands that meet them (theorems `witness_…`).
-/
namespace Sys2Proof.Tests

open Sys2Proof.Machine

/-! ### Well-formedness: each check refuses an ill-formed term (30_encoding.md R101 step 3) -/

theorem test_wf_encode_cx : (Instr.mqEncode 19 true).wellFormed = false := by decide
theorem test_wf_decode_cx : (Instr.mqDecode 31).wellFormed = false := by decide
theorem test_wf_spp_plane : (Instr.bpcSpp 31 .enc false).wellFormed = false := by decide
theorem test_wf_mrp_plane : (Instr.bpcMrp 31 .dec true).wellFormed = false := by decide
theorem test_wf_cup_plane : (Instr.bpcCup 31 .enc).wellFormed = false := by decide
theorem test_wf_bounds : (Instr.mqEncode 18 false).wellFormed = true ∧ (Instr.bpcCup 30 .dec).wellFormed = true := by decide

/-! ### Decoding: words from the spec (95_test_vectors.md L2.1, 30_encoding.md R113; the others bit by bit from R102 to R110) -/

theorem test_decode_ctx_zc : decode 0x04010000 = .ok (.ctxZc .ll 0x01) ∧ decode 0x07700000 = .ok (.ctxZc .hh 0x70) := by decide
theorem test_decode_ctx_sc :
    decode 0x08310000 = .ok (.ctxSc ⟨false, true⟩ ⟨false, false⟩ ⟨true, true⟩ ⟨false, false⟩) := by decide
theorem test_decode_ctx_mr : decode 0x0C100000 = .ok (.ctxMr false true) := by decide
theorem test_decode_mq_initenc : decode 0x20000000 = .ok .mqInitenc := by decide
theorem test_decode_mq_encode :
    decode 0x24100000 = .ok (.mqEncode 0 true) ∧ decode 0x26400000 = .ok (.mqEncode 18 false) := by decide
theorem test_decode_mq_flush : decode 0x28000000 = .ok .mqFlush := by decide
theorem test_decode_mq_erterm : decode 0x2C000000 = .ok .mqErterm := by decide
theorem test_decode_mq_initdec : decode 0x30000000 = .ok .mqInitdec := by decide
theorem test_decode_mq_decode : decode 0x36400000 = .ok (.mqDecode 18) := by decide
theorem test_decode_mq_resetctx : decode 0x38000000 = .ok .mqResetctx := by decide
theorem test_decode_raw_initenc : decode 0x40000000 = .ok .rawInitenc := by decide
theorem test_decode_raw_putbit : decode 0x44100000 = .ok (.rawPutbit true) := by decide
theorem test_decode_raw_flush : decode 0x48000000 = .ok .rawFlush := by decide
theorem test_decode_raw_initdec : decode 0x4C000000 = .ok .rawInitdec := by decide
theorem test_decode_raw_getbit : decode 0x50000000 = .ok .rawGetbit := by decide
theorem test_decode_bpc_clear : decode 0x60000000 = .ok .bpcClear := by decide
theorem test_decode_bpc_spp : decode 0x64380000 = .ok (.bpcSpp 1 .dec true) := by decide
theorem test_decode_bpc_mrp : decode 0x68000000 = .ok (.bpcMrp 0 .enc false) := by decide
theorem test_decode_bpc_cup : decode 0x6C400000 = .ok (.bpcCup 2 .enc) := by decide
theorem test_decode_bpc_store : decode 0x70000000 = .ok .bpcStore := by decide
theorem test_decode_mel_initenc : decode 0x80000000 = .ok .melInitenc := by decide
theorem test_decode_mel_put : decode 0x84000000 = .ok (.melPut false) := by decide
theorem test_decode_mel_flush : decode 0x88000000 = .ok .melFlush := by decide
theorem test_decode_mel_initdec : decode 0x8C000000 = .ok .melInitdec := by decide
theorem test_decode_mel_get : decode 0x90000000 = .ok .melGet := by decide
theorem test_decode_cb_encode : decode 0xC0000000 = .ok .cbEncode := by decide
theorem test_decode_cb_decode : decode 0xC4000000 = .ok .cbDecode := by decide
theorem test_decode_unassigned : decode 0 = .error .unassignedOpcode ∧ decode 0xFC000000 = .error .unassignedOpcode := by decide
theorem test_decode_reserved : decode 0x24080000 = .error .reservedBit ∧ decode 0x34100000 = .error .reservedBit := by decide
theorem test_decode_illegal_field :
    decode 0x26600000 = .error .illegalField ∧ decode 0x6C480000 = .error .illegalField ∧
      decode 0x67E00000 = .error .illegalField := by decide

/-! ### One step of each command -/

/-- The state after reset with a coder mode and segment registers. -/
def coder (m : CMode) (r : SegRegs) : State :=
  { State.reset with status := { State.reset.status with cmode := m }, seg := r }

/-- The segment registers of an encoder that has emitted nothing. -/
def regs (a : BitVec 16) (c : Word) (ct : BitVec 4) : SegRegs := { State.reset.seg with a := a, c := c, ct := ct }

/-- The segment registers of a decoder of n bytes from BYTE offset 0. -/
def dregs (a : BitVec 16) (c : Word) (ct : BitVec 4) (bp : Word) (n : Word) : SegRegs :=
  { State.reset.seg with a := a, c := c, ct := ct, bp := bp, stop := n }

/-- A state with these bytes from BYTE offset 0. -/
def withBytes (s : State) (l : List Byte) : State :=
  { s with mem := s.mem ++ (List.range l.length).map fun j => (byteAddr j, l.getD j 0) }

/-- A state with a block of these dimensions, CFG_CODE and coefficients. -/
def block (s : State) (w h code : Nat) (q : List Int) : State :=
  { s with
    cfg := { s.cfg with dim := BitVec.ofNat 32 (h * 65536 + w), code := BitVec.ofNat 32 code }
    mem := ((List.range q.length).foldl (fun m i => m.setWord (coefAddr i) (BitVec.ofInt 32 (q.getD i 0))) s.mem) }

/-- A 1 × 1 block with this CFG_CODE to decode: n passes, SEGLEN = len, the segment bytes 0x03 0xFF, and the SEGTAB entries. -/
def toDecode (code n len : Nat) (tab : List Word) : State :=
  let table : Memory := (List.range tab.length).foldl (fun (m : Memory) k => m.setWord (segtabAddr k) (tab.getD k 0)) []
  { State.reset with
    cfg := { dim := 0x00010001, code := BitVec.ofNat 32 code, npass := BitVec.ofNat 8 n, segbase := 0
             seglen := BitVec.ofNat 32 len }
    mem := (table.setByte (byteAddr 0) 0x03).setByte (byteAddr 1) 0xFF }

/-- The command answers a next state with p. -/
def answers (i : Instr) (s : State) (p : State → Bool) : Bool :=
  match exec i s with
  | .next t => p t
  | _ => false

/-- R140: CTX.ZC LL, {W} gives 5; CTX.ZC HL, {W} gives 3. -/
theorem test_ctx_zc : answers (.ctxZc .ll 0x01) State.reset (fun t => t.out.result == 5) = true ∧
    answers (.ctxZc .hl 0x01) State.reset (fun t => t.out.result == 3) = true := by decide
/-- R141: CTX.SC {W+, N-} gives 0x0000000B; CTX.SC {W-} gives 0x0000010C. -/
theorem test_ctx_sc :
    answers (.ctxSc ⟨false, true⟩ ⟨false, false⟩ ⟨true, true⟩ ⟨false, false⟩) State.reset (fun t => t.out.result == 0x0B) = true ∧
    answers (.ctxSc ⟨true, true⟩ ⟨false, false⟩ ⟨false, false⟩ ⟨false, false⟩) State.reset
      (fun t => t.out.result == 0x10C) = true := by decide
/-- R142: refined = 0, anysig = 1 gives 15. -/
theorem test_ctx_mr : answers (.ctxMr false true) State.reset (fun t => t.out.result == 15) = true := by decide
/-- R190: MQ_A = 0x8000, MQ_CT = 12. -/
theorem test_mq_initenc : answers .mqInitenc State.reset
    (fun t => t.seg.a == 0x8000 && t.seg.ct == 12 && t.status.cmode == .mqe) = true := by decide
/-- R191: MQ.ENCODE 0, 1 with the initial contexts gives A = 0xA420, CT = 7 and CTX[0] = (29, 0). -/
theorem test_mq_encode : answers (.mqEncode 0 true) (coder .mqe (regs 0x8000 0 12))
    (fun t => t.seg.a == 0xA420 && t.seg.c == 0 && t.seg.ct == 7 && t.ctx[0] == ⟨29, false⟩) = true := by decide +kernel
/-- R171: a segment with no decision is 0xFF 0x7F. -/
theorem test_mq_flush : answers .mqFlush (coder .mqe (regs 0x8000 0 12))
    (fun t => t.out.nbytes == 2 && t.mem.getByte (byteAddr 0) == some 0xFF &&
      t.mem.getByte (byteAddr 1) == some 0x7F) = true := by decide +kernel
/-- R193: with no decision no byte is emitted. -/
theorem test_mq_erterm : answers .mqErterm (coder .mqe (regs 0x8000 0 12))
    (fun t => t.out.nbytes == 0 && t.status.cmode == .idle) = true := by decide +kernel
/-- R194: the segment 0x07 0x7F gives C = 0x03BF8000, CT = 1, MQ_BP = 1. -/
theorem test_mq_initdec :
    answers .mqInitdec (withBytes { State.reset with cfg := { State.reset.cfg with seglen := 2 } } [0x07, 0x7F])
      (fun t => t.seg.c == 0x03BF8000 && t.seg.ct == 1 && t.seg.bp == 1) = true := by decide +kernel
/-- R195: MQ.DECODE 0 on that segment gives RESULT 1, A = 0xA420, C = 0x77FFF000, CT = 4, FILLCNT = 1. -/
theorem test_mq_decode :
    answers (.mqDecode 0) (withBytes (coder .mqd (dregs 0x8000 0x03BF8000 1 1 2)) [0x07, 0x7F])
      (fun t => t.out.result == 1 && t.seg.a == 0xA420 && t.seg.c == 0x77FFF000 && t.seg.ct == 4 &&
        t.seg.fillcnt == 1) = true := by decide +kernel
/-- R196: CTX[18] reads 0x0000002E. -/
theorem test_mq_resetctx :
    answers .mqResetctx { State.reset with ctx := Vector.replicate 19 ⟨1, true⟩ } (fun t => t.ctx[18].word == 0x2E) = true := by decide +kernel
/-- R220: MQ_CT = 8. -/
theorem test_raw_initenc : answers .rawInitenc State.reset (fun t => t.seg.ct == 8 && t.status.cmode == .rawe) = true := by decide
/-- R221: RAW.PUTBIT 1 gives MQ_C = 0x80, MQ_CT = 7. -/
theorem test_raw_putbit :
    answers (.rawPutbit true) (coder .rawe (regs 0 0 8)) (fun t => t.seg.c == 0x80 && t.seg.ct == 7) = true := by decide
/-- R222: after one bit 1, RAW.FLUSH gives the byte 0xAA. -/
theorem test_raw_flush : answers .rawFlush (coder .rawe (regs 0 0x80 7))
    (fun t => t.mem.getByte (byteAddr 0) == some 0xAA && t.out.nbytes == 1) = true := by decide +kernel
/-- R223: MQ_CT = 0 and CMODE = 4. -/
theorem test_raw_initdec :
    answers .rawInitdec State.reset (fun t => t.seg.ct == 0 && t.status.cmode == .rawd) = true := by decide +kernel
/-- R224: the segment 0xAA returns 1 first, MQ_C = 0xAA, MQ_CT = 7, MQ_BP = 1. -/
theorem test_raw_getbit : answers .rawGetbit (withBytes (coder .rawd (dregs 0 0 0 0 1)) [0xAA])
    (fun t => t.out.result == 1 && t.seg.c == 0xAA && t.seg.ct == 7 && t.seg.bp == 1) = true := by decide +kernel
/-- R249: every array element is 0. -/
theorem test_bpc_clear : answers .bpcClear { State.reset with arr := { State.reset.arr with sig := 5, mag := [(2, 7)] } }
    (fun t => t.arr.sig == 0 && t.arr.mag == []) = true := by decide +kernel
/-- R241: in the 1 × 2 block [3, −1] after BPC.CUP 1, BPC.SPP 0 codes (0, 1) in labels 3 and 10: VISITED[1] = SIG[1] = SIGN[1] = 1. -/
theorem test_bpc_spp :
    answers (.bpcSpp 0 .enc false)
      { block (coder .mqe (regs 0x8000 0 12)) 1 2 2 [3, -1] with arr := { State.reset.arr with sig := 1 } }
      (fun t => t.arr.visited == 2 && t.arr.sig == 3 && t.arr.sgn == 2) = true := by decide +kernel
/-- R245: BPC.MRP 0 then refines (0, 0) in label 15: REFINED[0] = 1, and the LPS moves CTX[15] from row 0 to row 1. -/
theorem test_bpc_mrp :
    answers (.bpcMrp 0 .enc false)
      { block (coder .mqe (regs 0x8000 0 12)) 1 2 2 [3, -1] with arr := { State.reset.arr with sig := 3, sgn := 2, visited := 2 } }
      (fun t => t.arr.refined == 1 && t.ctx[15] == ⟨1, true⟩ && t.ctx[14] == ⟨0, false⟩) = true := by decide +kernel
/-- R247: the 1 × 1 block [1] codes 1 in label 0 (row 4 to 29) and the sign 0 in label 9 (row 0 to 1). -/
theorem test_bpc_cup : answers (.bpcCup 0 .enc) (block (coder .mqe (regs 0x8000 0 12)) 1 1 1 [1])
    (fun t => t.arr.sig == 1 && t.arr.sgn == 0 && t.ctx[0] == ⟨29, false⟩ && t.ctx[9] == ⟨1, false⟩) = true := by decide +kernel
/-- R250: MAG = [3, 1] with SIGN[1] = 1 stores [3, −1]. -/
theorem test_bpc_store :
    answers .bpcStore { block State.reset 1 2 2 [] with arr := { State.reset.arr with sig := 3, sgn := 2, mag := [(0, 3), (1, 1)] } }
      (fun t => t.mem.getWord (coefAddr 0) == some 3 && t.mem.getWord (coefAddr 1) == some 0xFFFFFFFF) = true := by decide +kernel
/-- R310: MEL_K = 0, MQ_CT = 8. -/
theorem test_mel_initenc :
    answers .melInitenc (coder .idle { State.reset.seg with melK := 5 }) (fun t => t.seg.melK == 0 && t.seg.ct == 8) = true := by decide
/-- R311: MEL.PUT 0 gives one bit 1, MEL_K = 1, MEL_RUN = 0. -/
theorem test_mel_put : answers (.melPut false) (coder .mele (regs 0 0 8))
    (fun t => t.seg.c == 1 && t.seg.ct == 7 && t.seg.melK == 1 && t.seg.melRun == 0) = true := by decide +kernel
/-- R312: the bits 11100 of the symbols 0, 0, 0, 1 are padded to the byte 0xE7. -/
theorem test_mel_flush : answers .melFlush (coder .mele (regs 0 0x1C 3))
    (fun t => t.mem.getByte (byteAddr 0) == some 0xE7 && t.out.nbytes == 1) = true := by decide +kernel
/-- R313: FILLCNT = 0, MQ_CT = 0. -/
theorem test_mel_initdec :
    answers .melInitdec State.reset (fun t => t.seg.fillcnt == 0 && t.seg.ct == 0 && t.status.cmode == .meld) = true := by decide +kernel
/-- R314: the first symbol of the segment 0xE7 is 0. -/
theorem test_mel_get : answers .melGet (withBytes (coder .meld (dregs 0 0 0 0 1)) [0xE7])
    (fun t => t.out.result == 0 && t.seg.melK == 1 && t.seg.ct == 7) = true := by decide +kernel
/-- R191: ENCODE(0, 1) from the initial state gives A = 0xA420, C = 0, CT = 7; R171: no decision gives 0xFF 0x7F. -/
theorem test_mq_reference :
    (mqCoded ⟨4, false⟩ true (regs 0x8000 0 12, [])).1 = regs 0xA420 0 7 ∧
    (mqFlushed (regs 0x8000 0 12, [])).2 = [(byteAddr 0, 0xFF), (byteAddr 1, 0x7F)] := by decide +kernel
/-- R195: DECODE(0) on 0x07 0x7F gives A = 0xA420, C = 0x77FFF000, CT = 4, MQ_BP = 2, FILLCNT = 1. -/
theorem test_mq_reference_decode :
    mqDecoded ⟨4, false⟩ (withBytes State.reset [0x07, 0x7F]).mem (dregs 0x8000 0x03BF8000 1 1 2) =
      { dregs 0xA420 0x77FFF000 4 2 2 with fillcnt := 1 } := by decide +kernel
/-- R241: the SPP at plane 0 of the block [3, −1] codes bit 1 in label 3 and the decision 1 in sign label 10; R247: the CUP of [1] codes
1 in label 0 and the sign 0 in label 9. -/
theorem test_replay :
    ((replayPass (.bpcSpp 0 .enc false) ⟨⟨1, 2, .ll, false⟩, 0, false, some (block State.reset 1 2 2 [3, -1]).mem⟩ false
      { State.reset.arr with sig := 1 } [(3, true), (10, true)]).map fun r => (r.sig == 3 && r.sgn == 2 && r.visited == 2)) =
      some true ∧
    ((replayPass (.bpcCup 0 .enc) ⟨⟨1, 1, .ll, false⟩, 0, false, some (block State.reset 1 1 1 [1]).mem⟩ false
      State.reset.arr [(0, true), (9, false)]).map fun r => (r.sig == 1 && r.sgn == 0)) = some true := by decide +kernel
/-- R312: the symbols 0, 0, 0, 1 are the byte 0xE7. -/
theorem test_mel_stream : melStream [false, false, false, true] = [0xE7] := by decide +kernel
/-- R314: and the byte 0xE7 is read as these symbols. -/
theorem test_mel_symbols : melSymbols 4 [0xE7] = [false, false, false, true] := by decide +kernel
/-- R350: the 1 × 1 block [1] with P = 1 gives the byte 0x03, NBYTES = NPASSOUT = SEGTAB[0] = 1. -/
theorem test_cb_encode : answers .cbEncode (block State.reset 1 1 1 [1])
    (fun t => t.mem.getByte (byteAddr 0) == some 0x03 && t.out.nbytes == 1 && t.out.npassout == 1 &&
      t.mem.getWord (segtabAddr 0) == some 1) = true := by decide +kernel
/-- R351: the byte 0x03, followed by 0xFF bytes as the fill value would supply them, decodes to [1]. -/
theorem test_cb_decode :
    answers .cbDecode (withBytes { block State.reset 1 1 1 [] with
        cfg := { dim := 0x00010001, code := 1, npass := 1, segbase := 0, seglen := 4 } } [0x03, 0xFF, 0xFF, 0xFF])
      (fun t => t.mem.getWord (coefAddr 0) == some 1 && t.out.npassout == 1 && !t.status.partialRes) = true := by decide +kernel

/-! ### Witnesses: for each statement with hypotheses, operands that meet them all -/

/-- The state after reset with these host events. -/
def hosted (l : List HostOp) : State := { State.reset with bus := { pending := l, data := none } }

/-- A state with this word in flight. -/
def flying (w : Word) : State := State.reset.withFetchWord 32 w.toNat

/-- A segment of two written bytes, latched. -/
def latched (m : CMode) : State := withBytes (coder m (dregs 0x8000 0x03BF8000 1 1 2)) [0x07, 0x7F]

/-- A state whose encoder segment starts far past BYTE memory. -/
def noRoom (m : CMode) : State := coder m { regs 0x8000 0 1 with start := 0xFFFFFFFF }

/-- An encoder at BYTE offset 0 has room for at least 8 bytes. -/
theorem hasRoom_of_le {s : State} {n : Nat} (h0 : s.seg.outOffset = 0) (h : n ≤ 8) : HasRoom s n := by
  have := Laws.byteCap_ge
  unfold HasRoom
  omega

theorem witness_EncodingExamples : ∀ w ∈ [(0x24080000 : Word), 0x26600000, 0x6C480000],
    (flying w).bus.pending = [] ∧ (flying w).status.inflight = some w :=
  fun w _ => ⟨rfl, congrArg some (BitVec.eq_of_toNat_eq (by simp [Nat.mod_eq_of_lt w.isLt]))⟩

/-- A boundary opcode of every range of R111. -/
theorem witness_UnassignedOpcodesIllegal : (∀ w : Word, (flying w).bus.pending = []) ∧
    ([0x00000000, 0x10000000, 0x1FFFFFFF, 0x3C000000, 0x54000000, 0x5C000000, 0x74000000, 0x7C000000, 0x94000000, 0xBC000000,
      0xC8000000, 0xFC000000] : List Word).map (fun w => (opcOf w).toNat) =
      [0x00, 0x04, 0x07, 0x0F, 0x15, 0x17, 0x1D, 0x1F, 0x25, 0x2F, 0x32, 0x3F] := ⟨fun _ => rfl, by decide⟩

theorem opcode_of_encode (i : Instr) : opcOf (encode i) = Laws.OpcodeField.opcode i :=
  match i with
  | .ctxZc _ _ => Laws.OpcodeField.ctxZc _ _
  | .ctxSc _ _ _ _ => Laws.OpcodeField.ctxSc _ _ _ _
  | .ctxMr _ _ => Laws.OpcodeField.ctxMr _ _
  | .mqInitenc => Laws.OpcodeField.mqInitenc
  | .mqEncode _ _ => Laws.OpcodeField.mqEncode _ _
  | .mqFlush => Laws.OpcodeField.mqFlush
  | .mqErterm => Laws.OpcodeField.mqErterm
  | .mqInitdec => Laws.OpcodeField.mqInitdec
  | .mqDecode _ => Laws.OpcodeField.mqDecode _
  | .mqResetctx => Laws.OpcodeField.mqResetctx
  | .rawInitenc => Laws.OpcodeField.rawInitenc
  | .rawPutbit _ => Laws.OpcodeField.rawPutbit _
  | .rawFlush => Laws.OpcodeField.rawFlush
  | .rawInitdec => Laws.OpcodeField.rawInitdec
  | .rawGetbit => Laws.OpcodeField.rawGetbit
  | .bpcClear => Laws.OpcodeField.bpcClear
  | .bpcSpp _ _ _ => Laws.OpcodeField.bpcSpp _ _ _
  | .bpcMrp _ _ _ => Laws.OpcodeField.bpcMrp _ _ _
  | .bpcCup _ _ => Laws.OpcodeField.bpcCup _ _
  | .bpcStore => Laws.OpcodeField.bpcStore
  | .melInitenc => Laws.OpcodeField.melInitenc
  | .melPut _ => Laws.OpcodeField.melPut _
  | .melFlush => Laws.OpcodeField.melFlush
  | .melInitdec => Laws.OpcodeField.melInitdec
  | .melGet => Laws.OpcodeField.melGet
  | .cbEncode => Laws.OpcodeField.cbEncode
  | .cbDecode => Laws.OpcodeField.cbDecode

/-- The word 0x20000001, MQ.INITENC with reserved bit 0 set, is the word of no command. -/
theorem witness_OtherWordsIllegal : (flying 0x20000001).bus.pending = [] ∧
    (flying 0x20000001).status.inflight = some 0x20000001 ∧
    ∀ i : Instr, i.wellFormed = true → encode i ≠ 0x20000001 := by
  refine ⟨rfl, rfl, fun i _ h => ?_⟩
  have ho := opcode_of_encode i
  rw [h] at ho
  cases i
  case mqInitenc => exact absurd h (by decide)
  all_goals exact absurd (congrArg BitVec.toNat ho) (by simp [Laws.OpcodeField.opcode, opcOf])

theorem witness_StepRunsDecoded : (flying 0x24100000).status.inflight = some 0x24100000 ∧
    decode 0x24100000 = .ok (.mqEncode 0 true) ∧ (flying 0x24100000).bus.pending = [] ∧
    ({ flying 0x24100000 with bus := { pending := [.wait], data := none } } : State).bus.pending = .wait :: [] := by decide

theorem witness_CommandAccepted :
    (hosted [.write 0x004 4 0xC0000000]).bus.pending = .write 0x004 4 0xC0000000 :: [] ∧
    (hosted [.write 0x004 4 0xC0000000]).status.inflight = none ∧ (hosted [.write 0x004 4 0xC0000000]).status.err = none ∧
    (hosted []).bus.pending = [] ∧ (hosted []).status.inflight = none := by decide

theorem witness_ErrorBlocksUntilAcknowledged :
    let s := (hosted [.write 0x004 4 0, .write 0x008 4 4, .write 0x004 4 1]).takeError .overflow
    s.bus.pending = .write 0x004 4 0 :: .write 0x008 4 4 :: .write 0x004 4 1 :: [] ∧
    s.status.inflight = none ∧ s.status.err = some .overflow ∧ (4 : Word).getLsbD 2 = true := by decide

theorem witness_StatusFlagsCleared :
    (hosted [.write 0x008 4 0x3E]).bus.pending = .write 0x008 4 0x3E :: [] ∧
    (hosted [.write 0x008 4 0x3E]).status.inflight = none ∧
    ∃ t, exec (.ctxMr true true) ((hosted []).takeError .config) = .next t ∧ isBlock (.ctxMr true true) = false :=
  ⟨rfl, rfl, _, rfl, rfl⟩

theorem witness_StatusWordLayout : (hosted [.read 0x008 4]).bus.pending = .read 0x008 4 :: [] := by decide

/-- A read of STATUS answers; the CSR offsets 0x000 and 0x094 are the ends of the range; a row of the CSR table, CTX[18], and a write
to the read-only RESULT. -/
theorem witness_HostReadsKeepState :
    (∃ t, step (hosted [.read 0x008 4]) = .next t) ∧
    (∀ a, (hosted [.read a 4]).status.inflight = none) ∧ (0x094 : Word).toNat ≤ 0x094 ∧ (0x094 : Word).toNat % 4 = 0 ∧
    (hosted [.read 0x020 4]).bus.pending = .read 0x020 4 :: [] ∧
    (0x088 : Word) = BitVec.ofNat 32 (0x040 + 4 * (18 : Label).val) ∧
    (hosted [.write 0x020 4 7]).bus.pending = .write 0x020 4 7 :: [] ∧ (hosted [.write 0x020 4 7]).status.inflight = none :=
  ⟨⟨_, rfl⟩, fun _ => rfl, by decide, by decide, rfl, by decide, rfl, rfl⟩

theorem witness_ConfigReadsBack :
    ((0x010 : Word), (0x01FF031F : Word)) ∈ [((0x00C : Word), (0xFFFFFFFF : Word)), (0x010, 0x01FF031F), (0x014, 0x000000FF),
      (0x018, 0xFFFFFFFF), (0x01C, 0xFFFFFFFF)] ∧
    (hosted [.write 0x010 4 0xFFFFFFFF, .read 0x010 4]).status.inflight = none :=
  ⟨List.mem_cons_of_mem _ List.mem_cons_self, rfl⟩

/-- INDEX 46 is written, INDEX 47 ignored. -/
theorem witness_ContextWrites :
    (hosted [.write 0x040 4 46, .read 0x040 4]).status.inflight = none ∧
    ((46 : Word).extractLsb' 0 6).toNat ≤ 46 ∧ 46 < ((47 : Word).extractLsb' 0 6).toNat := by decide

/-- The first and the last word of each memory that is fixed, and the first of BYTE. -/
theorem witness_MemoryWordAccess :
    ∀ a ∈ [(0x01000 : Word), 0x011FC, 0x04000, 0x07FFC, 0x10000], a.toNat % 4 = 0 ∧ InMemories a.toNat := by
  have := Laws.byteCap_ge
  intro a ha
  simp only [List.mem_cons, List.not_mem_nil, or_false] at ha
  rcases ha with rfl | rfl | rfl | rfl | rfl
  · exact ⟨by decide, .inl (by decide)⟩
  · exact ⟨by decide, .inl (by decide)⟩
  · exact ⟨by decide, .inr (.inl (by decide))⟩
  · exact ⟨by decide, .inr (.inl (by decide))⟩
  · exact ⟨by decide, .inr (.inr (by simp; omega))⟩

theorem witness_StateWindows : (4095 : Nat) < 4096 ∧ (hosted [.read 0x0BFFC 4]).status.inflight = none ∧
    (hosted [.read 0x0BFFC 4]).bus.pending = .read (BitVec.ofNat 32 (0x08000 + 4 * 4095)) 4 :: [] ∧
    (hosted [.read 0x0FFFC 4]).bus.pending = .read (BitVec.ofNat 32 (0x0C000 + 4 * 4095)) 4 :: [] ∧
    (hosted [.write 0x0FFFC 4 1]).bus.pending = .write (BitVec.ofNat 32 (0x0C000 + 4 * 4095)) 4 1 :: [] := by decide

/-- Each way to break the protocol: a narrow access, an unaligned one, the ends of the reserved rows, an access while BUSY, a read of
an unwritten word. -/
theorem witness_HostViolationsFault :
    (hosted [.read 0x008 1]).status.inflight = none ∧ (0x009 : Word).toNat % 4 ≠ 0 ∧
    0x00098 ≤ (0x098 : Word).toNat ∧ (0xFFC : Word).toNat ≤ 0x00FFF ∧
    0x01200 ≤ (0x01200 : Word).toNat ∧ (0x03FFC : Word).toNat ≤ 0x03FFF ∧
    0x10000 + Config.byteCap ≤ (0xFFFFFFFC : Word).toNat ∧
    (flying 0xC0000000).status.inflight.isSome = true ∧ (0x00C : Word) ≠ 0x000 ∧ (0x00C : Word) ≠ 0x008 ∧
    InMemories (0x04000 : Word).toNat ∧ (hosted [.read 0x04000 4]).mem.getByte ((0x04000 : Word).toNat + 0) = none := by
  have := Laws.byteCap_le
  refine ⟨by decide, by decide, by decide, by decide, by decide, by decide, ?_, by decide, by decide, by decide, .inr (.inl (by decide)), by decide⟩
  show 0x10000 + Config.byteCap ≤ 0xFFFFFFFC
  omega

theorem witness_ResetValues : (hosted [.reset]).bus.pending = .reset :: [] := by decide

/-- A 1 × 5 block in vertically causal mode: row 3 ends its stripe, and row 4 alone differs. -/
theorem witness_VerticallyCausal :
    let g : Geometry := ⟨1, 5, .ll, true⟩
    let r := State.reset.arr
    let r' : Arrays := { r with sig := 0x10 }
    g.vcausal = true ∧ 3 % 4 = 3 ∧ 0 < g.w ∧ 3 < g.h ∧
    (∀ x' y', x' < g.w → y' < g.h → y' ≠ 3 + 1 →
      r'.sig.getLsbD (coefIndex g x' y') = r.sig.getLsbD (coefIndex g x' y') ∧
      r'.sgn.getLsbD (coefIndex g x' y') = r.sgn.getLsbD (coefIndex g x' y')) ∧
    r'.refined.getLsbD (coefIndex g 0 3) = r.refined.getLsbD (coefIndex g 0 3) ∧ r' ≠ r ∧
    ¬ (g.vcausal = true ∧ 2 % 4 = 3) ∧
    (∀ x', x' < g.w → 3 + 1 < g.h → r.sig.getLsbD (coefIndex g x' (3 + 1)) = false) := by
  refine ⟨rfl, rfl, by decide, by decide, fun x' y' hx hy hne => ?_, rfl, by decide +kernel, by decide, fun _ _ _ => ?_⟩
  rotate_left
  · exact BitVec.getLsbD_zero
  have hx' : x' = 0 := Nat.lt_one_iff.1 hx
  have hy' : y' < 5 := hy
  subst hx'
  refine ⟨?_, rfl⟩
  obtain rfl | rfl | rfl | rfl : y' = 0 ∨ y' = 1 ∨ y' = 2 ∨ y' = 3 := by omega
  all_goals decide +kernel

/-- With room for 8 bytes; CX at its last value, and an MPS in context 18 that does not renormalise from A = 0xFFFF. -/
theorem witness_MqEncodeCompletes :
    (18 : BitVec 5).toNat ≤ 18 ∧ (coder .mqe (regs 0xFFFF 0 12)).status.cmode = .mqe ∧
    (coder .mqe (regs 0xFFFF 0 12)).seg.a.msb = true ∧ HasRoom (coder .mqe (regs 0xFFFF 0 12)) 3 ∧
    ((coder .mqe (regs 0xFFFF 0 12)).seg.a - (mqRow (coder .mqe (regs 0xFFFF 0 12)).ctx[labelOf 18].index).qe).msb = true :=
  ⟨by decide, rfl, by decide, hasRoom_of_le rfl (by decide), by decide +kernel⟩

theorem witness_MqFlushCompletes : (coder .mqe (regs 0x8000 0 12)).status.cmode = .mqe ∧
    HasRoom (coder .mqe (regs 0x8000 0 12)) 2 ∧ State.reset.cfg.segbase.toNat + 2 ≤ Config.byteCap :=
  ⟨rfl, hasRoom_of_le rfl (by decide), hasRoom_of_le (s := State.reset) rfl (by decide)⟩

theorem witness_MqErtermCompletes : (coder .mqe (regs 0x8000 0 12)).status.cmode = .mqe ∧
    HasRoom (coder .mqe (regs 0x8000 0 12)) 2 := ⟨rfl, hasRoom_of_le rfl (by decide)⟩

/-- A state with two segment bytes and SEGLEN = 2, and one whose segment lies past BYTE memory. -/
theorem witness_MqInitdecExact :
    let s := withBytes { State.reset with cfg := { State.reset.cfg with seglen := 2 } } [0x07, 0x7F]
    s.cfg.segbase.toNat + s.cfg.seglen.toNat ≤ Config.byteCap ∧ CfgSegmentWritten s ∧
    Config.byteCap < ({ State.reset.cfg with segbase := 0xFFFFFFFF } : Cfg).segbase.toNat +
      ({ State.reset.cfg with segbase := 0xFFFFFFFF } : Cfg).seglen.toNat := by
  have h1 := Laws.byteCap_ge
  have h2 := Laws.byteCap_le
  refine ⟨?_, by unfold CfgSegmentWritten; decide, ?_⟩
  · show 0 + 2 ≤ Config.byteCap; omega
  · show Config.byteCap < 4294967295 + 0; omega

theorem segmentWritten_latched (m : CMode) : SegmentWritten (latched m) := by
  cases m <;> unfold SegmentWritten <;> decide

theorem witness_MqDecodeCompletes : (18 : BitVec 5).toNat ≤ 18 ∧ (latched .mqd).status.cmode = .mqd ∧
    SegmentWritten (latched .mqd) ∧ (latched .mqd).seg.a.msb = true := ⟨by decide, rfl, segmentWritten_latched _, by decide⟩

/-- Each clause: a free position, the last one with room, the last one without. -/
theorem witness_RawPutbitExact : (coder .rawe (regs 0 0 8)).status.cmode = .rawe ∧ (coder .rawe (regs 0 0 8)).seg.ct ≠ 1 ∧
    (coder .rawe (regs 0 0 1)).seg.ct = 1 ∧ HasRoom (coder .rawe (regs 0 0 1)) 1 ∧
    (noRoom .rawe).seg.ct = 1 ∧ ¬ HasRoom (noRoom .rawe) 1 := by
  have := Laws.byteCap_le
  refine ⟨rfl, by decide, rfl, hasRoom_of_le rfl (by decide), rfl, ?_⟩
  show ¬ 4294967295 + 0 + 1 ≤ Config.byteCap
  omega

/-- Each clause: a partial byte, and none. -/
theorem witness_RawFlushExact : (coder .rawe (regs 0 0x80 7)).status.cmode = .rawe ∧
    HasRoom (coder .rawe (regs 0 0x80 7)) 1 ∧ (coder .rawe (regs 0 0x80 7)).seg.ct.toNat < 8 ∧
    HasRoom (coder .rawe (regs 0 0 8)) 1 ∧ ¬ (coder .rawe (regs 0 0 8)).seg.ct.toNat < 8 :=
  ⟨rfl, hasRoom_of_le rfl (by decide), by decide, hasRoom_of_le rfl (by decide), by decide⟩

theorem witness_RawAndMelInitdecExact : State.reset.cfg.segbase.toNat + State.reset.cfg.seglen.toNat ≤ Config.byteCap ∧
    Config.byteCap < ({ State.reset.cfg with seglen := 0xFFFFFFFF } : Cfg).segbase.toNat +
      ({ State.reset.cfg with seglen := 0xFFFFFFFF } : Cfg).seglen.toNat := by
  have h2 := Laws.byteCap_le
  refine ⟨hasRoom_of_le (s := State.reset) (n := 0) rfl (by decide), ?_⟩
  show Config.byteCap < 0 + 4294967295
  omega

/-- Each clause: bits left, and none. -/
theorem witness_RawGetbitExact : (latched .rawd).status.cmode = .rawd ∧ SegmentWritten (latched .rawd) ∧
    (latched .rawd).seg.ct ≠ 0 ∧
    SegmentWritten (withBytes (coder .rawd (dregs 0 0 0 0 1)) [0xAA]) ∧
    (withBytes (coder .rawd (dregs 0 0 0 0 1)) [0xAA]).seg.ct = 0 :=
  ⟨rfl, segmentWritten_latched _, by decide, by unfold SegmentWritten; decide, rfl⟩

theorem witness_RawRoundTrip : State.reset.cfg.segbase.toNat + [true, false].length + 1 ≤ Config.byteCap :=
  hasRoom_of_le (s := State.reset) (n := 3) rfl (by decide)

/-- A 1 × 1 block with a written segment; each pass type, and a raw pass. -/
theorem witness_DecodingPassCompletes :
    (block (latched .mqd) 1 1 1 []).status.cmode = .mqd ∧ (block (latched .rawd) 1 1 1 []).status.cmode = .rawd ∧
    (30 : BitVec 5).toNat ≤ 30 ∧
    (block (latched .mqd) 1 1 1 []).cfg.badShape = false ∧ SegmentWritten (block (latched .mqd) 1 1 1 []) ∧
    SegmentWritten (block (latched .rawd) 1 1 1 []) := by
  refine ⟨rfl, rfl, by decide, by decide, ?_, ?_⟩ <;> unfold SegmentWritten <;> decide

/-- A 1 × 1 block with one written coefficient: a pass of it takes at most 6 bytes. -/
theorem witness_EncodingPassCompletes :
    (block (coder .mqe (regs 0x8000 0 12)) 1 1 1 [1]).status.cmode = .mqe ∧
    (block (coder .rawe (regs 0x8000 0 8)) 1 1 1 [1]).status.cmode = .rawe ∧
    (30 : BitVec 5).toNat ≤ 30 ∧ (block (coder .mqe (regs 0x8000 0 12)) 1 1 1 [1]).cfg.badShape = false ∧
    CoefsWritten (block (coder .mqe (regs 0x8000 0 12)) 1 1 1 [1]) ∧
    HasRoom (block (coder .mqe (regs 0x8000 0 12)) 1 1 1 [1]) (passRoom (block (coder .mqe (regs 0x8000 0 12)) 1 1 1 [1]).cfg) := by
  refine ⟨rfl, rfl, by decide, by decide, by unfold CoefsWritten; decide, hasRoom_of_le rfl (by decide)⟩

theorem witness_SppOnInsignificantBlock :
    (30 : BitVec 5).toNat ≤ 30 ∧ (block (latched .mqd) 2 2 1 []).status.cmode = passMode .dec false ∧
    (block (latched .mqd) 2 2 1 []).cfg.badShape = false ∧
    (∀ i < (block (latched .mqd) 2 2 1 []).cfg.w * (block (latched .mqd) 2 2 1 []).cfg.h,
      (block (latched .mqd) 2 2 1 []).arr.sig.getLsbD i = false) :=
  ⟨by decide, rfl, by decide, fun i _ => BitVec.getLsbD_zero⟩

/-- The limits themselves: 1024 × 4. -/
theorem witness_BpcStoreCompletes : (block State.reset 1024 4 0 []).cfg.badShape = false := by decide

theorem witness_WrongModeRaises : (Instr.mqEncode 18 true).wellFormed = true ∧
    neededMode (.mqEncode 18 true) = some .mqe ∧ State.reset.status.cmode ≠ .mqe := by decide

/-- Just past each limit; a pass in its mode, BPC.STORE and the block commands. -/
theorem witness_IllegalShapeRaises :
    State.reset.cfg.w = 0 ∧ (block State.reset 1 0 0 []).cfg.h = 0 ∧ 1024 < (block State.reset 1025 1 0 []).cfg.w ∧
    1024 < (block State.reset 1 1025 0 []).cfg.h ∧ 4096 < (block State.reset 64 65 0 []).cfg.w * (block State.reset 64 65 0 []).cfg.h ∧
    isPass (.bpcCup 0 .enc) = true ∧ neededMode (.bpcCup 0 .enc) = some (coder .mqe (regs 0 0 0)).status.cmode ∧
    isBlock .cbDecode = true := by decide

/-- Each clause: a 1 symbol, a 0 symbol that completes a run (k = 0), one that does not (k = 12). -/
theorem witness_MelPutCompletes : (coder .mele (regs 0 0 8)).status.cmode = .mele ∧ HasRoom (coder .mele (regs 0 0 8)) 1 ∧
    ((coder .mele (regs 0 0 8)).seg.melRun + 1).toNat = melThreshold (coder .mele (regs 0 0 8)).seg.melK ∧
    ((0 : BitVec 16) + 1).toNat ≠ melThreshold 12 :=
  ⟨rfl, hasRoom_of_le rfl (by decide), by decide, by decide⟩

/-- The stream of R312's example has one byte. -/
theorem witness_MelFlushCompletes : (coder .mele (regs 0 0x1C 3)).status.cmode = .mele ∧
    HasRoom (coder .mele (regs 0 0x1C 3)) 1 ∧
    State.reset.cfg.segbase.toNat + (melStream [false, false, false, true]).length ≤ Config.byteCap :=
  ⟨rfl, hasRoom_of_le rfl (by decide), by rw [test_mel_stream]; exact hasRoom_of_le (s := State.reset) (n := 1) rfl (by decide)⟩

/-- Each clause: zeros pending, a 1 pending, neither; a written segment to read from MEL.INITDEC on. -/
theorem witness_MelGetCompletes : (latched .meld).status.cmode = .meld ∧ SegmentWritten (latched .meld) ∧
    (latched .meld).seg.melRun = 0 ∧ (latched .meld).seg.onePend = false ∧
    ({ (latched .meld).seg with melRun := 3 } : SegRegs).melRun ≠ 0 ∧
    ({ (latched .meld).seg with onePend := true } : SegRegs).onePend = true ∧
    (toDecode 1 1 1 []).cfg.segbase.toNat + (toDecode 1 1 1 []).cfg.seglen.toNat ≤ Config.byteCap ∧
    CfgSegmentWritten (toDecode 1 1 1 []) :=
  ⟨rfl, segmentWritten_latched _, rfl, rfl, by decide, rfl, hasRoom_of_le (s := State.reset) (n := 1) rfl (by decide),
    by unfold CfgSegmentWritten; decide +kernel⟩

/-- Each clause of the validation; the last two: the ends 2, 1 of two TERMALL segments, and of a refined HT block. -/
theorem witness_BlockValidation :
    (block State.reset 1 1 0x800001 [1]).cfg.badShape = false ∧ (block State.reset 1 1 0x800001 [1]).cfg.styleReserved = true ∧
    CoefsWritten (block State.reset 1 1 1 [-2]) ∧
    (∃ i < (block State.reset 1 1 1 [-2]).cfg.w * (block State.reset 1 1 1 [-2]).cfg.h,
      ∃ q ∈ (block State.reset 1 1 1 [-2]).mem.getWord (coefAddr i), 2 ^ (block State.reset 1 1 1 [-2]).cfg.p ≤ q.toInt.natAbs) ∧
    3 * (block State.reset 1 1 1 []).cfg.p - 2 < (2 : BitVec 8).toNat ∧
    Config.byteCap < ({ (block State.reset 1 1 1 []).cfg with segbase := 0xFFFFFFFF } : Cfg).segbase.toNat +
      ({ (block State.reset 1 1 1 []).cfg with segbase := 0xFFFFFFFF } : Cfg).seglen.toNat ∧
    (let s := toDecode 0x00040002 2 2 [2, 1]
     s.cfg.badShape = false ∧ s.cfg.ht = false ∧
       (usedSegments s).map (fun ab => segEnd s ab.2) = ([2, 1] : List Nat).map some ∧ ¬ ([2, 1] : List Nat).Pairwise (· ≤ ·)) ∧
    (let s := toDecode 0x00400002 2 2 [2, 1]
     s.cfg.badShape = false ∧ s.cfg.ht = true ∧ 2 ≤ s.cfg.npass.toNat ∧ s.mem.getWord (segtabAddr 0) = some 2 ∧
       s.mem.getWord (segtabAddr (s.cfg.npass.toNat - 1)) = some 1 ∧ tabEnd s 1 < tabEnd s 2) := by
  have h2 := Laws.byteCap_le
  refine ⟨by decide, by decide, by unfold CoefsWritten; decide, ⟨0, by decide, 0xFFFFFFFE, by decide, by decide⟩, by decide, ?_,
    by decide +kernel, by decide +kernel⟩
  show Config.byteCap < 4294967295 + 0
  omega

theorem coefsLegal_one (s : State) (hw : s.cfg.w * s.cfg.h = 1)
    (h : ∃ q, s.mem.getWord (coefAddr 0) = some q ∧ q.toInt.natAbs < 2 ^ s.cfg.p) : CoefsLegal s := by
  intro i hi
  have : i = 0 := by rw [hw] at hi; omega
  subst this
  obtain ⟨q, h1, h2⟩ := h
  exact ⟨q, h1, h2⟩

theorem witness_CbEncodeZeroPlanes :
    (block State.reset 1 1 0 [0]).cfg.badShape = false ∧ (block State.reset 1 1 0 [0]).cfg.styleReserved = false ∧
    (block State.reset 1 1 0 [0]).cfg.ht = false ∧ (block State.reset 1 1 0 [0]).cfg.p = 0 ∧
    CoefsLegal (block State.reset 1 1 0 [0]) ∧ (block State.reset 1 1 0 [0]).cfg.segbase.toNat + 2 ≤ Config.byteCap :=
  ⟨by decide, by decide, by decide, by decide, coefsLegal_one _ (by decide) ⟨0, by decide, by decide⟩,
    hasRoom_of_le (s := State.reset) (n := 2) rfl (by decide)⟩

/-- The 1 × 1 block with P = 1 takes at most the 8 bytes every BYTE memory has. -/
theorem witness_CbEncodeCompletes :
    (block State.reset 1 1 1 [1]).cfg.badShape = false ∧ (block State.reset 1 1 1 [1]).cfg.styleReserved = false ∧
    (block State.reset 1 1 1 [1]).cfg.ht = false ∧ 1 ≤ (block State.reset 1 1 1 [1]).cfg.p ∧
    CoefsLegal (block State.reset 1 1 1 [1]) ∧
    (block State.reset 1 1 1 [1]).cfg.segbase.toNat + blockRoom (block State.reset 1 1 1 [1]).cfg ≤ Config.byteCap :=
  ⟨by decide, by decide, by decide, by decide, coefsLegal_one _ (by decide) ⟨1, by decide, by decide⟩,
    hasRoom_of_le (s := State.reset) (n := 8) rfl (by decide)⟩

/-- The HT block [−1] with P = 1, and the HT block [0] with P = 0. -/
theorem witness_CbEncodeHt :
    (block State.reset 1 1 0x400001 [-1]).cfg.badShape = false ∧ (block State.reset 1 1 0x400001 [-1]).cfg.styleReserved = false ∧
    (block State.reset 1 1 0x400001 [-1]).cfg.ht = true ∧
    ([-1] : List Int).length = (block State.reset 1 1 0x400001 [-1]).cfg.w * (block State.reset 1 1 0x400001 [-1]).cfg.h ∧
    (∀ v ∈ ([-1] : List Int), v.natAbs < 2 ^ (block State.reset 1 1 0x400001 [-1]).cfg.p) ∧
    (∀ i v, ([-1] : List Int)[i]? = some v →
      (block State.reset 1 1 0x400001 [-1]).mem.getWord (coefAddr i) = some (BitVec.ofInt 32 v)) ∧
    1 ≤ (block State.reset 1 1 0x400001 [-1]).cfg.p ∧ (block State.reset 1 1 0x400000 [0]).cfg.p = 0 := by
  refine ⟨by decide, by decide, by decide, by decide, by decide, fun i v h => ?_, by decide, by decide⟩
  cases i with
  | zero => simp at h; subst h; decide
  | succ i => simp at h

/-- The same block meets the hypotheses of the HT round trip. -/
theorem witness_HtBlockRoundTrip :
    (block State.reset 1 1 0x400001 [-1]).cfg.badShape = false ∧ 1 ≤ (block State.reset 1 1 0x400001 [-1]).cfg.p ∧
    (∀ i v, ([-1] : List Int)[i]? = some v →
      (block State.reset 1 1 0x400001 [-1]).mem.getWord (coefAddr i) = some (BitVec.ofInt 32 v)) :=
  ⟨witness_CbEncodeHt.1, witness_CbEncodeHt.2.2.2.2.2.2.1, witness_CbEncodeHt.2.2.2.2.2.1⟩

theorem witness_CbDecodeNoPass :
    (block State.reset 1 1 1 []).cfg.badShape = false ∧ (block State.reset 1 1 1 []).cfg.styleReserved = false ∧
    (block State.reset 1 1 1 []).cfg.npass = 0 ∧
    (block State.reset 1 1 1 []).cfg.segbase.toNat + (block State.reset 1 1 1 []).cfg.seglen.toNat ≤ Config.byteCap :=
  ⟨by decide, by decide, rfl, hasRoom_of_le (s := State.reset) (n := 0) rfl (by decide)⟩


/-- With TERMALL, so that SEGTAB is read. -/
theorem witness_CbDecodeCompletes :
    let s := toDecode 0x01040001 1 1 [1]
    s.cfg.badShape = false ∧ s.cfg.styleReserved = false ∧ s.cfg.ht = false ∧ s.cfg.npass.toNat ≤ 3 * s.cfg.p - 2 ∧
    s.cfg.segbase.toNat + s.cfg.seglen.toNat ≤ Config.byteCap ∧ CfgSegmentWritten s ∧ SegtabFits s :=
  ⟨by decide, by decide, by decide, by decide, hasRoom_of_le (s := State.reset) (n := 1) rfl (by decide),
    by unfold CfgSegmentWritten; decide +kernel, [1], by decide +kernel, by decide⟩

/-- Two passes of a TERMALL block, the first ending past SEGLEN. -/
theorem witness_CbDecodeTruncatedAtStart :
    let s := toDecode 0x00040002 2 1 [2, 3]
    s.cfg.badShape = false ∧ s.cfg.styleReserved = false ∧ s.cfg.ht = false ∧
    1 ≤ s.cfg.npass.toNat ∧ s.cfg.npass.toNat ≤ 3 * s.cfg.p - 2 ∧
    s.cfg.segbase.toNat + s.cfg.seglen.toNat ≤ Config.byteCap ∧ SegtabFits s ∧
    IsSegment s.cfg (3 * s.cfg.p - 2) 0 0 ∧ segEnd s 0 = some 2 ∧ s.cfg.seglen.toNat < 2 :=
  ⟨by decide, by decide, by decide, by decide, by decide, hasRoom_of_le (s := State.reset) (n := 1) rfl (by decide),
    ⟨[2, 3], by decide +kernel, by decide⟩,
    ⟨Nat.le_refl _, by decide, .inl rfl, .inr (.inl (by decide)), fun _ _ h => absurd h (Nat.not_lt_zero _)⟩, by decide +kernel, by decide⟩

/-- Three HT passes with a cleanup and a refinement segment of one byte each: all present, the cleanup alone (SEGLEN = 1), none
(SEGLEN = 0); and one pass with the table entry 0xFFFFFFFF. -/
theorem witness_CbDecodeHt :
    (∀ n ∈ [(0 : Nat), 1, 2], ∃ cup ref : List Byte,
      let s := toDecode 0x00400002 3 n [1, 0, 2]
      s.cfg.badShape = false ∧ s.cfg.styleReserved = false ∧ s.cfg.ht = true ∧ 1 ≤ s.cfg.p ∧ 1 ≤ s.cfg.npass.toNat ∧
      s.cfg.npass.toNat ≤ (if s.cfg.p = 1 then 1 else 3) ∧
      s.mem.getWord (segtabAddr 0) = some 1 ∧ s.mem.getWord (segtabAddr (s.cfg.npass.toNat - 1)) = some 2 ∧
      tabEnd s 1 ≤ tabEnd s 2 ∧ s.cfg.segbase.toNat + s.cfg.seglen.toNat ≤ 8 ∧
      (tabEnd s 1 ≤ s.cfg.seglen.toNat →
        (List.range (tabEnd s 1)).map (fun j => s.mem.getByte (byteAddr (s.cfg.segbase.toNat + j))) = cup.map some) ∧
      (tabEnd s 2 ≤ s.cfg.seglen.toNat → (List.range (tabEnd s 2 - tabEnd s 1)).map
        (fun j => s.mem.getByte (byteAddr (s.cfg.segbase.toNat + tabEnd s 1 + j))) = ref.map some)) ∧
    8 ≤ Config.byteCap ∧
    (let s := toDecode 0x00400001 1 2 [0xFFFFFFFF]
     s.mem.getWord (segtabAddr (s.cfg.npass.toNat - 1)) = some 0xFFFFFFFF ∧ tabEnd s 0xFFFFFFFF = s.cfg.seglen.toNat ∧
       (List.range (tabEnd s 0xFFFFFFFF)).map (fun j => s.mem.getByte (byteAddr (s.cfg.segbase.toNat + j))) =
         ([0x03, 0xFF] : List Byte).map some) :=
  ⟨fun n hn => ⟨[0x03], [0xFF], by revert n; decide +kernel⟩, Laws.byteCap_ge, by decide +kernel⟩

/-- A CTX command answers; it writes RESULT and neither NBYTES, NPASSOUT nor memory. -/
theorem witness_OnlyNamedCommandsWrite : ∃ t, exec (.ctxMr true true) State.reset = .next t ∧
    writesNbytes (.ctxMr true true) = false ∧ isBlock (.ctxMr true true) = false ∧ emitsBytes (.ctxMr true true) = false ∧
    writesResult .bpcClear = false := ⟨_, rfl, rfl, rfl, rfl, rfl⟩

theorem witness_SignificanceMonotone :
    ∃ t, exec (.ctxMr true true) { State.reset with arr := { State.reset.arr with sig := 1 } } = .next t ∧
      isBlock (.ctxMr true true) = false ∧ (1#4096).getLsbD 0 = true := ⟨_, rfl, rfl, by decide +kernel⟩

/-- The last free position of a raw byte past BYTE memory raises E_OVERFLOW. -/
theorem witness_OverflowKeepsOutputs : ∃ t, exec (.rawPutbit true) (noRoom .rawe) = .next t ∧
    (noRoom .rawe).status.err = none ∧ t.status.err = some .overflow := by
  have hcap : Config.byteCap ≤ 4294967295 := Nat.le_trans Laws.byteCap_le (by decide)
  refine ⟨_, Laws.runCmd_of_err (e := .overflow) (t := { noRoom .rawe with
    seg := { (noRoom .rawe).seg with ct := 0, c := 1 } }) ?_, rfl, rfl⟩
  rw [Laws.bind_of_ok (a := ()) (t := noRoom .rawe) (by rw [Laws.needMode_run]; rfl), Laws.rawPut_run]
  rw [if_pos (by decide), Laws.nextByte_run, if_pos]
  · rfl
  · exact hcap

theorem witness_EnginesIsolated : [State.reset, latched .mqd][0]? = some State.reset ∧
    [State.reset, latched .rawd][0]? = some State.reset ∧ ∃ t, step State.reset = .next t := ⟨rfl, rfl, _, rfl⟩

/-- A step that writes memory from a state that meets the invariants: the host stores a coefficient beside another one. -/
theorem witness_StepKeepsMemory :
    let s := { hosted [.write 0x04000 4 7] with mem := Memory.setWord [] (coefAddr 1) 5 }
    (∃ t, step s = .next t) ∧ s.mem.wf ∧ MemoryMapped s :=
  ⟨⟨_, rfl⟩, by decide, fun c hc => .inr (.inl (by
    rcases Laws.mem_setWord hc with h | h
    · have : coefAddr 1 = 0x4004 := rfl
      omega
    · cases h))⟩

/-- A significant coefficient with its magnitude and sign. -/
theorem arraysWf_one : ArraysWf { State.reset.arr with sig := 1, sgn := 1, mag := [(0, 3)] } where
  magSorted := List.pairwise_singleton _ _
  magEntries e he := by simp at he; subst he; decide
  magSig i hi := by
    by_cases h : i = 0
    · subst h; decide +kernel
    · exact absurd (by simp [magGet, sparseGet, h]) hi
  signSig _ hi := hi
  refinedSig i hi := by
    exact absurd hi (by rw [show State.reset.arr.refined = 0#4096 from rfl, BitVec.getLsbD_zero]; exact Bool.false_ne_true)

theorem witness_StepKeepsArrays :
    let s := { flying 0x60000000 with arr := { State.reset.arr with sig := 1, sgn := 1, mag := [(0, 3)] } }
    (∃ t, step s = .next t) ∧ ArraysWf s.arr := ⟨⟨_, rfl⟩, arraysWf_one⟩

theorem witness_StepKeepsRegisters :
    let s := { hosted [.write 0x010 4 0xFFFFFFFF] with cfg := { State.reset.cfg with code := 0x01FF031F } }
    (∃ t, step s = .next t) ∧ RegistersWf s := ⟨⟨_, rfl⟩, by decide, Nat.zero_le _⟩

end Sys2Proof.Tests
end

section
/-!
PROOFS. Partial correctness of commands: `Triple P c Q E` says that from a state with P, c ends in Q, raises an engine error
only in E, and says nothing of faults. Where `Laws.Keeps` speaks of every end of a command alike, a triple carries what an
earlier check has established, and tells a command that raises nothing from one that does.
-/
namespace Sys2Proof.Proofs

open Sys2Proof.Machine Sys2Proof.Laws

variable {α β : Type}

/-- From a state with P, c ends with its answer and state in Q, or raises an engine error in a state with E, or faults. -/
structure Triple (P : State → Prop) (c : Cmd α) (Q : α → State → Prop) (E : State → Prop) : Prop where
  ok : ∀ {s a t}, P s → c s = .ok a t → Q a t
  err : ∀ {s e t}, P s → c s = .error (.err e) t → E t

/-- c keeps P, and raises an engine error only in a state with E. -/
abbrev Preserves (P E : State → Prop) (c : Cmd α) : Prop := Triple P c (fun _ => P) E

variable {P P' E E' : State → Prop} {Q Q' : α → State → Prop} {V : β → State → Prop}

theorem Triple.weaken {c : Cmd α} (h : Triple P c Q E) (hp : ∀ s, P' s → P s) (hq : ∀ a s, Q a s → Q' a s)
    (he : ∀ s, E s → E' s) : Triple P' c Q' E' :=
  ⟨fun hs e => hq _ _ (h.ok (hp _ hs) e), fun hs e => he _ (h.err (hp _ hs) e)⟩

theorem Triple.pre {c : Cmd α} (h : Triple P c Q E) (hp : ∀ s, P' s → P s) : Triple P' c Q E :=
  h.weaken hp (fun _ _ => id) fun _ => id

theorem Triple.post {c : Cmd α} (h : Triple P c Q E) (hq : ∀ a s, Q a s → Q' a s) : Triple P c Q' E :=
  h.weaken (fun _ => id) hq fun _ => id

theorem Triple.error {c : Cmd α} (h : Triple P c Q E) (he : ∀ s, E s → E' s) : Triple P c Q E' :=
  h.weaken (fun _ => id) (fun _ _ => id) he

/-- A fact that no state enters moves out of the precondition. -/
theorem Triple.fact {p : Prop} {c : Cmd α} (h : p → Triple P c Q E) : Triple (fun s => p ∧ P s) c Q E :=
  ⟨fun hs => (h hs.1).ok hs.2, fun hs => (h hs.1).err hs.2⟩

theorem Triple.pure (a : α) (h : ∀ s, P s → Q a s) : Triple P (Pure.pure a : Cmd α) Q E :=
  ⟨fun hs e => (by cases e; exact h _ hs), fun _ e => (by cases e)⟩

theorem Triple.see (f : State → α) (h : ∀ s, P s → Q (f s) s) : Triple P (see f) Q E :=
  ⟨fun hs e => (by cases e; exact h _ hs), fun _ e => (by cases e)⟩

theorem Triple.upd {f : State → State} {W : Unit → State → Prop} (h : ∀ s, P s → W () (f s)) : Triple P (upd f) W E :=
  ⟨fun hs e => (by cases e; exact h _ hs), fun _ e => (by cases e)⟩

theorem Triple.updSeg {f : SegRegs → SegRegs} {W : Unit → State → Prop}
    (h : ∀ s, P s → W () { s with seg := f s.seg }) : Triple P (updSeg f) W E := .upd h

theorem Triple.updArr {f : Arrays → Arrays} {W : Unit → State → Prop}
    (h : ∀ s, P s → W () { s with arr := f s.arr }) : Triple P (updArr f) W E := .upd h

theorem Triple.raise {e : ErrCode} (h : ∀ s, P s → E s) : Triple P (raise e : Cmd α) Q E :=
  ⟨fun _ e => (by cases e), fun hs e => (by cases e; exact h _ hs)⟩

theorem Triple.faultOut (f : Fault) : Triple P (faultOut f : Cmd α) Q E :=
  ⟨fun _ e => (by cases e), fun _ e => (by cases e)⟩

theorem Triple.bind {c : Cmd α} {f : α → Cmd β} (hc : Triple P c Q E) (hf : ∀ a, Triple (Q a) (f a) V E) :
    Triple P (c >>= f) V E where
  ok hs e := by
    obtain ⟨a, t, e1, e2⟩ := bind_eq_ok.1 e
    exact (hf a).ok (hc.ok hs e1) e2
  err hs e := by
    rcases bind_eq_error.1 e with e1 | ⟨a, t, e1, e2⟩
    · exact hc.err hs e1
    · exact (hf a).err (hc.ok hs e1) e2

/-- What is read from the state is known of it in what follows. -/
theorem Triple.seeBind {g : State → α} {f : α → Cmd β} (hf : ∀ a, Triple (fun s => g s = a ∧ P s) (f a) V E) :
    Triple P (Machine.see g >>= f) V E :=
  .bind (Triple.see g fun _ h => ⟨rfl, h⟩) hf

/-- What holds of the value read in every state with P is known of it in what follows. -/
theorem Triple.seeFact {g : State → α} {f : α → Cmd β} {p : α → Prop} (hp : ∀ s, P s → p (g s))
    (hf : ∀ a, p a → Triple P (f a) V E) : Triple P (Machine.see g >>= f) V E :=
  .seeBind fun a => ⟨fun ⟨h, hs⟩ e => (hf a (h ▸ hp _ hs)).ok hs e, fun ⟨h, hs⟩ e => (hf a (h ▸ hp _ hs)).err hs e⟩

theorem Triple.ite {p : Prop} [Decidable p] {c d : Cmd α} (hc : p → Triple P c Q E) (hd : ¬ p → Triple P d Q E) :
    Triple P (if p then c else d) Q E := by
  split
  · exact hc ‹_›
  · exact hd ‹_›

/-- A check that is passed has found nothing (60_exceptions.md R363). -/
theorem Triple.check (bad : Bool) (e : ErrCode) (h : ∀ s, P s → E s) :
    Triple P (check bad e) (fun _ s => bad = false ∧ P s) E := by
  cases bad
  · exact .pure _ fun _ hs => ⟨rfl, hs⟩
  · exact .raise h

theorem Preserves.bind {c : Cmd α} {f : α → Cmd β} (hc : Preserves P E c) (hf : ∀ a, Preserves P E (f a)) :
    Preserves P E (c >>= f) := Triple.bind hc hf

theorem Preserves.ite {p : Prop} [Decidable p] {c d : Cmd α} (hc : Preserves P E c) (hd : Preserves P E d) :
    Preserves P E (if p then c else d) := Triple.ite (fun _ => hc) fun _ => hd

theorem Preserves.pure (a : α) : Preserves P E (Pure.pure a : Cmd α) := Triple.pure a fun _ => id

theorem Preserves.see (f : State → α) : Preserves P E (see f) := Triple.see f fun _ => id

theorem Preserves.check (bad : Bool) (e : ErrCode) : Preserves P P (check bad e) :=
  (Triple.check bad e fun _ => id).post fun _ _ h => h.2

theorem Preserves.forEach {l : List β} {f : β → Cmd Unit} (h : ∀ x ∈ l, Preserves P E (f x)) :
    Preserves P E (forEach l f) := by
  induction l with
  | nil => exact .pure ()
  | cons x l ih =>
    exact .bind (h x List.mem_cons_self) fun _ => ih fun y hy => h y (List.mem_cons_of_mem _ hy)

/-- A command that keeps P on every end keeps it on those a triple speaks of. -/
theorem Preserves.ofKeeps {c : Cmd α} (h : Keeps (fun s t => P s → P t) c) : Preserves P P c :=
  ⟨fun hs e => h.ok e hs, fun hs e => h.error e hs⟩

/-- A read of memory changes nothing, and only faults. -/
theorem memReadWord_reads (a : Nat) : Preserves P E (memReadWord a) := by
  refine Preserves.bind (.see _) fun m => ?_
  split
  · exact .pure _
  · exact .faultOut _

theorem memReadByte_reads (a : Nat) : Preserves P E (memReadByte a) := by
  refine Preserves.bind (.see _) fun m => ?_
  split
  · exact .pure _
  · exact .faultOut _

theorem needMode_preserves (m : CMode) : Preserves P P (needMode m) := .bind (.see _) fun _ => .check _ _

theorem checkFields_preserves (i : Instr) : Preserves P P (checkFields i) := .check _ _

/-- A checked shape has at most 4096 coefficients (10_state.md R26). -/
theorem checkShape_triple :
    Triple P checkShape (fun _ s => s.cfg.badShape = false ∧ P s) P :=
  .seeBind fun _ => (Triple.check _ _ fun _ h => h.2).post fun _ _ ⟨hb, hc, h⟩ => ⟨hc ▸ hb, h⟩

/-- A checked segment ends inside BYTE memory (42_mq_coder.md R194). -/
theorem checkSegment_triple :
    Triple P checkSegment (fun _ s => s.cfg.segOutside = false ∧ P s) P :=
  .seeBind fun _ => (Triple.check _ _ fun _ h => h.2).post fun _ _ ⟨hb, hc, h⟩ => ⟨hc ▸ hb, h⟩

/-- What a whole command answers (60_exceptions.md R360, 70_reset_and_hazards.md R404). -/
theorem Triple.runCmd {c : Cmd Unit} {D W : State → Prop} (h : Triple P c (fun _ => D) E)
    (hq : ∀ s, D s → W s.complete) (he : ∀ s e, E s → W (s.takeError e)) {s t : State} (hs : P s)
    (e : Machine.runCmd c s = .next t) : W t := by
  rcases runCmd_eq_next.1 e with ⟨u, hu, rfl⟩ | ⟨x, u, hu, rfl⟩
  · exact hq u (h.ok hs hu)
  · exact he u x (h.err hs hu)

end Sys2Proof.Proofs
end

section
/-!
PROOFS. What the bit coders keep. A decoder writes no memory and raises no engine error; an encoder writes BYTE memory. The
coder lemmas of the laws (`mqEncode_keeps` and its like) serve the encoders here.
-/
namespace Sys2Proof.Proofs

open Sys2Proof.Machine Sys2Proof.Laws

/-- P outlives the steps of a coder: updates of the segment registers that leave or bound the latched end, and updates of the
contexts; where `w` holds, byte writes inside BYTE memory too. Here and in the structures that extend this one, a step that changes
nothing P speaks of needs no word: it stands as the default. -/
structure CoderInv (P : State → Prop) (w : Prop) : Prop where
  seg : ∀ s (r : SegRegs), r.stop = s.seg.stop ∨ r.stop.toNat ≤ Config.byteCap → P s → P { s with seg := r } := by
    exact fun _ _ _ => id
  ctx : ∀ s (v : Vector CtxEntry 19), P s → P { s with ctx := v } := by exact fun _ _ => id
  byte : w → ∀ s j v, j < Config.byteCap → P s → P { s with mem := s.mem.setByte (byteAddr j) v } := by
    exact fun _ _ _ _ _ => id

/-- Two such predicates together. -/
theorem CoderInv.and {P P' : State → Prop} {w : Prop} (h : CoderInv P w) (h' : CoderInv P' w) :
    CoderInv (fun s => P s ∧ P' s) w where
  seg s r hr := .imp (h.seg s r hr) (h'.seg s r hr)
  ctx s v := .imp (h.ctx s v) (h'.ctx s v)
  byte hw s j v hj := .imp (h.byte hw s j v hj) (h'.byte hw s j v hj)

/-- What is said of the arrays alone outlives every coder. -/
theorem CoderInv.ofArr (f : Arrays → Prop) (w : Prop) : CoderInv (fun s => f s.arr) w where

/-- A coder that may write bytes keeps P. -/
theorem CoderInv.steps {P : State → Prop} {w : Prop} (h : CoderInv P w) (hw : w) :
    CoderSteps fun s t => P s → P t where
  toChains := .ofInv P
  seg s f _ hf := h.seg s (f s.seg) (.inl hf)
  ctx s cx v := h.ctx s (s.ctx.set cx v)
  byte := h.byte hw

/-- A read of the segment changes nothing, and only faults (20_memory.md R80). -/
theorem segByte_reads {P E : State → Prop} (i : Nat) : Preserves P E (segByte i) := by
  refine .bind (.see _) fun r => .ite ?_ (.pure _)
  exact .bind (memReadByte_reads _) fun _ => .pure _

section Coder

variable {P E : State → Prop} {w : Prop} (h : CoderInv P w)
include h

theorem updSeg_preserves {f : SegRegs → SegRegs} (hf : ∀ r, (f r).stop = r.stop) : Preserves P E (updSeg f) :=
  .updSeg fun s => h.seg s (f s.seg) (.inl (hf _))

theorem setCtx_preserves (cx : Label) (v : CtxEntry) : Preserves P E (setCtx cx v) := .upd fun s => h.ctx s (s.ctx.set cx v)

theorem resetContexts_preserves : Preserves P E resetContexts := .upd fun s => h.ctx s initialCtx

theorem latchSegbase_preserves : Preserves P E latchSegbase :=
  .bind (.see _) fun _ => updSeg_preserves h fun _ => rfl

/-! ### Decoders raise nothing -/

theorem countFill_preserves (f : Bool) : Preserves P E (countFill f) := .ite (updSeg_preserves h fun _ => rfl) (.pure ())

/-- BYTEIN_BODY (42_mq_coder.md R183). -/
theorem byteInBody_preserves : Preserves P E byteInBody := by
  refine .bind (.see _) fun _ => .bind (segByte_reads _) fun _ => .bind (segByte_reads _) fun _ =>
    .ite (.ite ?_ ?_) ?_
  all_goals exact .bind (updSeg_preserves h fun _ => rfl) fun _ => .pure _

/-- BYTEIN (42_mq_coder.md R183). -/
theorem byteIn_preserves : Preserves P E byteIn := .bind (byteInBody_preserves h) fun _ => countFill_preserves h _

/-- INITDEC (42_mq_coder.md R181). -/
theorem mqInitDec_preserves : Preserves P E mqInitDec :=
  .bind (updSeg_preserves h fun _ => rfl) fun _ => .bind (segByte_reads _) fun _ =>
    .bind (updSeg_preserves h fun _ => rfl) fun _ => .bind (byteInBody_preserves h) fun _ =>
      .bind (countFill_preserves h _) fun _ => updSeg_preserves h fun _ => rfl

/-- RENORMD (42_mq_coder.md R184). -/
theorem renormD_preserves (n : Nat) : Preserves P E (renormD n) := by
  induction n with
  | zero => exact .pure ()
  | succ n ih =>
    have shift : Preserves P E (updSeg fun r => { r with a := r.a <<< 1, c := r.c <<< 1, ct := r.ct - 1 }) :=
      updSeg_preserves h fun _ => rfl
    exact .bind (.bind (.see _) fun _ => .ite (.bind (byteIn_preserves h) fun _ => shift) shift)
      fun _ => .bind (.see _) fun _ => .ite (.pure ()) ih

/-- DECODE (42_mq_coder.md R185). -/
theorem mqDecode_preserves (cx : Label) : Preserves P E (mqDecode cx) := by
  refine .bind (.see _) fun e => .bind (updSeg_preserves h fun _ => rfl) fun _ => .bind (.see _) fun _ => .ite ?lps ?mps
  case lps =>
    exact .bind (.see _) fun _ => .bind (updSeg_preserves h fun _ => rfl) fun _ => .bind (setCtx_preserves h _ _) fun _ =>
      .bind (renormD_preserves h _) fun _ => .pure _
  case mps =>
    exact .bind (updSeg_preserves h fun _ => rfl) fun _ => .bind (.see _) fun _ => .ite (.pure _)
      (.bind (setCtx_preserves h _ _) fun _ => .bind (renormD_preserves h _) fun _ => .pure _)

theorem takeBit_preserves : Preserves P E takeBit := .bind (updSeg_preserves h fun _ => rfl) fun _ => .see _

/-- RAWGET (43_raw_bypass.md R217). -/
theorem rawGet_preserves : Preserves P E rawGet := by
  refine .bind (.see _) fun _ => .ite (.bind ?_ fun _ => takeBit_preserves h) (takeBit_preserves h)
  refine .bind (.see _) fun _ => .bind (segByte_reads _) fun _ =>
    .ite (.ite ?_ ?_) ?_
  all_goals exact .bind (updSeg_preserves h fun _ => rfl) fun _ => countFill_preserves h _

/-- MELGETBIT (45_ht_block_coder.md R287). -/
theorem melGetBit_preserves : Preserves P E melGetBit := by
  refine .bind (.see _) fun _ => .ite (.bind ?_ fun _ => takeBit_preserves h) (takeBit_preserves h)
  exact .bind (.see _) fun _ => .bind (segByte_reads _) fun _ =>
    .bind (updSeg_preserves h fun _ => rfl) fun _ => countFill_preserves h _

theorem melReadRun_preserves (n r : Nat) : Preserves P E (melReadRun n r) := by
  induction n generalizing r with
  | zero => exact .pure r
  | succ n ih => exact .bind (melGetBit_preserves h) fun _ => ih _

/-- MELGET (45_ht_block_coder.md R287). -/
theorem melGet_preserves : Preserves P E melGet := by
  refine .bind (.see _) fun _ => .ite ?left (.ite ?pending ?new)
  case left => exact .bind (updSeg_preserves h fun _ => rfl) fun _ => .pure _
  case pending => exact .bind (updSeg_preserves h fun _ => rfl) fun _ => .pure _
  case new =>
    refine .bind (.see _) fun _ => .bind (melGetBit_preserves h) fun _ => .ite ?hit ?miss
    case hit => exact .bind (updSeg_preserves h fun _ => rfl) fun _ => .pure _
    case miss =>
      exact .bind (melReadRun_preserves h _ _) fun _ => .bind (updSeg_preserves h fun _ => rfl) fun _ =>
        .ite (.pure _) (.bind (updSeg_preserves h fun _ => rfl) fun _ => .pure _)

end Coder

/-- The end of a segment that has been checked to lie inside BYTE memory (42_mq_coder.md R194). -/
theorem segEnd_le {c : Cfg} (h : c.segOutside = false) : c.segbase.toNat + c.seglen.toNat ≤ Config.byteCap := by
  simpa [Cfg.segOutside] using h

/-- Latching the segment of the CSRs after its check (42_mq_coder.md R194). -/
theorem latchCfgSegment_triple {P E : State → Prop} {w : Prop} (h : CoderInv P w) :
    Triple (fun s => s.cfg.segOutside = false ∧ P s) latchCfgSegment (fun _ => P) E where
  ok {s a t} hs e := by
    rw [latchCfgSegment_run] at e
    cases e
    have hle := segEnd_le hs.1
    refine h.seg s _ (.inr ?_) hs.2
    show (s.cfg.segbase + s.cfg.seglen).toNat ≤ _
    rw [BitVec.toNat_add]
    exact Nat.le_trans (Nat.mod_le _ _) hle
  err hs e := by rw [latchCfgSegment_run] at e; cases e

end Sys2Proof.Proofs
end

section
/-!
PROOFS. What the coding passes keep. When decoding, a pass sets a bit of MAG[i] before it makes coefficient i significant, so an
invariant of the arrays does not hold between the two; `Pending` is what holds there. Nothing can raise an engine error there: only
the encoders do, and an encoding pass leaves MAG alone.
-/
namespace Sys2Proof.Proofs

open Sys2Proof.Machine Sys2Proof.Laws

/-- m' is MAG after a decision 1 about coefficient i in some plane: decoding sets the bit, encoding leaves MAG alone
(44_bitplane_coder.md R235, 10_state.md R50). -/
def Marks (dir : Dir) (i : Nat) (m m' : List (Nat × BitVec 31)) : Prop :=
  m' = m ∨ (dir = .dec ∧ ∃ p : Nat, m' = magSet m i (magGet m i ||| (1#31 <<< p)))

/-- P outlives the steps of a coding pass: those of its coder, a coefficient that becomes significant (with its magnitude bit and
its sign), the refinement of a significant coefficient, every change of VISITED, and STATUS.SEGMIS. -/
structure PassInv (P : State → Prop) (w : Prop) : Prop extends CoderInv P w where
  newSig : ∀ s dir i neg m, i < 4096 → Marks dir i s.arr.mag m → P s →
    P { s with arr := { s.arr with mag := m, sgn := bitPut s.arr.sgn i neg, sig := bitSet s.arr.sig i } } := by
      exact fun _ _ _ _ _ _ _ => id
  refine : ∀ s dir i m, s.arr.sig.getLsbD i = true → Marks dir i s.arr.mag m → P s →
    P { s with arr := { s.arr with mag := m, refined := bitSet s.arr.refined i } } := by exact fun _ _ _ _ _ _ => id
  visited : ∀ s v, P s → P { s with arr := { s.arr with visited := v } } := by exact fun _ _ => id
  segmis : ∀ s, P s → P { s with status := { s.status with segmis := true } } := by exact fun _ => id

/-- P held before the magnitude bit of coefficient i was written. -/
def Pending (dir : Dir) (i : Nat) (P : State → Prop) (s : State) : Prop :=
  ∃ m, Marks dir i m s.arr.mag ∧ P { s with arr := { s.arr with mag := m } }

theorem Pending.ofEnc {dir : Dir} {i : Nat} {P : State → Prop} {s : State} (hd : dir = .enc) (h : Pending dir i P s) : P s := by
  obtain ⟨m, rfl | ⟨hdec, -⟩, hp⟩ := h
  · exact hp
  · cases hd.symm.trans hdec

theorem Pending.coderInv {P : State → Prop} {w : Prop} (h : CoderInv P w) (dir : Dir) (i : Nat) :
    CoderInv (Pending dir i P) w where
  seg s r hr := fun ⟨m, hm, hp⟩ => ⟨m, hm, h.seg { s with arr := { s.arr with mag := m } } r hr hp⟩
  ctx s v := fun ⟨m, hm, hp⟩ => ⟨m, hm, h.ctx { s with arr := { s.arr with mag := m } } v hp⟩
  byte hw s j v hj := fun ⟨m, hm, hp⟩ => ⟨m, hm, h.byte hw { s with arr := { s.arr with mag := m } } j v hj hp⟩

/-! ### Decisions -/

section Decisions

variable {P E : State → Prop}

/-- The states an error of a pass can be raised in: only an encoder raises one. -/
def Raised (pa : PassArgs) (P : State → Prop) (s : State) : Prop := pa.dir = .enc ∧ P s

theorem coefBit_reads (i p : Nat) : Preserves P E (coefBit i p) := .bind (memReadWord_reads _) fun _ => .pure _

theorem coefSign_reads (i : Nat) : Preserves P E (coefSign i) := .bind (memReadWord_reads _) fun _ => .pure _

theorem columnBits_reads (pa : PassArgs) (x : Nat) (l : List Nat) : Preserves P E (columnBits pa x l) := by
  induction l with
  | nil => exact .pure _
  | cons y l ih => exact .bind (coefBit_reads _ _) fun _ => .bind ih fun _ => .pure _

theorem columnRun_reads (pa : PassArgs) (x y0 : Nat) : Preserves P E (columnRun pa x y0) := by
  unfold columnRun
  split
  · exact .bind (columnBits_reads _ _ _) fun _ => .pure _
  · exact .pure _

/-- CODE (44_bitplane_coder.md R233): a pass that decodes writes no memory and raises nothing. -/
theorem code_preserves {pa : PassArgs} (h : CoderInv P (pa.dir = .enc)) (cx : Label) {e : Cmd Bool}
    (he : Preserves P (Raised pa P) e) : Preserves P (Raised pa P) (code pa cx e) := by
  unfold code
  split
  case h_1 hd =>
    have hr : ∀ s, P s → Raised pa P s := fun _ hs => ⟨hd, hs⟩
    refine .bind he fun d => .ite (.bind ?_ fun _ => .pure d) (.bind ?_ fun _ => .pure d)
    · exact (Preserves.ofKeeps (rawPut_keeps (h.steps hd) d)).error hr
    · exact (Preserves.ofKeeps (mqEncode_keeps (h.steps hd) cx d)).error hr
  case h_2 => exact .ite (rawGet_preserves h) (mqDecode_preserves h cx)

/-- MAG[i][p] ← 1 when decoding (44_bitplane_coder.md R235). -/
theorem markMagBit_triple (pa : PassArgs) (i : Nat) : Triple P (markMagBit pa i) (fun _ => Pending pa.dir i P) E :=
  .ite (fun hd => .updArr fun s hs => ⟨s.arr.mag, .inr ⟨hd, _, rfl⟩, hs⟩)
    fun _ => .pure () fun s hs => ⟨s.arr.mag, .inl rfl, hs⟩

/-- MAGBIT (44_bitplane_coder.md R235): a decision 0 leaves MAG alone. -/
theorem magBit_triple {pa : PassArgs} (h : CoderInv P (pa.dir = .enc)) (i : Nat) (cx : Label) :
    Triple P (magBit pa i cx) (fun d s => Pending pa.dir i P s ∧ (d = false → P s)) (Raised pa P) := by
  refine .bind (code_preserves h cx (coefBit_reads _ _)) fun d => .ite (fun hd => ?_) fun hd => ?_
  · exact .bind (markMagBit_triple pa i) fun _ => .pure d fun s hs =>
      ⟨hs, fun h0 => absurd (hd.symm.trans h0) Bool.noConfusion⟩
  · exact .pure d fun s hs => ⟨⟨s.arr.mag, .inl rfl, hs⟩, fun _ => hs⟩

end Decisions

/-! ### Passes -/

section Pass

variable {P : State → Prop} {pa : PassArgs} (h : PassInv P (pa.dir = .enc))
include h

/-- SIGNSTEP (44_bitplane_coder.md R236) makes the pending coefficient significant. -/
theorem signStep_triple {x y : Nat} (hi : coefIndex pa.g x y < 4096) :
    Triple (Pending pa.dir (coefIndex pa.g x y) P) (signStep pa x y) (fun _ => P) P := by
  have coded (cx : Label) {e : Cmd Bool} (he : Preserves (Pending pa.dir (coefIndex pa.g x y) P) (Raised pa _) e) :
      Preserves (Pending pa.dir (coefIndex pa.g x y) P) P (code pa cx e) :=
    (code_preserves (Pending.coderInv h.toCoderInv _ _) cx he).error fun _ ⟨hd, hp⟩ => hp.ofEnc hd
  have signed (neg : Bool) :
      Triple (Pending pa.dir (coefIndex pa.g x y) P) (setSign (coefIndex pa.g x y) neg) (fun _ => P) P :=
    .updArr fun s ⟨m, hm, hp⟩ => h.newSig { s with arr := { s.arr with mag := m } } pa.dir _ neg s.arr.mag hi hm hp
  refine .ite (fun _ => ?raw) fun _ => ?mq
  case raw => exact .bind (coded 0 (coefSign_reads _)) fun d => signed d
  case mq =>
    exact Triple.bind (Preserves.see _) fun p =>
      .bind (coded p.1 (.bind (coefSign_reads _) fun _ => .pure _)) fun d => signed _

/-- SPP at one coefficient (44_bitplane_coder.md R237). -/
theorem sppVisit_preserves {xy : Nat × Nat} (hi : coefIndex pa.g xy.1 xy.2 < 4096) : Preserves P P (sppVisit pa xy) := by
  refine .bind (.see _) fun r => .ite ?_ (.pure ())
  refine Triple.bind ((magBit_triple h.toCoderInv _ _).error fun _ he => he.2) fun d => ?_
  refine Triple.bind (Q := fun _ s => Pending pa.dir (coefIndex pa.g xy.1 xy.2) P s ∧ (d = false → P s)) ?_ fun _ => ?_
  · refine .updArr fun s ⟨⟨m, hm, hp⟩, h0⟩ => ⟨⟨m, hm, ?_⟩, fun hd => h.visited s _ (h0 hd)⟩
    exact h.visited { s with arr := { s.arr with mag := m } } _ hp
  · exact .ite (fun _ => (signStep_triple h hi).pre fun _ hs => hs.1) fun hd =>
      .pure () fun s hs => hs.2 (Bool.eq_false_of_not_eq_true hd)

/-- MRP at one coefficient (44_bitplane_coder.md R238). -/
theorem mrpVisit_preserves (xy : Nat × Nat) : Preserves P P (mrpVisit pa xy) := by
  refine Triple.seeBind fun r => .ite (fun hg => ?_) fun _ => .pure () fun _ hs => hs.2
  have hsig : CoderInv (fun s => s.arr.sig.getLsbD (coefIndex pa.g xy.1 xy.2) = true ∧ P s) (pa.dir = .enc) :=
    (CoderInv.ofArr (fun r => r.sig.getLsbD _ = true) _).and h.toCoderInv
  refine .bind (((magBit_triple hsig _ _).error fun _ he => he.2.2).pre fun s ⟨hr, hs⟩ => ⟨hr ▸ hg.1, hs⟩) fun _ => ?_
  exact .updArr fun s ⟨⟨m, hm, hs, hp⟩, _⟩ => h.refine { s with arr := { s.arr with mag := m } } pa.dir _ s.arr.mag hs hm hp

/-- The run position is one of the four rows (44_bitplane_coder.md R239). -/
theorem runPosition_triple (k : Nat) : Triple P (runPosition pa k) (fun j s => j ≤ 3 ∧ P s) P := by
  have coded (b : Bool) : Preserves P P (code pa 18 (pure b)) :=
    (code_preserves h.toCoderInv 18 (.pure b)).error fun _ he => he.2
  refine .bind (coded _) fun k1 => .bind (coded _) fun k0 => .pure _ fun s hs => ⟨?_, hs⟩
  cases k1 <;> cases k0 <;> decide

/-- A column in run mode (44_bitplane_coder.md R239). -/
theorem runColumn_preserves {x y0 : Nat} (hi : ∀ k ≤ 3, coefIndex pa.g x (y0 + k) < 4096) :
    Preserves P P (runColumn pa x y0) := by
  refine .bind (columnRun_reads _ _ _) fun run =>
    .bind ((code_preserves h.toCoderInv 17 (.pure _)).error fun _ he => he.2) fun d => .ite ?_ (.pure _)
  refine Triple.bind (runPosition_triple h _) fun k => Triple.fact fun hk => ?_
  exact .bind (markMagBit_triple pa _) fun _ => .bind (signStep_triple h (hi k hk)) fun _ => Preserves.pure _

/-- CUP at one coefficient (44_bitplane_coder.md R239). -/
theorem cupVisit_preserves {x y : Nat} (hi : coefIndex pa.g x y < 4096) : Preserves P P (cupVisit pa x y) := by
  refine .bind (.see _) fun r => .ite ?_ (.pure ())
  refine Triple.bind ((magBit_triple h.toCoderInv _ _).error fun _ he => he.2) fun d => ?_
  exact .ite (fun _ => (signStep_triple h hi).pre fun _ hs => hs.1) fun hd =>
    .pure () fun s hs => hs.2 (Bool.eq_false_of_not_eq_true hd)

/-- SEGMARK (44_bitplane_coder.md R254). -/
theorem segMark_preserves : Preserves P P (segMark pa) := by
  have coded (b : Bool) : Preserves P P (code pa 18 (pure b)) :=
    (code_preserves h.toCoderInv 18 (.pure b)).error fun _ he => he.2
  exact .bind (coded _) fun _ => .bind (coded _) fun _ => .bind (coded _) fun _ => .bind (coded _) fun _ =>
    .ite (.upd h.segmis) (.pure ())

end Pass

/-! ### The scan stays inside the block -/

theorem mem_stripeRows {h y0 y : Nat} (hy : y ∈ stripeRows h y0) : y < h := by
  simp only [stripeRows, List.mem_map, List.mem_range] at hy
  omega

theorem mem_scanColumns {g : Geometry} {c : Nat × Nat} (hc : c ∈ scanColumns g) : c.1 < g.w := by
  simp only [scanColumns, List.mem_flatMap, List.mem_map, List.mem_range] at hc
  obtain ⟨y0, -, x, hx, rfl⟩ := hc
  exact hx

theorem coefIndex_lt {g : Geometry} {x y : Nat} (hg : g.w * g.h ≤ 4096) (hx : x < g.w) (hy : y < g.h) :
    coefIndex g x y < 4096 :=
  calc y * g.w + x < y * g.w + g.w := by omega
    _ = (y + 1) * g.w := by rw [Nat.succ_mul]
    _ ≤ g.h * g.w := Nat.mul_le_mul_right _ hy
    _ ≤ 4096 := by rw [Nat.mul_comm]; exact hg

theorem coefIndex_scan_lt {g : Geometry} (hg : g.w * g.h ≤ 4096) {xy : Nat × Nat} (h : xy ∈ scan g) :
    coefIndex g xy.1 xy.2 < 4096 := by
  simp only [scan, List.mem_flatMap, List.mem_map] at h
  obtain ⟨c, hc, y, hy, rfl⟩ := h
  exact coefIndex_lt hg (mem_scanColumns (c := c) hc) (mem_stripeRows hy)

/-- A column in run mode has its four rows inside the block (44_bitplane_coder.md R239). -/
theorem runMode_rows {g : Geometry} {r : Arrays} {x y0 : Nat} (h : runMode g r x y0 = true) : y0 + 3 < g.h := by
  have hlen : min 4 (g.h - y0) = 4 := by
    simp only [runMode, stripeRows, List.length_map, List.length_range, Bool.and_eq_true, beq_iff_eq] at h
    exact h.1
  omega

section Pass

variable {P : State → Prop} {pa : PassArgs} (h : PassInv P (pa.dir = .enc)) (hg : pa.g.w * pa.g.h ≤ 4096)
include h hg

/-- SPP (44_bitplane_coder.md R237). -/
theorem spp_preserves : Preserves P P (spp pa) := .forEach fun _ hx => sppVisit_preserves h (coefIndex_scan_lt hg hx)

omit hg in
/-- MRP (44_bitplane_coder.md R238). -/
theorem mrp_preserves : Preserves P P (mrp pa) := .forEach fun _ _ => mrpVisit_preserves h _

/-- CUP at one column (44_bitplane_coder.md R239). -/
theorem cupColumn_preserves {c : Nat × Nat} (hc : c ∈ scanColumns pa.g) : Preserves P P (cupColumn pa c) := by
  have hx := mem_scanColumns hc
  have hfirst : Preserves P P (do
      if (← see fun s => runMode pa.g s.arr c.1 c.2) then runColumn pa c.1 c.2 else pure (some c.2)) := by
    refine Triple.seeBind fun run => .ite (fun hrun => ?_) fun _ => .pure _ fun _ hs => hs.2
    refine Triple.pre (P := fun s => c.2 + 3 < pa.g.h ∧ P s) (.fact fun hrows => ?_)
      fun s ⟨hr, hs⟩ => ⟨runMode_rows (hr.trans hrun), hs⟩
    exact runColumn_preserves h fun k hk => coefIndex_lt hg hx (by omega)
  refine .bind hfirst fun first => ?_
  cases first with
  | none => exact .pure ()
  | some y1 =>
    exact .forEach fun y hy => cupVisit_preserves h (coefIndex_lt hg hx (mem_stripeRows (List.mem_filter.1 hy).1))

/-- CUP (44_bitplane_coder.md R239). -/
theorem cup_preserves : Preserves P P (cup pa) :=
  .bind (.forEach fun _ hc => cupColumn_preserves h hg hc) fun _ =>
    .bind (.updArr fun s => h.visited s 0) fun _ => .ite (segMark_preserves h) (.pure ())

end Pass

end Sys2Proof.Proofs
end

section
/-!
PROOFS. What a command can do, said once. `CommandInv i P` lists the changes of the state command i is allowed, each with the
bounds its checks give; `exec_preserves` says that a command makes no other change. Each rule about which commands write what is then
one predicate P and its closure under these changes.
-/
namespace Sys2Proof.Proofs

open Sys2Proof.Machine Sys2Proof.Laws

/-- The arrays with coefficient k as HTCodec returns it (46_coordinator.md R347). -/
def htPut (k : Nat) (x : HtCoef) (r : Arrays) : Arrays :=
  { r with mag := magSet r.mag k x.mag, sgn := bitPut r.sgn k x.neg, sig := bitPut r.sig k (!(x.mag == 0)) }

/-- P outlives every change of the state that command i can make. -/
structure CommandInv (i : Instr) (P : State → Prop) : Prop extends PassInv P (emitsBytes i = true) where
  mode : ∀ s m, P s → P { s with status := { s.status with cmode := m } } := by exact fun _ _ => id
  result : writesResult i = true → ∀ s v, P s → P { s with out := { s.out with result := v } } := by exact fun _ _ _ => id
  nbytes : writesNbytes i = true → ∀ s v, P s → P { s with out := { s.out with nbytes := v } } := by exact fun _ _ _ => id
  npassout : isBlock i = true → ∀ s v, P s → P { s with out := { s.out with npassout := v } } := by exact fun _ _ _ => id
  flags : isBlock i = true → ∀ s p g t, P s →
    P { s with status := { s.status with partialRes := p, segmis := g, trunc := t } } := by exact fun _ _ _ _ _ => id
  coef : i = .bpcStore ∨ i = .cbDecode → ∀ s k v, k < 4096 → P s →
    P { s with mem := s.mem.setWord (coefAddr k) v } := by exact fun _ _ _ _ _ => id
  segtab : i = .cbEncode → ∀ s k v, k < 128 → P s → P { s with mem := s.mem.setWord (segtabAddr k) v } := by
    exact fun _ _ _ _ _ => id
  clear : i = .bpcClear ∨ isBlock i = true → ∀ s, P s → P { s with arr := clearedArrays } := by exact fun _ _ => id
  htCoef : isBlock i = true → ∀ s k x, k < 4096 → (x.mag = 0 → x.neg = false) → s.arr.refined = 0 → P s →
    P { s with arr := htPut k x s.arr } := by exact fun _ _ _ _ _ _ _ => id
  complete : ∀ s, P s → P s.complete := by exact fun _ => id
  takeError : ∀ s e, P s → P (s.takeError e) := by exact fun _ _ => id

/-- No command writes a configuration register, so what they hold is known throughout. -/
theorem CommandInv.withCfg {i : Instr} {P : State → Prop} (h : CommandInv i P) (c : Cfg) :
    CommandInv i fun s => s.cfg = c ∧ P s where
  seg s r hr := .imp id (h.seg s r hr)
  ctx s v := .imp id (h.ctx s v)
  byte hw s j v hj := .imp id (h.byte hw s j v hj)
  newSig s dir k neg m hk hm := .imp id (h.newSig s dir k neg m hk hm)
  refine s dir k m hs hm := .imp id (h.refine s dir k m hs hm)
  visited s v := .imp id (h.visited s v)
  segmis s := .imp id (h.segmis s)
  mode s m := .imp id (h.mode s m)
  result hi s v := .imp id (h.result hi s v)
  nbytes hi s v := .imp id (h.nbytes hi s v)
  npassout hi s v := .imp id (h.npassout hi s v)
  flags hi s p g t := .imp id (h.flags hi s p g t)
  coef hi s k v hk := .imp id (h.coef hi s k v hk)
  segtab hi s k v hk := .imp id (h.segtab hi s k v hk)
  clear hi s := .imp id (h.clear hi s)
  htCoef hi s k x hk hx h0 := .imp id (h.htCoef hi s k x hk hx h0)
  complete s := .imp id (h.complete s)
  takeError s e := .imp id (h.takeError s e)

/-- A pass in a direction in which the command may write bytes. -/
theorem CommandInv.passInv {i : Instr} {P : State → Prop} (h : CommandInv i P) {pa : PassArgs} {dir : Dir} (hd : pa.dir = dir)
    (hdir : dir = .enc → emitsBytes i = true) : PassInv P (pa.dir = .enc) :=
  { h.toPassInv with byte := fun he => h.byte (hdir (hd.symm.trans he)) }

/-- A legal shape has at most 4096 coefficients, and at least one row and column (10_state.md R26). -/
theorem shape_of_check {c : Cfg} (h : c.badShape = false) : 1 ≤ c.w ∧ 1 ≤ c.h ∧ c.w * c.h ≤ 4096 := by
  simp only [Cfg.badShape, Bool.or_eq_false_iff, beq_eq_false_iff_ne, decide_eq_false_iff_not] at h
  omega

theorem cfg_p_le (c : Cfg) : c.p ≤ 31 := by
  have := (c.code.extractLsb' 0 5).isLt
  unfold Cfg.p
  omega

/-! ### Commands other than CB.ENCODE and CB.DECODE -/

section Single

variable {P E : State → Prop} {i : Instr} (h : CommandInv i P)
include h

theorem setMode_preserves (m : CMode) : Preserves P E (setMode m) := .upd fun s => h.mode s m

theorem setResult_preserves (hi : writesResult i = true) (v : Word) : Preserves P E (setResult v) :=
  .upd fun s => h.result hi s v

theorem endSegment_preserves (hi : writesNbytes i = true) : Preserves P E endSegment :=
  .bind (.see _) fun _ => .bind (.upd fun s => h.nbytes hi s _) fun _ => setMode_preserves h _

/-- A coder that writes bytes, for a command that may. -/
theorem encoder_preserves (hi : emitsBytes i = true) {α : Type} {c : Cmd α}
    (hc : ∀ {R : State → State → Prop}, CoderSteps R → Keeps R c) : Preserves P P c :=
  .ofKeeps (hc (h.toCoderInv.steps hi))

/-- A command that leaves its pieces in P leaves the engine in P. -/
theorem runCmd_preserves {c : Cmd Unit} (hc : Preserves P P c) {s t : State} (hs : P s) (e : runCmd c s = .next t) : P t :=
  hc.runCmd h.complete (fun s x => h.takeError s x) hs e

/-- STORE writes the coefficients of a legal shape only (44_bitplane_coder.md R250). -/
theorem store_preserves (hi : i = .bpcStore ∨ i = .cbDecode) :
    Triple (fun s => s.cfg.badShape = false ∧ P s) store (fun _ => P) E := by
  refine .seeFact (p := fun c => c.badShape = false) (fun _ hs => hs.1) fun c hc => .pre (P := P) ?_ fun _ hs => hs.2
  have hshape := shape_of_check hc
  refine Preserves.forEach fun k hk => .bind (.see _) fun v => .upd fun s => h.coef hi s k v ?_
  have := List.mem_range.1 hk
  omega

omit h in
/-- The checks of a pass command leave it the geometry of a legal shape (44_bitplane_coder.md R240). -/
theorem pass_preserves {plane : BitVec 5} {dir : Dir} {raw : Bool} {pass : PassArgs → Cmd Unit}
    (hp : ∀ pa : PassArgs, pa.dir = dir → pa.g.w * pa.g.h ≤ 4096 → Preserves P P (pass pa)) :
    Preserves P P (do checkFields i; pass (← passCommand plane dir raw)) := by
  refine .bind (checkFields_preserves _) fun _ =>
    Triple.bind (Q := fun pa s => (pa.dir = dir ∧ pa.g.w * pa.g.h ≤ 4096) ∧ P s) ?_
      fun pa => Triple.fact fun ⟨hdir, hg⟩ => hp pa hdir hg
  exact .bind (needMode_preserves _) fun _ => .bind checkShape_triple fun _ =>
    .see _ fun s ⟨hb, hs⟩ => ⟨⟨rfl, (shape_of_check hb).2.2⟩, hs⟩

/-- The decoder initialisations: the segment is checked, then latched (42_mq_coder.md R194, 43_raw_bypass.md R223,
45_ht_block_coder.md R313). -/
theorem initdec_preserves {c : Cmd Unit} (hc : Preserves P P c) (m : CMode) :
    Preserves P P (do checkSegment; latchCfgSegment; c; setMode m) :=
  Triple.bind checkSegment_triple fun _ => .bind (latchCfgSegment_triple h.toCoderInv) fun _ =>
    .bind hc fun _ => setMode_preserves h m

end Single

/-! ### Blocks (46_coordinator.md) -/

section Block

variable {P E : State → Prop} {i : Instr} (h : CommandInv i P)
include h

/-- A pass of a block (44_bitplane_coder.md R256). -/
theorem runPass_preserves {dir : Dir} (hdir : dir = .enc → emitsBytes i = true) (k : Nat) :
    Triple (fun s => s.cfg.badShape = false ∧ P s) (runPass dir k) (fun _ => P) P := by
  refine .seeFact (p := fun c => c.badShape = false) (fun _ hs => hs.1) fun c hc => .pre (P := P) ?_ fun _ hs => hs.2
  have hshape := (shape_of_check hc).2.2
  dsimp only
  split
  · exact spp_preserves (h.passInv rfl hdir) hshape
  · exact mrp_preserves (h.passInv rfl hdir)
  · exact cup_preserves (h.passInv rfl hdir) hshape

theorem resetAfterPass_preserves : Preserves P E resetAfterPass :=
  .bind (.see _) fun _ => .ite (resetContexts_preserves h.toCoderInv) (.pure ())

omit h in
/-- The checks of the shape and the style (46_coordinator.md R320 steps 1 and 2). -/
theorem checkBlock_triple : Triple P checkBlock (fun _ s => s.cfg.badShape = false ∧ P s) P :=
  .bind checkShape_triple fun _ => .bind (Preserves.see _) fun _ => (Triple.check _ _ fun _ hs => hs.2).post fun _ _ hs => hs.2

omit h in
theorem checkCoefs_preserves : Preserves P P checkCoefs :=
  .bind (.see _) fun _ => .forEach fun _ _ => .bind (memReadWord_reads _) fun _ => .check _ _

/-- Block start leaves REFINED 0 (46_coordinator.md R321). -/
theorem blockStart_triple (hi : isBlock i = true) : Triple P blockStart (fun _ s => s.arr.refined = 0 ∧ P s) E :=
  .bind (Q := fun _ => P) (.upd fun s => h.flags hi s _ _ _) fun _ =>
    .bind (Q := fun _ s => s.arr.refined = 0 ∧ P s) (.updArr fun s hs => ⟨rfl, h.clear (.inr hi) s hs⟩) fun _ =>
      .upd fun s hs => ⟨hs.1, h.ctx s _ hs.2⟩

/-! Encoding -/

theorem openSegment_preserves (raw : Bool) (total : Word) : Preserves P E (openSegment raw total) := by
  refine .bind (.see _) fun _ => .bind (updSeg_preserves h.toCoderInv fun _ => rfl) fun _ => .ite ?_ ?_
  all_goals exact .bind (updSeg_preserves h.toCoderInv fun _ => rfl) fun _ => setMode_preserves h _

theorem closeSegment_preserves (hi : emitsBytes i = true) (raw : Bool) : Preserves P P (closeSegment raw) :=
  .ite (encoder_preserves h hi rawFlush_keeps) (.bind (.see _) fun _ =>
    .ite (encoder_preserves h hi mqErterm_keeps) (encoder_preserves h hi mqFlush_keeps))

theorem endEncode_preserves (hb : isBlock i = true) (hn : writesNbytes i = true) (v : Word) (n : Nat) :
    Preserves P E (endEncode v n) :=
  .bind (.upd fun s => h.nbytes hn s v) fun _ => .bind (.upd fun s => h.npassout hb s _) fun _ => setMode_preserves h _

/-! Decoding -/

omit h in
theorem segtabEnd_reads (k : Nat) : Preserves P E (segtabEnd k) :=
  .bind (memReadWord_reads _) fun _ => .bind (.see _) fun _ => .pure _

omit h in
theorem segmentEnd_reads (b : Nat) : Preserves P E (segmentEnd b) :=
  .bind (.see _) fun _ => .ite (segtabEnd_reads _) (.pure _)

omit h in
theorem part1Segments_preserves (l : List (Nat × Nat)) (lo : Nat) : Preserves P P (part1Segments l lo) := by
  induction l generalizing lo with
  | nil => exact .pure _
  | cons ab l ih =>
    exact .bind (segmentEnd_reads _) fun _ => .bind (.check _ _) fun _ => .bind (ih _) fun _ => .pure _

omit h in
theorem part1Uses_preserves : Preserves P P part1Uses := .bind (.see _) fun _ => part1Segments_preserves _ _

omit h in
theorem htEnds_preserves : Preserves P P htEnds := by
  refine .bind (.see _) fun n => .ite (.pure _) (.bind (segtabEnd_reads _) fun e0 => .ite (.pure _) ?_)
  exact .bind (segtabEnd_reads _) fun e1 => .bind (.check _ _) fun _ => .pure _

omit h in
theorem readBytes_reads (n j : Nat) : Preserves P E (readBytes n j) := by
  induction n generalizing j with
  | zero => exact .pure _
  | succ n ih => exact .bind (memReadByte_reads _) fun _ => .bind (ih _) fun _ => .pure _

omit h in
theorem readCoefs_reads (n j : Nat) : Preserves P E (readCoefs n j) := by
  induction n generalizing j with
  | zero => exact .pure _
  | succ n ih => exact .bind (memReadWord_reads _) fun _ => .bind (ih _) fun _ => .pure _

/-- (MAG, SIGN) ← r; SIG ← MAG ≠ 0 (46_coordinator.md R347), for coefficients as HTCodec returns them
(45_ht_block_coder.md R296). -/
theorem storeHt_preserves (hi : isBlock i = true) (l : List HtCoef) (k : Nat) (hk : k + l.length ≤ 4096)
    (hl : ∀ x ∈ l, x.mag = 0 → x.neg = false) : Preserves (fun s => s.arr.refined = 0 ∧ P s) E (storeHt l k) := by
  induction l generalizing k with
  | nil => exact .pure ()
  | cons x l ih =>
    rw [List.length_cons] at hk
    refine .bind (.updArr fun s hs => ⟨hs.1, ?_⟩) fun _ => ih (k + 1) (by omega) fun y hy => hl y (List.mem_cons_of_mem _ hy)
    exact h.htCoef hi s k x (by omega) (hl x List.mem_cons_self) hs.1 hs.2

end Block

/-- What a decode of `done` passes asks of HTCodec is a legal call (45_ht_block_coder.md R296, 46_coordinator.md R320 step 4). -/
theorem htDone_call {c : Cfg} (hc : c.badShape = false) (hht : c.ht = true) (hn : c.npass.toNat ≤ c.maxPasses)
    {e0 e1 len : Nat} (hd : 1 ≤ (htDone c.npass.toNat e0 e1 len).1) :
    HtCall c.w c.h c.p (if c.npass.toNat = 1 then 0 else 1) (htDone c.npass.toNat e0 e1 len).1 := by
  obtain ⟨hw, hh, hwh⟩ := shape_of_check hc
  have hp := cfg_p_le c
  have hdone : 1 ≤ c.npass.toNat ∧ (htDone c.npass.toNat e0 e1 len).1 ≤ c.npass.toNat := by
    unfold htDone at hd ⊢
    split_ifs at hd ⊢ <;> dsimp only at hd ⊢ <;> omega
  rw [Cfg.maxPasses, if_pos hht] at hn
  refine ⟨⟨hw, hh, hwh, ?_, hp⟩, ?_, hd, ?_⟩ <;> split_ifs at hn ⊢ <;> omega

/-! ### Blocks, with the configuration the checks have found legal -/

section Block

variable {P E : State → Prop} {i : Instr} (h : CommandInv i P) {c : Cfg} (hcfg : ∀ s, P s → s.cfg = c)
include h hcfg

theorem runPass_of_shape (hc : c.badShape = false) {dir : Dir} (hdir : dir = .enc → emitsBytes i = true) (k : Nat) :
    Preserves P P (runPass dir k) :=
  (runPass_preserves h hdir k).pre fun s hs => ⟨(hcfg s hs).symm ▸ hc, hs⟩

omit h in
theorem checkBlock_of_cfg : Triple P checkBlock (fun _ s => c.badShape = false ∧ P s) P :=
  checkBlock_triple.post fun _ s ⟨hb, hs⟩ => ⟨hcfg s hs ▸ hb, hs⟩

omit h in
/-- The checks of NPASS and of the segment (46_coordinator.md R320 steps 4 and 5). -/
theorem checkDecodeArgs_triple :
    Triple P checkDecodeArgs (fun _ s => (c.npass.toNat ≤ c.maxPasses ∧ c.segOutside = false) ∧ P s) P := by
  refine .seeFact (p := (· = c)) hcfg ?_
  rintro c rfl
  refine .bind (Triple.check _ _ fun _ => id) fun _ => .fact fun hn => (Triple.check _ _ fun _ => id).post ?_
  exact fun _ s ⟨hin, hs⟩ => ⟨⟨by simpa using hn, hin⟩, hs⟩

/-! Encoding -/

/-- The passes of PART1_ENCODE (46_coordinator.md R328): SEGTAB has an entry for each. -/
theorem encodePasses_preserves (hc : c.badShape = false) (hi : i = .cbEncode) {np : Nat} (hnp : np ≤ 128) (n : Nat)
    (total : Word) (isOpen : Bool) (hn : n ≤ np) : Preserves P P (encodePasses np n total isOpen) := by
  have hemit : emitsBytes i = true := hi ▸ rfl
  induction n generalizing total isOpen with
  | zero => exact .pure _
  | succ n ih =>
    have hk : np - (n + 1) < 128 := by omega
    have segtab (v : Word) : Preserves P P (memWriteWord (segtabAddr (np - (n + 1))) v) := .upd fun s => h.segtab hi s _ v hk
    refine .bind (.see _) fun c' => .ite ?_ (.bind (openSegment_preserves h _ _) fun _ => ?_)
    all_goals
      refine .bind (runPass_of_shape h hcfg hc (fun _ => hemit) _) fun _ =>
        .bind (resetAfterPass_preserves h) fun _ => .ite ?_ ?_
      · exact .bind (closeSegment_preserves h hemit _) fun _ => .bind (.see _) fun _ => .bind (segtab _) fun _ =>
          ih _ _ (by omega)
      · exact .bind (segtab _) fun _ => ih _ _ (by omega)

/-- PART1_ENCODE (46_coordinator.md R328). -/
theorem part1Encode_preserves (hc : c.badShape = false) (hi : i = .cbEncode) : Preserves P P part1Encode := by
  have hend (v : Word) (n : Nat) : Preserves P P (endEncode v n) := endEncode_preserves h (hi ▸ rfl) (hi ▸ rfl) v n
  refine .bind (.see _) fun c' => .ite ?_ ?_
  · exact .bind (latchSegbase_preserves h.toCoderInv) fun _ => .bind (updSeg_preserves h.toCoderInv fun _ => rfl) fun _ =>
      .bind (encoder_preserves h (hi ▸ rfl) mqFlush_keeps) fun _ => .bind (.see _) fun _ => hend _ _
  · have hnp : numPasses c'.p ≤ 128 := by
      have := cfg_p_le c'
      unfold numPasses
      omega
    exact .bind (encodePasses_preserves h hcfg hc hi hnp _ _ _ (Nat.le_refl _)) fun _ => hend _ _

omit hcfg in
/-- HT_ENCODE (46_coordinator.md R329). -/
theorem htEncode_preserves (hi : i = .cbEncode) : Preserves P P htEncode := by
  have hend (v : Word) (n : Nat) : Preserves P P (endEncode v n) := endEncode_preserves h (hi ▸ rfl) (hi ▸ rfl) v n
  refine .bind (.see _) fun c' => .ite (hend _ _) (.bind (readCoefs_reads _ _) fun q => ?_)
  refine .bind (latchSegbase_preserves h.toCoderInv) fun _ => .bind (updSeg_preserves h.toCoderInv fun _ => rfl) fun _ =>
    .bind (.forEach fun v _ => encoder_preserves h (hi ▸ rfl) fun hR => emitByte_keeps hR v) fun _ => ?_
  exact .bind (.upd fun s => h.segtab hi s 0 _ (by decide)) fun _ => hend _ _

/-! Decoding -/

theorem decodePasses_preserves (hc : c.badShape = false) (n k done : Nat) : Preserves P P (decodePasses n k done) := by
  induction n generalizing k done with
  | zero => exact .pure _
  | succ n ih =>
    exact .bind (runPass_of_shape h hcfg hc (fun hd => Dir.noConfusion hd) _) fun _ =>
      .bind (resetAfterPass_preserves h) fun _ => .bind (.see _) fun _ => .ite (.pure _) (ih _ _)

omit hcfg in
/-- A segment that ends inside [SEGBASE, SEGBASE + SEGLEN) ends inside BYTE memory (46_coordinator.md R331, R346). -/
theorem openDecoder_preserves {u : SegUse} (hcfg : ∀ s, P s → s.cfg = c) (hin : c.segOutside = false)
    (hu : u.hi ≤ c.seglen.toNat) : Preserves P E (openDecoder u) := by
  have hstop : (c.segbase + BitVec.ofNat 32 u.hi).toNat ≤ Config.byteCap := by
    have := segEnd_le hin
    rw [BitVec.toNat_add, BitVec.toNat_ofNat, Nat.add_mod_mod]
    exact Nat.le_trans (Nat.mod_le _ _) (by omega)
  refine .seeFact (p := (· = c)) hcfg ?_
  rintro c rfl
  refine Preserves.bind (.updSeg fun s => h.seg s _ (.inr hstop)) fun _ => .ite ?_ ?_
  · exact .bind (updSeg_preserves h.toCoderInv fun _ => rfl) fun _ => setMode_preserves h _
  · exact .bind (mqInitDec_preserves h.toCoderInv) fun _ => setMode_preserves h _

theorem decodeSegments_preserves (hc : c.badShape = false) (hin : c.segOutside = false) (l : List SegUse) (done : Nat) :
    Preserves P P (decodeSegments l done) := by
  induction l generalizing done with
  | nil => exact .pure _
  | cons u l ih =>
    refine .seeFact (p := (· = c)) hcfg ?_
    rintro c rfl
    refine .ite (fun _ => Preserves.pure _) fun hu => ?_
    exact Preserves.bind (openDecoder_preserves h hcfg hin (Nat.not_lt.1 hu)) fun _ =>
      .bind (decodePasses_preserves h hcfg hc _ _ _) fun _ => .ite (.pure _) (ih _)

/-- The end of a decode (46_coordinator.md R345 to R348). -/
theorem endDecode_preserves (hc : c.badShape = false) (hi : i = .cbDecode) (done : Nat) (trunc short : Bool) :
    Preserves P P (endDecode done trunc short) := by
  have hb : isBlock i = true := hi ▸ rfl
  have hpartial : Preserves P P setPartial := .upd fun s => h.flags hb s true s.status.segmis s.status.trunc
  refine .bind ((store_preserves h (.inr hi)).pre fun s hs => ⟨(hcfg s hs).symm ▸ hc, hs⟩) fun _ =>
    .bind (.upd fun s => h.npassout hb s _) fun _ => .bind (setMode_preserves h _) fun _ => .ite ?_ (.ite hpartial (.pure ()))
  exact .bind (.upd fun s => h.flags hb s s.status.partialRes s.status.segmis true) fun _ => .bind (.see _) fun _ =>
    .ite hpartial (.raise fun _ => id)

/-- PART1_DECODE (46_coordinator.md R346). -/
theorem part1Decode_preserves (hc : c.badShape = false) (hin : c.segOutside = false) (hi : i = .cbDecode)
    (uses : List SegUse) : Preserves P P (part1Decode uses) :=
  .bind (decodeSegments_preserves h hcfg hc hin _ _) fun _ => .bind (.see _) fun _ => endDecode_preserves h hcfg hc hi _ _ _

/-- The call of HTCodec.decode (46_coordinator.md R347), whose results have the shape of 45_ht_block_coder.md R296. -/
theorem htDecodeBlock_triple (hi : isBlock i = true) {done : Nat}
    (hcall : HtCall c.w c.h c.p (if c.npass.toNat = 1 then 0 else 1) done) (e0 e1 : Nat) :
    Preserves (fun s => s.arr.refined = 0 ∧ P s) P (htDecodeBlock e0 e1 done) := by
  refine .seeFact (p := (· = c)) (fun s hs => hcfg s hs.2) ?_
  rintro c rfl
  dsimp only
  generalize (if c.npass.toNat = 1 then 0 else 1) = z at hcall ⊢
  refine Preserves.bind (readBytes_reads _ _) fun cup =>
    .ite (.bind (readBytes_reads _ _) fun refn => ?_) (.bind (.pure _) fun refn => ?_)
  all_goals
    split
    case h_1 => exact .raise fun _ hs => hs.2
    case h_2 r hr =>
      obtain ⟨hlen, hcoef⟩ := htCodec.lawful.shape _ _ _ _ _ _ _ _ r hcall hr
      obtain ⟨⟨-, -, hwh, -, -⟩, -⟩ := hcall
      exact storeHt_preserves h hi r 0 (by omega) fun x hx => (hcoef x hx).2.1

/-- HT_DECODE (46_coordinator.md R347). -/
theorem htDecode_triple (hc : c.badShape = false) (hht : c.ht = true) (hn : c.npass.toNat ≤ c.maxPasses) (hi : i = .cbDecode)
    (ends : Nat × Nat) : Triple (fun s => s.arr.refined = 0 ∧ P s) (htDecode ends) (fun _ => P) P := by
  refine .seeFact (p := (· = c)) (fun s hs => hcfg s hs.2) ?_
  rintro c rfl
  have hend (done : Nat) (trunc short : Bool) :
      Triple (fun s => s.arr.refined = 0 ∧ P s) (endDecode done trunc short) (fun _ => P) P :=
    (endDecode_preserves h hcfg hc hi done trunc short).pre fun _ hs => hs.2
  exact .ite (fun hd => .bind (htDecodeBlock_triple h hcfg (hi ▸ rfl) (htDone_call hc hht hn hd) _ _) fun _ => hend _ _ _)
    fun _ => hend _ _ _

end Block

/-! ### Every command -/

section Exec

variable {P : State → Prop}

/-- CB.ENCODE (46_coordinator.md R350). -/
theorem execCbEncode_preserves (h : CommandInv .cbEncode P) {s t : State} (hs : P s) (e : execCbEncode s = .next t) : P t := by
  have h' := h.withCfg s.cfg
  have hcfg : ∀ u, u.cfg = s.cfg ∧ P u → u.cfg = s.cfg := fun _ hu => hu.1
  refine (runCmd_preserves h' ?_ ⟨rfl, hs⟩ e).2
  refine Triple.bind (checkBlock_of_cfg hcfg) fun _ => .fact fun hc => ?_
  refine Preserves.bind checkCoefs_preserves fun _ =>
    .bind ((blockStart_triple h' rfl).post fun _ _ hu => hu.2) fun _ => .bind (.see _) fun _ => .ite ?_ ?_
  · exact htEncode_preserves h' rfl
  · exact part1Encode_preserves h' hcfg hc rfl

/-- CB.DECODE (46_coordinator.md R351). -/
theorem execCbDecode_preserves (h : CommandInv .cbDecode P) {s t : State} (hs : P s) (e : execCbDecode s = .next t) : P t := by
  have h' := h.withCfg s.cfg
  have hcfg : ∀ u, u.cfg = s.cfg ∧ P u → u.cfg = s.cfg := fun _ hu => hu.1
  refine (runCmd_preserves h' ?_ ⟨rfl, hs⟩ e).2
  refine Triple.bind (checkBlock_of_cfg hcfg) fun _ => .fact fun hc => ?_
  refine Triple.bind (checkDecodeArgs_triple hcfg) fun _ => .fact fun ⟨hn, hin⟩ => ?_
  refine .seeFact (p := (· = s.cfg.ht)) (fun u hu => congrArg Cfg.ht (hcfg u hu)) ?_
  rintro _ rfl
  refine .ite (fun hht => ?_) fun _ => ?_
  · exact .bind htEnds_preserves fun ends => .bind (blockStart_triple h' rfl) fun _ =>
      htDecode_triple h' hcfg hc hht hn rfl ends
  · exact .bind part1Uses_preserves fun uses => .bind ((blockStart_triple h' rfl).post fun _ _ hu => hu.2) fun _ =>
      part1Decode_preserves h' hcfg hc hin rfl uses

/-- A command changes the state in no way but those of `CommandInv`. -/
theorem exec_preserves {i : Instr} (h : CommandInv i P) {s t : State} (hs : P s) (e : exec i s = .next t) : P t := by
  have hc := h.toCoderInv
  have result (hi : writesResult i = true) (v : Word) : Preserves P P (setResult v) := setResult_preserves h hi v
  have bit (hi : writesResult i = true) {m : CMode} {c : Cmd Bool} (hc : Preserves P P c) :
      Preserves P P (do needMode m; setResult (zextBit (← c))) :=
    .bind (needMode_preserves m) fun _ => .bind hc fun d => result hi _
  have put (hi : emitsBytes i = true) {m : CMode} {c : Cmd Unit}
      (hk : ∀ {R : State → State → Prop}, CoderSteps R → Keeps R c) : Preserves P P (do needMode m; c) :=
    .bind (needMode_preserves m) fun _ => encoder_preserves h hi hk
  have close (hi : emitsBytes i = true) (hn : writesNbytes i = true) {m : CMode} {c : Cmd Unit}
      (hk : ∀ {R : State → State → Prop}, CoderSteps R → Keeps R c) : Preserves P P (do needMode m; c; endSegment) :=
    .bind (needMode_preserves m) fun _ => .bind (encoder_preserves h hi hk) fun _ => endSegment_preserves h hn
  have initenc {c : Cmd Unit} (hi : Preserves P P c) (m : CMode) : Preserves P P (do latchSegbase; c; setMode m) :=
    .bind (latchSegbase_preserves hc) fun _ => .bind hi fun _ => setMode_preserves h m
  have mqInitEnc : Preserves P P mqInitEnc := updSeg_preserves hc fun _ => rfl
  have rawInitEnc : Preserves P P rawInitEnc := updSeg_preserves hc fun _ => rfl
  have rawInitDec : Preserves P P rawInitDec := updSeg_preserves hc fun _ => rfl
  have melInitEnc : Preserves P P melInitEnc := updSeg_preserves hc fun _ => rfl
  have melInitDec : Preserves P P melInitDec := updSeg_preserves hc fun _ => rfl
  cases i with
  | ctxZc o m => exact runCmd_preserves h (result rfl _) hs e
  | ctxSc w e' n s' => exact runCmd_preserves h (result rfl _) hs e
  | ctxMr r a => exact runCmd_preserves h (result rfl _) hs e
  | mqInitenc => exact runCmd_preserves h (initenc mqInitEnc _) hs e
  | mqEncode cx d =>
    exact runCmd_preserves h (.bind (checkFields_preserves _) fun _ => put rfl fun hR => mqEncode_keeps hR _ d) hs e
  | mqFlush => exact runCmd_preserves h (close rfl rfl mqFlush_keeps) hs e
  | mqErterm => exact runCmd_preserves h (close rfl rfl mqErterm_keeps) hs e
  | mqInitdec => exact runCmd_preserves h (initdec_preserves h (mqInitDec_preserves hc) _) hs e
  | mqDecode cx => exact runCmd_preserves h (.bind (checkFields_preserves _) fun _ => bit rfl (mqDecode_preserves hc _)) hs e
  | mqResetctx => exact runCmd_preserves h (resetContexts_preserves hc) hs e
  | rawInitenc => exact runCmd_preserves h (initenc rawInitEnc _) hs e
  | rawPutbit d => exact runCmd_preserves h (put rfl fun hR => rawPut_keeps hR d) hs e
  | rawFlush => exact runCmd_preserves h (close rfl rfl rawFlush_keeps) hs e
  | rawInitdec => exact runCmd_preserves h (initdec_preserves h rawInitDec _) hs e
  | rawGetbit => exact runCmd_preserves h (bit rfl (rawGet_preserves hc)) hs e
  | bpcClear => exact runCmd_preserves h (show Preserves P P clearArrays from .updArr (h.clear (.inl rfl))) hs e
  | bpcSpp p dir raw =>
    exact runCmd_preserves h (pass_preserves fun pa hd hg => spp_preserves (h.passInv hd (by simp [emitsBytes])) hg) hs e
  | bpcMrp p dir raw =>
    exact runCmd_preserves h (pass_preserves fun pa hd _ => mrp_preserves (h.passInv hd (by simp [emitsBytes]))) hs e
  | bpcCup p dir =>
    exact runCmd_preserves h (pass_preserves fun pa hd hg => cup_preserves (h.passInv hd (by simp [emitsBytes])) hg) hs e
  | bpcStore => exact runCmd_preserves h (Triple.bind checkShape_triple fun _ => store_preserves h (.inl rfl)) hs e
  | melInitenc => exact runCmd_preserves h (initenc melInitEnc _) hs e
  | melPut d => exact runCmd_preserves h (put rfl fun hR => melPut_keeps hR d) hs e
  | melFlush => exact runCmd_preserves h (close rfl rfl melFlush_keeps) hs e
  | melInitdec => exact runCmd_preserves h (initdec_preserves h melInitDec _) hs e
  | melGet => exact runCmd_preserves h (bit rfl (melGet_preserves hc)) hs e
  | cbEncode => exact execCbEncode_preserves h hs e
  | cbDecode => exact execCbDecode_preserves h hs e

end Exec

end Sys2Proof.Proofs
end

section
/-!
PROOFS. What a step can do, said once: the host's event, reset, or the engine's turn; and from it the packaged induction step for
invariants (`step_preserves`).
-/
namespace Sys2Proof.Proofs

open Sys2Proof.Machine Sys2Proof.Laws

/-- What a host write to a CSR can make of the state (10_state.md, the table before R21). -/
inductive CsrWritten (w : Word) (s : State) : State → Prop
  | ignored : CsrWritten w s s
  | cmd : CsrWritten w s (writeCmd w s)
  | status : CsrWritten w s (writeStatus w s)
  | dim : CsrWritten w s { s with cfg := { s.cfg with dim := w } }
  | code : CsrWritten w s { s with cfg := { s.cfg with code := w &&& cfgCodeMask } }
  | npass : CsrWritten w s { s with cfg := { s.cfg with npass := w.extractLsb' 0 8 } }
  | segbase : CsrWritten w s { s with cfg := { s.cfg with segbase := w } }
  | seglen : CsrWritten w s { s with cfg := { s.cfg with seglen := w } }
  | ctx (cx : Label) : CsrWritten w s (writeCtx cx w s)

theorem csrWrite_cases {w : Word} {s t : State} {a : Nat} (h : csrWrite w s a = some t) : CsrWritten w s t := by
  unfold csrWrite at h
  split at h
  case h_2 => cases h; exact .cmd
  case h_3 => cases h; exact .status
  case h_4 => cases h; exact .dim
  case h_5 => cases h; exact .code
  case h_6 => cases h; exact .npass
  case h_7 => cases h; exact .segbase
  case h_8 => cases h; exact .seglen
  case h_20 =>
    split at h
    · cases h; exact .ctx _
    · cases h
  all_goals cases h; exact .ignored

/-- Such a write leaves the segment registers, the arrays, memory and the bus alone. -/
theorem CsrWritten.frame {w : Word} {s t : State} (h : CsrWritten w s t) :
    t.seg = s.seg ∧ t.arr = s.arr ∧ t.mem = s.mem ∧ t.out = s.out ∧ t.bus = s.bus := by
  cases h <;> simp

/-- P outlives every step: the host's accesses, the reset input, and the commands. -/
structure StepInv (P : State → Prop) : Prop where
  bus : ∀ s b, P s → P { s with bus := b } := by exact fun _ _ => id
  memory : ∀ s a w, isMemory a = true → a % 4 = 0 → P s → P { s with mem := s.mem.setWord a w } := by
    exact fun _ _ _ _ _ => id
  csr : ∀ s t w, CsrWritten w s t → P s → P t
  reset : ∀ b, P { State.reset with bus := b }
  exec : ∀ s t i, exec i s = .next t → P s → P t
  takeError : ∀ s e, P s → P (s.takeError e) := by exact fun _ _ => id

section Step

variable {P : State → Prop} (h : StepInv P) {s t : State}
include h

theorem engineStep_preserves (hs : P s) (e : engineStep s = .next t) : P t := by
  unfold engineStep at e
  split at e
  · cases e; exact hs
  · split at e
    · exact h.exec _ _ _ e hs
    · cases e; exact h.takeError _ _ hs

theorem hostRead_preserves {a : Word} {n : Nat} (hs : P s) (e : hostRead a n s = .next t) : P t := by
  unfold hostRead at e
  split_ifs at e
  split at e
  · cases e; exact h.bus _ _ hs
  · cases e

theorem hostWriteWord_preserves {a : Nat} {w : Word} (ha : a % 4 = 0) (hs : P s) (e : hostWriteWord s a w = .ok t) : P t := by
  unfold hostWriteWord at e
  split_ifs at e with hm hf
  · cases e; exact h.memory _ _ _ hm ha hs
  · cases e; exact hs
  · split at e
    case h_1 u hu => cases e; exact h.csr _ _ _ (csrWrite_cases hu) hs
    case h_2 => cases e

theorem hostWrite_preserves {a : Word} {n : Nat} {w : Word} (hs : P s) (e : hostWrite a n w s = .next t) : P t := by
  unfold hostWrite at e
  split_ifs at e with hw hb
  split at e
  case h_1 u hu =>
    cases e
    simp only [wholeWord, Bool.not_eq_true', Bool.not_eq_false, Bool.and_eq_true, beq_iff_eq] at hw
    exact hostWriteWord_preserves h hw.2 hs hu
  case h_2 => cases e

/-- An invariant of the engine's commands and the host's accesses is one of every step. -/
theorem step_preserves (hs : P s) (e : step s = .next t) : P t := by
  unfold step at e
  split at e
  · exact engineStep_preserves h hs e
  · exact engineStep_preserves h (h.bus _ _ hs) e
  · cases e; exact h.reset _
  · exact hostRead_preserves h (h.bus _ _ hs) e
  · exact hostWrite_preserves h (h.bus _ _ hs) e

end Step

end Sys2Proof.Proofs
end

section
/-!
PROOFS. O58: the coefficient arrays stay well-formed (10_state.md R45 to R50).
-/
namespace Sys2Proof.Proofs

open Sys2Proof.Machine Sys2Proof.Laws

theorem Marks.sorted {dir : Dir} {i : Nat} {m m' : List (Nat × BitVec 31)} (h : Marks dir i m m') (hm : sparseSorted m) :
    sparseSorted m' := by
  obtain rfl | ⟨-, p, rfl⟩ := h
  · exact hm
  · exact sparseSorted_magSet hm i _

/-- MAG keeps to its 4096 elements, none of them stored as 0. -/
theorem Marks.entries {dir : Dir} {i : Nat} {m m' : List (Nat × BitVec 31)} (h : Marks dir i m m') (hi : i < 4096)
    (hm : ∀ e ∈ m, e.1 < 4096 ∧ e.2 ≠ 0) : ∀ e ∈ m', e.1 < 4096 ∧ e.2 ≠ 0 := by
  obtain rfl | ⟨-, p, rfl⟩ := h
  · exact hm
  · intro e he
    rcases mem_magSet he with ⟨rfl, hv⟩ | he
    · exact ⟨hi, hv⟩
    · exact hm e he

/-- Only coefficient i is written. -/
theorem Marks.get_ne {dir : Dir} {i : Nat} {m m' : List (Nat × BitVec 31)} (h : Marks dir i m m') (hm : sparseSorted m)
    {j : Nat} (hj : j ≠ i) : magGet m' j = magGet m j := by
  obtain rfl | ⟨-, p, rfl⟩ := h
  · rfl
  · rw [magGet_magSet hm, if_neg hj]

theorem getLsbD_bitSet_of {b : BitVec 4096} {i j : Nat} (hi : i < 4096) (h : b.getLsbD j = true ∨ j = i) :
    (bitSet b i).getLsbD j = true := by
  rw [getLsbD_bitSet _ _ _ hi]
  simpa using h

theorem arraysWf_cleared : ArraysWf clearedArrays where
  magSorted := List.Pairwise.nil
  magEntries _ he := absurd he List.not_mem_nil
  magSig _ hi := absurd rfl hi
  signSig _ hi := hi
  refinedSig _ hi := hi

/-- A coefficient that becomes significant may have a magnitude and a sign (44_bitplane_coder.md R235, R236). -/
theorem arraysWf_newSig {r : Arrays} (h : ArraysWf r) {dir : Dir} {i : Nat} (neg : Bool)
    {m : List (Nat × BitVec 31)} (hi : i < 4096) (hm : Marks dir i r.mag m) :
    ArraysWf { r with mag := m, sgn := bitPut r.sgn i neg, sig := bitSet r.sig i } where
  magSorted := hm.sorted h.magSorted
  magEntries := hm.entries hi h.magEntries
  magSig j hj := getLsbD_bitSet_of hi (by
    by_cases hji : j = i
    · exact .inr hji
    · exact .inl (h.magSig j (hm.get_ne h.magSorted hji ▸ hj)))
  signSig j hj := getLsbD_bitSet_of hi (by
    by_cases hji : j = i
    · exact .inr hji
    · rw [getLsbD_bitPut _ _ _ _ hi, if_neg hji] at hj
      exact .inl (h.signSig j hj))
  refinedSig j hj := getLsbD_bitSet_of hi (.inl (h.refinedSig j hj))

/-- A significant coefficient may be refined (44_bitplane_coder.md R238). -/
theorem arraysWf_refine {r : Arrays} (h : ArraysWf r) {dir : Dir} {i : Nat} {m : List (Nat × BitVec 31)}
    (hs : r.sig.getLsbD i = true) (hm : Marks dir i r.mag m) : ArraysWf { r with mag := m, refined := bitSet r.refined i } :=
  have hi : i < 4096 := by
    by_contra hi
    rw [BitVec.getLsbD_of_ge _ _ (Nat.not_lt.1 hi)] at hs
    cases hs
  { magSorted := hm.sorted h.magSorted
    magEntries := hm.entries hi h.magEntries
    magSig := fun j hj => by
      by_cases hji : j = i
      · exact hji ▸ hs
      · exact h.magSig j (hm.get_ne h.magSorted hji ▸ hj)
    signSig := h.signSig
    refinedSig := fun j hj => by
      rw [getLsbD_bitSet _ _ _ hi, Bool.or_eq_true, decide_eq_true_eq] at hj
      obtain hj | rfl := hj
      · exact h.refinedSig j hj
      · exact hs }

/-- A coefficient as HTCodec returns it, into arrays that nothing has refined (46_coordinator.md R347). -/
theorem arraysWf_htPut {r : Arrays} (h : ArraysWf r) {k : Nat} {x : HtCoef} (hk : k < 4096)
    (hx : x.mag = 0 → x.neg = false) (h0 : r.refined = 0) : ArraysWf (htPut k x r) where
  magSorted := sparseSorted_magSet h.magSorted k _
  magEntries e he := by
    rcases mem_magSet he with ⟨rfl, hv⟩ | he
    · exact ⟨hk, hv⟩
    · exact h.magEntries e he
  magSig j hj := by
    simp only [htPut, getLsbD_bitPut _ _ _ _ hk, magGet_magSet h.magSorted] at hj ⊢
    split_ifs at hj ⊢
    · simpa using hj
    · exact h.magSig j hj
  signSig j hj := by
    simp only [htPut, getLsbD_bitPut _ _ _ _ hk] at hj ⊢
    split_ifs at hj ⊢
    · by_contra hm
      simp [hx (by simpa using hm)] at hj
    · exact h.signSig j hj
  refinedSig j hj := by
    have hj' : r.refined.getLsbD j = true := hj
    rw [h0] at hj'
    simp at hj'

/-- Every change a command makes keeps the arrays well-formed. -/
theorem arraysWf_commandInv (i : Instr) : CommandInv i fun s => ArraysWf s.arr where
  newSig _ _ _ neg _ hi hm h := arraysWf_newSig h neg hi hm
  refine _ _ _ _ hs hm h := arraysWf_refine h hs hm
  visited _ _ h := { h with }
  clear _ _ _ := arraysWf_cleared
  htCoef _ _ _ _ hk hx h0 h := arraysWf_htPut h hk hx h0

theorem arraysWf_stepInv : StepInv fun s => ArraysWf s.arr where
  csr s t w ht h := by
    obtain ⟨-, harr, -⟩ := ht.frame
    exact harr ▸ h
  reset _ := arraysWf_cleared
  exec _ _ i e h := exec_preserves (arraysWf_commandInv i) h e

/-- Settles O58: every change a step can make keeps the arrays well-formed. -/
theorem stepKeepsArrays : Obligations.StepKeepsArrays :=
  fun _ _ e h => step_preserves arraysWf_stepInv h e

end Sys2Proof.Proofs
end

section
/-!
PROOFS. O59: the reserved bits of CFG_CODE and the latched segment end (10_state.md R27, 42_mq_coder.md R194).
-/
namespace Sys2Proof.Proofs

open Sys2Proof.Machine Sys2Proof.Laws

theorem registersWf_iff (s : State) :
    RegistersWf s ↔ s.cfg.code &&& ~~~cfgCodeMask = 0 ∧ s.seg.stop.toNat ≤ Config.byteCap :=
  ⟨fun h => ⟨h.codeReserved, h.segmentInside⟩, fun h => ⟨h.1, h.2⟩⟩

/-- No command writes CFG_CODE, and each latches an end only inside BYTE memory. -/
theorem registersWf_commandInv (i : Instr) :
    CommandInv i fun s => s.cfg.code &&& ~~~cfgCodeMask = 0 ∧ s.seg.stop.toNat ≤ Config.byteCap where
  seg s r hr := .imp id fun h => hr.elim (fun e => e ▸ h) id

/-- A host write of CFG_CODE is masked. -/
theorem CsrWritten.codeReserved {w : Word} {s t : State} (ht : CsrWritten w s t) (h : s.cfg.code &&& ~~~cfgCodeMask = 0) :
    t.cfg.code &&& ~~~cfgCodeMask = 0 := by
  cases ht with
  | code =>
    have hmask : cfgCodeMask &&& ~~~cfgCodeMask = 0#32 := by decide
    show w &&& cfgCodeMask &&& ~~~cfgCodeMask = 0
    rw [BitVec.and_assoc, hmask, BitVec.and_zero]
    rfl
  | _ => simpa using h

theorem registersWf_stepInv : StepInv fun s => s.cfg.code &&& ~~~cfgCodeMask = 0 ∧ s.seg.stop.toNat ≤ Config.byteCap where
  csr _ _ _ ht h := by
    obtain ⟨hseg, -⟩ := ht.frame
    exact ⟨ht.codeReserved h.1, hseg ▸ h.2⟩
  reset _ := ⟨show (0#32 : Word) &&& ~~~cfgCodeMask = 0 by decide, Nat.zero_le _⟩
  exec _ _ i e h := exec_preserves (registersWf_commandInv i) h e

/-- Settles O59: every change a step can make keeps the registers well-formed. -/
theorem stepKeepsRegisters : Obligations.StepKeepsRegisters :=
  fun s t e h => (registersWf_iff t).2 (step_preserves registersWf_stepInv ((registersWf_iff s).1 h) e)

end Sys2Proof.Proofs
end

section
/-!
PROOFS. Which commands write what (O8, O53, O54), and the mode a coding command needs (O38).
-/
namespace Sys2Proof.Proofs

open Sys2Proof.Machine Sys2Proof.Laws

/-! ### STATUS flags (10_state.md R25) -/

section Flags

variable {i : Instr}

/-- No command clears ERR. -/
theorem err_commandInv : CommandInv i fun s => s.status.err.isSome = true where
  takeError _ _ _ := rfl

theorem partialRes_commandInv (hi : isBlock i = false) : CommandInv i fun s => s.status.partialRes = true where
  flags hb := absurd (hi.symm.trans hb) Bool.noConfusion

theorem segmis_commandInv (hi : isBlock i = false) : CommandInv i fun s => s.status.segmis = true where
  segmis _ _ := rfl
  flags hb := absurd (hi.symm.trans hb) Bool.noConfusion

theorem trunc_commandInv (hi : isBlock i = false) : CommandInv i fun s => s.status.trunc = true where
  flags hb := absurd (hi.symm.trans hb) Bool.noConfusion

end Flags

/-! ### Outputs and memory (10_state.md R32 to R34, 20_memory.md R72 to R74) -/

section Outputs

variable {i : Instr}

theorem result_commandInv (hi : writesResult i = false) (v : Word) : CommandInv i fun s => s.out.result = v where
  result hw := absurd (hi.symm.trans hw) Bool.noConfusion

theorem nbytes_commandInv (hi : writesNbytes i = false) (v : Word) : CommandInv i fun s => s.out.nbytes = v where
  nbytes hw := absurd (hi.symm.trans hw) Bool.noConfusion

theorem npassout_commandInv (hi : isBlock i = false) (v : BitVec 8) : CommandInv i fun s => s.out.npassout = v where
  npassout hw := absurd (hi.symm.trans hw) Bool.noConfusion

/-- A command changes the byte at an address only where it writes: BYTE memory when it emits bytes, COEF when it stores
coefficients, SEGTAB when it encodes a block. -/
theorem memByte_commandInv {a : Nat} (v : Option Byte) (hbyte : emitsBytes i = true → a < 0x10000)
    (hcoef : i = .bpcStore ∨ i = .cbDecode → ¬ (0x4000 ≤ a ∧ a < 0x8000))
    (hsegtab : i = .cbEncode → ¬ (0x1000 ≤ a ∧ a < 0x1200)) : CommandInv i fun s => s.mem.getByte a = v where
  byte hi s j b _ h := by
    have := hbyte hi
    rw [getByte_setByte, if_neg (by unfold byteAddr; omega)]
    exact h
  coef hi s k w hk h := by
    have := hcoef hi
    rw [getByte_setWord_out _ _ _ _ (by unfold coefAddr; omega)]
    exact h
  segtab hi s k w hk h := by
    have := hsegtab hi
    rw [getByte_setWord_out _ _ _ _ (by unfold segtabAddr; omega)]
    exact h

end Outputs

/-- Settles O53: each location through the changes its commands can make. -/
theorem onlyNamedCommandsWrite : Obligations.OnlyNamedCommandsWrite := by
  intro i s t e
  have mem {a : Nat} (hbyte : emitsBytes i = true → a < 0x10000)
      (hcoef : i = .bpcStore ∨ i = .cbDecode → ¬ (0x4000 ≤ a ∧ a < 0x8000))
      (hsegtab : i = .cbEncode → ¬ (0x1000 ≤ a ∧ a < 0x1200)) : t.mem.getByte a = s.mem.getByte a :=
    exec_preserves (memByte_commandInv _ hbyte hcoef hsegtab) rfl e
  refine ⟨fun hi => exec_preserves (result_commandInv hi _) rfl e, fun hi => exec_preserves (nbytes_commandInv hi _) rfl e,
    fun hi => exec_preserves (npassout_commandInv hi _) rfl e, fun hstore hdec a h1 h2 => ?_, fun henc a h1 h2 => ?_,
    fun hi a h1 => ?_⟩
  · exact mem (by omega) (fun hi => absurd hi (not_or.2 ⟨hstore, hdec⟩)) (by omega)
  · exact mem (by omega) (by omega) fun hi => absurd hi henc
  · exact mem (fun hw => absurd (hi.symm.trans hw) Bool.noConfusion) (by omega) (by omega)

/-! ### SIG (10_state.md R46) -/

/-- Coding a coefficient sets its element of SIG and clears none; only the arrays' clearing and HT decoding write zeros. -/
theorem sig_commandInv {i : Instr} (hclear : i ≠ .bpcClear) (hi : isBlock i = false) (j : Nat) :
    CommandInv i fun s => s.arr.sig.getLsbD j = true where
  newSig _ _ _ _ _ hk _ h := getLsbD_bitSet_of hk (.inl h)
  clear hc := hc.elim (absurd · hclear) fun hb => absurd (hi.symm.trans hb) Bool.noConfusion
  htCoef hb := absurd (hi.symm.trans hb) Bool.noConfusion

/-- Settles O54: an element of SIG that is set outlives every change these commands can make. -/
theorem significanceMonotone : Obligations.SignificanceMonotone :=
  fun _ _ _ e hclear hi j hs => exec_preserves (sig_commandInv hclear hi j) hs e

/-! ### The mode a command needs (10_state.md R44) -/

section WrongMode

variable {s : State} {m : CMode} (hm : s.status.cmode ≠ m)
include hm

theorem needMode_wrong : needMode m s = .error (.err .notInit) s := by rw [needMode_run, if_neg hm]

/-- A command that starts with a mode check raises E_NOT_INIT in another mode. -/
theorem runCmd_needMode_wrong (c : Unit → Cmd Unit) : runCmd (needMode m >>= c) s = .next (s.takeError .notInit) :=
  runCmd_of_err (bind_of_error (needMode_wrong hm) c)

/-- So does one whose fields, checked first, are legal. -/
theorem runCmd_checkFields_needMode_wrong {i : Instr} (hi : i.wellFormed = true) (c : Unit → Cmd Unit) :
    runCmd (checkFields i >>= fun _ => needMode m >>= c) s = .next (s.takeError .notInit) :=
  runCmd_of_err ((bind_of_ok (by rw [checkFields_run, if_pos hi]) _).trans (bind_of_error (needMode_wrong hm) c))

end WrongMode

/-- The same for a pass command, whose common checks begin with its mode (44_bitplane_coder.md R240). -/
theorem runCmd_pass_wrong {i : Instr} (hi : i.wellFormed = true) {plane : BitVec 5} {dir : Dir} {raw : Bool} {s : State}
    (hm : s.status.cmode ≠ passMode dir raw) (pass : PassArgs → Cmd Unit) :
    runCmd (checkFields i >>= fun _ => passCommand plane dir raw >>= pass) s = .next (s.takeError .notInit) :=
  runCmd_of_err ((bind_of_ok (by rw [checkFields_run, if_pos hi]) _).trans
    (bind_of_error (bind_of_error (needMode_wrong hm) _) pass))

/-- Settles O38: each of the thirteen commands checks its mode before it changes anything. -/
theorem wrongModeRaises : Obligations.WrongModeRaises := by
  intro i m s hi hneed hm
  cases i with
  | mqEncode cx d | mqDecode cx => obtain rfl := Option.some.inj hneed; exact runCmd_checkFields_needMode_wrong hm hi _
  | bpcSpp p dir raw | bpcMrp p dir raw | bpcCup p dir => obtain rfl := Option.some.inj hneed; exact runCmd_pass_wrong hi hm _
  | mqFlush | mqErterm | rawPutbit d | rawFlush | rawGetbit | melPut d | melFlush | melGet =>
    obtain rfl := Option.some.inj hneed; exact runCmd_needMode_wrong hm _
  | _ => cases hneed

end Sys2Proof.Proofs
end

section
/-!
PROOFS. The host's accesses to the CSRs (O6, O8, O9, O11, O12): a step that makes one, and what each register reads.
-/
namespace Sys2Proof.Proofs

open Sys2Proof.Machine Sys2Proof.Laws

/-! ### One access to a CSR as one step -/

/-- The addresses below SEGTAB are in no memory (20_memory.md R70). -/
theorem isMemory_csr {a : Nat} (ha : a < 0x1000) : isMemory a = false := by
  simp only [isMemory, Bool.or_eq_false_iff, Bool.and_eq_false_iff, decide_eq_false_iff_not]
  omega

theorem hostWriteWord_csr {s t : State} {a : Nat} {w : Word} (ha : a < 0x1000) (ht : csrWrite w s a = some t) :
    hostWriteWord s a w = .ok t := by
  unfold hostWriteWord flagsBase
  rw [isMemory_csr ha, if_neg Bool.false_ne_true, if_neg (by omega), ht]

theorem hostReadWord_csr {s : State} {a : Nat} {v : Word} (ha : a < 0x1000) (hv : csrRead s a = some v) :
    hostReadWord s a = .ok v := by
  unfold hostReadWord flagsBase magBase
  rw [isMemory_csr ha, if_neg Bool.false_ne_true, if_neg (by omega), if_neg (by omega), hv]

theorem wholeWord_four {a : Word} (ha : a.toNat % 4 = 0) : wholeWord a 4 = true := by simp [wholeWord, ha]

/-- A host write to a CSR with BUSY = 0 (20_memory.md R71). -/
theorem step_csrWrite {s t : State} {a w : Word} {rest : List HostOp} (hp : s.bus.pending = .write a 4 w :: rest)
    (hidle : s.status.inflight = none) (ha : a.toNat < 0x1000 ∧ a.toNat % 4 = 0)
    (ht : csrWrite w { s with bus := { s.bus with pending := rest } } a.toNat = some t) : step s = .next t := by
  unfold step
  rw [hp]
  simp only [hostWrite, wholeWord_four ha.2, Status.busy, hidle, hostWriteWord_csr ha.1 ht]
  rfl

/-- A host read of a CSR: with BUSY = 1 only STATUS and ID may be read (70_reset_and_hazards.md R406). -/
theorem step_csrRead {s : State} {a v : Word} {rest : List HostOp} (hp : s.bus.pending = .read a 4 :: rest)
    (hidle : s.status.inflight = none ∨ a = 0x008 ∨ a = 0x000) (ha : a.toNat < 0x1000 ∧ a.toNat % 4 = 0)
    (hv : csrRead { s with bus := { s.bus with pending := rest } } a.toNat = some v) :
    step s = .next { s with bus := { pending := rest, data := some v } } := by
  have hbusy : (s.status.busy && !(a == 0x008) && !(a == 0x000)) = false := by
    obtain h | rfl | rfl := hidle
    · simp [Status.busy, h]
    · simp
    · simp
  unfold step
  rw [hp]
  simp only [hostRead, wholeWord_four ha.2, hbusy, hostReadWord_csr ha.1 hv]
  rfl

/-! ### CMD and STATUS (10_state.md R23 to R25) -/

/-- Settles O6: the write is accepted, and nothing else runs. -/
theorem commandAccepted : Obligations.CommandAccepted := by
  constructor
  · intro s w rest hp hidle herr
    refine step_csrWrite hp hidle (by decide) ?_
    show some (writeCmd w _) = _
    simp [writeCmd, herr]
  · intro s hp hidle
    unfold step engineStep
    rw [hp, hidle]

/-- A write to STATUS as one update (10_state.md R25). -/
theorem writeStatus_eq (w : Word) (s : State) : writeStatus w s = { s with status := { s.status with
    done := s.status.done && !w.getLsbD 1
    err := if w.getLsbD 2 then none else s.status.err
    partialRes := s.status.partialRes && !w.getLsbD 3
    segmis := s.status.segmis && !w.getLsbD 4
    trunc := s.status.trunc && !w.getLsbD 5 } } := by
  unfold writeStatus State.ackError
  cases w.getLsbD 2 <;> rfl

/-- Settles O8: the host's write clears what it names, and each flag outlives the commands that may not clear it. -/
theorem statusFlagsCleared : Obligations.StatusFlagsCleared := by
  constructor
  · intro s w rest hp hidle
    refine step_csrWrite hp hidle (by decide) ?_
    show some (writeStatus w _) = _
    rw [writeStatus_eq]
  · intro i s t e
    exact ⟨fun hs => exec_preserves err_commandInv hs e, fun hi =>
      ⟨fun hs => exec_preserves (partialRes_commandInv hi) hs e, fun hs => exec_preserves (segmis_commandInv hi) hs e,
        fun hs => exec_preserves (trunc_commandInv hi) hs e⟩⟩

/-- The one-bit fields of the STATUS word (10_state.md R24). -/
theorem statusWord_flags (st : Status) : st.word.getLsbD 0 = st.busy ∧ st.word.getLsbD 1 = st.done ∧
    st.word.getLsbD 2 = st.err.isSome ∧ st.word.getLsbD 3 = st.partialRes ∧ st.word.getLsbD 4 = st.segmis ∧
    st.word.getLsbD 5 = st.trunc := by
  simp only [Status.word, BitVec.getLsbD_append]
  simp

/-- The wider fields of the STATUS word (10_state.md R24), the reserved ones among them. -/
theorem statusWord_fields (st : Status) : st.word.extractLsb' 6 2 = 0 ∧ st.word.extractLsb' 8 3 = st.cmode.code ∧
    st.word.extractLsb' 11 5 = 0 ∧ st.word.extractLsb' 16 8 = st.errcode ∧ st.word.extractLsb' 24 8 = 0 := by
  refine ⟨?_, ?_, ?_, ?_, ?_⟩
  all_goals
    apply BitVec.eq_of_getLsbD_eq
    intro i hi
    simp only [Status.word, BitVec.getLsbD_extractLsb', BitVec.getLsbD_append]
    grind

/-- No error has the code 0 (60_exceptions.md R361). -/
theorem errcode_eq_zero (st : Status) : st.errcode = 0 ↔ st.err = none := by
  unfold Status.errcode
  rcases st.err with _ | e
  · simp
  · cases e <;> simp [ErrCode.code]

/-- Settles O9: field by field, and the read that BUSY does not stop. -/
theorem statusWordLayout : Obligations.StatusWordLayout := by
  intro s
  obtain ⟨hbusy, hdone, herr, hpartial, hsegmis, htrunc⟩ := statusWord_flags s.status
  obtain ⟨h6, hcmode, h11, herrcode, h24⟩ := statusWord_fields s.status
  refine ⟨hbusy, hdone, herr, hpartial, hsegmis, htrunc, h6, hcmode.trans ?_, h11, herrcode.trans ?_, herrcode, h24,
    errcode_eq_zero _, fun rest hp => step_csrRead hp (.inr (.inl rfl)) (by decide) rfl⟩
  · cases s.status.cmode <;> rfl
  · unfold Status.errcode
    rcases s.status.err with _ | e
    · rfl
    · cases e <;> rfl

/-! ### The configuration registers (10_state.md R26 to R31) -/

/-- NPASS as a word: the bits above its eight read 0 (10_state.md R29). -/
theorem zeroExtend_extract_eight (w : Word) : (w.extractLsb' 0 8).zeroExtend 32 = w &&& 0x000000FF := by
  have hmask : ∀ i : Fin 32, (0x000000FF : Word).getLsbD i.val = decide (i.val < 8) := by decide
  apply BitVec.eq_of_getLsbD_eq
  intro i hi
  rw [BitVec.getLsbD_and, hmask ⟨i, hi⟩]
  simp [hi, Bool.and_comm]

/-- Settles O11: one write and one read of each register. -/
theorem configReadsBack : Obligations.ConfigReadsBack := by
  intro s a w m rest ham hp hidle
  have hones : w &&& 0xFFFFFFFF = w := BitVec.and_allOnes
  simp only [List.mem_cons, Prod.mk.injEq, List.not_mem_nil, or_false] at ham
  rcases ham with ⟨rfl, rfl⟩ | ⟨rfl, rfl⟩ | ⟨rfl, rfl⟩ | ⟨rfl, rfl⟩ | ⟨rfl, rfl⟩
  all_goals
    refine ⟨_, _, step_csrWrite hp hidle (by decide) rfl, step_csrRead rfl (.inl hidle) (by decide) rfl, congrArg some ?_, rfl,
      by simp⟩
  exacts [hones.symm, rfl, zeroExtend_extract_eight w, hones.symm, hones.symm]

/-! ### The contexts (10_state.md R40) -/

/-- The address of CTX[cx]. -/
theorem ctxAddr_toNat (cx : Label) : (BitVec.ofNat 32 (0x040 + 4 * cx.val)).toNat = 0x040 + 4 * cx.val := by
  rw [BitVec.toNat_ofNat]
  omega

theorem csrWrite_ctx (w : Word) (s : State) (cx : Label) : csrWrite w s (0x040 + 4 * cx.val) = some (writeCtx cx w s) := by
  have hcx := cx.isLt
  unfold csrWrite
  split
  case h_20 =>
    rw [dif_pos (by omega)]
    congr 2
    exact Fin.ext (by simp)
  all_goals omega

theorem csrRead_ctx (s : State) (cx : Label) : csrRead s (0x040 + 4 * cx.val) = some s.ctx[cx].word := by
  have hcx := cx.isLt
  unfold csrRead
  split
  case h_20 =>
    rw [dif_pos (by omega)]
    simp
  all_goals omega

/-- A legal INDEX and the MPS bit read back, the reserved bits as 0. -/
theorem ctxWord_of_write (w : Word) (h : (w.extractLsb' 0 6).toNat < 47) :
    (⟨⟨(w.extractLsb' 0 6).toNat, h⟩, w.getLsbD 8⟩ : CtxEntry).word = w &&& 0x0000013F := by
  have hmask : ∀ i : Fin 32, (0x0000013F : Word).getLsbD i.val = decide (i.val < 6 ∨ i.val = 8) := by decide
  apply BitVec.eq_of_getLsbD_eq
  intro i hi
  rw [BitVec.getLsbD_and, hmask ⟨i, hi⟩]
  simp only [CtxEntry.word, BitVec.ofNat_toNat, BitVec.getLsbD_append, BitVec.getLsbD_setWidth, BitVec.getLsbD_extractLsb']
  grind

/-- Settles O12: a legal INDEX is stored and read back, any other leaves the register as it was. -/
theorem contextWrites : Obligations.ContextWrites := by
  intro s cx w rest hp hidle
  have hcx := cx.isLt
  have haddr : (BitVec.ofNat 32 (0x040 + 4 * cx.val)).toNat < 0x1000 ∧
      (BitVec.ofNat 32 (0x040 + 4 * cx.val)).toNat % 4 = 0 := by
    rw [ctxAddr_toNat]
    omega
  refine ⟨_, _, step_csrWrite hp hidle haddr (by rw [ctxAddr_toNat]; exact csrWrite_ctx w _ cx),
    step_csrRead (by rw [writeCtx_bus]) (.inl (by rw [writeCtx_status]; exact hidle)) haddr
      (by rw [ctxAddr_toNat]; exact csrRead_ctx _ cx), fun hw => ?_, fun hw => ?_⟩
  · unfold writeCtx
    rw [dif_neg (by omega)]
  · have hlt : (w.extractLsb' 0 6).toNat < 47 := by omega
    unfold writeCtx
    rw [dif_pos hlt]
    refine ⟨congrArg some ?_, fun k hk => ?_, rfl⟩
    · show (s.ctx.set cx _ hcx)[cx].word = _
      rw [Fin.getElem_fin, Vector.getElem_set_self]
      exact ctxWord_of_write w hlt
    · exact Vector.getElem_set_ne hcx k.isLt fun h => hk (Fin.ext h.symm)

end Sys2Proof.Proofs
end

section
/-!
PROOFS. O57: memory keeps its one form and holds nothing outside SEGTAB, COEF and BYTE (20_memory.md R70, R76, R77).
-/
namespace Sys2Proof.Proofs

open Sys2Proof.Machine Sys2Proof.Laws

/-! ### Addresses (20_memory.md R70 to R74) -/

/-- The addresses the host reaches memory at are those of the three memories. -/
theorem isMemory_iff {a : Nat} : isMemory a = true ↔ InMemories a := by
  simp [isMemory, InMemories, or_assoc]

theorem inMemories_byteAddr {j : Nat} (hj : j < Config.byteCap) : InMemories (byteAddr j) := by
  unfold InMemories byteAddr
  omega

theorem inMemories_coefAddr {k : Nat} (hk : k < 4096) : InMemories (coefAddr k) := by
  unfold InMemories coefAddr
  omega

theorem inMemories_segtabAddr {k : Nat} (hk : k < 128) : InMemories (segtabAddr k) := by
  unfold InMemories segtabAddr
  omega

theorem coefAddr_aligned (k : Nat) : coefAddr k % 4 = 0 := by
  unfold coefAddr
  omega

theorem segtabAddr_aligned (k : Nat) : segtabAddr k % 4 = 0 := by
  unfold segtabAddr
  omega

/-- No memory ends inside an aligned word: BYTE_CAP is a multiple of 4 (00_scope.md R9). -/
theorem inMemories_ofWord {a b : Nat} (h : InMemories a) (ha : a % 4 = 0) (hb : a ≤ b ∧ b < a + 4) : InMemories b := by
  have := byteCap_mod
  unfold InMemories at h ⊢
  omega

/-! ### Writes -/

theorem memoryMapped_setByte {s : State} (h : MemoryMapped s) {a : Nat} (ha : InMemories a) (v : Byte) :
    MemoryMapped { s with mem := s.mem.setByte a v } := by
  intro c hc
  rcases mem_setByte hc with rfl | hc
  · exact ha
  · exact h c hc

theorem memoryMapped_setWord {s : State} (h : MemoryMapped s) {a : Nat} (hm : InMemories a) (ha : a % 4 = 0) (w : Word) :
    MemoryMapped { s with mem := s.mem.setWord a w } := by
  intro c hc
  rcases mem_setWord hc with hin | hc
  · exact inMemories_ofWord hm ha hin
  · exact h c hc

/-- Every memory write of a command is a byte inside BYTE or a word of COEF or SEGTAB. -/
theorem memory_commandInv (i : Instr) : CommandInv i fun s => s.mem.wf ∧ MemoryMapped s where
  byte _ _ _ v hj := .imp (wf_setByte · _ v) (memoryMapped_setByte · (inMemories_byteAddr hj) v)
  coef _ _ k w hk := .imp (wf_setWord · _ w) (memoryMapped_setWord · (inMemories_coefAddr hk) (coefAddr_aligned k) w)
  segtab _ _ k w hk := .imp (wf_setWord · _ w) (memoryMapped_setWord · (inMemories_segtabAddr hk) (segtabAddr_aligned k) w)

theorem memory_stepInv : StepInv fun s => s.mem.wf ∧ MemoryMapped s where
  memory _ _ w hm ha := .imp (wf_setWord · _ w) (memoryMapped_setWord · (isMemory_iff.1 hm) ha w)
  csr s t _ ht h := by
    obtain ⟨-, -, hmem, -⟩ := ht.frame
    unfold MemoryMapped at h ⊢
    rwa [hmem]
  reset _ := ⟨wf_reset, fun _ hc => absurd hc List.not_mem_nil⟩
  exec _ _ i e h := exec_preserves (memory_commandInv i) h e

/-- Settles O57: every change a step can make keeps memory's form and its place. -/
theorem stepKeepsMemory : Obligations.StepKeepsMemory :=
  fun _ _ e hwf hmapped => step_preserves memory_stepInv ⟨hwf, hmapped⟩ e

end Sys2Proof.Proofs
end

section
/-!
PROOFS. The host's accesses to the memories and the state windows (O13, O14), what a host read leaves alone, and the CSRs that only
the engine writes (O10).
-/
namespace Sys2Proof.Proofs

open Sys2Proof.Machine Sys2Proof.Laws

/-! ### One access as one step (20_memory.md R71) -/

/-- A host write with BUSY = 0, at any aligned address. -/
theorem step_hostWrite {s t : State} {a w : Word} {rest : List HostOp} (hp : s.bus.pending = .write a 4 w :: rest)
    (hidle : s.status.inflight = none) (ha : a.toNat % 4 = 0)
    (ht : hostWriteWord { s with bus := { s.bus with pending := rest } } a.toNat w = .ok t) : step s = .next t := by
  unfold step
  rw [hp]
  simp only [hostWrite, wholeWord_four ha, Status.busy, hidle, ht]
  rfl

/-- A host read with BUSY = 0, at any aligned address. -/
theorem step_hostRead {s : State} {a v : Word} {rest : List HostOp} (hp : s.bus.pending = .read a 4 :: rest)
    (hidle : s.status.inflight = none) (ha : a.toNat % 4 = 0)
    (hv : hostReadWord { s with bus := { s.bus with pending := rest } } a.toNat = .ok v) :
    step s = .next { s with bus := { pending := rest, data := some v } } := by
  unfold step
  rw [hp]
  simp only [hostRead, wholeWord_four ha, Status.busy, hidle, hv]
  rfl

/-- A host read that answers changes nothing but the word it returned (20_memory.md R87). -/
theorem hostRead_next {s t : State} {a : Word} {n : Nat} (e : hostRead a n s = .next t) :
    ∃ v, t = { s with bus := { s.bus with data := some v } } := by
  unfold hostRead at e
  split_ifs at e
  split at e
  case h_1 v _ => cases e; exact ⟨v, rfl⟩
  case h_2 => cases e

/-! ### The memories (20_memory.md R72 to R74) -/

theorem hostWriteWord_memory {s : State} {a : Nat} (ha : InMemories a) (w : Word) :
    hostWriteWord s a w = .ok { s with mem := s.mem.setWord a w } := by
  rw [hostWriteWord, if_pos (isMemory_iff.2 ha)]

theorem hostReadWord_memory {s : State} {a : Nat} {v : Word} (ha : InMemories a) (hv : s.mem.getWord a = some v) :
    hostReadWord s a = .ok v := by
  rw [hostReadWord, if_pos (isMemory_iff.2 ha), hv]

/-- Settles O13: a word write, then the read of the same word. -/
theorem memoryWordAccess : Obligations.MemoryWordAccess := by
  intro s a w rest ha hm hp hidle
  refine ⟨_, _, step_hostWrite hp hidle ha (hostWriteWord_memory hm w),
    step_hostRead rfl hidle ha (hostReadWord_memory hm (getWord_setWord_same _ _ w)), rfl, rfl, ?_, ?_⟩
  · exact fun b hb => getByte_setWord_out s.mem a.toNat b w hb
  · exact fun j hj => getByte_setWord_in s.mem a.toNat w j hj

/-! ### The state windows (20_memory.md R75) -/

/-- The windows lie between COEF and BYTE. -/
theorem isMemory_window {a : Nat} (ha : flagsBase ≤ a ∧ a < 0x10000) : isMemory a = false := by
  unfold flagsBase at ha
  simp only [isMemory, Bool.or_eq_false_iff, Bool.and_eq_false_iff, decide_eq_false_iff_not]
  omega

theorem hostWriteWord_window {s : State} {a : Nat} (ha : flagsBase ≤ a ∧ a < 0x10000) (w : Word) :
    hostWriteWord s a w = .ok s := by
  rw [hostWriteWord, isMemory_window ha, if_neg Bool.false_ne_true, if_pos ha]

theorem hostReadWord_flags {s : State} {i : Nat} (hi : i < 4096) :
    hostReadWord s (0x08000 + 4 * i) = .ok (s.arr.flagsWord i) := by
  have hidx : (0x08000 + 4 * i - flagsBase) / 4 = i := by unfold flagsBase; omega
  rw [hostReadWord, isMemory_window (by unfold flagsBase; omega), if_neg Bool.false_ne_true,
    if_pos (by unfold flagsBase magBase; omega), hidx]

theorem hostReadWord_mag {s : State} {i : Nat} (hi : i < 4096) :
    hostReadWord s (0x0C000 + 4 * i) = .ok (s.arr.magWord i) := by
  have hidx : (0x0C000 + 4 * i - magBase) / 4 = i := by unfold magBase; omega
  rw [hostReadWord, isMemory_window (by unfold flagsBase; omega), if_neg Bool.false_ne_true,
    if_neg (by unfold magBase; omega), if_pos (by unfold magBase; omega), hidx]

/-- The four flags stand in the low bits of their word. -/
theorem flagsWord_eq (r : Arrays) (i : Nat) :
    r.flagsWord i = (BitVec.ofBool (r.refined.getLsbD i) ++ BitVec.ofBool (r.visited.getLsbD i) ++
      BitVec.ofBool (r.sgn.getLsbD i) ++ BitVec.ofBool (r.sig.getLsbD i)).zeroExtend 32 := by
  apply BitVec.eq_of_getLsbD_eq
  intro j hj
  simp only [Arrays.flagsWord, BitVec.getLsbD_append, BitVec.getLsbD_setWidth]
  grind

/-- Settles O14: a read of either window, and a write to either. -/
theorem stateWindows : Obligations.StateWindows := by
  intro s i w rest hi hidle flags
  have hflags : (BitVec.ofNat 32 (0x08000 + 4 * i)).toNat = 0x08000 + 4 * i := by rw [BitVec.toNat_ofNat]; omega
  have hmag : (BitVec.ofNat 32 (0x0C000 + 4 * i)).toNat = 0x0C000 + 4 * i := by rw [BitVec.toNat_ofNat]; omega
  refine ⟨fun hp => ?_, fun hp => ?_, fun hp => ?_⟩
  · refine step_hostRead hp hidle (by omega) ?_
    rw [hflags, hostReadWord_flags hi, flagsWord_eq]
  · refine step_hostRead hp hidle (by omega) ?_
    rw [hmag, hostReadWord_mag hi]
    rfl
  · rcases hp with hp | hp
    all_goals exact step_hostWrite hp hidle (by omega) (hostWriteWord_window (by unfold flagsBase; omega) w)

/-! ### The CSRs (10_state.md R20 to R43) -/

/-- No offset from ID to MQ_B is reserved (20_memory.md R79). -/
theorem csrRead_answers (s : State) {a : Nat} (hle : a ≤ 0x094) (ha : a % 4 = 0) : ∃ v, csrRead s a = some v := by
  unfold csrRead
  split
  case h_20 =>
    simp only [imp_false] at *
    rw [dif_pos (by omega)]
    exact ⟨_, rfl⟩
  all_goals exact ⟨_, rfl⟩

/-- MEL_RUN as a sum: ONEPEND is bit 16 (10_state.md R43). -/
theorem melRunWord_eq (r : SegRegs) : r.melRunWord = r.melRun.zeroExtend 32 + if r.onePend then 0x10000 else 0 := by
  have hrun := r.melRun.isLt
  apply BitVec.eq_of_toNat_eq
  simp only [SegRegs.melRunWord, BitVec.toNat_append, BitVec.toNat_add, BitVec.toNat_setWidth]
  rw [← Nat.shiftLeft_add_eq_or_of_lt hrun]
  cases r.onePend <;> simp <;> omega

/-- A context's word as a sum: MPS is bit 8 (10_state.md R40). -/
theorem ctxWord_eq (e : CtxEntry) : e.word = BitVec.ofNat 32 (e.index.val + 256 * e.mps.toNat) := by
  have hall : ∀ (i : Fin 47) (m : Bool), (⟨i, m⟩ : CtxEntry).word = BitVec.ofNat 32 (i.val + 256 * m.toNat) := by decide
  exact hall e.index e.mps

/-- Settles O10: the reads by what they return, the writes by their rows of the table. -/
theorem hostReadsKeepState : Obligations.HostReadsKeepState := by
  refine ⟨fun s t a n rest hp e => ?_, fun s a rest hp hidle hle ha => ?_, fun s a v rest hp hidle hrow => ?_,
    fun s a w rest hp hidle hro => ?_⟩
  · unfold step at e
    rw [hp] at e
    exact hostRead_next e
  · obtain ⟨v, hv⟩ := csrRead_answers { s with bus := { s.bus with pending := rest } } hle ha
    exact ⟨_, step_csrRead hp (.inl hidle) ⟨by omega, ha⟩ hv⟩
  · rcases hrow with hrow | ⟨cx, rfl, rfl⟩
    · rw [← melRunWord_eq] at hrow
      simp only [List.mem_cons, Prod.mk.injEq, List.not_mem_nil, or_false] at hrow
      rcases hrow with ⟨rfl, rfl⟩ | ⟨rfl, rfl⟩ | ⟨rfl, rfl⟩ | ⟨rfl, rfl⟩ | ⟨rfl, rfl⟩ | ⟨rfl, rfl⟩ | ⟨rfl, rfl⟩ | ⟨rfl, rfl⟩ |
        ⟨rfl, rfl⟩ | ⟨rfl, rfl⟩ | ⟨rfl, rfl⟩ | ⟨rfl, rfl⟩ | ⟨rfl, rfl⟩
      all_goals exact step_csrRead hp (.inl hidle) (by decide) rfl
    · have hcx := cx.isLt
      refine step_csrRead hp (.inl hidle) (by rw [ctxAddr_toNat]; omega) ?_
      rw [ctxAddr_toNat, csrRead_ctx, ctxWord_eq]
  · simp only [List.mem_cons, List.not_mem_nil, or_false] at hro
    rcases hro with rfl | rfl | rfl | rfl | rfl | rfl | rfl | rfl | rfl | rfl | rfl | rfl
    all_goals exact step_csrWrite hp hidle (by decide) rfl

end Sys2Proof.Proofs
end

section
/-!
PROOFS. Command words (30_encoding.md R100 to R108): a word is its fields side by side, so the encoder of a format gives w exactly
when each field of w holds its operand and the reserved bits of w are 0.
-/
namespace Sys2Proof.Proofs

open BitVec

/-! ### Words cut into fields -/

/-- The field of w from bit s up holds a. -/
def Carries (w : Word) (s : Nat) {n : Nat} (a : BitVec n) : Prop := w.extractLsb' s n = a

/-- The bits of w from bit s up that the mask covers are all 0. -/
def Clear (w : Word) (s : Nat) {n : Nat} (mask : BitVec n) : Prop := w.extractLsb' s n &&& mask = 0#n

/-- Equal words cut at the same bit have equal parts. -/
theorem append_inj_iff {m n : Nat} {a a' : BitVec m} {b b' : BitVec n} : a ++ b = a' ++ b' ↔ a = a' ∧ b = b' := by
  refine ⟨fun h => ⟨?_, ?_⟩, fun ⟨ha, hb⟩ => ha ▸ hb ▸ rfl⟩
  · simpa only [extractLsb'_append_eq_left] using congrArg (extractLsb' n m) h
  · simpa only [extractLsb'_append_eq_right] using congrArg (extractLsb' 0 n) h

section Fields
variable {w mask v : Word} {s m n : Nat}

theorem carries_append {a : BitVec m} {b : BitVec n} : Carries w s (a ++ b) ↔ Carries w (s + n) a ∧ Carries w s b := by
  unfold Carries
  rw [← extractLsb'_append_extractLsb'_eq_extractLsb' rfl, append_inj_iff]

theorem clear_append {a : BitVec m} {b : BitVec n} : Clear w s (a ++ b) ↔ Clear w (s + n) a ∧ Clear w s b := by
  unfold Clear
  rw [← extractLsb'_append_extractLsb'_eq_extractLsb' rfl, and_append, ← zero_append_zero, append_inj_iff]

theorem clear_zero : Clear w s 0#n := by simp [Clear]

theorem clear_allOnes : Clear w s (allOnes n) ↔ Carries w s 0#n := by simp [Clear, Carries]

theorem encodes_iff_carries : v = w ↔ Carries w 0 v := by
  rw [Carries, extractLsb'_eq_self, eq_comm]

theorem reservedZero_iff_clear : reservedZero w mask = true ↔ Clear w 0 mask := by
  rw [Clear, extractLsb'_eq_self, reservedZero, beq_iff_eq]
  rfl

theorem carries_opc {opc : BitVec 6} : Carries w 26 opc ↔ opcOf w = opc := .rfl

theorem carries_field25 {f : BitVec 5} : Carries w 21 f ↔ field25 w = f := .rfl

theorem carries_ofBool {b : Bool} : Carries w s (ofBool b) ↔ w.getLsbD s = b := by
  have hbit : w.extractLsb' s 1 = ofBool (w.getLsbD s) := by
    ext i hi
    obtain rfl : i = 0 := by omega
    simp
  rw [Carries, hbit]
  cases w.getLsbD s <;> cases b <;> decide

/-- ORIENT in its two bits (R105). -/
theorem carries_orientBits {o : Orient} : Carries w s (orientBits o) ↔ orientOfBits (w.extractLsb' s 2) = o := by
  have hall : ∀ (o : Orient) (b : BitVec 2), b = orientBits o ↔ orientOfBits b = o := by
    intro o; cases o <;> decide
  exact hall o _

/-- DIR in its bit (R108). -/
theorem dirBit_iff {d : Dir} {b : Bool} : b = dirBit d ↔ dirOfBit b = d := by
  cases d <;> cases b <;> decide

/-- A neighbour in its two bits (R106). -/
theorem carries_signNbrBits {x : SignNbr} : Carries w s (signNbrBits x) ↔ signNbrAt w s = x := by
  rw [signNbrBits, carries_append (m := 1) (n := 1), carries_ofBool, carries_ofBool, signNbrAt, SignNbr.mk.injEq]

end Fields

/-! ### The formats: the word and the mask are cut first, while their widths still show the cuts, then each field is read -/

section Formats
variable {w : Word} {opc : BitVec 6}

/-- Format N (R102). -/
theorem encodeN_eq_iff : encodeN opc = w ↔ opcOf w = opc ∧ reservedZero w 0x03FFFFFF = true := by
  have hmask : (0x03FFFFFF : Word) = 0#6 ++ allOnes 26 := rfl
  rw [hmask, reservedZero_iff_clear, encodes_iff_carries]
  simp only [encodeN, carries_append, clear_append]
  simp only [clear_zero, clear_allOnes, carries_opc, Nat.reduceAdd]
  tauto

/-- Format B (R104). -/
theorem encodeB_eq_iff {d : Bool} :
    encodeB opc d = w ↔ opcOf w = opc ∧ reservedZero w 0x03EFFFFF = true ∧ w.getLsbD 20 = d := by
  have hmask : (0x03EFFFFF : Word) = 0#6 ++ allOnes 5 ++ 0#1 ++ allOnes 20 := rfl
  rw [hmask, reservedZero_iff_clear, encodes_iff_carries]
  simp only [encodeB, carries_append, clear_append]
  simp only [clear_zero, clear_allOnes, carries_opc, carries_ofBool, Nat.reduceAdd]
  tauto

/-- Format CX (R103). -/
theorem encodeCx_eq_iff {cx : BitVec 5} {d : Bool} :
    encodeCx opc cx d = w ↔
      opcOf w = opc ∧ reservedZero w 0x000FFFFF = true ∧ field25 w = cx ∧ w.getLsbD 20 = d := by
  have hmask : (0x000FFFFF : Word) = 0#12 ++ allOnes 20 := rfl
  rw [hmask, reservedZero_iff_clear, encodes_iff_carries]
  simp only [encodeCx, carries_append, clear_append]
  simp only [clear_zero, clear_allOnes, carries_opc, carries_field25, carries_ofBool, Nat.reduceAdd]
  tauto

/-- Format PASS (R108). -/
theorem encodePass_eq_iff {p : BitVec 5} {dir : Dir} {raw : Bool} :
    encodePass opc p dir raw = w ↔ opcOf w = opc ∧ reservedZero w 0x0007FFFF = true ∧
      field25 w = p ∧ dirOfBit (w.getLsbD 20) = dir ∧ w.getLsbD 19 = raw := by
  have hmask : (0x0007FFFF : Word) = 0#13 ++ allOnes 19 := rfl
  rw [hmask, reservedZero_iff_clear, encodes_iff_carries]
  simp only [encodePass, carries_append, clear_append]
  simp only [clear_zero, clear_allOnes, carries_opc, carries_field25, carries_ofBool, dirBit_iff, Nat.reduceAdd]
  tauto

/-- Format ZC (R105). -/
theorem encode_ctxZc_eq_iff {o : Orient} {m : BitVec 8} :
    encode (.ctxZc o m) = w ↔ opcOf w = 0x01 ∧ reservedZero w 0x0000FFFF = true ∧
      orientOfBits (w.extractLsb' 24 2) = o ∧ w.extractLsb' 16 8 = m := by
  have hmask : (0x0000FFFF : Word) = 0#16 ++ allOnes 16 := rfl
  rw [hmask, reservedZero_iff_clear, encodes_iff_carries]
  simp only [encode, carries_append, clear_append]
  simp only [clear_zero, clear_allOnes, carries_opc, carries_orientBits, Nat.reduceAdd]
  unfold Carries
  tauto

/-- Format SC (R106). -/
theorem encode_ctxSc_eq_iff {x e n s : SignNbr} :
    encode (.ctxSc x e n s) = w ↔ opcOf w = 0x02 ∧ reservedZero w 0x0300FFFF = true ∧
      signNbrAt w 16 = x ∧ signNbrAt w 18 = e ∧ signNbrAt w 20 = n ∧ signNbrAt w 22 = s := by
  have hmask : (0x0300FFFF : Word) = 0#6 ++ allOnes 2 ++ 0#8 ++ allOnes 16 := rfl
  rw [hmask, reservedZero_iff_clear, encodes_iff_carries]
  simp only [encode, carries_append, clear_append]
  simp only [clear_zero, clear_allOnes, carries_opc, carries_signNbrBits, Nat.reduceAdd]
  tauto

/-- Format MR (R107). -/
theorem encode_ctxMr_eq_iff {r a : Bool} :
    encode (.ctxMr r a) = w ↔ opcOf w = 0x03 ∧ reservedZero w 0x03CFFFFF = true ∧
      w.getLsbD 21 = r ∧ w.getLsbD 20 = a := by
  have hmask : (0x03CFFFFF : Word) = 0#6 ++ allOnes 4 ++ 0#2 ++ allOnes 20 := rfl
  rw [hmask, reservedZero_iff_clear, encodes_iff_carries]
  simp only [encode, carries_append, clear_append]
  simp only [clear_zero, clear_allOnes, carries_opc, carries_ofBool, Nat.reduceAdd]
  tauto

/-- Format CX in MQ.DECODE, where D is one more reserved bit (R103). -/
theorem encode_mqDecode_eq_iff {cx : BitVec 5} :
    encode (.mqDecode cx) = w ↔ opcOf w = 0x0D ∧ reservedZero w 0x001FFFFF = true ∧ field25 w = cx := by
  have hmask : (0x001FFFFF : Word) = 0#11 ++ allOnes 21 := rfl
  have hzero : ofBool false ++ 0#20 = 0#21 := rfl
  have hword : encode (.mqDecode cx) = 0x0D#6 ++ cx ++ 0#21 := by
    rw [encode, encodeCx, append_assoc, hzero]
    rfl
  rw [hmask, hword, reservedZero_iff_clear, encodes_iff_carries]
  simp only [carries_append, clear_append]
  simp only [clear_zero, clear_allOnes, carries_opc, carries_field25, Nat.reduceAdd]
  tauto

end Formats

end Sys2Proof.Proofs
end

section
/-!
PROOFS. Decoding and encoding (O1 to O4): what each format's decoder answers, the opcode of every decoded word, and from these
that decode answers a command exactly on its own word; every other word raises E_ILLEGAL_CMD in the engine's turn.
-/
namespace Sys2Proof.Proofs

open Sys2Proof.Machine Sys2Proof.Laws

section Decoders
variable {w mask : Word} {i j : Instr} {opc : BitVec 6}

/-! ### The format decoders (30_encoding.md R101) -/

theorem decodeN_eq_ok : decodeN w j = .ok i ↔ reservedZero w 0x03FFFFFF = true ∧ j = i := by
  unfold decodeN
  split <;> simp_all

theorem decodeB_eq_ok {f : Bool → Instr} :
    decodeB w f = .ok i ↔ reservedZero w 0x03EFFFFF = true ∧ f (w.getLsbD 20) = i := by
  unfold decodeB
  split <;> simp_all

theorem decodeChecked_eq_ok :
    decodeChecked w mask j = .ok i ↔ reservedZero w mask = true ∧ i.wellFormed = true ∧ j = i := by
  unfold decodeChecked
  split
  · split
    case isTrue hj =>
      simp_all only [Except.ok.injEq, true_and]
      exact ⟨fun h => ⟨h ▸ hj, h⟩, And.right⟩
    case isFalse hj =>
      simp_all only [reduceCtorEq, true_and, false_iff]
      exact fun ⟨hi, h⟩ => hj (h ▸ hi)
  · simp_all

theorem decodeCup_eq_ok :
    decodeCup w = .ok i ↔ reservedZero w 0x0007FFFF = true ∧ w.getLsbD 19 = false ∧
      i.wellFormed = true ∧ .bpcCup (field25 w) (dirOfBit (w.getLsbD 20)) = i := by
  have hnone : reservedZero w 0 = true := by simp [reservedZero]
  unfold decodeCup
  split
  · split <;> simp_all [decodeChecked_eq_ok]
  · simp_all

/-! ### A command in its own row of the opcode map (30_encoding.md R110) -/

theorem decodeN_iff_encodeN (ho : opcOf w = opc) : decodeN w j = .ok j ↔ encodeN opc = w := by
  simp only [decodeN_eq_ok, encodeN_eq_iff, ho, and_true, true_and]

theorem decodeB_iff_encodeB {f : Bool → Instr} {d : Bool} (ho : opcOf w = opc) (hf : Function.Injective f) :
    decodeB w f = .ok (f d) ↔ encodeB opc d = w := by
  simp only [decodeB_eq_ok, encodeB_eq_iff, ho, hf.eq_iff, true_and]

/-- The operands in w are those of i when the encoder's fields say so. -/
theorem decodeChecked_iff_encode {fields : Prop} (ho : opcOf w = opc)
    (he : encode i = w ↔ opcOf w = opc ∧ reservedZero w mask = true ∧ fields) (hf : (j = i) = fields) :
    decodeChecked w mask j = .ok i ↔ i.wellFormed = true ∧ encode i = w := by
  rw [decodeChecked_eq_ok, he, hf]
  tauto

/-- RAW = 0 is a check of BPC.CUP's own (R108). -/
theorem decodeCup_iff_encode {p : BitVec 5} {dir : Dir} (ho : opcOf w = 0x1B) :
    decodeCup w = .ok (.bpcCup p dir) ↔ (Instr.bpcCup p dir).wellFormed = true ∧ encode (.bpcCup p dir) = w := by
  rw [decodeCup_eq_ok, encode, encodePass_eq_iff, Instr.bpcCup.injEq]
  tauto

end Decoders

/-! ### Opcodes (30_encoding.md R110, R111) -/

theorem opcOf_encode (i : Instr) : opcOf (encode i) = OpcodeField.opcode i := by
  cases i with
  | ctxZc o m => exact OpcodeField.ctxZc o m
  | ctxSc w e n s => exact OpcodeField.ctxSc w e n s
  | ctxMr r a => exact OpcodeField.ctxMr r a
  | mqEncode cx d => exact OpcodeField.mqEncode cx d
  | mqDecode cx => exact OpcodeField.mqDecode cx
  | rawPutbit d | melPut d => exact OpcodeField.encodeB_opc _ d
  | bpcSpp p dir raw | bpcMrp p dir raw => exact OpcodeField.encodePass_opc _ p dir raw
  | bpcCup p dir => exact OpcodeField.bpcCup p dir
  | _ => decide

/-- A word that decodes carries the opcode of its command. -/
theorem opcOf_of_decode {w : Word} {i : Instr} (h : decode w = .ok i) : opcOf w = OpcodeField.opcode i := by
  unfold decode at h
  split at h
  case h_1 ho | h_2 ho | h_3 ho | h_5 ho | h_9 ho | h_17 ho | h_18 ho =>
    obtain ⟨-, -, rfl⟩ := decodeChecked_eq_ok.1 h
    exact BitVec.eq_of_toNat_eq ho
  case h_12 ho | h_22 ho =>
    obtain ⟨-, rfl⟩ := decodeB_eq_ok.1 h
    exact BitVec.eq_of_toNat_eq ho
  case h_19 ho =>
    obtain ⟨-, -, -, rfl⟩ := decodeCup_eq_ok.1 h
    exact BitVec.eq_of_toNat_eq ho
  case h_28 => cases h
  all_goals
    obtain ⟨-, rfl⟩ := decodeN_eq_ok.1 h
    rename_i ho
    exact BitVec.eq_of_toNat_eq ho

/-! ### Decode and encode agree -/

/-- In its own row of the opcode map a command is decoded from its own word alone. -/
theorem decode_iff_of_opcode {w : Word} {i : Instr} (ho : opcOf w = OpcodeField.opcode i) :
    decode w = .ok i ↔ i.wellFormed = true ∧ encode i = w := by
  unfold decode
  rw [ho]
  cases i with
  | ctxZc o m => exact decodeChecked_iff_encode ho encode_ctxZc_eq_iff (Instr.ctxZc.injEq ..)
  | ctxSc x e n s => exact decodeChecked_iff_encode ho encode_ctxSc_eq_iff (Instr.ctxSc.injEq ..)
  | ctxMr r a => exact decodeChecked_iff_encode ho encode_ctxMr_eq_iff (Instr.ctxMr.injEq ..)
  | mqEncode cx d => exact decodeChecked_iff_encode ho encodeCx_eq_iff (Instr.mqEncode.injEq ..)
  | mqDecode cx => exact decodeChecked_iff_encode ho encode_mqDecode_eq_iff (Instr.mqDecode.injEq ..)
  | bpcSpp p dir raw => exact decodeChecked_iff_encode ho encodePass_eq_iff (Instr.bpcSpp.injEq ..)
  | bpcMrp p dir raw => exact decodeChecked_iff_encode ho encodePass_eq_iff (Instr.bpcMrp.injEq ..)
  | bpcCup p dir => exact decodeCup_iff_encode ho
  | rawPutbit d => exact (decodeB_iff_encodeB ho fun _ _ => Instr.rawPutbit.inj).trans (and_iff_right rfl).symm
  | melPut d => exact (decodeB_iff_encodeB ho fun _ _ => Instr.melPut.inj).trans (and_iff_right rfl).symm
  | _ => exact (decodeN_iff_encodeN ho).trans (and_iff_right rfl).symm

/-- Settles O1: decoded and encoded words carry the command's opcode, and in that row the decoder checks what the encoder writes. -/
theorem decodeEncodeAgree : Obligations.DecodeEncodeAgree := by
  intro w i
  constructor
  · intro h
    exact (decode_iff_of_opcode (opcOf_of_decode h)).1 h
  · rintro ⟨hi, rfl⟩
    exact (decode_iff_of_opcode (opcOf_encode i)).2 ⟨hi, rfl⟩

/-! ### Words that are no command (30_encoding.md R101, R111, R112) -/

/-- The engine's turn on a word that does not decode. -/
theorem step_of_decode_error {s : State} {w : Word} {e : DecodeError} (hp : s.bus.pending = [])
    (hw : s.status.inflight = some w) (he : decode w = .error e) : step s = .next (s.takeError .illegalCmd) := by
  unfold step engineStep
  rw [hp]
  simp only [hw, he]

/-- Settles O4: a word that decoded would be the word of a well-formed command. -/
theorem otherWordsIllegal : Obligations.OtherWordsIllegal := by
  intro s w hp hw hother
  cases he : decode w with
  | error e => exact step_of_decode_error hp hw he
  | ok i =>
    obtain ⟨hi, hwi⟩ := (decodeEncodeAgree w i).1 he
    exact absurd hwi (hother i hi)

/-- Settles O3: no command's opcode lies in the ranges of R111. -/
theorem unassignedOpcodesIllegal : Obligations.UnassignedOpcodesIllegal := by
  intro s w hp hw hopc
  refine otherWordsIllegal s w hp hw fun i _ hwi => ?_
  rw [← hwi, opcOf_encode] at hopc
  cases i <;> simp [OpcodeField.opcode] at hopc

/-- Settles O2: the listed words evaluate; each of the three bad ones fails one check of R101. -/
theorem encodingExamples : Obligations.EncodingExamples := by
  refine ⟨by decide, by decide, by decide, by decide, by decide, by decide, by decide, by decide, by decide, by decide,
    by decide, by decide, fun w hmem s hp hw => ?_⟩
  have hbad : ∀ w ∈ [(0x24080000 : Word), 0x26600000, 0x6C480000], ∃ e, decode w = .error e := by
    simp only [List.forall_mem_cons]
    exact ⟨⟨.reservedBit, by decide⟩, ⟨.illegalField, by decide⟩, ⟨.illegalField, by decide⟩, nofun⟩
  obtain ⟨e, he⟩ := hbad w hmem
  exact step_of_decode_error hp hw he

end Sys2Proof.Proofs
end

section
/-!
PROOFS. The context commands (O17, O18): the label functions against the printed tables, and RESULT as the one register they write.
-/
namespace Sys2Proof.Proofs

open Sys2Proof.Machine Sys2Proof.Laws

/-! ### Significance labels (41_context_model.md R131, R134 to R136) -/

theorem count_eq_toNat (b : Bool) : count b = b.toNat := by
  cases b <;> rfl

theorem zcLL_eq_printed : ∀ h < 3, ∀ v < 3, ∀ d < 5,
    (zcLL h v d).val = ((printedZcLL.getD h []).getD v []).getD d 0 := by decide

theorem zcHH_eq_printed : ∀ h < 3, ∀ v < 3, ∀ d < 5,
    (zcHH h v d).val = ((printedZcHH.getD h []).getD v []).getD d 0 := by decide

/-- The printed HL table is the LL one with h and v exchanged (R135). -/
theorem printedZcHL_eq_transposed : ∀ h < 3, ∀ v < 3, ∀ d < 5,
    ((printedZcHL.getD h []).getD v []).getD d 0 = ((printedZcLL.getD v []).getD h []).getD d 0 := by decide

theorem zcLabel_eq_printed {h v d : Nat} (o : Orient) (hh : h < 3) (hv : v < 3) (hd : d < 5) :
    (zcLabel o h v d).val = (((printedZc o).getD h []).getD v []).getD d 0 := by
  cases o with
  | ll => exact zcLL_eq_printed h hh v hv d hd
  | lh => exact zcLL_eq_printed h hh v hv d hd
  | hl => exact (zcLL_eq_printed v hv h hh d hd).trans (printedZcHL_eq_transposed h hh v hv d hd).symm
  | hh => exact zcHH_eq_printed h hh v hv d hd

/-! ### Sign labels (R132, R138) -/

/-- The rows and columns of the printed sign table stand for the sums clamped to 1, 0, −1 in this order. -/
theorem clamp_add_eq (a b : Int) : clamp (a + b) = 1 - printedScIndex a b := by
  unfold clamp printedScIndex
  split_ifs <;> omega

theorem printedScIndex_lt (a b : Int) : printedScIndex a b < 3 := by
  unfold printedScIndex
  split_ifs <;> decide

theorem scTable_eq_entry : ∀ i < 3, ∀ j < 3,
    ((scTable (1 - (i : Nat)) (1 - (j : Nat))).1.val, (scTable (1 - (i : Nat)) (1 - (j : Nat))).2) =
      (printedSc.getD i []).getD j (0, false) := by decide

theorem scTable_eq_printed (a b c d : Int) :
    ((scTable (clamp (a + b)) (clamp (c + d))).1.val, (scTable (clamp (a + b)) (clamp (c + d))).2) =
      (printedSc.getD (printedScIndex a b) []).getD (printedScIndex c d) (0, false) := by
  rw [clamp_add_eq, clamp_add_eq]
  exact scTable_eq_entry _ (printedScIndex_lt a b) _ (printedScIndex_lt c d)

/-- RESULT of CTX.SC: the label from bit 0, xorbit at bit 8 (R141). -/
theorem scWord_eq : ∀ (cx : Label) (xorbit : Bool),
    (0#23 : BitVec 23) ++ BitVec.ofBool xorbit ++ (0#3 : BitVec 3) ++ BitVec.ofNat 5 cx.val =
      BitVec.ofNat 32 (cx.val + 256 * xorbit.toNat) := by decide

/-! ### The commands (R140 to R142) -/

/-- A command that only answers in RESULT changes nothing else but DONE and BUSY. -/
theorem runCmd_setResult (v : Word) (s : State) :
    runCmd (setResult v) s = .next (State.complete { s with out := { s.out with result := v } }) :=
  runCmd_of_ok (setResult_run v s)

theorem exec_ctxZc (o : Orient) (m : BitVec 8) (s : State) :
    exec (.ctxZc o m) s = .next (State.complete { s with out := { s.out with result := ctxZcResult o m } }) :=
  runCmd_setResult _ s

theorem exec_ctxSc (w e n s' : SignNbr) (s : State) :
    exec (.ctxSc w e n s') s = .next (State.complete { s with out := { s.out with result := ctxScResult w e n s' } }) :=
  runCmd_setResult _ s

theorem exec_ctxMr (refined anysig : Bool) (s : State) : exec (.ctxMr refined anysig) s =
    .next (State.complete { s with out := { s.out with result := labelWord (mrLabel refined anysig) } }) :=
  runCmd_setResult _ s

/-- Settles O17: the counts of a mask index the printed tables. -/
theorem ctxZcPrintedTables : Obligations.CtxZcPrintedTables := by
  intro o m s h v d
  have hh : h < 3 := by have := Bool.toNat_le (m.getLsbD 0); have := Bool.toNat_le (m.getLsbD 1); omega
  have hv : v < 3 := by have := Bool.toNat_le (m.getLsbD 2); have := Bool.toNat_le (m.getLsbD 3); omega
  have hd : d < 5 := by
    have := Bool.toNat_le (m.getLsbD 4); have := Bool.toNat_le (m.getLsbD 5)
    have := Bool.toNat_le (m.getLsbD 6); have := Bool.toNat_le (m.getLsbD 7); omega
  have hword : ctxZcResult o m = labelWord (zcLabel o h v d) := by simp only [ctxZcResult, count_eq_toNat, h, v, d]
  rw [exec_ctxZc, hword, labelWord, zcLabel_eq_printed o hh hv hd]

theorem ctxScResult_eq_printed (w e n s : SignNbr) :
    let r := (printedSc.getD (printedScIndex (pairContrib w) (pairContrib e)) []).getD
      (printedScIndex (pairContrib n) (pairContrib s)) (0, false)
    ctxScResult w e n s = BitVec.ofNat 32 (r.1 + 256 * r.2.toNat) := by
  rw [← scTable_eq_printed]
  exact scWord_eq _ _

theorem labelWord_mrLabel (refined anysig : Bool) :
    labelWord (mrLabel refined anysig) = if refined then 16 else if anysig then 15 else 14 := by
  unfold mrLabel
  split_ifs <;> rfl

/-- Settles O18: the contributions of the pairs index the printed sign table; the refinement label is a constant in each case. -/
theorem ctxScAndMrLabels : Obligations.CtxScAndMrLabels := by
  constructor
  · intro w e n s' s r
    rw [exec_ctxSc, ctxScResult_eq_printed]
  · intro refined anysig s
    rw [exec_ctxMr, labelWord_mrLabel]

end Sys2Proof.Proofs
end

section
/-!
PROOFS. The labels of the passes (O19, O20): which coefficient a neighbour is, what it adds to the labels, and when two
neighbourhoods give the same labels.
-/
namespace Sys2Proof.Proofs

open Sys2Proof.Machine Sys2Proof.Laws

variable {g g' : Geometry} {r r' : Arrays} {x y : Nat} {dx dy : Int}

/-! ### Which coefficient a neighbour is (41_context_model.md R131, R133) -/

/-- The row below the last row of a stripe, in vertically causal mode (R133). -/
def Excluded (g : Geometry) (y : Nat) (dy : Int) : Prop := g.vcausal = true ∧ y % 4 = 3 ∧ dy = 1

theorem neighbour_of_excluded (h : Excluded g y dy) : neighbour g x y dx dy = none := by
  obtain ⟨hv, hy, rfl⟩ := h
  simp [neighbour, hv, hy]

/-- A neighbour that is not excluded is the coefficient at the offset, when the block has one there. -/
theorem neighbour_of_not_excluded (h : ¬ Excluded g y dy) : neighbour g x y dx dy =
    if 0 ≤ x + dx ∧ x + dx < g.w ∧ 0 ≤ y + dy ∧ y + dy < g.h then some (coefIndex g (x + dx).toNat (y + dy).toNat)
    else none := by
  have hc : (g.vcausal && y % 4 == 3 && decide (dy = 1)) = false := by
    simpa [Excluded] using h
  unfold neighbour
  simp [hc]

theorem neighbour_eq_some_iff {i : Nat} : neighbour g x y dx dy = some i ↔ ¬ Excluded g y dy ∧
    ∃ x' y' : Nat, x' < g.w ∧ y' < g.h ∧ (x' : Int) = x + dx ∧ (y' : Int) = y + dy ∧ coefIndex g x' y' = i := by
  by_cases he : Excluded g y dy
  · simp [neighbour_of_excluded he, he]
  rw [neighbour_of_not_excluded he, Option.ite_none_right_eq_some, Option.some.injEq]
  constructor
  · rintro ⟨⟨hx, hxw, hy, hyh⟩, rfl⟩
    exact ⟨he, (x + dx).toNat, (y + dy).toNat, by omega, by omega, by omega, by omega, rfl⟩
  · rintro ⟨-, x', y', hx, hy, hx', hy', rfl⟩
    rw [← hx', ← hy']
    exact ⟨by omega, rfl⟩

/-! ### What a neighbour adds to the labels (R131, R132) -/

theorem nbrSig_of_none (h : neighbour g x y dx dy = none) : nbrSig g r x y dx dy = false := by
  simp only [nbrSig, h]

theorem nbrSig_of_some {i : Nat} (h : neighbour g x y dx dy = some i) : nbrSig g r x y dx dy = r.sig.getLsbD i := by
  simp only [nbrSig, h]

theorem nbrContrib_of_none (h : neighbour g x y dx dy = none) : nbrContrib g r x y dx dy = 0 := by
  simp only [nbrContrib, h]

theorem nbrContrib_of_some {i : Nat} (h : neighbour g x y dx dy = some i) :
    nbrContrib g r x y dx dy = contrib (r.sig.getLsbD i) (r.sgn.getLsbD i) := by
  simp only [nbrContrib, h]

/-! ### The counts of the printed tables (R131, R137) -/

/-- Where there is no neighbour, the printed tables see no significant one. -/
theorem sigAt_of_neighbour_none (h : neighbour g x y dx dy = none) : sigAt g r x y dx dy = false := by
  by_cases he : Excluded g y dy
  · obtain ⟨hv, hy, rfl⟩ := he
    simp [sigAt, hv, hy]
  · rw [neighbour_of_not_excluded he, ite_eq_right_iff] at h
    have hout : ¬ (0 ≤ x + dx ∧ x + dx < g.w ∧ 0 ≤ y + dy ∧ y + dy < g.h) := fun hin => nomatch h hin
    rw [sigAt, decide_eq_false hout, Bool.false_and, Bool.false_and]

theorem offset_of_neighbour_some {i : Nat} (h : neighbour g x y dx dy = some i) :
    ((y + dy) * g.w + (x + dx)).toNat = i := by
  obtain ⟨-, x', y', -, -, hx, hy, rfl⟩ := neighbour_eq_some_iff.1 h
  rw [← hx, ← hy, coefIndex]
  omega

theorem sigAt_of_neighbour_some {i : Nat} (h : neighbour g x y dx dy = some i) :
    sigAt g r x y dx dy = r.sig.getLsbD i := by
  rw [sigAt, offset_of_neighbour_some h]
  obtain ⟨he, x', y', hxw, hyh, hx, hy, -⟩ := neighbour_eq_some_iff.1 h
  have hin : 0 ≤ x + dx ∧ x + dx < g.w ∧ 0 ≤ y + dy ∧ y + dy < g.h := by omega
  have hc : (g.vcausal && decide (y % 4 = 3) && decide (dy = 1)) = false := by simpa [Excluded] using he
  rw [decide_eq_true hin, hc, Bool.not_false, Bool.true_and, Bool.true_and]

theorem nbrSig_eq_sigAt (g : Geometry) (r : Arrays) (x y : Nat) (dx dy : Int) :
    nbrSig g r x y dx dy = sigAt g r x y dx dy := by
  cases h : neighbour g x y dx dy with
  | none => rw [nbrSig_of_none h, sigAt_of_neighbour_none h]
  | some i => rw [nbrSig_of_some h, sigAt_of_neighbour_some h]

theorem nbrContrib_eq_contribAt (g : Geometry) (r : Arrays) (x y : Nat) (dx dy : Int) :
    nbrContrib g r x y dx dy = contribAt g r x y dx dy := by
  cases h : neighbour g x y dx dy with
  | none => rw [nbrContrib_of_none h, contribAt, sigAt_of_neighbour_none h]; rfl
  | some i => rw [nbrContrib_of_some h, contribAt, sigAt_of_neighbour_some h, offset_of_neighbour_some h, contrib]

theorem countAt_nil : countAt g r x y [] = 0 := rfl

theorem countAt_cons (o : Int × Int) (l : List (Int × Int)) :
    countAt g r x y (o :: l) = count (nbrSig g r x y o.1 o.2) + countAt g r x y l := by
  rw [countAt, List.countP_cons, nbrSig_eq_sigAt, Nat.add_comm]
  rfl

theorem countAt_le (l : List (Int × Int)) : countAt g r x y l ≤ l.length := List.countP_le_length

theorem countH_eq_countAt : countH g r x y = countAt g r x y [(-1, 0), (1, 0)] := by
  simp only [countAt_cons, countAt_nil, countH, Nat.add_zero]

theorem countV_eq_countAt : countV g r x y = countAt g r x y [(0, -1), (0, 1)] := by
  simp only [countAt_cons, countAt_nil, countV, Nat.add_zero]

theorem countD_eq_countAt : countD g r x y = countAt g r x y [(-1, -1), (1, -1), (-1, 1), (1, 1)] := by
  simp only [countAt_cons, countAt_nil, countD, Nat.add_zero, Nat.add_assoc]

theorem mrLabel_val (refined anysig : Bool) :
    (mrLabel refined anysig).val = if refined then 16 else if anysig then 15 else 14 := by
  unfold mrLabel
  split_ifs <;> rfl

/-! ### Label 0 (44_bitplane_coder.md R237) -/

theorem zcLL_eq_zero_iff {h v d : Nat} : zcLL h v d = 0 ↔ h = 0 ∧ v = 0 ∧ d = 0 := by
  unfold zcLL
  split_ifs <;> simp <;> omega

theorem zcHH_eq_zero_iff {h v d : Nat} : zcHH h v d = 0 ↔ h = 0 ∧ v = 0 ∧ d = 0 := by
  unfold zcHH
  split_ifs <;> simp <;> omega

theorem zcLabel_eq_zero_iff {o : Orient} {h v d : Nat} : zcLabel o h v d = 0 ↔ h = 0 ∧ v = 0 ∧ d = 0 := by
  cases o with
  | ll => exact zcLL_eq_zero_iff
  | lh => exact zcLL_eq_zero_iff
  | hl => exact zcLL_eq_zero_iff.trans and_left_comm
  | hh => exact zcHH_eq_zero_iff

theorem count_eq_zero_iff {b : Bool} : count b = 0 ↔ b = false := by
  cases b <;> decide

/-- The eight offsets of the context window: NW, W, SW; N, S; NE, E, SE (41_context_model.md R131). -/
theorem forall_offsets_iff {p : Int → Int → Prop} :
    (∀ dx ∈ [(-1 : Int), 0, 1], ∀ dy ∈ [(-1 : Int), 0, 1], (dx, dy) ≠ (0, 0) → p dx dy) ↔
      (p (-1) (-1) ∧ p (-1) 0 ∧ p (-1) 1) ∧ (p 0 (-1) ∧ p 0 1) ∧ (p 1 (-1) ∧ p 1 0 ∧ p 1 1) := by
  simp

/-- Settles O19: the neighbours of the model are those the printed tables count, and label 0 stands at the counts 0 only. -/
theorem passLabelsPrintedTables : Obligations.PassLabelsPrintedTables := by
  constructor
  · intro g r x y h v d
    refine ⟨?zc, ?sc, ?mr⟩
    case zc =>
      rw [zcAt, countH_eq_countAt, countV_eq_countAt, countD_eq_countAt]
      exact zcLabel_eq_printed _ (Nat.lt_succ_of_le (countAt_le _)) (Nat.lt_succ_of_le (countAt_le _))
        (Nat.lt_succ_of_le (countAt_le _))
    case sc =>
      simp only [← nbrContrib_eq_contribAt]
      exact scTable_eq_printed _ _ _ _
    case mr =>
      rw [mrAt, mrLabel_val, countH_eq_countAt, countV_eq_countAt, countD_eq_countAt]
      simp only [decide_eq_true_eq, coefIndex, h, v, d]
  · intro g r x y
    rw [zcAt, zcLabel_eq_zero_iff, forall_offsets_iff]
    simp only [countH, countV, countD, Nat.add_eq_zero_iff, count_eq_zero_iff]
    tauto

/-! ### Neighbourhoods that give the same labels (R133) -/

/-- Every neighbour adds the same to the labels of (x, y) from g and r as from g' and r'. -/
def SameNeighbours (g : Geometry) (r : Arrays) (g' : Geometry) (r' : Arrays) (x y : Nat) : Prop :=
  ∀ dx dy, nbrSig g r x y dx dy = nbrSig g' r' x y dx dy ∧ nbrContrib g r x y dx dy = nbrContrib g' r' x y dx dy

/-- The labels of (x, y) depend on its neighbours, the subband and its own REFINED bit only. -/
theorem SameNeighbours.labels (h : SameNeighbours g r g' r' x y) (ho : g.orient = g'.orient)
    (hr : r.refined.getLsbD (coefIndex g x y) = r'.refined.getLsbD (coefIndex g' x y)) :
    zcAt g r x y = zcAt g' r' x y ∧ scAt g r x y = scAt g' r' x y ∧ mrAt g r x y = mrAt g' r' x y := by
  have hsig := fun dx dy => (h dx dy).1
  have hcontrib := fun dx dy => (h dx dy).2
  have hH : countH g r x y = countH g' r' x y := by simp only [countH, hsig]
  have hV : countV g r x y = countV g' r' x y := by simp only [countV, hsig]
  have hD : countD g r x y = countD g' r' x y := by simp only [countD, hsig]
  refine ⟨?zc, ?sc, ?mr⟩
  case zc => rw [zcAt, zcAt, hH, hV, hD, ho]
  case sc => simp only [scAt, hcontrib]
  case mr => rw [mrAt, mrAt, hH, hV, hD, hr]

theorem nbr_congr (hn : neighbour g x y dx dy = neighbour g' x y dx dy)
    (hr : ∀ i, neighbour g x y dx dy = some i → r.sig.getLsbD i = r'.sig.getLsbD i ∧ r.sgn.getLsbD i = r'.sgn.getLsbD i) :
    nbrSig g r x y dx dy = nbrSig g' r' x y dx dy ∧ nbrContrib g r x y dx dy = nbrContrib g' r' x y dx dy := by
  cases h : neighbour g x y dx dy with
  | none =>
    have h' := hn.symm.trans h
    exact ⟨by rw [nbrSig_of_none h, nbrSig_of_none h'], by rw [nbrContrib_of_none h, nbrContrib_of_none h']⟩
  | some i =>
    have h' := hn.symm.trans h
    obtain ⟨hsig, hsgn⟩ := hr i h
    exact ⟨by rw [nbrSig_of_some h, nbrSig_of_some h', hsig],
      by rw [nbrContrib_of_some h, nbrContrib_of_some h', hsig, hsgn]⟩

/-- A neighbour that is not significant adds nothing (R132). -/
theorem nbr_of_insignificant (h : ∀ i, neighbour g x y dx dy = some i → r.sig.getLsbD i = false) :
    nbrSig g r x y dx dy = false ∧ nbrContrib g r x y dx dy = 0 := by
  cases hn : neighbour g x y dx dy with
  | none => exact ⟨nbrSig_of_none hn, nbrContrib_of_none hn⟩
  | some i => exact ⟨by rw [nbrSig_of_some hn, h i hn], by rw [nbrContrib_of_some hn, h i hn]; rfl⟩

/-- Without the exclusion a neighbour is that of the plain neighbourhood. -/
theorem neighbour_plain (h : ¬ Excluded g y dy) :
    neighbour g x y dx dy = neighbour { g with vcausal := false } x y dx dy := by
  have hplain : ¬ Excluded { g with vcausal := false } y dy := fun ⟨hv, _⟩ => Bool.false_ne_true hv
  rw [neighbour_of_not_excluded h, neighbour_of_not_excluded hplain]
  rfl

theorem nbr_plain (h : ¬ Excluded g y dy) :
    nbrSig g r x y dx dy = nbrSig { g with vcausal := false } r x y dx dy ∧
      nbrContrib g r x y dx dy = nbrContrib { g with vcausal := false } r x y dx dy :=
  nbr_congr (neighbour_plain h) fun _ _ => ⟨rfl, rfl⟩

/-- In the last row of a stripe no neighbour lies in the row below. -/
theorem sameNeighbours_of_rowBelow_differs (hv : g.vcausal = true) (hy : y % 4 = 3)
    (hr : ∀ x' y', x' < g.w → y' < g.h → y' ≠ y + 1 →
      r'.sig.getLsbD (coefIndex g x' y') = r.sig.getLsbD (coefIndex g x' y') ∧
      r'.sgn.getLsbD (coefIndex g x' y') = r.sgn.getLsbD (coefIndex g x' y')) :
    SameNeighbours g r' g r x y := by
  intro dx dy
  refine nbr_congr rfl fun i hi => ?_
  obtain ⟨he, x', y', hxw, hyh, -, hy', rfl⟩ := neighbour_eq_some_iff.1 hi
  have hdy : dy ≠ 1 := fun h => he ⟨hv, hy, h⟩
  exact hr x' y' hxw hyh (by omega)

/-- Nothing significant in the row below: it adds nothing in either mode. -/
theorem sameNeighbours_plain_of_rowBelow_insignificant
    (hr : ∀ x', x' < g.w → y + 1 < g.h → r.sig.getLsbD (coefIndex g x' (y + 1)) = false) :
    SameNeighbours g r { g with vcausal := false } r x y := by
  intro dx dy
  by_cases hdy : dy = 1
  · have hbelow : ∀ g' : Geometry, g'.w = g.w → g'.h = g.h →
        nbrSig g' r x y dx dy = false ∧ nbrContrib g' r x y dx dy = 0 := by
      refine fun g' hw hh => nbr_of_insignificant fun i hi => ?_
      obtain ⟨-, x', y', hxw, hyh, -, hy', rfl⟩ := neighbour_eq_some_iff.1 hi
      obtain rfl : y' = y + 1 := by omega
      rw [coefIndex, hw]
      exact hr x' (hw ▸ hxw) (hh ▸ hyh)
    obtain ⟨hsig, hcontrib⟩ := hbelow g rfl rfl
    obtain ⟨hsig', hcontrib'⟩ := hbelow { g with vcausal := false } rfl rfl
    exact ⟨hsig.trans hsig'.symm, hcontrib.trans hcontrib'.symm⟩
  · exact nbr_plain fun ⟨_, _, h⟩ => hdy h

/-- Settles O20: in each clause the two sides have neighbourhoods that give the same labels. -/
theorem verticallyCausal : Obligations.VerticallyCausal := by
  refine ⟨?lastRow, ?otherRows, ?rowBelowInsignificant⟩
  case lastRow =>
    intro g r r' x y hv hy _ _ hr href
    exact (sameNeighbours_of_rowBelow_differs hv hy hr).labels rfl href
  case otherRows =>
    intro g r x y h
    have hsame : SameNeighbours g r { g with vcausal := false } r x y :=
      fun _ _ => nbr_plain fun ⟨hv, hy, _⟩ => h ⟨hv, hy⟩
    exact hsame.labels rfl rfl
  case rowBelowInsignificant =>
    intro g r x y hr
    exact (sameNeighbours_plain_of_rowBelow_insignificant hr).labels rfl rfl

end Sys2Proof.Proofs
end

section
/-!
PROOFS. The encoder initialisations (O21), the rows of the probability table, and the turns of a renormalisation.
-/
namespace Sys2Proof.Proofs

open Sys2Proof.Machine Sys2Proof.Laws

/-! ### The encoder initialisations (42_mq_coder.md R162, 43_raw_bypass.md R220, 45_ht_block_coder.md R284) -/

/-- An initialisation that only sets coder registers, as a command. -/
theorem runCmd_initenc {init : Cmd Unit} {f : SegRegs → SegRegs} (h : init = updSeg f) (m : CMode) (s : State) :
    runCmd (do latchSegbase; init; setMode m) s = .next (State.complete { s with
      status := { s.status with cmode := m }
      seg := f { s.seg with start := s.cfg.segbase } }) :=
  runCmd_of_ok (by rw [h, bind_of_ok (latchSegbase_run s), updSeg_bind, setMode_run])

/-- Settles O21: each initialisation latches SEGBASE, gives the coder its registers and sets its mode. -/
theorem encoderInitialisation : Obligations.EncoderInitialisation := by
  intro s
  have hmq := runCmd_initenc (init := mqInitEnc) rfl .mqe s
  have hraw := runCmd_initenc (init := rawInitEnc) rfl .rawe s
  have hmel := runCmd_initenc (init := melInitEnc) rfl .mele s
  exact ⟨hmq, hraw, hmel⟩

/-! ### The probability table (42_mq_coder.md R160) -/

theorem mqRow_eq_printed : ∀ i : Fin 47, (printedMqLeft ++ printedMqRight)[i.val]? =
    some ((mqRow i).qe.toNat, (mqRow i).nmps.val, (mqRow i).nlps.val, (mqRow i).sw.toNat) := by decide

/-- Every Qe is above 0 and below 0x5602 (R160, R161). -/
theorem mqRow_qe_bounds : ∀ i : Fin 47, 0 < (mqRow i).qe.toNat ∧ (mqRow i).qe.toNat ≤ 0x5601 := by decide

/-! ### The turns of a renormalisation (42_mq_coder.md R165, R184) -/

theorem msb_iff_le (a : BitVec 16) : a.msb = true ↔ 0x8000 ≤ a.toNat := by
  simp [BitVec.msb_eq_decide]

theorem msb_eq_false_iff_lt (a : BitVec 16) : a.msb = false ↔ a.toNat < 0x8000 := by
  simp [BitVec.msb_eq_decide]

theorem toNat_shiftLeft_one {a : BitVec 16} (h : a.msb = false) : (a <<< 1).toNat = 2 * a.toNat := by
  have := (msb_eq_false_iff_lt a).1 h
  rw [BitVec.toNat_shiftLeft, Nat.shiftLeft_eq]
  omega

theorem renormTurns_of_msb {a : BitVec 16} (h : a.msb = true) : renormTurns a = 0 := by
  have := (msb_iff_le a).1 h
  have := (Nat.le_log2 (n := a.toNat) (k := 15) (by omega)).2 (by omega)
  unfold renormTurns
  omega

/-- A turn brings A one shift nearer to 0x8000. -/
theorem renormTurns_shift {a : BitVec 16} (h : a.msb = false) (h0 : a ≠ 0) :
    renormTurns a = renormTurns (a <<< 1) + 1 ∧ a <<< 1 ≠ 0 := by
  have hlt := (msb_eq_false_iff_lt a).1 h
  have hpos : a.toNat ≠ 0 := fun hz => h0 (BitVec.eq_of_toNat_eq hz)
  have hlog := (Nat.log2_lt (k := 15) hpos).2 hlt
  have hshift := toNat_shiftLeft_one h
  refine ⟨?_, fun hz => ?_⟩
  · unfold renormTurns
    rw [hshift, Nat.log2_two_mul hpos]
    omega
  · rw [hz] at hshift
    simp at hshift
    omega

/-- The turns of a renormalisation bring a 1 to A[15]. -/
theorem msb_shiftLeft_renormTurns {a : BitVec 16} (h0 : a ≠ 0) : (a <<< renormTurns a).msb = true := by
  generalize hn : renormTurns a = n
  induction n generalizing a with
  | zero =>
    rw [BitVec.shiftLeft_zero]
    by_contra hmsb
    obtain ⟨hturns, -⟩ := renormTurns_shift (Bool.eq_false_iff.2 hmsb) h0
    omega
  | succ n ih =>
    cases hmsb : a.msb with
    | true => rw [renormTurns_of_msb hmsb] at hn; omega
    | false =>
      obtain ⟨hturns, h0'⟩ := renormTurns_shift hmsb h0
      rw [Nat.add_comm, BitVec.shiftLeft_add]
      exact ih h0' (by omega)

theorem renormTurns_le (a : BitVec 16) : renormTurns a ≤ 15 := Nat.sub_le _ _

end Sys2Proof.Proofs
end

section
/-!
PROOFS. MQ.ENCODE (O22): BYTEOUT, RENORME and ENCODE as their reference functions on registers and memory, and the bytes each of
them emits.
-/
namespace Sys2Proof.Proofs

open Sys2Proof.Machine Sys2Proof.Laws

/-- The state s with these coder registers and this memory: what the encoder of Reference.lean works on. -/
def withCoder (s : State) (x : SegRegs × Memory) : State := { s with seg := x.1, mem := x.2 }

@[simp] theorem withCoder_seg (s : State) (x : SegRegs × Memory) : (withCoder s x).seg = x.1 := rfl

theorem updSeg_bind_withCoder {β : Type} (g : SegRegs → SegRegs) (f : Unit → Cmd β) (s : State) (x : SegRegs × Memory) :
    (updSeg g >>= f) (withCoder s x) = f () (withCoder s (g x.1, x.2)) := rfl

/-! ### Bytes emitted (42_mq_coder.md R163, 20_memory.md R81) -/

theorem openOffset_eq (r : SegRegs) : r.openOffset = r.start.toNat + (r.bp.toNat - 1) := by
  unfold SegRegs.openOffset SegRegs.outOffset
  split <;> bv_omega

/-- From x to y the encoder has emitted n bytes: only A, C, CT, B and BP differ, and memory only from the open last byte of
x to the end of y. -/
structure Emits (n : Nat) (x y : SegRegs × Memory) : Prop where
  regs : y.1 = { x.1 with a := y.1.a, c := y.1.c, ct := y.1.ct, b := y.1.b, bp := y.1.bp }
  bp : y.1.bp.toNat = x.1.bp.toNat + n
  outside : ∀ a, ¬ (byteAddr x.1.openOffset ≤ a ∧ a < byteAddr y.1.outOffset) → y.2.getByte a = x.2.getByte a

theorem Emits.start {n : Nat} {x y : SegRegs × Memory} (h : Emits n x y) : y.1.start = x.1.start := by rw [h.regs]

theorem Emits.outOffset {n : Nat} {x y : SegRegs × Memory} (h : Emits n x y) : y.1.outOffset = x.1.outOffset + n := by
  have := h.bp
  unfold SegRegs.outOffset
  rw [h.start]
  omega

theorem Emits.refl (x : SegRegs × Memory) : Emits 0 x x := ⟨rfl, rfl, fun _ _ => rfl⟩

theorem Emits.trans {m n : Nat} {x y z : SegRegs × Memory} (h : Emits m x y) (h' : Emits n y z) : Emits (m + n) x z where
  regs := by rw [h'.regs, h.regs]
  bp := by rw [h'.bp, h.bp, Nat.add_assoc]
  outside a ha := by
    have hend := h'.outOffset
    have hbp := h.bp
    simp only [byteAddr, openOffset_eq] at ha
    have hz : z.2.getByte a = y.2.getByte a := h'.outside a (by simp only [byteAddr, openOffset_eq, h.start]; omega)
    have hy : y.2.getByte a = x.2.getByte a := h.outside a (by simp only [byteAddr, openOffset_eq]; omega)
    exact hz.trans hy

/-- New values of A, C, CT and B emit nothing. -/
theorem emits_updSeg (x : SegRegs × Memory) (a : BitVec 16) (c : Word) (ct : BitVec 4) (b : Byte) :
    Emits 0 x ({ x.1 with a := a, c := c, ct := ct, b := b }, x.2) := ⟨rfl, rfl, fun _ _ => rfl⟩

theorem bp_add_one {r : SegRegs} (h : r.outOffset < Config.byteCap) : (r.bp + 1).toNat = r.bp.toNat + 1 := by
  have := byteCap_le
  unfold SegRegs.outOffset at h
  bv_omega

theorem mqEmit_emits {x : SegRegs × Memory} (h : x.1.outOffset < Config.byteCap) (v : Byte) (c : Word) (ct : BitVec 4) :
    Emits 1 x (mqEmit v c ct x) where
  regs := rfl
  bp := bp_add_one h
  outside a ha := by
    refine (getByte_setByte _ _ _ _).trans (if_neg fun hb => ha ?_)
    have hbp : (mqEmit v c ct x).1.outOffset = x.1.outOffset + 1 := congrArg (x.1.start.toNat + ·) (bp_add_one h)
    rw [hb, openOffset_eq, hbp]
    simp only [byteAddr, SegRegs.outOffset]
    omega

theorem mqCarry_emits (x : SegRegs × Memory) : Emits 0 x (mqCarry x) where
  regs := rfl
  bp := rfl
  outside a ha := by
    unfold mqCarry
    dsimp only
    split
    · rfl
    · rename_i hbp
      refine (getByte_setByte _ _ _ _).trans (if_neg fun hb => ha ?_)
      have hpos : 1 ≤ x.1.bp.toNat := by bv_omega
      show byteAddr x.1.openOffset ≤ a ∧ a < byteAddr x.1.outOffset
      rw [hb, openOffset_eq]
      simp only [byteAddr, SegRegs.outOffset]
      omega

/-- BYTEOUT emits one byte (R164). -/
theorem mqByteOut_emits {x : SegRegs × Memory} (h : x.1.outOffset < Config.byteCap) : Emits 1 x (mqByteOut x) := by
  have hcarry : (mqCarry x).1.outOffset < Config.byteCap := h
  unfold mqByteOut
  split_ifs
  · exact mqEmit_emits h _ _ _
  · exact mqEmit_emits h _ _ _
  · exact (mqCarry_emits x).trans (mqEmit_emits hcarry _ _ _)
  · exact (mqCarry_emits x).trans (mqEmit_emits hcarry _ _ _)

theorem mqByteOut_updSeg_emits {x : SegRegs × Memory} (h : x.1.outOffset < Config.byteCap) (a : BitVec 16) (c : Word)
    (ct : BitVec 4) (b : Byte) : Emits 1 x (mqByteOut ({ x.1 with a := a, c := c, ct := ct, b := b }, x.2)) :=
  Emits.trans (m := 0) (y := ({ x.1 with a := a, c := c, ct := ct, b := b }, x.2)) (emits_updSeg x a c ct b)
    (mqByteOut_emits h)

@[simp] theorem mqByteOut_a (x : SegRegs × Memory) : (mqByteOut x).1.a = x.1.a := by
  unfold mqByteOut
  split_ifs <;> rfl

/-- After a byte-out 7 or 8 shifts are left to the next (R164). -/
theorem mqByteOut_ct (x : SegRegs × Memory) : (mqByteOut x).1.ct = 7 ∨ (mqByteOut x).1.ct = 8 := by
  unfold mqByteOut
  split_ifs
  · exact .inl rfl
  · exact .inr rfl
  · exact .inl rfl
  · exact .inr rfl

theorem byteOut_withCoder (s : State) {x : SegRegs × Memory} (h : x.1.outOffset < Config.byteCap) :
    byteOut (withCoder s x) = .ok () (withCoder s (mqByteOut x)) := byteOut_room (s := withCoder s x) h

/-! ### RENORME (42_mq_coder.md R165) -/

theorem and_mask_eq_extract (c : Word) : c &&& 0xFFFFFFF = (c.extractLsb' 0 28).zeroExtend 32 := by
  have hmask : (0xFFFFFFF : Word).toNat = 2 ^ 28 - 1 := rfl
  apply BitVec.eq_of_toNat_eq
  rw [BitVec.toNat_and, hmask, Nat.and_two_pow_sub_one_eq_mod]
  simp
  omega

/-- One turn of RENORME (R165): `mqShiftOut` is made of these. -/
def mqTurn (x : SegRegs × Memory) : SegRegs × Memory :=
  let y := ({ x.1 with a := x.1.a <<< 1, c := (x.1.c <<< 1).extractLsb' 0 28 |>.zeroExtend 32, ct := x.1.ct - 1 }, x.2)
  if x.1.ct = 1 then mqByteOut y else y

theorem mqShiftOut_succ (n : Nat) (x : SegRegs × Memory) : mqShiftOut (n + 1) x = mqShiftOut n (mqTurn x) := rfl

@[simp] theorem mqTurn_a (x : SegRegs × Memory) : (mqTurn x).1.a = x.1.a <<< 1 := by
  unfold mqTurn
  dsimp only
  split
  · exact mqByteOut_a _
  · rfl

/-- n turns of RENORME from x emit at most k bytes, and there is room for them: the first byte comes when CT reaches 0, each
other one at least 7 turns later (R164, R165). -/
def TurnsFit (n k : Nat) (x : SegRegs × Memory) : Prop :=
  n ≤ (x.1.ct - 1).toNat + 7 * k ∧ x.1.outOffset + k ≤ Config.byteCap

theorem TurnsFit.room {n k : Nat} {x : SegRegs × Memory} (h : TurnsFit (n + 1) k x) (hct : x.1.ct = 1) :
    x.1.outOffset < Config.byteCap := by
  obtain ⟨hn, hroom⟩ := h
  simp [hct] at hn
  omega

theorem mqTurn_fits {n k : Nat} {x : SegRegs × Memory} (h : TurnsFit (n + 1) k x) :
    ∃ j ≤ k, Emits j x (mqTurn x) ∧ TurnsFit n (k - j) (mqTurn x) := by
  have ⟨hn, hcap⟩ := h
  by_cases hct : x.1.ct = 1
  · have hroom : x.1.outOffset < Config.byteCap := h.room hct
    have hemit : Emits 1 x (mqTurn x) := by
      unfold mqTurn
      rw [if_pos hct]
      exact mqByteOut_updSeg_emits hroom _ _ _ _
    have hnext : 6 ≤ ((mqTurn x).1.ct - 1).toNat := by
      unfold mqTurn
      rw [if_pos hct]
      rcases mqByteOut_ct _ with h7 | h8
      · rw [h7]; decide
      · rw [h8]; decide
    have hout := hemit.outOffset
    simp [hct] at hn
    exact ⟨1, by omega, hemit, by omega, by omega⟩
  · have hturn : (mqTurn x).1.ct = x.1.ct - 1 := by
      unfold mqTurn
      rw [if_neg hct]
    have hemit : Emits 0 x (mqTurn x) := by
      unfold mqTurn
      rw [if_neg hct]
      exact emits_updSeg x _ _ _ _
    refine ⟨0, Nat.zero_le k, hemit, ?_, hemit.outOffset ▸ hcap⟩
    rw [hturn]
    bv_omega

theorem renormEStep_withCoder (s : State) {n k : Nat} {x : SegRegs × Memory} (h : TurnsFit (n + 1) k x) :
    renormEStep (withCoder s x) = .ok () (withCoder s (mqTurn x)) := by
  have hct : x.1.ct - 1 = 0 ↔ x.1.ct = 1 := by bv_omega
  unfold renormEStep mqTurn
  rw [updSeg_bind_withCoder, see_bind, ← and_mask_eq_extract]
  show (if x.1.ct - 1 = 0 then byteOut else pure ()) _ = _
  by_cases h1 : x.1.ct = 1
  · rw [if_pos (hct.2 h1), if_pos h1]
    exact byteOut_withCoder s (h.room h1)
  · rw [if_neg (mt hct.1 h1), if_neg h1]
    rfl

/-- RENORME from an A below 0x8000 that is not 0: exactly the turns that bring a 1 to A[15]. -/
theorem renormE_withCoder (s : State) (fuel : Nat) {k : Nat} {x : SegRegs × Memory} (hmsb : x.1.a.msb = false)
    (h0 : x.1.a ≠ 0) (hfuel : renormTurns x.1.a ≤ fuel) (h : TurnsFit (renormTurns x.1.a) k x) :
    renormE fuel (withCoder s x) = .ok () (withCoder s (mqShiftOut (renormTurns x.1.a) x)) := by
  induction fuel generalizing k x with
  | zero =>
    obtain ⟨hturns, -⟩ := renormTurns_shift hmsb h0
    omega
  | succ fuel ih =>
    obtain ⟨hturns, h0'⟩ := renormTurns_shift hmsb h0
    rw [hturns] at h hfuel ⊢
    obtain ⟨j, -, -, hfit⟩ := mqTurn_fits h
    unfold renormE
    rw [bind_of_ok (renormEStep_withCoder s h), see_bind, withCoder_seg, mqShiftOut_succ, mqTurn_a]
    rw [← mqTurn_a] at h0' hfuel hfit ⊢
    cases hmsb' : (mqTurn x).1.a.msb with
    | true => rw [renormTurns_of_msb hmsb']; rfl
    | false => exact ih hmsb' h0' (by omega) hfit

theorem mqShiftOut_emits {n k : Nat} {x : SegRegs × Memory} (h : TurnsFit n k x) :
    ∃ j ≤ k, Emits j x (mqShiftOut n x) := by
  induction n generalizing k x with
  | zero => exact ⟨0, Nat.zero_le k, .refl x⟩
  | succ n ih =>
    obtain ⟨i, hi, hemit, hfit⟩ := mqTurn_fits h
    obtain ⟨j, hj, hemit'⟩ := ih hfit
    exact ⟨i + j, by omega, hemit.trans hemit'⟩

theorem mqShiftOut_a (n : Nat) (x : SegRegs × Memory) : (mqShiftOut n x).1.a = x.1.a <<< n := by
  induction n generalizing x with
  | zero => exact (BitVec.shiftLeft_zero _).symm
  | succ n ih => rw [mqShiftOut_succ, ih, mqTurn_a, Nat.add_comm, BitVec.shiftLeft_add]

/-! ### ENCODE (42_mq_coder.md R166, R167) -/

theorem le_iff_msb (a : BitVec 16) : 0x8000 ≤ a ↔ a.msb = true := by
  rw [msb_iff_le, BitVec.le_def]
  rfl

/-- The part of the interval a decision in context state e takes, by the conditional exchange (R166): of size Qe, or the
rest. -/
def mqInterval (e : CtxEntry) (d : Bool) (r : SegRegs) : SegRegs :=
  let q := (mqRow e.index).qe
  if (d = e.mps ↔ r.a - q < q) then { r with a := q } else { r with a := r.a - q, c := r.c + q.zeroExtend 32 }

/-- The decision takes its part without renormalising: an MPS that leaves A[15] = 1 (R166). -/
def SkipsRenorm (e : CtxEntry) (d : Bool) (a : BitVec 16) : Prop := d = e.mps ∧ (a - (mqRow e.index).qe).msb = true

section Encode

variable {s : State} {cx : Label} {d : Bool}

theorem mqEncode_of_skipsRenorm (h : SkipsRenorm s.ctx[cx] d s.seg.a) :
    mqEncode cx d s = .ok () { s with seg := { s.seg with
      a := s.seg.a - (mqRow s.ctx[cx].index).qe
      c := s.seg.c + (mqRow s.ctx[cx].index).qe.zeroExtend 32 } } := by
  obtain ⟨hd, hmsb⟩ := h
  unfold mqEncode codeMps
  rw [see_bind, updSeg_bind, if_pos hd, see_bind]
  dsimp only
  rw [if_pos hmsb, updSeg_run]

/-- An MPS that leaves A[15] = 0 takes its part, moves its context and renormalises. -/
theorem codeMps_of_renorm {e : CtxEntry} {q : BitVec 16} (h : ¬ s.seg.a.msb = true) :
    codeMps cx e q s = (do setCtx cx e.afterMps; renormE 16) { s with seg :=
      if s.seg.a < q then { s.seg with a := q } else { s.seg with c := s.seg.c + q.zeroExtend 32 } } := by
  unfold codeMps
  rw [see_bind]
  dsimp only
  rw [if_neg h]
  split <;> rfl

theorem codeLps_run {e : CtxEntry} {q : BitVec 16} :
    codeLps cx e q s = (do setCtx cx e.afterLps; renormE 16) { s with seg :=
      if s.seg.a < q then { s.seg with c := s.seg.c + q.zeroExtend 32 } else { s.seg with a := q } } := by
  unfold codeLps
  rw [see_bind]
  dsimp only
  split <;> rfl

theorem ctxAfter_mps {e : CtxEntry} {a : BitVec 16} (hd : d = e.mps) (h : ¬ (a - (mqRow e.index).qe).msb = true) :
    ctxAfter e a d = e.afterMps := (if_pos hd).trans (if_neg h)

theorem ctxAfter_lps {e : CtxEntry} {a : BitVec 16} (hd : ¬ d = e.mps) : ctxAfter e a d = e.afterLps := if_neg hd

theorem mqEncode_of_renorm (h : ¬ SkipsRenorm s.ctx[cx] d s.seg.a) :
    mqEncode cx d s = (do setCtx cx (ctxAfter s.ctx[cx] s.seg.a d); renormE 16)
      { s with seg := mqInterval s.ctx[cx] d s.seg } := by
  unfold mqEncode mqInterval
  rw [see_bind, updSeg_bind]
  by_cases hd : d = s.ctx[cx].mps
  · have hmsb : ¬ (s.seg.a - (mqRow s.ctx[cx].index).qe).msb = true := fun hm => h ⟨hd, hm⟩
    rw [if_pos hd, codeMps_of_renorm, ctxAfter_mps hd hmsb]
    · simp only [hd, true_iff]
    · exact hmsb
  · rw [if_neg hd, codeLps_run, ctxAfter_lps hd]
    simp only [hd, false_iff, ite_not]

end Encode

section Coded

variable {e : CtxEntry} {d : Bool} {x : SegRegs × Memory}

theorem mqCoded_of_skipsRenorm (h : SkipsRenorm e d x.1.a) : mqCoded e d x =
    ({ x.1 with a := x.1.a - (mqRow e.index).qe, c := x.1.c + (mqRow e.index).qe.zeroExtend 32 }, x.2) :=
  if_pos ⟨h.1, (le_iff_msb _).2 h.2⟩

theorem mqCoded_of_renorm (h : ¬ SkipsRenorm e d x.1.a) : mqCoded e d x =
    mqShiftOut (renormTurns (mqInterval e d x.1).a) (mqInterval e d x.1, x.2) := by
  have hkeep : ¬ (d = e.mps ∧ 0x8000 ≤ x.1.a - (mqRow e.index).qe) := fun hk => h ⟨hk.1, (le_iff_msb _).1 hk.2⟩
  unfold mqCoded mqInterval
  dsimp only
  rw [if_neg hkeep]
  split <;> rfl

/-- From an A of at least 0x8000 the part taken is not empty. -/
theorem mqInterval_a_ne_zero {r : SegRegs} (hmsb : r.a.msb = true) : (mqInterval e d r).a ≠ 0 := by
  have ha := (msb_iff_le _).1 hmsb
  have ⟨hpos, hle⟩ := mqRow_qe_bounds e.index
  unfold mqInterval
  dsimp only
  split
  · show (mqRow e.index).qe ≠ 0
    bv_omega
  · show r.a - (mqRow e.index).qe ≠ 0
    bv_omega

/-- A decision that renormalises finds A[15] = 0. -/
theorem mqInterval_a_msb {r : SegRegs} (h : ¬ SkipsRenorm e d r.a) : (mqInterval e d r).a.msb = false := by
  have ⟨hpos, hle⟩ := mqRow_qe_bounds e.index
  rw [msb_eq_false_iff_lt]
  unfold mqInterval
  dsimp only
  split
  · exact Nat.lt_of_le_of_lt hle (by decide)
  · rename_i hiff
    show (r.a - (mqRow e.index).qe).toNat < 0x8000
    by_cases hd : d = e.mps
    · exact (msb_eq_false_iff_lt _).1 (Bool.eq_false_iff.2 fun hm => h ⟨hd, hm⟩)
    · have hlt : r.a - (mqRow e.index).qe < (mqRow e.index).qe := by
        by_contra hge
        exact hiff (iff_of_false hd hge)
      rw [BitVec.lt_def] at hlt
      omega

theorem emits_mqInterval (x : SegRegs × Memory) : Emits 0 x (mqInterval e d x.1, x.2) := by
  unfold mqInterval
  dsimp only
  split <;> exact ⟨rfl, rfl, fun _ _ => rfl⟩

theorem mqInterval_fits (hroom : x.1.outOffset + 3 ≤ Config.byteCap) :
    TurnsFit (renormTurns (mqInterval e d x.1).a) 3 (mqInterval e d x.1, x.2) := by
  have hturns := renormTurns_le (mqInterval e d x.1).a
  have hout := (emits_mqInterval (e := e) (d := d) x).outOffset
  exact ⟨by omega, hout ▸ hroom⟩

/-- ENCODE emits at most three bytes and leaves A[15] = 1 (R165). -/
theorem mqCoded_emits (hmsb : x.1.a.msb = true) (hroom : x.1.outOffset + 3 ≤ Config.byteCap) :
    (∃ j ≤ 3, Emits j x (mqCoded e d x)) ∧ (mqCoded e d x).1.a.msb = true := by
  by_cases h : SkipsRenorm e d x.1.a
  · rw [mqCoded_of_skipsRenorm h]
    exact ⟨⟨0, Nat.zero_le 3, ⟨rfl, rfl, fun _ _ => rfl⟩⟩, h.2⟩
  · rw [mqCoded_of_renorm h]
    obtain ⟨j, hj, hemit⟩ := mqShiftOut_emits (mqInterval_fits (e := e) (d := d) hroom)
    have hall := (emits_mqInterval x).trans hemit
    rw [Nat.zero_add] at hall
    refine ⟨⟨j, hj, hall⟩, ?_⟩
    rw [mqShiftOut_a]
    exact msb_shiftLeft_renormTurns (mqInterval_a_ne_zero hmsb)

end Coded

/-- An MPS that leaves A[15] = 1 moves no context (R167). -/
theorem set_ctxAfter_of_skipsRenorm {ctx : Vector CtxEntry 19} {cx : Label} {d : Bool} {a : BitVec 16}
    (h : SkipsRenorm ctx[cx] d a) : ctx.set cx (ctxAfter ctx[cx] a d) = ctx := by
  unfold ctxAfter
  rw [if_pos h.1, if_pos h.2]
  exact Vector.set_getElem_self _

theorem mqEncode_run {s : State} (cx : Label) (d : Bool) (hmsb : s.seg.a.msb = true) (hroom : HasRoom s 3) :
    mqEncode cx d s = .ok () (withCoder { s with ctx := s.ctx.set cx (ctxAfter s.ctx[cx] s.seg.a d) }
      (mqCoded s.ctx[cx] d (s.seg, s.mem))) := by
  by_cases h : SkipsRenorm s.ctx[cx] d s.seg.a
  · rw [mqEncode_of_skipsRenorm h, set_ctxAfter_of_skipsRenorm h, mqCoded_of_skipsRenorm (x := (s.seg, s.mem)) h]
    rfl
  · rw [mqEncode_of_renorm h, mqCoded_of_renorm (x := (s.seg, s.mem)) h]
    have ha : (mqInterval s.ctx[cx] d s.seg).a.msb = false := mqInterval_a_msb h
    have h0 : (mqInterval s.ctx[cx] d s.seg).a ≠ 0 := mqInterval_a_ne_zero hmsb
    have hfit := mqInterval_fits (e := s.ctx[cx]) (d := d) (x := (s.seg, s.mem)) hroom
    exact renormE_withCoder { s with ctx := s.ctx.set cx (ctxAfter s.ctx[cx] s.seg.a d) } 16
      (x := (mqInterval s.ctx[cx] d s.seg, s.mem)) ha h0 (Nat.le_succ_of_le (renormTurns_le _)) hfit

/-- A command with legal fields in its mode gets past its checks (30_encoding.md R101, 10_state.md R44). -/
theorem checkFields_needMode_bind {i : Instr} {m : CMode} {s : State} (hi : i.wellFormed = true) (hmode : s.status.cmode = m)
    (c : Unit → Cmd Unit) : (checkFields i >>= fun _ => needMode m >>= c) s = c () s := by
  rw [bind_of_ok (by rw [checkFields_run, if_pos hi]), bind_of_ok (by rw [needMode_run, if_pos hmode])]

theorem exec_mqEncode_of_ok {s t : State} {cx : BitVec 5} {d : Bool} (hcx : cx.toNat ≤ 18) (hmode : s.status.cmode = .mqe)
    (h : mqEncode (labelOf cx) d s = .ok () t) : exec (.mqEncode cx d) s = .next t.complete := by
  have hfields : (Instr.mqEncode cx d).wellFormed = true := decide_eq_true hcx
  exact runCmd_of_ok ((checkFields_needMode_bind hfields hmode _).trans h)

/-- Settles O22: ENCODE is `mqCoded` with the context moved by `ctxAfter`; an MPS that keeps A[15] = 1 is the case without
turns. -/
theorem mqEncodeCompletes : Obligations.MqEncodeCompletes := by
  refine ⟨?_, ?_, mqRow_eq_printed⟩
  · intro s cx d hcx hmode hmsb hroom
    obtain ⟨⟨j, hj, hemit⟩, hmsb'⟩ :=
      mqCoded_emits (e := s.ctx[labelOf cx]) (d := d) (x := (s.seg, s.mem)) hmsb hroom
    have hbp : _ = s.seg.bp.toNat + j := hemit.bp
    exact ⟨_, _, exec_mqEncode_of_ok hcx hmode (mqEncode_run _ d hmsb hroom), rfl, hemit.regs, hmsb', by omega, by omega,
      hemit.outside⟩
  · intro s cx hcx hmode hmsb
    exact exec_mqEncode_of_ok hcx hmode (mqEncode_of_skipsRenorm ⟨rfl, hmsb⟩)

end Sys2Proof.Proofs
end

section
/-!
PROOFS. MQ.FLUSH (O23) and MQ.ERTERM (O24): the pushes of the last bits, the byte dropped at the end, and what a segment
ends in.
-/
namespace Sys2Proof.Proofs

open Sys2Proof.Machine Sys2Proof.Laws

/-! ### Pushing out the bits of C (42_mq_coder.md R169, R175) -/

theorem shiftByCt_bind_withCoder {β : Type} (f : Unit → Cmd β) (s : State) (x : SegRegs × Memory) :
    (shiftByCt >>= f) (withCoder s x) =
      f () (withCoder s ({ x.1 with c := (x.1.c <<< x.1.ct.toNat).extractLsb' 0 28 |>.zeroExtend 32 }, x.2)) := by
  unfold shiftByCt
  rw [updSeg_bind_withCoder, and_mask_eq_extract]

/-- A push of FLUSH. -/
theorem push_bind {β : Type} (f : Unit → Cmd β) (s : State) {x : SegRegs × Memory} (h : x.1.outOffset < Config.byteCap) :
    (shiftByCt >>= fun _ => byteOut >>= f) (withCoder s x) = f () (withCoder s (mqPush x)) := by
  rw [shiftByCt_bind_withCoder, bind_of_ok (byteOut_withCoder s _)]
  · rfl
  · exact h

/-- A push of ERTERM: the byte-out gives CT its value, so that it may be cleared before. -/
theorem push_clear_bind {β : Type} (f : Unit → Cmd β) (s : State) {x : SegRegs × Memory}
    (h : x.1.outOffset < Config.byteCap) :
    (shiftByCt >>= fun _ => updSeg (fun r => { r with ct := 0 }) >>= fun _ => byteOut >>= f) (withCoder s x) =
      f () (withCoder s (mqPush x)) := by
  rw [shiftByCt_bind_withCoder, updSeg_bind_withCoder, bind_of_ok (byteOut_withCoder s _)]
  · rfl
  · exact h

theorem mqPush_emits {x : SegRegs × Memory} (h : x.1.outOffset < Config.byteCap) : Emits 1 x (mqPush x) :=
  mqByteOut_updSeg_emits h x.1.a _ x.1.ct x.1.b

@[simp] theorem mqPush_a (x : SegRegs × Memory) : (mqPush x).1.a = x.1.a := mqByteOut_a _

/-! ### The end of a segment (42_mq_coder.md R170) -/

theorem mqDropFF_cases (x : SegRegs × Memory) :
    (1 ≤ x.1.bp.toNat ∧ x.1.b = 0xFF ∧ mqDropFF x = ({ x.1 with bp := x.1.bp - 1 }, x.2)) ∨
      (¬ (1 ≤ x.1.bp.toNat ∧ x.1.b = 0xFF) ∧ mqDropFF x = x) := by
  by_cases h : 1 ≤ x.1.bp.toNat ∧ x.1.b = 0xFF
  · exact .inl ⟨h.1, h.2, if_pos h⟩
  · exact .inr ⟨h, if_neg h⟩

theorem dropTrailingFF_withCoder (s : State) (x : SegRegs × Memory) :
    dropTrailingFF (withCoder s x) = .ok () (withCoder s (mqDropFF x)) := by
  rw [dropTrailingFF_run]
  rcases mqDropFF_cases x with ⟨hpos, hb, heq⟩ | ⟨h, heq⟩
  · rw [heq]
    exact congrArg (EStateM.Result.ok ()) (if_pos ⟨hpos, hb⟩)
  · rw [heq]
    exact congrArg (EStateM.Result.ok ()) (if_neg h)

/-- From x to y the encoder has ended its segment after n more bytes, one of which it may have dropped. -/
structure EndsSegment (n : Nat) (x y : SegRegs × Memory) : Prop where
  regs : y.1 = { x.1 with c := y.1.c, ct := y.1.ct, b := y.1.b, bp := y.1.bp }
  bp_le : y.1.bp.toNat ≤ x.1.bp.toNat + n
  le_bp : x.1.bp.toNat + n ≤ y.1.bp.toNat + 1
  outside : ∀ a, ¬ (byteAddr x.1.openOffset ≤ a ∧ a < byteAddr (x.1.outOffset + n)) → y.2.getByte a = x.2.getByte a

theorem Emits.endsSegment {n : Nat} {x y : SegRegs × Memory} (h : Emits n x y) (ha : y.1.a = x.1.a) :
    EndsSegment n x (mqDropFF y) := by
  have hregs := h.regs
  have hbp := h.bp
  have hout := h.outOffset ▸ h.outside
  rw [ha] at hregs
  rcases mqDropFF_cases y with ⟨hpos, -, heq⟩ | ⟨-, heq⟩
  · rw [heq]
    refine ⟨by rw [hregs], ?_, ?_, hout⟩ <;> bv_omega
  · rw [heq]
    exact ⟨hregs, by omega, by omega, hout⟩

theorem EndsSegment.outside_two {n : Nat} {x y : SegRegs × Memory} (h : EndsSegment n x y) (hn : n ≤ 2) :
    ∀ a, ¬ (byteAddr x.1.openOffset ≤ a ∧ a < byteAddr (x.1.outOffset + 2)) → y.2.getByte a = x.2.getByte a :=
  fun a ha => h.outside a (by simp only [byteAddr] at ha ⊢; omega)

/-- An encoder termination command: what it does to the coder, then NBYTES and CMODE (10_state.md R33, R44). -/
theorem runCmd_termination {m : CMode} {c : Cmd Unit} {s : State} {x : SegRegs × Memory} (hmode : s.status.cmode = m)
    (h : c s = .ok () (withCoder s x)) :
    runCmd (do needMode m; c; endSegment) s = .next (State.complete { s with
      status := { s.status with cmode := .idle }
      out := { s.out with nbytes := x.1.bp }
      seg := x.1, mem := x.2 }) := by
  refine runCmd_of_ok ?_
  rw [bind_of_ok (by rw [needMode_run, if_pos hmode]), bind_of_ok h]
  rfl

/-! ### FLUSH (42_mq_coder.md R169) -/

section TwoPushes

variable {x : SegRegs × Memory} (hroom : x.1.outOffset + 2 ≤ Config.byteCap)
include hroom

theorem mqPush_room : (mqPush x).1.outOffset < Config.byteCap := by
  rw [(mqPush_emits (by omega)).outOffset]
  omega

theorem mqPush_mqPush_emits : Emits 2 x (mqPush (mqPush x)) :=
  (mqPush_emits (by omega)).trans (mqPush_emits (mqPush_room hroom))

theorem push_push_drop_run (s : State) :
    (shiftByCt >>= fun _ => byteOut >>= fun _ => shiftByCt >>= fun _ => byteOut >>= fun _ => dropTrailingFF)
      (withCoder s x) = .ok () (withCoder s (mqDropFF (mqPush (mqPush x)))) := by
  rw [push_bind _ s (by omega), push_bind _ s (mqPush_room hroom), dropTrailingFF_withCoder]

end TwoPushes

theorem mqFlush_run {s : State} (hroom : HasRoom s 2) :
    mqFlush s = .ok () (withCoder s (mqFlushed (s.seg, s.mem))) :=
  push_push_drop_run (x := ({ s.seg with c := mqSetBits s.seg }, s.mem)) hroom s

theorem mqFlushed_ends {x : SegRegs × Memory} (hroom : x.1.outOffset + 2 ≤ Config.byteCap) :
    EndsSegment 2 x (mqFlushed x) :=
  have h := (mqPush_mqPush_emits (x := ({ x.1 with c := mqSetBits x.1 }, x.2)) hroom).endsSegment (by simp)
  ⟨h.regs, h.bp_le, h.le_bp, h.outside⟩

/-- A byte-out leaves at most 27 bits of C to shift out before the next (R164). -/
theorem mqByteOut_c (x : SegRegs × Memory) : (mqByteOut x).1.c.toNat * 2 ^ (mqByteOut x).1.ct.toNat < 2 ^ 27 := by
  have h7 (c : Word) : (c &&& 0xFFFFF).toNat * 2 ^ (7 : BitVec 4).toNat < 2 ^ 27 := by
    have hmask : (0xFFFFF : Word).toNat = 2 ^ 20 - 1 := rfl
    rw [BitVec.toNat_and, hmask, Nat.and_two_pow_sub_one_eq_mod]
    show c.toNat % 2 ^ 20 * 2 ^ 7 < 2 ^ 27
    omega
  have h8 (c : Word) : (c &&& 0x7FFFF).toNat * 2 ^ (8 : BitVec 4).toNat < 2 ^ 27 := by
    have hmask : (0x7FFFF : Word).toNat = 2 ^ 19 - 1 := rfl
    rw [BitVec.toNat_and, hmask, Nat.and_two_pow_sub_one_eq_mod]
    show c.toNat % 2 ^ 19 * 2 ^ 8 < 2 ^ 27
    omega
  unfold mqByteOut
  split_ifs
  · exact h7 _
  · exact h8 _
  · exact h7 _
  · exact h8 _

/-- The byte a byte-out emits is MQ_B and the last of the segment. -/
theorem mqByteOut_byte (x : SegRegs × Memory) :
    (mqByteOut x).2.getByte (byteAddr x.1.outOffset) = some (mqByteOut x).1.b := by
  unfold mqByteOut
  split_ifs <;> exact getByte_setByte_same _ _ _

theorem shifted_toNat_le (c : Word) (n : Nat) :
    (((c <<< n).extractLsb' 0 28).zeroExtend 32 : Word).toNat ≤ c.toNat * 2 ^ n := by
  simp [Nat.shiftLeft_eq]
  exact (Nat.mod_le _ _).trans (Nat.mod_le _ _)

theorem extract_ne_ff_of_lt {c : Word} (h : c.toNat < 2 ^ 27) : c.extractLsb' 20 8 ≠ 0xFF := by
  intro hff
  have := congrArg BitVec.toNat hff
  simp [Nat.shiftRight_eq_div_pow] at this
  omega

/-- A push with at most 27 bits left carries nothing: after 0xFF it emits another byte, after any other byte it leaves memory
before its own byte alone. -/
theorem mqPush_after {x : SegRegs × Memory} (h : x.1.c.toNat * 2 ^ x.1.ct.toNat < 2 ^ 27) :
    (x.1.b = 0xFF ∧ (mqPush x).1.b ≠ 0xFF) ∨
      (x.1.b ≠ 0xFF ∧ ∃ v, (mqPush x).2 = x.2.setByte (byteAddr x.1.outOffset) v) := by
  have hc := Nat.lt_of_le_of_lt (shifted_toNat_le x.1.c x.1.ct.toNat) h
  unfold mqPush mqByteOut
  dsimp only
  by_cases hb : x.1.b = 0xFF
  · rw [if_pos hb]
    exact .inl ⟨hb, extract_ne_ff_of_lt hc⟩
  · rw [if_neg hb, if_pos (BitVec.lt_def.2 hc)]
    exact .inr ⟨hb, _, rfl⟩

theorem mqPush_c (x : SegRegs × Memory) : (mqPush x).1.c.toNat * 2 ^ (mqPush x).1.ct.toNat < 2 ^ 27 := mqByteOut_c _

theorem mqPush_byte (x : SegRegs × Memory) : (mqPush x).2.getByte (byteAddr x.1.outOffset) = some (mqPush x).1.b :=
  mqByteOut_byte _

/-- After two pushes and the drop the last byte of the segment is not 0xFF (R170). -/
theorem mqDropFF_push_push_last {x : SegRegs × Memory} (hroom : x.1.outOffset + 2 ≤ Config.byteCap) :
    ∃ v ∈ (mqDropFF (mqPush (mqPush x))).2.getByte (byteAddr ((mqDropFF (mqPush (mqPush x))).1.outOffset - 1)), v ≠ 0xFF := by
  have hout1 : (mqPush x).1.outOffset = x.1.outOffset + 1 := (mqPush_emits (by omega)).outOffset
  have hout2 : (mqPush (mqPush x)).1.outOffset = x.1.outOffset + 2 := (mqPush_mqPush_emits hroom).outOffset
  have hbp2 : (mqPush (mqPush x)).1.bp.toNat = x.1.bp.toNat + 2 := (mqPush_mqPush_emits hroom).bp
  rcases mqDropFF_cases (mqPush (mqPush x)) with ⟨-, hb, heq⟩ | ⟨hkeep, heq⟩
  · rcases mqPush_after (mqPush_c x) with ⟨-, hne⟩ | ⟨hne, v, hmem⟩
    · exact absurd hb hne
    · have hlast : (mqDropFF (mqPush (mqPush x))).1.outOffset - 1 = x.1.outOffset := by
        unfold SegRegs.outOffset at hout2 ⊢
        rw [heq]
        dsimp only
        bv_omega
      have hbefore : byteAddr x.1.outOffset ≠ byteAddr (mqPush x).1.outOffset := by
        rw [hout1]
        simp [byteAddr]
      refine ⟨(mqPush x).1.b, ?_, hne⟩
      rw [hlast, heq]
      dsimp only
      rw [hmem, getByte_setByte, if_neg hbefore]
      exact mqPush_byte x
  · have hlast : (mqPush (mqPush x)).1.outOffset - 1 = (mqPush x).1.outOffset := by omega
    refine ⟨(mqPush (mqPush x)).1.b, ?_, fun hff => hkeep ⟨by omega, hff⟩⟩
    rw [heq, hlast]
    exact mqPush_byte (mqPush x)

/-! ### No decision coded (42_mq_coder.md R162, R171, R193) -/

section Initial

variable (r : SegRegs) (m : Memory)

/-- The first byte of an empty segment's FLUSH is 0xFF. -/
theorem mqPush_initial_first : mqPush ({ r with a := 0x8000, c := 0x7FFF, ct := 12, b := 0, bp := 0 }, m) =
    ({ r with a := 0x8000, c := 0x7F000, ct := 8, b := 0xFF, bp := 1 }, m.setByte (byteAddr r.start.toNat) 0xFF) := by
  simp [mqPush, mqByteOut, mqEmit8, mqEmit, SegRegs.outOffset]

/-- The second, after 0xFF, has seven bits. -/
theorem mqPush_initial_second : mqPush ({ r with a := 0x8000, c := 0x7F000, ct := 8, b := 0xFF, bp := 1 }, m) =
    ({ r with a := 0x8000, c := 0, ct := 7, b := 0x7F, bp := 2 }, m.setByte (byteAddr (r.start.toNat + 1)) 0x7F) := by
  simp [mqPush, mqByteOut, mqEmit7, mqEmit, SegRegs.outOffset]

theorem mqFlushed_initial : mqFlushed ({ r with a := 0x8000, c := 0, ct := 12, b := 0, bp := 0 }, m) =
    ({ r with a := 0x8000, c := 0, ct := 7, b := 0x7F, bp := 2 },
      (m.setByte (byteAddr r.start.toNat) 0xFF).setByte (byteAddr (r.start.toNat + 1)) 0x7F) := by
  have hset : mqSetBits { r with a := 0x8000, c := 0, ct := 12, b := 0, bp := 0 } = 0x7FFF := by simp [mqSetBits]
  unfold mqFlushed
  dsimp only
  rw [hset, mqPush_initial_first, mqPush_initial_second]
  exact if_neg fun h => absurd (show (0x7F : Byte) = 0xFF from h.2) (by decide)

end Initial

theorem execAll_pair {i j : Instr} {s t u : State} (hi : exec i s = .next t) (hj : exec j t = .next u) :
    execAll [i, j] s = .next u := by
  simp [execAll, hi, hj]

theorem exec_mqFlush {s : State} (hmode : s.status.cmode = .mqe) (hroom : HasRoom s 2) :
    exec .mqFlush s = .next (State.complete { s with
      status := { s.status with cmode := .idle }
      out := { s.out with nbytes := (mqFlushed (s.seg, s.mem)).1.bp }
      seg := (mqFlushed (s.seg, s.mem)).1, mem := (mqFlushed (s.seg, s.mem)).2 }) :=
  runCmd_termination hmode (mqFlush_run hroom)

/-- Settles O23: FLUSH is two pushes and the drop, which never leaves 0xFF last. -/
theorem mqFlushCompletes : Obligations.MqFlushCompletes := by
  constructor
  · intro s hmode hroom
    have hends := mqFlushed_ends (x := (s.seg, s.mem)) hroom
    have hle : _ ≤ s.seg.bp.toNat + 2 := hends.bp_le
    have hge : s.seg.bp.toNat + 2 ≤ _ := hends.le_bp
    have hlast := mqDropFF_push_push_last (x := ({ s.seg with c := mqSetBits s.seg }, s.mem)) hroom
    exact ⟨_, _, exec_mqFlush hmode hroom, rfl, hends.regs, by omega, hlast, hends.outside⟩
  · intro s hroom
    obtain ⟨hinit, -, -⟩ := encoderInitialisation s
    refine ⟨_, execAll_pair hinit (exec_mqFlush rfl hroom), ?_⟩
    have hflush := mqFlushed_initial { s.seg with start := s.cfg.segbase } s.mem
    dsimp only at hflush
    simp only [complete_out, complete_mem, complete_seg]
    rw [hflush]
    dsimp only
    refine ⟨rfl, ?_, getByte_setByte_same _ _ _⟩
    rw [getByte_setByte, if_neg (by simp [byteAddr]), getByte_setByte_same]

/-! ### ERTERM (42_mq_coder.md R175) -/

theorem ertermLoop_done (n : Nat) {k : Int} (hk : k ≤ 0) : ertermLoop n k = pure () := by
  cases n with
  | zero => rfl
  | succ n => exact if_neg (not_lt.2 hk)

theorem ertermLoop_push (s : State) (n : Nat) {k : Int} {x : SegRegs × Memory} (hk : 0 < k)
    (h : x.1.outOffset < Config.byteCap) : ertermLoop (n + 1) k (withCoder s x) =
      ertermLoop n (k - (mqPush x).1.ct.toNat) (withCoder s (mqPush x)) := by
  rw [ertermLoop, if_pos hk, push_clear_bind _ s h, see_bind]
  rfl

/-- The pushes of ERTERM: none with no bits to push out, one, or two while bits are left (log entry 21). -/
def ertermPushes (x : SegRegs × Memory) : SegRegs × Memory :=
  if 12 ≤ x.1.ct.toNat then x
  else if 12 ≤ x.1.ct.toNat + (mqPush x).1.ct.toNat then mqPush x
  else mqPush (mqPush x)

theorem mqErtermed_eq (x : SegRegs × Memory) : mqErtermed x = mqDropFF (ertermPushes x) := rfl

/-- Two turns of the loop are enough: with a room of two bytes, or with no bits to push out. -/
theorem ertermLoop_run (s : State) {x : SegRegs × Memory}
    (h : x.1.outOffset + 2 ≤ Config.byteCap ∨ 12 ≤ x.1.ct.toNat) :
    ertermLoop 2 (12 - x.1.ct.toNat) (withCoder s x) = .ok () (withCoder s (ertermPushes x)) := by
  unfold ertermPushes
  by_cases hfull : 12 ≤ x.1.ct.toNat
  · rw [if_pos hfull, ertermLoop_done _ (by omega), pure_run]
  · have hroom : x.1.outOffset + 2 ≤ Config.byteCap := h.resolve_right hfull
    rw [if_neg hfull, ertermLoop_push s 1 (by omega) (by omega)]
    by_cases hone : 12 ≤ x.1.ct.toNat + (mqPush x).1.ct.toNat
    · rw [if_pos hone, ertermLoop_done _ (by omega), pure_run]
    · rw [if_neg hone, ertermLoop_push s 0 (by omega) (mqPush_room hroom)]
      rfl

theorem mqErterm_run {s : State} (h : HasRoom s 2 ∨ 12 ≤ s.seg.ct.toNat) :
    mqErterm s = .ok () (withCoder s (mqErtermed (s.seg, s.mem))) := by
  have hloop := ertermLoop_run s (x := (s.seg, s.mem)) h
  have hdrop := dropTrailingFF_withCoder s (ertermPushes (s.seg, s.mem))
  exact (bind_of_ok hloop _).trans hdrop

theorem ertermPushes_emits {x : SegRegs × Memory} (hroom : x.1.outOffset + 2 ≤ Config.byteCap) :
    ∃ n ≤ 2, Emits n x (ertermPushes x) := by
  unfold ertermPushes
  split_ifs
  · exact ⟨0, by omega, .refl x⟩
  · exact ⟨1, by omega, mqPush_emits (by omega)⟩
  · exact ⟨2, by omega, mqPush_mqPush_emits hroom⟩

theorem ertermPushes_a (x : SegRegs × Memory) : (ertermPushes x).1.a = x.1.a := by
  unfold ertermPushes
  split_ifs
  · rfl
  · exact mqPush_a x
  · exact (mqPush_a _).trans (mqPush_a x)

theorem mqErtermed_ends {x : SegRegs × Memory} (hroom : x.1.outOffset + 2 ≤ Config.byteCap) :
    ∃ n ≤ 2, EndsSegment n x (mqErtermed x) := by
  obtain ⟨n, hn, hemit⟩ := ertermPushes_emits hroom
  exact ⟨n, hn, hemit.endsSegment (ertermPushes_a x)⟩

theorem exec_mqErterm {s : State} (hmode : s.status.cmode = .mqe) (h : HasRoom s 2 ∨ 12 ≤ s.seg.ct.toNat) :
    exec .mqErterm s = .next (State.complete { s with
      status := { s.status with cmode := .idle }
      out := { s.out with nbytes := (mqErtermed (s.seg, s.mem)).1.bp }
      seg := (mqErtermed (s.seg, s.mem)).1, mem := (mqErtermed (s.seg, s.mem)).2 }) :=
  runCmd_termination hmode (mqErterm_run h)

/-- ERTERM with no decision coded has nothing to push out and nothing to drop (R193). -/
theorem mqErtermed_initial (r : SegRegs) (m : Memory) :
    mqErtermed ({ r with ct := 12, bp := 0 }, m) = ({ r with ct := 12, bp := 0 }, m) := by
  have hfull : 12 ≤ (12 : BitVec 4).toNat := by decide
  unfold mqErtermed
  dsimp only
  rw [if_pos hfull]
  exact if_neg fun h => absurd (show 1 ≤ (0 : Word).toNat from h.1) (by decide)

/-- Settles O24: ERTERM is at most two pushes and the drop; after INITENC there is nothing to push. -/
theorem mqErtermCompletes : Obligations.MqErtermCompletes := by
  constructor
  · intro s hmode hroom
    obtain ⟨n, hn, hends⟩ := mqErtermed_ends (x := (s.seg, s.mem)) hroom
    have hle : _ ≤ s.seg.bp.toNat + n := hends.bp_le
    have hge : s.seg.bp.toNat + n ≤ _ := hends.le_bp
    exact ⟨_, _, exec_mqErterm hmode (.inl hroom), rfl, hends.regs, by omega, by omega, hends.outside_two hn⟩
  · intro s
    obtain ⟨hinit, -, -⟩ := encoderInitialisation s
    have hfull : 12 ≤ (12 : BitVec 4).toNat := by decide
    have hend := mqErtermed_initial { s.seg with start := s.cfg.segbase, a := 0x8000, c := 0, b := 0 } s.mem
    refine ⟨_, execAll_pair hinit (exec_mqErterm rfl (.inr hfull)), ?_⟩
    exact ⟨congrArg (·.1.bp) hend, congrArg Prod.snd hend⟩

end Sys2Proof.Proofs
end

section
/-!
PROOFS. MQ.INITDEC (O25): the byte-in on a written segment, and the registers INITDEC computes with it.
-/
namespace Sys2Proof.Proofs

open Sys2Proof.Machine Sys2Proof.Laws

/-! ### INITDEC (42_mq_coder.md R181, R194) -/

theorem countFill_eq_fillAfter (f : Bool) (s : State) :
    countFill f s = .ok () { s with seg := { s.seg with fillcnt := fillAfter s.seg.fillcnt f } } := by
  rw [countFill_run]
  unfold fillAfter
  cases f with
  | false => rfl
  | true => simp

/-- The bounds and the memory decide whether a segment is written. -/
theorem segmentWritten_of_eq {s t : State} (h : SegmentWritten s) (hmem : t.mem = s.mem)
    (hstart : t.seg.start = s.seg.start) (hstop : t.seg.stop = s.seg.stop) : SegmentWritten t := by
  unfold SegmentWritten
  rwa [hmem, hstart, hstop]

/-- Of two bytes the later one lies past the end when one of them does. -/
theorem pastEnd_or (stop i : Nat) : (decide (stop ≤ i) || decide (stop ≤ i + 1)) = decide (stop ≤ i + 1) := by
  rw [← Bool.decide_or]
  exact decide_eq_decide.2 (by omega)

/-- BYTEIN_BODY on a written segment: BYTEIN but for the count, and the flag of its later byte. -/
theorem byteInBody_written {s : State} (h : SegmentWritten s) :
    byteInBody s = .ok (decide (s.seg.stop.toNat ≤ s.seg.start.toNat + (s.seg.bp.toNat + 1)))
      { s with seg := { mqByteIn s.mem s.seg with fillcnt := s.seg.fillcnt } } := by
  have hflag := pastEnd_or s.seg.stop.toNat (s.seg.start.toNat + s.seg.bp.toNat)
  rw [byteInBody_run (segByte_written h _) (segByte_written h _), ← Nat.add_assoc, hflag]
  unfold mqByteIn
  dsimp only
  split
  · split <;> rfl
  · rfl

/-- INITDEC in terms of BYTEIN: the first byte, a byte-in after it, and the registers of R181. -/
theorem mqInitDec_byteIn {s : State} (h : SegmentWritten s) :
    let b0 := fillByte s.mem s.seg.start.toNat s.seg.stop.toNat 0
    let r := mqByteIn s.mem { s.seg with fillcnt := 0, bp := 0, c := b0.zeroExtend 32 <<< 16 }
    mqInitDec s = .ok () { s with seg := { r with
      fillcnt := fillAfter 0 (decide (s.seg.stop.toNat ≤ s.seg.start.toNat + 1))
      c := r.c <<< 7, ct := r.ct - 7, a := 0x8000 } } := by
  intro b0 r
  have hcleared : SegmentWritten { s with seg := { s.seg with fillcnt := 0, bp := 0 } } :=
    segmentWritten_of_eq h rfl rfl rfl
  have hopened : SegmentWritten { s with seg := { s.seg with fillcnt := 0, bp := 0, c := b0.zeroExtend 32 <<< 16 } } :=
    segmentWritten_of_eq h rfl rfl rfl
  unfold mqInitDec
  rw [updSeg_bind, bind_of_ok (segByte_written hcleared 0)]
  dsimp only
  rw [updSeg_bind, bind_of_ok (byteInBody_written hopened), bind_of_ok (countFill_eq_fillAfter _ _), updSeg_run]
  show EStateM.Result.ok () { s with seg := { r with
    fillcnt := fillAfter 0
      (decide (s.seg.stop.toNat ≤ s.seg.start.toNat + 0) || decide (s.seg.stop.toNat ≤ s.seg.start.toNat + 1))
    c := r.c <<< 7, ct := r.ct - 7, a := 0x8000 } } = _
  rw [Nat.add_zero, pastEnd_or]

/-- INITDEC, its registers written out (R181). -/
theorem mqInitDec_run {s : State} (h : SegmentWritten s) {stop : Nat} (hstop : s.seg.stop.toNat = stop) :
    let b0 := fillByte s.mem s.seg.start.toNat stop 0
    let b1 := fillByte s.mem s.seg.start.toNat stop 1
    let c0 : Word := b0.zeroExtend 32 <<< 16
    mqInitDec s = .ok () { s with seg := { s.seg with
      a := 0x8000
      c := (if b0 = 0xFF then (if 0x8F < b1 then c0 + 0xFF00 else c0 + (b1.zeroExtend 32 <<< 9))
            else c0 + (b1.zeroExtend 32 <<< 8)) <<< 7
      ct := if b0 = 0xFF ∧ ¬ 0x8F < b1 then 0 else 1
      bp := if b0 = 0xFF ∧ 0x8F < b1 then 0 else 1
      fillcnt := if stop ≤ s.seg.start.toNat + 1 then 1 else 0 } } := by
  have hcount (n : Nat) : fillAfter 0 (decide (stop ≤ n)) = if stop ≤ n then 1 else 0 := by
    simp [fillAfter]
  have hzero : (0 : Word).toNat = 0 := rfl
  rw [mqInitDec_byteIn h, hstop, hcount]
  unfold mqByteIn
  dsimp only
  rw [hstop, hzero, Nat.zero_add]
  generalize fillByte s.mem s.seg.start.toNat stop 0 = b0
  generalize fillByte s.mem s.seg.start.toNat stop 1 = b1
  by_cases hb0 : b0 = 0xFF
  · by_cases hb1 : 0x8F < b1
    · simp only [hb0, hb1, if_true, not_true, and_true, and_false, if_false]
      rfl
    · simp only [hb0, hb1, if_true, not_false_iff, and_true, and_false, if_false]
      rfl
  · simp only [hb0, false_and, if_false]
    rfl

theorem exec_mqInitdec_of_ok {s t : State} (hin : ¬ Config.byteCap < s.cfg.segbase.toNat + s.cfg.seglen.toNat)
    (h : mqInitDec { s with seg := { s.seg with start := s.cfg.segbase, stop := s.cfg.segbase + s.cfg.seglen } } = .ok () t) :
    exec .mqInitdec s = .next (State.complete { t with status := { t.status with cmode := .mqd } }) := by
  have hseg : s.cfg.segOutside = false := decide_eq_false hin
  refine runCmd_of_ok ?_
  rw [bind_of_ok (by rw [checkSegment_run, hseg]; rfl), bind_of_ok (latchCfgSegment_run s), bind_of_ok h, setMode_run]

/-- Settles O25: the check of R194, or INITDEC on the latched segment. -/
theorem mqInitdecExact : Obligations.MqInitdecExact := by
  refine fun s => ⟨fun hout => ?_, fun hin hwritten => ?_⟩
  · have hseg : s.cfg.segOutside = true := decide_eq_true hout
    exact runCmd_of_err (bind_of_error (by rw [checkSegment_run, hseg]; rfl) _)
  · have hcap := byteCap_le
    have hstop : (s.cfg.segbase + s.cfg.seglen).toNat = s.cfg.segbase.toNat + s.cfg.seglen.toNat := by bv_omega
    have hlatched : SegmentWritten { s with seg := { s.seg with
        start := s.cfg.segbase, stop := s.cfg.segbase + s.cfg.seglen } } := by
      intro j hj hle
      exact hwritten j (hstop ▸ hj) hle
    have hfill : (s.cfg.segbase.toNat + s.cfg.seglen.toNat ≤ s.cfg.segbase.toNat + 1) ↔ s.cfg.seglen.toNat < 2 := by omega
    have hrun := mqInitDec_run hlatched hstop
    dsimp only at hrun
    simp only [hfill] at hrun
    exact exec_mqInitdec_of_ok (by omega) hrun

end Sys2Proof.Proofs
end

section
/-!
PROOFS. MQ.DECODE (O26) on a written segment: RENORMD as its reference function, and the decision with the context it moves.
-/
namespace Sys2Proof.Proofs

open Sys2Proof.Machine Sys2Proof.Laws

/-! ### RENORMD (42_mq_coder.md R183, R184) -/

/-- The registers a decoder changes while it decodes (R195). -/
def ReadsOnly (r r' : SegRegs) : Prop :=
  r' = { r with a := r'.a, c := r'.c, ct := r'.ct, bp := r'.bp, fillcnt := r'.fillcnt }

theorem ReadsOnly.trans {r r' r'' : SegRegs} (h : ReadsOnly r r') (h' : ReadsOnly r' r'') : ReadsOnly r r'' := by
  unfold ReadsOnly at *
  rw [h] at h'
  exact h'

theorem segmentWritten_of_readsOnly {s : State} (h : SegmentWritten s) {r : SegRegs} (hr : ReadsOnly s.seg r) :
    SegmentWritten { s with seg := r } := by
  unfold ReadsOnly at hr
  exact segmentWritten_of_eq h rfl (by rw [hr]) (by rw [hr])

theorem mqByteIn_readsOnly (m : Memory) (r : SegRegs) : ReadsOnly r (mqByteIn m r) := by
  unfold mqByteIn ReadsOnly
  dsimp only
  split
  · split <;> rfl
  · rfl

@[simp] theorem mqByteIn_a (m : Memory) (r : SegRegs) : (mqByteIn m r).a = r.a := by
  unfold mqByteIn
  dsimp only
  split
  · split <;> rfl
  · rfl

/-- One turn of RENORMD (R184): `mqShiftIn` is made of these. -/
def mqTurnIn (m : Memory) (r : SegRegs) : SegRegs :=
  let r := if r.ct = 0 then mqByteIn m r else r
  { r with a := r.a <<< 1, c := r.c <<< 1, ct := r.ct - 1 }

theorem mqShiftIn_succ (m : Memory) (n : Nat) (r : SegRegs) : mqShiftIn m (n + 1) r = mqShiftIn m n (mqTurnIn m r) := rfl

@[simp] theorem mqTurnIn_a (m : Memory) (r : SegRegs) : (mqTurnIn m r).a = r.a <<< 1 := by
  unfold mqTurnIn
  dsimp only
  split
  · rw [mqByteIn_a]
  · rfl

theorem mqTurnIn_readsOnly (m : Memory) (r : SegRegs) : ReadsOnly r (mqTurnIn m r) := by
  unfold mqTurnIn
  dsimp only
  split
  · exact (mqByteIn_readsOnly m r).trans rfl
  · rfl

theorem mqShiftIn_readsOnly (m : Memory) (n : Nat) (r : SegRegs) : ReadsOnly r (mqShiftIn m n r) := by
  induction n generalizing r with
  | zero => rfl
  | succ n ih => exact (mqTurnIn_readsOnly m r).trans (ih _)

theorem mqShiftIn_a (m : Memory) (n : Nat) (r : SegRegs) : (mqShiftIn m n r).a = r.a <<< n := by
  induction n generalizing r with
  | zero => exact (BitVec.shiftLeft_zero _).symm
  | succ n ih => rw [mqShiftIn_succ, ih, mqTurnIn_a, Nat.add_comm, BitVec.shiftLeft_add]

theorem mqShiftIn_msb (m : Memory) {r : SegRegs} (h0 : r.a ≠ 0) : (mqShiftIn m (renormTurns r.a) r).a.msb = true := by
  rw [mqShiftIn_a]
  exact msb_shiftLeft_renormTurns h0

theorem renormDStep_written {s : State} (h : SegmentWritten s) :
    renormDStep s = .ok () { s with seg := mqTurnIn s.mem s.seg } := by
  unfold renormDStep mqTurnIn
  rw [see_bind]
  by_cases hct : s.seg.ct = 0
  · rw [if_pos hct, if_pos hct, bind_of_ok (byteIn_written h)]
    rfl
  · rw [if_neg hct, if_neg hct]
    rfl

/-- RENORMD makes some number of turns; from an A below 0x8000 that is not 0, those that bring a 1 to A[15]. -/
theorem renormD_written (fuel : Nat) {s : State} (h : SegmentWritten s) :
    ∃ n, renormD fuel s = .ok () { s with seg := mqShiftIn s.mem n s.seg } ∧
      (s.seg.a.msb = false → s.seg.a ≠ 0 → renormTurns s.seg.a ≤ fuel → n = renormTurns s.seg.a) := by
  induction fuel generalizing s with
  | zero => exact ⟨0, rfl, fun _ _ hfuel => (Nat.le_zero.1 hfuel).symm⟩
  | succ fuel ih =>
    unfold renormD
    rw [bind_of_ok (renormDStep_written h), see_bind]
    have hnext := segmentWritten_of_readsOnly h (mqTurnIn_readsOnly s.mem s.seg)
    cases hmsb' : (mqTurnIn s.mem s.seg).a.msb with
    | true =>
      refine ⟨1, rfl, fun hmsb h0 _ => ?_⟩
      rw [(renormTurns_shift hmsb h0).1, ← mqTurnIn_a s.mem, renormTurns_of_msb hmsb']
    | false =>
      obtain ⟨n, hrun, hn⟩ := ih hnext
      refine ⟨n + 1, hrun, fun hmsb h0 hfuel => ?_⟩
      obtain ⟨hturns, h0'⟩ := renormTurns_shift hmsb h0
      rw [← mqTurnIn_a s.mem] at hturns h0'
      rw [hn hmsb' h0' (by dsimp only; omega), hturns]

/-! ### DECODE (42_mq_coder.md R167, R185) -/

/-- The end of a decision that renormalises: its context, RENORMD from registers r, and the answer. -/
theorem renormD_answer {s : State} (h : SegmentWritten s) (cx : Label) (v : CtxEntry) (d : Bool) {r : SegRegs}
    (hr : ReadsOnly s.seg r) :
    ∃ n, (do setCtx cx v; renormD 16; pure d : Cmd Bool) { s with seg := r } =
        .ok d { s with ctx := s.ctx.set cx v, seg := mqShiftIn s.mem n r } ∧
      (r.a.msb = false → r.a ≠ 0 → n = renormTurns r.a) := by
  have hset : SegmentWritten { s with ctx := s.ctx.set cx v, seg := r } :=
    segmentWritten_of_eq (segmentWritten_of_readsOnly h hr) rfl rfl rfl
  obtain ⟨n, hrun, hn⟩ := renormD_written 16 hset
  refine ⟨n, ?_, fun hmsb h0 => hn hmsb h0 (Nat.le_succ_of_le (renormTurns_le _))⟩
  show (renormD 16 >>= fun _ => pure d) { s with ctx := s.ctx.set cx v, seg := r } = _
  rw [bind_of_ok hrun]
  rfl

theorem not_msb_of_lt_qe {e : CtxEntry} {a : BitVec 16} (h : a < (mqRow e.index).qe) : ¬ a.msb = true := by
  have ⟨_, hle⟩ := mqRow_qe_bounds e.index
  rw [msb_iff_le]
  rw [BitVec.lt_def] at h
  omega

section Decode

variable {s : State} {cx : Label}

/-- Below Qe: the part of size Qe, an MPS by the exchange when the rest is smaller than Qe (R185). -/
theorem mqDecode_lower (h : s.seg.c.extractLsb' 16 16 < (mqRow s.ctx[cx].index).qe) :
    let d := decodedDecision s.ctx[cx] s.seg.a s.seg.c
    mqDecode cx s = (do setCtx cx (ctxAfter s.ctx[cx] s.seg.a d); renormD 16; pure d)
      { s with seg := { s.seg with a := (mqRow s.ctx[cx].index).qe } } := by
  intro d
  have hd : d = if s.seg.a - (mqRow s.ctx[cx].index).qe < (mqRow s.ctx[cx].index).qe then s.ctx[cx].mps
      else !s.ctx[cx].mps := if_pos h
  unfold mqDecode decodeLps
  rw [see_bind, updSeg_bind, see_bind]
  dsimp only
  rw [if_pos h, see_bind, updSeg_bind]
  by_cases hsmall : s.seg.a - (mqRow s.ctx[cx].index).qe < (mqRow s.ctx[cx].index).qe
  · have hmps := ctxAfter_mps rfl (not_msb_of_lt_qe hsmall)
    simp only [hd, hsmall, decide_true, if_true, hmps]
  · have hlps := ctxAfter_lps (a := s.seg.a) (Bool.not_ne_self s.ctx[cx].mps)
    simp only [hd, hsmall, decide_false, Bool.false_eq_true, if_false, hlps]

/-- From Qe on, with A[15] still 1: an MPS without a turn (R185). -/
theorem mqDecode_upper_keeps (h : ¬ s.seg.c.extractLsb' 16 16 < (mqRow s.ctx[cx].index).qe)
    (hmsb : (s.seg.a - (mqRow s.ctx[cx].index).qe).msb = true) :
    mqDecode cx s = .ok s.ctx[cx].mps { s with seg := { s.seg with
      a := s.seg.a - (mqRow s.ctx[cx].index).qe
      c := s.seg.c - (mqRow s.ctx[cx].index).qe.zeroExtend 32 <<< 16 } } := by
  unfold mqDecode decodeMps
  rw [see_bind, updSeg_bind, see_bind]
  dsimp only
  rw [if_neg h, updSeg_bind, see_bind]
  dsimp only
  rw [if_pos hmsb, pure_run]

/-- From Qe on, with A[15] = 0: the rest, an LPS by the exchange when it is smaller than Qe (R185). -/
theorem mqDecode_upper_renorm (h : ¬ s.seg.c.extractLsb' 16 16 < (mqRow s.ctx[cx].index).qe)
    (hmsb : ¬ (s.seg.a - (mqRow s.ctx[cx].index).qe).msb = true) :
    let d := decodedDecision s.ctx[cx] s.seg.a s.seg.c
    mqDecode cx s = (do setCtx cx (ctxAfter s.ctx[cx] s.seg.a d); renormD 16; pure d)
      { s with seg := { s.seg with
        a := s.seg.a - (mqRow s.ctx[cx].index).qe
        c := s.seg.c - (mqRow s.ctx[cx].index).qe.zeroExtend 32 <<< 16 } } := by
  intro d
  have hd : d = if s.seg.a - (mqRow s.ctx[cx].index).qe < (mqRow s.ctx[cx].index).qe then !s.ctx[cx].mps
      else s.ctx[cx].mps := (if_neg h).trans (if_neg hmsb)
  unfold mqDecode decodeMps
  rw [see_bind, updSeg_bind, see_bind]
  dsimp only
  rw [if_neg h, updSeg_bind, see_bind]
  dsimp only
  rw [if_neg hmsb]
  by_cases hsmall : s.seg.a - (mqRow s.ctx[cx].index).qe < (mqRow s.ctx[cx].index).qe
  · have hlps := ctxAfter_lps (a := s.seg.a) (Bool.not_ne_self s.ctx[cx].mps)
    simp only [hd, hsmall, if_true, hlps]
  · have hmps := ctxAfter_mps rfl hmsb
    simp only [hd, hsmall, if_false, hmps]

end Decode

/-- DECODE on a written segment: the decision, its context, and the registers; those are `mqDecoded` from an A of at least
0x8000. -/
theorem mqDecode_written {s : State} (h : SegmentWritten s) (cx : Label) :
    let d := decodedDecision s.ctx[cx] s.seg.a s.seg.c
    ∃ r, mqDecode cx s = .ok d { s with ctx := s.ctx.set cx (ctxAfter s.ctx[cx] s.seg.a d), seg := r } ∧
      ReadsOnly s.seg r ∧ (s.seg.a.msb = true → r = mqDecoded s.ctx[cx] s.mem s.seg ∧ r.a.msb = true) := by
  intro d
  have ⟨hpos, hle⟩ := mqRow_qe_bounds s.ctx[cx].index
  have hqmsb : (mqRow s.ctx[cx].index).qe.msb = false := (msb_eq_false_iff_lt _).2 (by omega)
  have hq0 : (mqRow s.ctx[cx].index).qe ≠ 0 := by bv_omega
  have hrest0 (ha : s.seg.a.msb = true) : s.seg.a - (mqRow s.ctx[cx].index).qe ≠ 0 := by
    have := (msb_iff_le _).1 ha
    bv_omega
  unfold mqDecoded
  dsimp only
  by_cases hlower : s.seg.c.extractLsb' 16 16 < (mqRow s.ctx[cx].index).qe
  · have hpart : ReadsOnly s.seg { s.seg with a := (mqRow s.ctx[cx].index).qe } := rfl
    obtain ⟨n, hrun, hn⟩ := renormD_answer h cx (ctxAfter s.ctx[cx] s.seg.a d) d hpart
    refine ⟨_, (mqDecode_lower hlower).trans hrun, hpart.trans (mqShiftIn_readsOnly _ _ _), fun ha => ?_⟩
    rw [if_pos hlower, hn hqmsb hq0]
    exact ⟨rfl, mqShiftIn_msb _ hq0⟩
  · by_cases hmsb : (s.seg.a - (mqRow s.ctx[cx].index).qe).msb = true
    · have hd : d = s.ctx[cx].mps := (if_neg hlower).trans (if_pos hmsb)
      rw [set_ctxAfter_of_skipsRenorm ⟨hd, hmsb⟩, hd, if_neg hlower, if_pos ((le_iff_msb _).2 hmsb)]
      exact ⟨_, mqDecode_upper_keeps hlower hmsb, rfl, fun _ => ⟨rfl, hmsb⟩⟩
    · have hpart : ReadsOnly s.seg { s.seg with
          a := s.seg.a - (mqRow s.ctx[cx].index).qe
          c := s.seg.c - (mqRow s.ctx[cx].index).qe.zeroExtend 32 <<< 16 } := rfl
      obtain ⟨n, hrun, hn⟩ := renormD_answer h cx (ctxAfter s.ctx[cx] s.seg.a d) d hpart
      refine ⟨_, (mqDecode_upper_renorm hlower hmsb).trans hrun, hpart.trans (mqShiftIn_readsOnly _ _ _), fun ha => ?_⟩
      rw [if_neg hlower, if_neg (mt (le_iff_msb _).1 hmsb), hn (Bool.eq_false_iff.2 hmsb) (hrest0 ha)]
      exact ⟨rfl, mqShiftIn_msb _ (hrest0 ha)⟩

/-- Settles O26: DECODE on a written segment, its decision in RESULT. -/
theorem mqDecodeCompletes : Obligations.MqDecodeCompletes := by
  intro s cx hcx hmode hwritten
  obtain ⟨r, hrun, hregs, hexact⟩ := mqDecode_written hwritten (labelOf cx)
  have hfields : (Instr.mqDecode cx).wellFormed = true := decide_eq_true hcx
  refine ⟨_, r, runCmd_of_ok ?_, rfl, hregs, hexact⟩
  rw [checkFields_needMode_bind hfields hmode, bind_of_ok hrun]
  rfl

end Sys2Proof.Proofs
end

section
/-!
PROOFS. The raw coder's commands, exactly (O27 to O30; O29 for MEL.INITDEC too): RAWPUT, RAWFLUSH with its padding, the decoder
initialisations, and RAWGET on a written segment.
-/
namespace Sys2Proof.Proofs

open Sys2Proof.Machine Sys2Proof.Laws

variable {s : State}

/-- A command in its mode gets past its check (10_state.md R44). -/
theorem needMode_bind {m : CMode} (hmode : s.status.cmode = m) (c : Unit → Cmd Unit) : (needMode m >>= c) s = c () s :=
  bind_of_ok (by rw [needMode_run, if_pos hmode]) _

theorem hasRoom_one_iff : HasRoom s 1 ↔ ¬ Config.byteCap ≤ s.seg.outOffset := by
  unfold HasRoom
  omega

/-! ### RAW.PUTBIT (43_raw_bypass.md R212, R221) -/

/-- MQ_C once the bit d stands in the next free position (R212). -/
def rawWith (r : SegRegs) (d : Bool) : Word := r.c + (zextBit d <<< (r.ct - 1).toNat)

theorem rawPut_inside {d : Bool} (hct : s.seg.ct ≠ 1) :
    rawPut d s = .ok () { s with seg := { s.seg with ct := s.seg.ct - 1, c := rawWith s.seg d } } := by
  rw [rawPut_run]
  exact if_neg (by bv_omega)

theorem rawPut_last {d : Bool} (hct : s.seg.ct = 1) :
    rawPut d s = nextByte { s with seg := { s.seg with ct := 0, c := rawWith s.seg d } } := by
  rw [rawPut_run]
  simp only [rawWith, hct]
  rfl

theorem nextByte_room (hroom : HasRoom s 1) : nextByte s = .ok () { s with
    mem := s.mem.setByte (byteAddr s.seg.outOffset) (s.seg.c.extractLsb' 0 8)
    seg := { s.seg with bp := s.seg.bp + 1, b := s.seg.c.extractLsb' 0 8,
                        ct := freeAfter (s.seg.c.extractLsb' 0 8), c := 0 } } := by
  rw [nextByte_run, if_neg (hasRoom_one_iff.1 hroom)]

theorem nextByte_overflow (hroom : ¬ HasRoom s 1) : nextByte s = .error (.err .overflow) s := by
  rw [nextByte_run, if_pos (not_not.1 (mt hasRoom_one_iff.2 hroom))]

/-- Settles O27: the bit is counted; with it the byte is complete or not, and a complete one has room or not. -/
theorem rawPutbitExact : Obligations.RawPutbitExact := by
  intro s d hmode
  refine ⟨fun hct => ?inside, fun hct hroom => ?emits, fun hct hroom => ?overflows⟩
  case inside => exact runCmd_of_ok ((needMode_bind hmode _).trans (rawPut_inside hct))
  case emits => exact runCmd_of_ok ((needMode_bind hmode _).trans ((rawPut_last hct).trans (nextByte_room hroom)))
  case overflows => exact runCmd_of_err ((needMode_bind hmode _).trans ((rawPut_last hct).trans (nextByte_overflow hroom)))

/-! ### RAW.FLUSH (43_raw_bypass.md R213, R222) -/

/-- The padding of n positions that starts with b: the first n bits of 0101… or 1010… (R213). -/
def padBits (b : Bool) (n : Nat) : Word := (if b then 0xAA else 0x55 : Word) >>> (8 - n)

theorem padBits_succ (b : Bool) {n : Nat} (hn : n < 8) : zextBit b <<< n + padBits (!b) n = padBits b (n + 1) := by
  have hall : ∀ (b : Bool) (n : Fin 8), zextBit b <<< n.val + padBits (!b) n.val = padBits b (n.val + 1) := by decide
  exact hall b ⟨n, hn⟩

/-- The padding fills every free position. -/
theorem rawPad_run {n : Nat} (hn : n ≤ 8) (b : Bool) (hct : s.seg.ct.toNat = n) :
    rawPad n b s = .ok () { s with seg := { s.seg with ct := 0, c := s.seg.c + padBits b n } } := by
  induction n generalizing s b with
  | zero =>
    have hct0 : s.seg.ct = 0 := by bv_omega
    have hpad : padBits b 0 = 0 := by cases b <;> rfl
    have hsame : ({ s.seg with ct := 0, c := s.seg.c + padBits b 0 } : SegRegs) = s.seg := by
      rw [hpad, ← hct0]
      simp
    rw [hsame]
    rfl
  | succ n ih =>
    have hct' : (s.seg.ct - 1).toNat = n := by bv_omega
    unfold rawPad
    rw [updSeg_bind, updSeg_bind, ih (by omega) _ hct']
    dsimp only
    rw [hct', BitVec.add_assoc, padBits_succ b (by omega)]

theorem fullCt_toNat (r : SegRegs) : r.fullCt.toNat = if 1 ≤ r.bp.toNat ∧ r.b = 0xFF then 7 else 8 := by
  unfold SegRegs.fullCt
  split <;> rfl

/-- The coder once the partial byte v is emitted (R213). -/
def rawEmit (v : Byte) (x : SegRegs × Memory) : SegRegs × Memory :=
  ({ x.1 with ct := 8, c := 0, b := v, bp := x.1.bp + 1 }, x.2.setByte (byteAddr x.1.outOffset) v)

/-- The partial byte with its padding (R213). -/
def rawPadded (r : SegRegs) : Byte := (r.c + padBits false r.ct.toNat).extractLsb' 0 8

theorem rawPadded_eq (r : SegRegs) :
    rawPadded r = (r.c + ((0x55 : Word) >>> (8 - r.ct.toNat))).extractLsb' 0 8 := by
  rw [rawPadded, padBits, if_neg Bool.false_ne_true]

theorem rawFlush_partial (hct : s.seg.ct.toNat < s.seg.fullCt.toNat) (hroom : HasRoom s 1) :
    rawFlush s = .ok () (withCoder s (mqDropFF (rawEmit (rawPadded s.seg) (s.seg, s.mem)))) := by
  have hle : s.seg.ct.toNat ≤ 8 := by
    rw [fullCt_toNat] at hct
    split at hct <;> omega
  have hemit : emitAssembled { s with seg := { s.seg with ct := 0, c := s.seg.c + padBits false s.seg.ct.toNat } } = _ :=
    (emitAssembled_run _).trans (if_neg (hasRoom_one_iff.1 hroom))
  unfold rawFlush
  rw [see_bind]
  dsimp only
  rw [if_pos (BitVec.lt_def.2 hct), bind_of_ok (rawPad_run hle false rfl), bind_of_ok hemit, updSeg_bind]
  exact dropTrailingFF_withCoder s (rawEmit (rawPadded s.seg) (s.seg, s.mem))

theorem rawFlush_complete (hct : ¬ s.seg.ct.toNat < s.seg.fullCt.toNat) :
    rawFlush s = .ok () (withCoder s (mqDropFF (s.seg, s.mem))) := by
  unfold rawFlush
  rw [see_bind]
  dsimp only
  rw [if_neg (mt BitVec.lt_def.1 hct)]
  exact dropTrailingFF_withCoder s (s.seg, s.mem)

/-- The byte just emitted is dropped when it is 0xFF. -/
theorem mqDropFF_rawEmit {x : SegRegs × Memory} (hroom : x.1.outOffset < Config.byteCap) (v : Byte) :
    mqDropFF (rawEmit v x) = ({ (rawEmit v x).1 with bp := if v = 0xFF then x.1.bp else x.1.bp + 1 }, (rawEmit v x).2) := by
  have hpos : 1 ≤ (x.1.bp + 1).toNat := by
    rw [bp_add_one hroom]
    omega
  have hback : x.1.bp + 1 - 1 = x.1.bp := by bv_omega
  unfold mqDropFF
  by_cases hv : v = 0xFF
  · rw [if_pos ⟨hpos, hv⟩, if_pos hv]
    simp only [rawEmit, hback]
  · rw [if_neg fun h => hv h.2, if_neg hv]
    rfl

/-- Settles O28: a partial byte is padded and emitted, and a trailing 0xFF is dropped. -/
theorem rawFlushExact : Obligations.RawFlushExact := by
  intro s hmode hroom
  refine ⟨fun hct => ?partialByte, fun hct => ?noPartialByte⟩
  case partialByte =>
    have hrun := rawFlush_partial (by rwa [fullCt_toNat]) hroom
    rw [mqDropFF_rawEmit (x := (s.seg, s.mem)) hroom, rawPadded_eq] at hrun
    exact runCmd_termination hmode hrun
  case noPartialByte =>
    have hrun := rawFlush_complete (by rwa [fullCt_toNat])
    refine (runCmd_termination hmode hrun).trans ?_
    rcases mqDropFF_cases (s.seg, s.mem) with ⟨hpos, hb, heq⟩ | ⟨hkeep, heq⟩
    · rw [heq, if_pos ⟨hpos, hb⟩]
    · rw [heq, if_neg hkeep]

/-! ### RAW.INITDEC and MEL.INITDEC (43_raw_bypass.md R223, 45_ht_block_coder.md R313) -/

/-- A decoder initialisation stops at a segment that ends past BYTE memory. -/
theorem runCmd_initdec_outside (hout : Config.byteCap < s.cfg.segbase.toNat + s.cfg.seglen.toNat) (c : Unit → Cmd Unit) :
    runCmd (checkSegment >>= c) s = .next (s.takeError .config) := by
  have hseg : s.cfg.segOutside = true := decide_eq_true hout
  exact runCmd_of_err (bind_of_error (by rw [checkSegment_run, hseg]; rfl) _)

/-- One that only sets coder registers reads no byte. -/
theorem runCmd_initdec_inside {init : Cmd Unit} {f : SegRegs → SegRegs} (h : init = updSeg f) (m : CMode)
    (hin : s.cfg.segbase.toNat + s.cfg.seglen.toNat ≤ Config.byteCap) :
    runCmd (do checkSegment; latchCfgSegment; init; setMode m) s = .next (State.complete { s with
      status := { s.status with cmode := m }
      seg := f { s.seg with start := s.cfg.segbase, stop := s.cfg.segbase + s.cfg.seglen } }) := by
  have hseg : s.cfg.segOutside = false := decide_eq_false (by omega)
  refine runCmd_of_ok ?_
  rw [h, bind_of_ok (by rw [checkSegment_run, hseg]; rfl), bind_of_ok (latchCfgSegment_run s), updSeg_bind, setMode_run]

/-- Settles O29: one check, and the registers each decoder starts with. -/
theorem rawAndMelInitdecExact : Obligations.RawAndMelInitdecExact := by
  refine fun s => ⟨fun hout => ⟨runCmd_initdec_outside hout _, runCmd_initdec_outside hout _⟩, fun hin => ?_⟩
  have hraw := runCmd_initdec_inside (init := rawInitDec) rfl .rawd hin
  have hmel := runCmd_initdec_inside (init := melInitDec) rfl .meld hin
  exact ⟨hraw, hmel⟩

/-! ### RAW.GETBIT (43_raw_bypass.md R217, R224) -/

/-- The byte the next byte-in step reads (20_memory.md R80). -/
def nextSegByte (s : State) : Byte := fillByte s.mem s.seg.start.toNat s.seg.stop.toNat s.seg.bp.toNat

/-- That byte lies past the end of the segment. -/
def nextIsFill (s : State) : Bool := decide (s.seg.stop.toNat ≤ s.seg.start.toNat + s.seg.bp.toNat)

/-- That byte is a marker, or the fill value after 0xFF (R217). -/
def NextIsMarker (s : State) : Prop := s.seg.c.extractLsb' 0 8 = 0xFF ∧ 0x8F < nextSegByte s

/-- A marker is not taken: it feeds 1 bits (R217). -/
theorem rawByteIn_marker (h : SegmentWritten s) (hmark : NextIsMarker s) : rawByteIn s = .ok () { s with seg := { s.seg with
    c := 0xFF, ct := 8, fillcnt := fillAfter s.seg.fillcnt (nextIsFill s) } } := by
  obtain ⟨hff, hv⟩ := hmark
  unfold nextSegByte at hv
  unfold rawByteIn
  rw [see_bind, bind_of_ok (segByte_written h _)]
  dsimp only
  rw [if_pos hff, if_pos hv, updSeg_bind, countFill_eq_fillAfter]
  rfl

/-- Any other byte is taken, with the positions it has after the byte before it (R211, R217). -/
theorem rawByteIn_byte (h : SegmentWritten s) (hmark : ¬ NextIsMarker s) : rawByteIn s = .ok () { s with seg := { s.seg with
    c := (nextSegByte s).zeroExtend 32, bp := s.seg.bp + 1, ct := freeAfter (s.seg.c.extractLsb' 0 8)
    fillcnt := fillAfter s.seg.fillcnt (nextIsFill s) } } := by
  unfold rawByteIn
  rw [see_bind, bind_of_ok (segByte_written h _)]
  dsimp only
  by_cases hff : s.seg.c.extractLsb' 0 8 = 0xFF
  · have hv : ¬ 0x8F < nextSegByte s := fun hv => hmark ⟨hff, hv⟩
    unfold nextSegByte at hv
    rw [if_pos hff, if_neg hv, updSeg_bind, countFill_eq_fillAfter, freeAfter, if_pos hff]
    rfl
  · rw [if_neg hff, updSeg_bind, countFill_eq_fillAfter, freeAfter, if_neg hff]
    rfl

theorem rawGet_inside (hct : s.seg.ct ≠ 0) : rawGet s = takeBit s := by
  unfold rawGet
  rw [see_bind, if_neg hct]

theorem rawGet_byteIn {t : State} (hct : s.seg.ct = 0) (h : rawByteIn s = .ok () t) : rawGet s = takeBit t := by
  unfold rawGet
  rw [see_bind, if_pos hct, bind_of_ok h]

/-- RAW.GETBIT returns the next of the bits that t still has (R224). -/
theorem exec_rawGetbit_of_takeBit {t : State} (hmode : s.status.cmode = .rawd) (h : rawGet s = takeBit t) :
    exec .rawGetbit s = .next (State.complete { t with
      out := { t.out with result := zextBit (t.seg.c.getLsbD (t.seg.ct - 1).toNat) }
      seg := { t.seg with ct := t.seg.ct - 1 } }) := by
  refine runCmd_of_ok ((needMode_bind hmode _).trans ?_)
  rw [bind_of_ok (h.trans (takeBit_run t))]
  rfl

/-- RAW.GETBIT after a byte-in step that leaves n bits of the byte v. -/
theorem exec_rawGetbit_of_byteIn {v : Byte} {n : Nat} {bp fillcnt : Word} (hmode : s.status.cmode = .rawd)
    (hct : s.seg.ct = 0) (hn : n = 7 ∨ n = 8) (h : rawByteIn s = .ok () { s with seg := { s.seg with
      c := v.zeroExtend 32, ct := BitVec.ofNat 4 n, bp := bp, fillcnt := fillcnt } }) :
    exec .rawGetbit s = .next (State.complete { s with
      out := { s.out with result := if v.getLsbD (n - 1) then 1 else 0 }
      seg := { s.seg with
        c := v.zeroExtend 32, ct := BitVec.ofNat 4 (n - 1), bp := bp, fillcnt := fillcnt } }) := by
  have hbit : (v.zeroExtend 32).getLsbD (n - 1) = v.getLsbD (n - 1) := by
    rw [BitVec.getLsbD_setWidth, decide_eq_true (by omega), Bool.true_and]
  have hleft : BitVec.ofNat 4 n - 1 = BitVec.ofNat 4 (n - 1) ∧ (BitVec.ofNat 4 (n - 1)).toNat = n - 1 := by
    rcases hn with rfl | rfl <;> decide
  have hrun := exec_rawGetbit_of_takeBit hmode (rawGet_byteIn hct h)
  dsimp only at hrun
  rw [hleft.1, hleft.2, hbit] at hrun
  exact hrun

theorem freeAfter_eq (b : Byte) : freeAfter b = BitVec.ofNat 4 (if b = 0xFF then 7 else 8) := by
  unfold freeAfter
  split <;> rfl

/-- Settles O30: the bit comes from the byte at hand, from 1 bits in place of a marker, or from the next byte. -/
theorem rawGetbitExact : Obligations.RawGetbitExact := by
  intro s hmode hwritten
  refine ⟨fun hct => exec_rawGetbit_of_takeBit hmode (rawGet_inside hct), fun hct => ?_⟩
  by_cases hmark : NextIsMarker s
  · have hrun := exec_rawGetbit_of_byteIn (v := 0xFF) (n := 8) hmode hct (.inr rfl) (rawByteIn_marker hwritten hmark)
    unfold NextIsMarker nextSegByte at hmark
    simpa only [nextIsFill, hmark, and_self, decide_true, if_true, Bool.true_eq_false, and_false, if_false] using hrun
  · have htake := rawByteIn_byte hwritten hmark
    rw [freeAfter_eq] at htake
    have hrun := exec_rawGetbit_of_byteIn hmode hct (by split <;> simp) htake
    unfold NextIsMarker nextSegByte at hmark
    dsimp only
    rw [decide_eq_false hmark]
    by_cases hff : s.seg.c.extractLsb' 0 8 = 0xFF
    · simpa only [nextSegByte, nextIsFill, hff, and_self, if_true, Bool.false_eq_true, if_false] using hrun
    · simpa only [nextSegByte, nextIsFill, hff, false_and, if_false, Bool.false_eq_true] using hrun

end Sys2Proof.Proofs
end

section
/-!
PROOFS. The raw round trip (O31): the bits a raw segment holds, what the encoder keeps while it codes a bit sequence, the segment
RAWFLUSH leaves, and the bits the decoder still has ahead of it.
-/
namespace Sys2Proof.Proofs

open Sys2Proof.Machine Sys2Proof.Laws

/-! ### The bits of a raw segment (43_raw_bypass.md R211) -/

/-- The k low bits of n, most significant first. -/
def msbBits (n : Nat) : Nat → List Bool
  | 0 => []
  | k + 1 => n.testBit k :: msbBits n k

theorem length_msbBits (n k : Nat) : (msbBits n k).length = k := by
  induction k with
  | zero => rfl
  | succ k ih => rw [msbBits, List.length_cons, ih]

theorem msbBits_congr {m n k : Nat} (h : ∀ i < k, m.testBit i = n.testBit i) : msbBits m k = msbBits n k := by
  induction k with
  | zero => rfl
  | succ k ih =>
    unfold msbBits
    rw [h k (Nat.lt_succ_self k), ih fun i hi => h i (by omega)]

/-- A number put together from a high and a low part has the bits of both. -/
theorem msbBits_append (a : Nat) {x k : Nat} (hx : x < 2 ^ k) (j : Nat) :
    msbBits (2 ^ k * a + x) (j + k) = msbBits a j ++ msbBits x k := by
  induction j with
  | zero =>
    rw [Nat.zero_add]
    refine msbBits_congr fun i hi => ?_
    rw [Nat.testBit_two_pow_mul_add a hx, if_pos hi]
  | succ j ih =>
    have hbit : (2 ^ k * a + x).testBit (j + k) = a.testBit j := by
      rw [Nat.testBit_two_pow_mul_add a hx, if_neg (by omega), Nat.add_sub_cancel]
    rw [Nat.add_right_comm]
    simp only [msbBits, hbit, ih, List.cons_append]

theorem msbBits_snoc (a k : Nat) (d : Bool) : msbBits (2 * a + d.toNat) (k + 1) = msbBits a k ++ [d] := by
  rw [← Nat.pow_one 2, msbBits_append a (by cases d <;> decide) k]
  cases d <;> rfl

/-- The bits of the segment bytes vs that follow byte b: a byte after 0xFF has 7 of them, any other 8 (R211). -/
def segmentBits (b : Byte) : List Byte → List Bool
  | [] => []
  | v :: vs => msbBits v.toNat (freeAfter b).toNat ++ segmentBits v vs

theorem freeAfter_toNat (b : Byte) : (freeAfter b).toNat = if b = 0xFF then 7 else 8 := by
  unfold freeAfter
  split <;> rfl

theorem freeAfter_pos (b : Byte) : 0 < (freeAfter b).toNat := by
  rw [freeAfter_toNat]
  split <;> decide

theorem segmentBits_append (b : Byte) (vs ws : List Byte) :
    segmentBits b (vs ++ ws) = segmentBits b vs ++ segmentBits (vs.getLastD b) ws := by
  induction vs generalizing b with
  | nil => rfl
  | cons v vs ih => rw [List.cons_append, segmentBits, segmentBits, ih, List.append_assoc, List.getLastD_cons]

theorem segmentBits_snoc (b : Byte) (vs : List Byte) (v : Byte) :
    segmentBits b (vs ++ [v]) = segmentBits b vs ++ msbBits v.toNat (freeAfter (vs.getLastD b)).toNat := by
  rw [segmentBits_append, segmentBits, segmentBits, List.append_nil]

/-- Every byte holds a bit. -/
theorem length_le_segmentBits (b : Byte) (vs : List Byte) : vs.length ≤ (segmentBits b vs).length := by
  induction vs generalizing b with
  | nil => exact Nat.le_refl 0
  | cons v vs ih =>
    have hpos := freeAfter_pos b
    have := ih v
    rw [segmentBits, List.length_append, List.length_cons, length_msbBits]
    omega

/-- After 0xFF no byte that the decoder would take for a marker (R214, R217). -/
def Stuffed (b v : Byte) : Prop := b = 0xFF → ¬ 0x8F < v

theorem stuffed_snoc {b v : Byte} {vs : List Byte} (h : (b :: vs).IsChain Stuffed) (hv : Stuffed (vs.getLastD b) v) :
    (b :: (vs ++ [v])).IsChain Stuffed := by
  refine List.IsChain.append (l₁ := b :: vs) h (.singleton v) fun x hx y hy => ?_
  rw [List.getLast?_cons, Option.mem_some_iff, ← List.getLastD_eq_getLast?] at hx
  obtain rfl : v = y := by simpa using hy
  rwa [← hx]

/-- The bytes vs stand in BYTE memory from offset base on. -/
def HoldsAt (m : Memory) (base : Nat) (vs : List Byte) : Prop :=
  ∀ j (hj : j < vs.length), m.getByte (byteAddr (base + j)) = some vs[j]

theorem HoldsAt.left {m : Memory} {base : Nat} {vs ws : List Byte} (h : HoldsAt m base (vs ++ ws)) : HoldsAt m base vs := by
  intro j hj
  rw [h j (by rw [List.length_append]; omega), List.getElem_append_left hj]

theorem HoldsAt.snoc {m : Memory} {base : Nat} {vs : List Byte} (h : HoldsAt m base vs) (v : Byte) :
    HoldsAt (m.setByte (byteAddr (base + vs.length)) v) base (vs ++ [v]) := by
  intro j hj
  rw [List.length_append, List.length_singleton] at hj
  rw [getByte_setByte]
  by_cases hlast : j = vs.length
  · subst hlast
    rw [if_pos rfl, List.getElem_concat_length rfl]
  · rw [if_neg (by unfold byteAddr; omega), h j (by omega), List.getElem_append_left]

/-! ### The encoder (R210, R212) -/

/-- The coder has emitted the bytes vs from offset base on. -/
structure Emitted (base : Word) (r : SegRegs) (m : Memory) (vs : List Byte) : Prop where
  start : r.start = base
  bp : r.bp.toNat = vs.length
  last : r.b = vs.getLastD 0
  stuffed : (0 :: vs).IsChain Stuffed
  holds : HoldsAt m base.toNat vs

/-- The number a is the k bits of the byte being assembled; the positions below it are free (R210). -/
structure Assembled (r : SegRegs) (k a : Nat) : Prop where
  free_pos : 0 < r.ct.toNat
  free : r.ct.toNat + k = (freeAfter r.b).toNat
  c : r.c.toNat = 2 ^ r.ct.toNat * a
  lt : a < 2 ^ k

/-- The raw encoder has coded the bits ds into the segment at base; e is the error flag it leaves alone. -/
structure RawCoded (base : Word) (e : Option ErrCode) (ds : List Bool) (s : State) : Prop where
  mode : s.status.cmode = .rawe
  err : s.status.err = e
  segbase : s.cfg.segbase = base
  bits : ∃ vs k a, Emitted base s.seg s.mem vs ∧ Assembled s.seg k a ∧ segmentBits 0 vs ++ msbBits a k = ds

section Encode

variable {base : Word} {e : Option ErrCode} {s : State} {r r' : SegRegs} {m : Memory} {vs : List Byte} {k a : Nat}

theorem Emitted.outOffset (h : Emitted base r m vs) : r.outOffset = base.toNat + vs.length := by
  rw [SegRegs.outOffset, h.start, h.bp]

/-- Registers with 0xFF in MQ_B have emitted it last: the pre-stream value is 0 (R210). -/
theorem Emitted.ends_ff (h : Emitted base r m vs) (hb : r.b = 0xFF) : ∃ vs', vs = vs' ++ [0xFF] := by
  have hlast := h.last.symm.trans hb
  rcases List.eq_nil_or_concat vs with rfl | ⟨vs', w, rfl⟩
  · exact absurd hlast (by decide)
  · rw [List.concat_eq_append, List.getLastD_concat] at hlast
    exact ⟨vs', by rw [List.concat_eq_append, hlast]⟩

/-- The positions of an empty byte, as the termination counts them (R213). -/
theorem Emitted.full (h : Emitted base r m vs) :
    (if 1 ≤ r.bp.toNat ∧ r.b = 0xFF then 7 else 8) = (freeAfter r.b).toNat := by
  rw [freeAfter_toNat]
  by_cases hb : r.b = 0xFF
  · obtain ⟨vs', rfl⟩ := h.ends_ff hb
    have hbp := h.bp
    rw [List.length_append, List.length_singleton] at hbp
    rw [if_pos ⟨by omega, hb⟩, if_pos hb]
  · rw [if_neg fun hc => hb hc.2, if_neg hb]

/-- Registers that agree where the emitted bytes are concerned. -/
theorem Emitted.congr (h : Emitted base r m vs) (hstart : r'.start = r.start) (hbp : r'.bp = r.bp) (hb : r'.b = r.b) :
    Emitted base r' m vs :=
  ⟨hstart.trans h.start, hbp ▸ h.bp, hb.trans h.last, h.stuffed, h.holds⟩

/-- One byte more (20_memory.md R81). -/
theorem Emitted.snoc (h : Emitted base r m vs) {v : Byte} (hroom : r.outOffset < Config.byteCap) (hv : Stuffed r.b v)
    (hstart : r'.start = r.start) (hbp : r'.bp = r.bp + 1) (hb : r'.b = v) :
    Emitted base r' (m.setByte (byteAddr r.outOffset) v) (vs ++ [v]) where
  start := hstart.trans h.start
  bp := by rw [hbp, bp_add_one hroom, h.bp, List.length_append, List.length_singleton]
  last := by rw [hb, List.getLastD_concat]
  stuffed := stuffed_snoc h.stuffed (h.last ▸ hv)
  holds := by
    rw [h.outOffset]
    exact h.holds.snoc v

theorem Assembled.length_le (h : Assembled r k a) : r.ct.toNat + k ≤ 8 := by
  rw [h.free, freeAfter_toNat]
  split <;> omega

/-- The assembly register has no bits beside those coded, whatever stands in the free positions. -/
theorem Assembled.with_lt (h : Assembled r k a) {x : Nat} (hx : x < 2 ^ r.ct.toNat) :
    2 ^ r.ct.toNat * a + x < 2 ^ (freeAfter r.b).toNat := by
  rw [← h.free, Nat.pow_add]
  calc 2 ^ r.ct.toNat * a + x < 2 ^ r.ct.toNat * (a + 1) := by rw [Nat.mul_succ]; omega
    _ ≤ 2 ^ r.ct.toNat * 2 ^ k := Nat.mul_le_mul_left _ h.lt

/-- A byte that fills the free positions after 0xFF keeps its bit 7 at 0 (R211). -/
theorem stuffed_of_lt {b v : Byte} (h : v.toNat < 2 ^ (freeAfter b).toNat) : Stuffed b v := by
  rintro rfl hv
  have : v.toNat < 128 := h
  bv_omega

theorem toNat_lt_of_freeAfter {x : Nat} {b : Byte} (h : x < 2 ^ (freeAfter b).toNat) : x < 256 := by
  rw [freeAfter_toNat] at h
  split at h <;> omega

/-- The low byte of MQ_C with x in the free positions (R210). -/
theorem Assembled.extract_add (h : Assembled r k a) {x : Word} (hx : x.toNat < 2 ^ r.ct.toNat) :
    (r.c + x).toNat = 2 ^ r.ct.toNat * a + x.toNat ∧
      ((r.c + x).extractLsb' 0 8).toNat = 2 ^ r.ct.toNat * a + x.toNat := by
  have hlt := toNat_lt_of_freeAfter (h.with_lt hx)
  have hc := h.c
  have hsum : (r.c + x).toNat = 2 ^ r.ct.toNat * a + x.toNat := by
    rw [← hc] at hlt ⊢
    bv_omega
  refine ⟨hsum, ?_⟩
  rw [BitVec.extractLsb'_toNat, hsum, Nat.shiftRight_zero]
  exact Nat.mod_eq_of_lt hlt

/-- The bit d in the next free position. -/
theorem Assembled.put (h : Assembled r k a) (d : Bool) :
    (rawWith r d).toNat = 2 ^ (r.ct.toNat - 1) * (2 * a + d.toNat) ∧
      ((rawWith r d).extractLsb' 0 8).toNat = 2 ^ (r.ct.toNat - 1) * (2 * a + d.toNat) := by
  have hpos := h.free_pos
  have hle := h.length_le
  obtain ⟨n, hn⟩ : ∃ n, r.ct.toNat = n + 1 := ⟨_, (Nat.sub_add_cancel hpos).symm⟩
  have hct : (r.ct - 1).toNat = n := by bv_omega
  have hbit : (zextBit d <<< n).toNat = 2 ^ n * d.toNat := by
    have hall : ∀ (d : Bool) (n : Fin 8), (zextBit d <<< n.val).toNat = 2 ^ n.val * d.toNat := by decide
    exact hall d ⟨n, by omega⟩
  have hlt : (zextBit d <<< n).toNat < 2 ^ r.ct.toNat := by
    have hd := Bool.toNat_le d
    rw [hbit, hn]
    exact Nat.mul_lt_mul_of_pos_left (by omega) (Nat.two_pow_pos n)
  have hval : 2 ^ (n + 1) * a + 2 ^ n * d.toNat = 2 ^ n * (2 * a + d.toNat) := by
    rw [Nat.pow_succ, Nat.mul_assoc, Nat.mul_add]
  have hadd := h.extract_add hlt
  rw [hbit, hn, hval] at hadd
  rw [rawWith, hct, hn, Nat.add_sub_cancel]
  exact hadd

theorem Assembled.put_lt (h : Assembled r k a) (d : Bool) : 2 * a + d.toNat < 2 ^ (k + 1) := by
  have hd := Bool.toNat_le d
  have := h.lt
  rw [Nat.pow_succ]
  omega

/-- RAWPUT of one bit more (R212). -/
theorem rawPutbit_coded {ds : List Bool} (h : RawCoded base e ds s) (d : Bool)
    (hfit : base.toNat + ds.length + 1 ≤ Config.byteCap) :
    ∃ t, exec (.rawPutbit d) s = .next t ∧ RawCoded base e (ds ++ [d]) t := by
  obtain ⟨vs, k, a, hem, has, rfl⟩ := h.bits
  obtain ⟨hinside, hemits, -⟩ := rawPutbitExact s d h.mode
  have hput := has.put d
  by_cases hct : s.seg.ct = 1
  · have hroom : HasRoom s 1 := by
      have := length_le_segmentBits 0 vs
      rw [List.length_append] at hfit
      rw [HasRoom, hem.outOffset]
      omega
    have hfree : k + 1 = (freeAfter s.seg.b).toNat := by
      rw [← has.free, hct, Nat.add_comm]
      rfl
    have hval : ((rawWith s.seg d).extractLsb' 0 8).toNat = 2 * a + d.toNat := by
      rw [hput.2, hct]
      exact Nat.one_mul _
    have hst : Stuffed s.seg.b ((rawWith s.seg d).extractLsb' 0 8) :=
      stuffed_of_lt (by rw [hval, ← hfree]; exact has.put_lt d)
    refine ⟨_, hemits hct hroom, h.mode, h.err, h.segbase, vs ++ [(rawWith s.seg d).extractLsb' 0 8], 0, 0,
      hem.snoc hroom hst rfl rfl rfl, ⟨freeAfter_pos _, rfl, rfl, Nat.one_pos⟩, ?_⟩
    rw [segmentBits_snoc, ← hem.last, ← hfree, hval, msbBits_snoc, msbBits, List.append_nil, List.append_assoc]
  · have hpos := has.free_pos
    have hct' : (s.seg.ct - 1).toNat = s.seg.ct.toNat - 1 := by bv_omega
    have hpos' : 0 < s.seg.ct.toNat - 1 := by bv_omega
    refine ⟨_, hinside hct, h.mode, h.err, h.segbase, vs, k + 1, 2 * a + d.toNat, hem.congr rfl rfl rfl,
      ⟨?_, ?_, ?_, has.put_lt d⟩, ?_⟩
    · exact hct' ▸ hpos'
    · have hfree := has.free
      show (s.seg.ct - 1).toNat + (k + 1) = (freeAfter s.seg.b).toNat
      omega
    · show (rawWith s.seg d).toNat = 2 ^ (s.seg.ct - 1).toNat * _
      rw [hct']
      exact hput.1
    · rw [msbBits_snoc, List.append_assoc]

theorem rawPutbits_coded (ds : List Bool) {ds₀ : List Bool} {s : State} (h : RawCoded base e ds₀ s)
    (hfit : base.toNat + (ds₀ ++ ds).length + 1 ≤ Config.byteCap) :
    ∃ t, execAll (ds.map .rawPutbit) s = .next t ∧ RawCoded base e (ds₀ ++ ds) t := by
  induction ds generalizing ds₀ s with
  | nil => exact ⟨s, rfl, by rwa [List.append_nil]⟩
  | cons d ds ih =>
    rw [List.append_cons] at hfit ⊢
    obtain ⟨t, hrun, ht⟩ := rawPutbit_coded h d (by simp only [List.length_append] at hfit ⊢; omega)
    obtain ⟨u, hruns, hu⟩ := ih ht hfit
    exact ⟨u, by simp only [List.map_cons, execAll, hrun, hruns], hu⟩

/-- RAW.INITENC has coded nothing (R220). -/
theorem rawInitenc_coded (s : State) :
    ∃ t, exec .rawInitenc s = .next t ∧ RawCoded s.cfg.segbase s.status.err [] t := by
  obtain ⟨-, hinit, -⟩ := encoderInitialisation s
  exact ⟨_, hinit, rfl, rfl, rfl, [], 0, 0, ⟨rfl, rfl, rfl, .singleton 0, fun j hj => absurd hj (Nat.not_lt_zero j)⟩,
    ⟨freeAfter_pos 0, rfl, rfl, Nat.one_pos⟩, rfl⟩

/-! ### The terminated segment (R213, R214) -/

/-- The bytes vs of the segment at base hold the bits ds; the fill value may give the last of them (R218). -/
structure RawSegment (base : Word) (e : Option ErrCode) (ds : List Bool) (vs : List Byte) (t : State) : Prop where
  err : t.status.err = e
  segbase : t.cfg.segbase = base
  nbytes : t.out.nbytes.toNat = vs.length
  holds : HoldsAt t.mem base.toNat vs
  stuffed : (0 :: (vs ++ [0xFF])).IsChain Stuffed
  bits : ds <+: segmentBits 0 (vs ++ [0xFF])

/-- Bytes that do not end in 0xFF, with the bits ds among theirs. -/
theorem rawSegment_of_last_ne {ds : List Bool} {t : State} (herr : t.status.err = e) (hbase : t.cfg.segbase = base)
    (hem : Emitted base r t.mem vs) (hn : t.out.nbytes = r.bp) (hlast : r.b ≠ 0xFF) (hbits : ds <+: segmentBits 0 vs) :
    RawSegment base e ds vs t where
  err := herr
  segbase := hbase
  nbytes := hn ▸ hem.bp
  holds := hem.holds
  stuffed := stuffed_snoc hem.stuffed fun h => absurd (hem.last.trans h) hlast
  bits := by
    rw [segmentBits_append]
    exact hbits.trans (List.prefix_append _ _)

theorem padBits_lt {n : Nat} (hpos : 0 < n) (hn : n ≤ 8) : (padBits false n).toNat < 2 ^ (n - 1) := by
  have hall : ∀ n : Fin 8, (padBits false (n.val + 1)).toNat < 2 ^ n.val := by decide
  have := hall ⟨n - 1, by omega⟩
  rwa [Nat.sub_add_cancel hpos] at this

/-- A padded byte has a 0 in its first free position, so it is not 0xFF (R213). -/
theorem rawPadded_bits (h : Assembled r k a) : rawPadded r ≠ 0xFF ∧ Stuffed r.b (rawPadded r) ∧
    msbBits a k <+: msbBits (rawPadded r).toNat (freeAfter r.b).toNat := by
  have hpos := h.free_pos
  have hle := h.length_le
  have hpad := padBits_lt hpos (by omega)
  have hlt : (padBits false r.ct.toNat).toNat < 2 ^ r.ct.toNat :=
    hpad.trans_le (Nat.pow_le_pow_right Nat.two_pos (Nat.sub_le _ _))
  have hval : (rawPadded r).toNat = _ := (h.extract_add hlt).2
  refine ⟨fun hff => ?_, stuffed_of_lt (hval ▸ h.with_lt hlt), ?_⟩
  · have hbit : (rawPadded r).toNat.testBit (r.ct.toNat - 1) = false := by
      rw [hval, Nat.testBit_two_pow_mul_add a hlt, if_pos (by omega)]
      exact Nat.testBit_lt_two_pow hpad
    have hones : ∀ n : Fin 8, (0xFF : Byte).toNat.testBit n.val = true := by decide
    rw [hff, hones ⟨r.ct.toNat - 1, by omega⟩] at hbit
    exact Bool.noConfusion hbit
  · rw [hval, ← h.free, Nat.add_comm r.ct.toNat k, msbBits_append a hlt]
    exact List.prefix_append _ _

/-- RAW.FLUSH leaves a segment that holds every bit coded (R213, R222). -/
theorem rawFlush_segment {ds : List Bool} (h : RawCoded base e ds s)
    (hfit : base.toNat + ds.length + 1 ≤ Config.byteCap) :
    ∃ t vs, exec .rawFlush s = .next t ∧ RawSegment base e ds vs t ∧ base.toNat + vs.length ≤ Config.byteCap := by
  obtain ⟨vs, k, a, hem, has, rfl⟩ := h.bits
  have hvs := length_le_segmentBits 0 vs
  rw [List.length_append] at hfit
  have hroom : HasRoom s 1 := by
    rw [HasRoom, hem.outOffset]
    omega
  obtain ⟨hpartial, hcomplete⟩ := rawFlushExact s h.mode hroom
  rw [hem.full, ← has.free] at hpartial hcomplete
  by_cases hk : k = 0
  · subst hk
    rw [msbBits, List.append_nil]
    have hrun := hcomplete (Nat.lt_irrefl _)
    by_cases hb : s.seg.b = 0xFF
    · obtain ⟨vs', rfl⟩ := hem.ends_ff hb
      have hbp := hem.bp
      rw [List.length_append, List.length_singleton] at hbp hvs
      rw [if_pos ⟨by omega, hb⟩] at hrun
      refine ⟨_, vs', hrun, ⟨h.err, h.segbase, ?_, hem.holds.left, hem.stuffed, List.prefix_rfl⟩, by omega⟩
      show (s.seg.bp - 1).toNat = vs'.length
      bv_omega
    · rw [if_neg fun hc => hb hc.2] at hrun
      exact ⟨_, vs, hrun, rawSegment_of_last_ne h.err h.segbase hem rfl hb List.prefix_rfl, by omega⟩
  · obtain ⟨hne, hst, hbits⟩ := rawPadded_bits has
    have hrun := hpartial (by omega)
    rw [← rawPadded_eq] at hrun
    simp only [if_neg hne] at hrun
    have hem' := hem.snoc (r' := { s.seg with ct := 8, c := 0, b := rawPadded s.seg, bp := s.seg.bp + 1 }) hroom hst
      rfl rfl rfl
    refine ⟨_, vs ++ [rawPadded s.seg], hrun, rawSegment_of_last_ne h.err h.segbase hem' rfl hne ?_, ?_⟩
    · rw [segmentBits_snoc, ← hem.last]
      exact (List.prefix_append_right_inj _).2 hbits
    · rw [List.length_append, List.length_singleton]
      omega

end Encode

/-! ### The decoder (R216, R217) -/

/-- The raw decoder reads the bytes ws next, the fill value among them. -/
structure RawReading (ws : List Byte) (s : State) : Prop where
  mode : s.status.cmode = .rawd
  written : SegmentWritten s
  inside : s.seg.bp.toNat + ws.length < 2 ^ 32
  ahead : ∀ j (hj : j < ws.length), fillByte s.mem s.seg.start.toNat s.seg.stop.toNat (s.seg.bp.toNat + j) = ws[j]
  stuffed : (s.seg.c.extractLsb' 0 8 :: ws).IsChain Stuffed

/-- The bits it returns from what is left of the byte at hand and from the bytes ws. -/
def bitsAhead (ws : List Byte) (s : State) : List Bool :=
  msbBits s.seg.c.toNat s.seg.ct.toNat ++ segmentBits (s.seg.c.extractLsb' 0 8) ws

section Decode

variable {s t : State} {v : Byte} {ws : List Byte}

/-- The byte-in step takes the next byte and leaves the bits ahead as they are. -/
theorem rawByteIn_reading (h : RawReading (v :: ws) s) (hct : s.seg.ct = 0) :
    ∃ t, rawByteIn s = .ok () t ∧ t.status = s.status ∧ t.seg.ct ≠ 0 ∧ RawReading ws t ∧
      bitsAhead ws t = bitsAhead (v :: ws) s := by
  obtain ⟨hst, hrest⟩ := List.isChain_cons_cons.1 h.stuffed
  have hinside := h.inside
  rw [List.length_cons] at hinside
  have hnext : nextSegByte s = v := h.ahead 0 (Nat.succ_pos _)
  have hmark : ¬ NextIsMarker s := fun ⟨hff, hv⟩ => hst hff (hnext ▸ hv)
  have hbp : (s.seg.bp + 1).toNat = s.seg.bp.toNat + 1 := by bv_omega
  have hlow : (v.zeroExtend 32).extractLsb' 0 8 = v := by
    rw [BitVec.zeroExtend_eq_setWidth, BitVec.extractLsb'_setWidth_of_le (by decide)]
    exact BitVec.extractLsb'_eq_self
  have hval : (v.zeroExtend 32).toNat = v.toNat := BitVec.toNat_setWidth_of_le (by decide)
  have hrun := rawByteIn_byte h.written hmark
  rw [hnext] at hrun
  refine ⟨_, hrun, rfl, ?_, ⟨h.mode, segmentWritten_of_eq h.written rfl rfl rfl, ?_, ?_, ?_⟩, ?_⟩
  · show freeAfter _ ≠ 0
    unfold freeAfter
    split <;> decide
  · show (s.seg.bp + 1).toNat + _ < _
    omega
  · intro j hj
    show fillByte _ _ _ ((s.seg.bp + 1).toNat + j) = _
    rw [hbp, Nat.add_assoc, Nat.add_comm 1 j, h.ahead (j + 1) (Nat.succ_lt_succ hj), List.getElem_cons_succ]
  · show ((v.zeroExtend 32).extractLsb' 0 8 :: ws).IsChain Stuffed
    rwa [hlow]
  · show msbBits (v.zeroExtend 32).toNat (freeAfter _).toNat ++ segmentBits ((v.zeroExtend 32).extractLsb' 0 8) ws = _
    rw [hlow, hval, bitsAhead, hct]
    rfl

theorem zextBit_getLsbD_zero : ∀ d : Bool, (zextBit d).getLsbD 0 = d := by decide

/-- RAW.GETBIT returns the first of the bits ahead, once the decoder t has a byte at hand (R224). -/
theorem rawGetbit_takes (hmode : s.status.cmode = .rawd) (hget : rawGet s = takeBit t) (h : RawReading ws t)
    (hct : t.seg.ct ≠ 0) {d : Bool} {ds : List Bool} (hbits : d :: ds <+: bitsAhead ws t) :
    ∃ u, exec .rawGetbit s = .next u ∧ u.status.err = t.status.err ∧ u.out.result.getLsbD 0 = d ∧ RawReading ws u ∧
      ds <+: bitsAhead ws u := by
  obtain ⟨n, hn⟩ : ∃ n, t.seg.ct.toNat = n + 1 := Nat.exists_eq_succ_of_ne_zero (by bv_omega)
  have hct' : (t.seg.ct - 1).toNat = n := by bv_omega
  rw [bitsAhead, hn, msbBits, List.cons_append, List.cons_prefix_cons] at hbits
  obtain ⟨rfl, hrest⟩ := hbits
  refine ⟨_, exec_rawGetbit_of_takeBit hmode hget, rfl, ?_,
    ⟨h.mode, segmentWritten_of_eq h.written rfl rfl rfl, h.inside, h.ahead, h.stuffed⟩, ?_⟩
  · show (zextBit (t.seg.c.getLsbD (t.seg.ct - 1).toNat)).getLsbD 0 = _
    rw [hct', zextBit_getLsbD_zero]
    rfl
  · show ds <+: msbBits t.seg.c.toNat (t.seg.ct - 1).toNat ++ segmentBits (t.seg.c.extractLsb' 0 8) ws
    rwa [hct']

theorem rawGetbit_reading (h : RawReading ws s) {d : Bool} {ds : List Bool} (hbits : d :: ds <+: bitsAhead ws s) :
    ∃ u ws', exec .rawGetbit s = .next u ∧ u.status.err = s.status.err ∧ u.out.result.getLsbD 0 = d ∧
      RawReading ws' u ∧ ds <+: bitsAhead ws' u := by
  by_cases hct : s.seg.ct = 0
  · cases ws with
    | nil =>
      rw [bitsAhead, hct] at hbits
      exact absurd (List.prefix_nil.1 hbits) (List.cons_ne_nil d ds)
    | cons v ws =>
      obtain ⟨t, hin, hstatus, hct', ht, heq⟩ := rawByteIn_reading h hct
      rw [← heq] at hbits
      rw [← hstatus]
      obtain ⟨u, hu⟩ := rawGetbit_takes h.mode (rawGet_byteIn hct hin) ht hct' hbits
      exact ⟨u, ws, hu⟩
  · obtain ⟨u, hu⟩ := rawGetbit_takes h.mode (rawGet_inside hct) h hct hbits
    exact ⟨u, ws, hu⟩

/-- The bits ahead are what RAW.GETBIT returns, one after the other. -/
theorem rawBits_reading (ds : List Bool) {ws : List Byte} {s : State} (h : RawReading ws s)
    (hbits : ds <+: bitsAhead ws s) : rawBits ds.length s = some ds := by
  induction ds generalizing ws s with
  | nil => rfl
  | cons d ds ih =>
    obtain ⟨u, ws', hrun, herr, hd, hu, hrest⟩ := rawGetbit_reading h hbits
    rw [List.length_cons, rawBits, hrun]
    dsimp only
    rw [if_pos herr, ih hu hrest, hd]
    rfl

end Decode

/-- RAW.INITDEC on a terminated segment has all its bits ahead (R216, R223). -/
theorem rawInitdec_reading {base : Word} {e : Option ErrCode} {ds : List Bool} {vs : List Byte} {t : State}
    (h : RawSegment base e ds vs t) (hfit : base.toNat + vs.length ≤ Config.byteCap) :
    ∃ u, exec .rawInitdec { t with cfg := { t.cfg with seglen := t.out.nbytes } } = .next u ∧ u.status.err = e ∧
      RawReading (vs ++ [0xFF]) u ∧ ds <+: bitsAhead (vs ++ [0xFF]) u := by
  have hcap := byteCap_le
  have hn := h.nbytes
  obtain rfl := h.segbase
  obtain ⟨-, hin⟩ := rawAndMelInitdecExact { t with cfg := { t.cfg with seglen := t.out.nbytes } }
  obtain ⟨hrun, -⟩ := hin (by show t.cfg.segbase.toNat + t.out.nbytes.toNat ≤ _; omega)
  have hstop : (t.cfg.segbase + t.out.nbytes).toNat = t.cfg.segbase.toNat + vs.length := by bv_omega
  refine ⟨_, hrun, h.err, ⟨rfl, ?_, ?_, ?_, h.stuffed⟩, h.bits⟩
  · intro j hj hle
    have hj' : j < (t.cfg.segbase + t.out.nbytes).toNat := hj
    have hle' : t.cfg.segbase.toNat ≤ j := hle
    show (t.mem.getByte _).isSome = true
    obtain ⟨i, rfl⟩ := Nat.exists_eq_add_of_le hle'
    rw [h.holds i (by omega)]
    rfl
  · show 0 + (vs ++ [0xFF]).length < 2 ^ 32
    rw [List.length_append, List.length_singleton]
    omega
  · intro j hj
    show fillByte t.mem t.cfg.segbase.toNat (t.cfg.segbase + t.out.nbytes).toNat (0 + j) = _
    rw [List.length_append, List.length_singleton] at hj
    rw [hstop, Nat.zero_add, fillByte]
    by_cases hlast : j < vs.length
    · rw [if_pos (by omega), h.holds j hlast, List.getElem_append_left hlast]
      rfl
    · obtain rfl : j = vs.length := by omega
      rw [if_neg (by omega), List.getElem_concat_length rfl]

/-- Settles O31: the bits coded are the bits of the segment, and those the decoder has ahead of it. -/
theorem rawRoundTrip : Obligations.RawRoundTrip := by
  intro ds s hfit
  obtain ⟨s₀, hinit, h₀⟩ := rawInitenc_coded s
  obtain ⟨s₁, hput, h₁⟩ := rawPutbits_coded ds h₀ (by simpa using hfit)
  obtain ⟨t, vs, hflush, hseg, hvs⟩ := rawFlush_segment h₁ (by simpa using hfit)
  obtain ⟨u, hdec, herr, hread, hbits⟩ := rawInitdec_reading hseg hvs
  refine ⟨t, u, ?_, hseg.err, hdec, herr, rawBits_reading ds hread hbits⟩
  have hcoded : execAll (.rawInitenc :: ds.map .rawPutbit) s = .next s₁ := by
    simp only [execAll, hinit, hput]
  rw [execAll_append _ _ hcoded]
  simp only [execAll, hflush]

end Sys2Proof.Proofs
end

section
/-!
PROOFS. The order of the scan (O33): which rows, columns and coefficients it lists, each once, and that the rules' own lists
(Reference.lean) are the model's.
-/
namespace Sys2Proof.Proofs

open Sys2Proof.Machine Sys2Proof.Laws

variable {g : Geometry}

/-! ### Rows and columns (44_bitplane_coder.md R230) -/

theorem mem_stripeRows_iff {h y0 y : Nat} : y ∈ stripeRows h y0 ↔ y0 ≤ y ∧ y < y0 + 4 ∧ y < h := by
  simp only [stripeRows, List.mem_map, List.mem_range]
  constructor
  · rintro ⟨k, hk, rfl⟩
    omega
  · rintro ⟨h0, h4, hh⟩
    exact ⟨y - y0, by omega, by omega⟩

theorem stripeRows_pairwise (h y0 : Nat) : (stripeRows h y0).Pairwise (· < ·) :=
  List.pairwise_map.2 (List.pairwise_lt_range.imp fun hlt => by omega)

theorem mem_scanColumns_iff {x y0 : Nat} : (x, y0) ∈ scanColumns g ↔ x < g.w ∧ y0 % 4 = 0 ∧ y0 < g.h := by
  simp only [scanColumns, stripeTops, List.mem_flatMap, List.mem_map, List.mem_range, Prod.mk.injEq]
  constructor
  · rintro ⟨_, ⟨k, hk, rfl⟩, _, hx, rfl, rfl⟩
    omega
  · rintro ⟨hx, h4, hh⟩
    exact ⟨y0, ⟨y0 / 4, by omega, by omega⟩, x, hx, rfl, rfl⟩

/-- Stripes from the top, in a stripe the columns from the left. -/
theorem scanColumns_pairwise :
    (scanColumns g).Pairwise fun c d => c.2 + 4 ≤ d.2 ∨ (c.2 = d.2 ∧ c.1 < d.1) := by
  refine List.pairwise_flatMap.2 ⟨fun y0 _ => ?inStripe, ?stripes⟩
  case inStripe => exact List.pairwise_map.2 (List.pairwise_lt_range.imp fun hlt => .inr ⟨rfl, hlt⟩)
  case stripes =>
    refine List.pairwise_map.2 (List.pairwise_lt_range.imp fun {k k'} hlt => ?_)
    intro c hc d hd
    obtain ⟨_, -, rfl⟩ := List.mem_map.1 hc
    obtain ⟨_, -, rfl⟩ := List.mem_map.1 hd
    exact .inl (by dsimp only; omega)

/-! ### The scan -/

theorem mem_scan_iff {x y : Nat} : (x, y) ∈ scan g ↔ x < g.w ∧ y < g.h := by
  simp only [scan, List.mem_flatMap, List.mem_map, Prod.exists, Prod.mk.injEq]
  constructor
  · rintro ⟨a, y0, hc, b, hb, rfl, rfl⟩
    exact ⟨(mem_scanColumns_iff.1 hc).1, (mem_stripeRows_iff.1 hb).2.2⟩
  · rintro ⟨hx, hy⟩
    exact ⟨x, y / 4 * 4, mem_scanColumns_iff.2 ⟨hx, by omega, by omega⟩, y, mem_stripeRows_iff.2 (by omega), rfl, rfl⟩

theorem scan_pairwise : (scan g).Pairwise fun p q =>
    p.2 / 4 < q.2 / 4 ∨ (p.2 / 4 = q.2 / 4 ∧ (p.1 < q.1 ∨ (p.1 = q.1 ∧ p.2 < q.2))) := by
  refine List.pairwise_flatMap.2 ⟨fun c hc => ?inColumn, ?columns⟩
  case inColumn =>
    obtain ⟨-, htop, -⟩ := mem_scanColumns_iff.1 hc
    refine List.pairwise_map.2 ((stripeRows_pairwise g.h c.2).imp_of_mem fun hy hz hlt => ?_)
    have := mem_stripeRows_iff.1 hy
    have := mem_stripeRows_iff.1 hz
    exact .inr ⟨by dsimp only; omega, .inr ⟨rfl, hlt⟩⟩
  case columns =>
    refine scanColumns_pairwise.imp_of_mem fun {c d} hc hd hlt p hp q hq => ?_
    obtain ⟨-, htop, -⟩ := mem_scanColumns_iff.1 hc
    obtain ⟨-, htop', -⟩ := mem_scanColumns_iff.1 hd
    obtain ⟨y, hy, rfl⟩ := List.mem_map.1 hp
    obtain ⟨z, hz, rfl⟩ := List.mem_map.1 hq
    have := mem_stripeRows_iff.1 hy
    have := mem_stripeRows_iff.1 hz
    dsimp only
    omega

/-- Settles O33: membership and order, each by stripes, columns and rows. -/
theorem scanOrder : Obligations.ScanOrder := fun _ => ⟨fun _ _ => mem_scan_iff, scan_pairwise⟩

theorem scan_nodup : (scan g).Nodup := scan_pairwise.imp fun {p q} hlt heq => by
  subst heq
  omega

/-- The scan has as many coefficients as the block. -/
theorem scan_length (g : Geometry) : (scan g).length = g.w * g.h := by
  have hset : (scan g).toFinset = Finset.range g.w ×ˢ Finset.range g.h := by
    ext ⟨x, y⟩
    rw [List.mem_toFinset, mem_scan_iff, Finset.mem_product, Finset.mem_range, Finset.mem_range]
  rw [← List.toFinset_card_of_nodup scan_nodup, hset, Finset.card_product, Finset.card_range, Finset.card_range]

/-- So have the rows of its columns together. -/
theorem columnRows_sum (g : Geometry) : ((scanColumns g).map fun c => (stripeRows g.h c.2).length).sum = g.w * g.h := by
  rw [← scan_length, scan, List.length_flatMap]
  simp only [List.length_map]

/-! ### The lists of the rules (Reference.lean) -/

theorem rowsOf_eq (g : Geometry) (y0 : Nat) : rowsOf g y0 = stripeRows g.h y0 := by
  have hpairwise : (rowsOf g y0).Pairwise (· < ·) :=
    (List.pairwise_map.2 (List.pairwise_lt_range.imp fun hlt => by omega)).filter _
  refine hpairwise.eq_of_mem_iff (stripeRows_pairwise g.h y0) fun y => ?_
  simp only [mem_stripeRows_iff, rowsOf, List.mem_filter, List.mem_map, List.mem_range, decide_eq_true_eq]
  constructor
  · rintro ⟨⟨k, hk, rfl⟩, hh⟩
    omega
  · rintro ⟨h0, h4, hh⟩
    exact ⟨⟨y - y0, by omega, by omega⟩, hh⟩

theorem columnOrder_eq (g : Geometry) : columnOrder g = scanColumns g := by
  rw [columnOrder, scanColumns, stripeTops, List.flatMap_map]

theorem scanOrder_eq (g : Geometry) : Machine.scanOrder g = scan g := by
  simp only [Machine.scanOrder, scan, columnOrder_eq, rowsOf_eq]

end Sys2Proof.Proofs
end

section
/-!
PROOFS. The commands on whole arrays and the common checks of a pass: the clearing commands (O32), BPC.STORE (O37), an illegal
shape (O39), and a significance pass with nothing to code (O36).
-/
namespace Sys2Proof.Proofs

open Sys2Proof.Machine Sys2Proof.Laws

/-! ### Clearing (44_bitplane_coder.md R249, 42_mq_coder.md R186) -/

theorem clearedArrays_zero (i : Nat) : clearedArrays.sig.getLsbD i = false ∧ clearedArrays.sgn.getLsbD i = false ∧
    clearedArrays.visited.getLsbD i = false ∧ clearedArrays.refined.getLsbD i = false ∧ magGet clearedArrays.mag i = 0 := by
  have hzero : (0 : BitVec 4096).getLsbD i = false := BitVec.getLsbD_zero
  exact ⟨hzero, hzero, hzero, hzero, rfl⟩

theorem initialCtx_getElem : ∀ cx : Label,
    initialCtx[cx] = ⟨if cx = 0 then 4 else if cx = 17 then 3 else if cx = 18 then 46 else 0, false⟩ := by decide

/-- Settles O32: each command is one write. -/
theorem clearingCommands : Obligations.ClearingCommands :=
  fun _ => ⟨⟨clearedArrays, rfl, clearedArrays_zero⟩, ⟨initialCtx, rfl, initialCtx_getElem⟩⟩

/-! ### STORE (44_bitplane_coder.md R250) -/

/-- Memory once the words v 0 to v (n − 1) stand at COEF. -/
def coefsStored (v : Nat → Word) (m : Memory) (n : Nat) : Memory :=
  (List.range n).foldl (fun m i => m.setWord (coefAddr i) (v i)) m

theorem coefsStored_succ (v : Nat → Word) (m : Memory) (n : Nat) :
    coefsStored v m (n + 1) = (coefsStored v m n).setWord (coefAddr n) (v n) := by
  simp only [coefsStored, List.range_succ, List.foldl_append, List.foldl_cons, List.foldl_nil]

theorem getWord_setWord_coef_ne (m : Memory) {i n : Nat} (v : Word) (h : i ≠ n) :
    (m.setWord (coefAddr n) v).getWord (coefAddr i) = m.getWord (coefAddr i) :=
  getWord_congr fun j hj => getByte_setWord_out _ _ _ _ (by unfold coefAddr; omega)

theorem coefsStored_getWord (v : Nat → Word) (m : Memory) {n i : Nat} (h : i < n) :
    (coefsStored v m n).getWord (coefAddr i) = some (v i) := by
  induction n with
  | zero => omega
  | succ n ih =>
    rw [coefsStored_succ]
    by_cases hi : i = n
    · subst hi
      exact getWord_setWord_same _ _ _
    · rw [getWord_setWord_coef_ne _ _ hi]
      exact ih (by omega)

theorem coefsStored_outside (v : Nat → Word) (m : Memory) (n : Nat) {a : Nat} (h : ¬ (coefAddr 0 ≤ a ∧ a < coefAddr n)) :
    (coefsStored v m n).getByte a = m.getByte a := by
  induction n with
  | zero => rfl
  | succ n ih =>
    unfold coefAddr at h
    rw [coefsStored_succ, getByte_setWord_out _ _ _ _ (by unfold coefAddr; omega)]
    exact ih (by unfold coefAddr; omega)

/-- The loop of STORE: the value of a coefficient does not depend on memory. -/
theorem storeLoop_run (l : List Nat) (s : State) :
    forEach l (fun i => do memWriteWord (coefAddr i) (← see (·.arr.value i))) s =
      .ok () { s with mem := l.foldl (fun m i => m.setWord (coefAddr i) (s.arr.value i)) s.mem } := by
  induction l generalizing s with
  | nil => rfl
  | cons i l ih =>
    rw [forEach_cons, bind_of_ok (by rw [see_bind, memWriteWord_run]), ih]
    rfl

theorem store_run (s : State) :
    store s = .ok () { s with mem := coefsStored s.arr.value s.mem (s.cfg.w * s.cfg.h) } :=
  storeLoop_run _ s

/-- Settles O37: STORE writes the coefficients one by one. -/
theorem bpcStoreCompletes : Obligations.BpcStoreCompletes := by
  intro s hshape
  refine ⟨coefsStored s.arr.value s.mem (s.cfg.w * s.cfg.h), runCmd_of_ok ?run, fun i hi => ?stored, fun a ha => ?outside⟩
  case run => rw [bind_of_ok (by rw [checkShape_run, hshape]; rfl), store_run]
  case stored => exact coefsStored_getWord _ _ hi
  case outside => exact coefsStored_outside _ _ _ ha

/-! ### The common checks of a pass (44_bitplane_coder.md R240) -/

theorem badShape_iff (c : Cfg) :
    c.badShape = true ↔ c.w = 0 ∨ c.h = 0 ∨ 1024 < c.w ∨ 1024 < c.h ∨ 4096 < c.w * c.h := by
  simp only [Cfg.badShape, Bool.or_eq_true, beq_iff_eq, decide_eq_true_eq, or_assoc]

/-- A command stops at an illegal shape. -/
theorem checkShape_bind_bad {α : Type} {s : State} (h : s.cfg.badShape = true) (c : Unit → Cmd α) :
    (checkShape >>= c) s = .error (.err .config) s :=
  bind_of_error (by rw [checkShape_run, h]; rfl) c

section PassCommand

variable {s : State} {i : Instr} {plane : BitVec 5} {dir : Dir} {raw : Bool}

/-- A well-formed pass command in its mode comes to the check of the shape. -/
theorem passCommand_bind (hi : i.wellFormed = true) (hmode : s.status.cmode = passMode dir raw) (pass : PassArgs → Cmd Unit) :
    (checkFields i >>= fun _ => passCommand plane dir raw >>= pass) s =
      (checkShape >>= fun _ => see (·.cfg.passArgs plane.toNat dir raw) >>= pass) s := by
  rw [bind_of_ok (by rw [checkFields_run, if_pos hi])]
  unfold passCommand
  rw [bind_assoc, bind_of_ok (by rw [needMode_run, if_pos hmode]), bind_assoc]

/-- With an illegal shape it raises E_CONFIG. -/
theorem runCmd_pass_badShape (hi : i.wellFormed = true) (hmode : s.status.cmode = passMode dir raw)
    (hshape : s.cfg.badShape = true) (pass : PassArgs → Cmd Unit) :
    runCmd (checkFields i >>= fun _ => passCommand plane dir raw >>= pass) s = .next (s.takeError .config) :=
  runCmd_of_err ((passCommand_bind hi hmode pass).trans (checkShape_bind_bad hshape _))

/-- With a legal shape it runs its pass. -/
theorem runCmd_pass_of_ok (hi : i.wellFormed = true) (hmode : s.status.cmode = passMode dir raw)
    (hshape : s.cfg.badShape = false) {pass : PassArgs → Cmd Unit} {t : State}
    (h : pass (s.cfg.passArgs plane.toNat dir raw) s = .ok () t) :
    runCmd (checkFields i >>= fun _ => passCommand plane dir raw >>= pass) s = .next t.complete := by
  refine runCmd_of_ok ((passCommand_bind hi hmode pass).trans ?_)
  rw [bind_of_ok (by rw [checkShape_run, hshape]; rfl), see_bind, h]

end PassCommand

/-- Settles O39: each of these commands checks the shape before it changes anything. -/
theorem illegalShapeRaises : Obligations.IllegalShapeRaises := by
  intro i s hshape hi hcmd
  have hbad := (badShape_iff s.cfg).2 hshape
  rcases hcmd with ⟨hpass, hmode⟩ | rfl | hblock
  · cases i with
    | bpcSpp p dir raw | bpcMrp p dir raw | bpcCup p dir =>
      exact runCmd_pass_badShape hi (Option.some.inj hmode).symm hbad _
    | _ => cases hpass
  · exact runCmd_of_err (checkShape_bind_bad hbad _)
  · have hcheck : checkBlock s = .error (.err .config) s := checkShape_bind_bad hbad _
    cases i with
    | cbEncode | cbDecode => exact runCmd_of_err (bind_of_error hcheck _)
    | _ => cases hblock

/-! ### Nothing significant (44_bitplane_coder.md R237, R241) -/

theorem coefIndex_lt_area {g : Geometry} {x y : Nat} (hx : x < g.w) (hy : y < g.h) : coefIndex g x y < g.w * g.h :=
  calc y * g.w + x < y * g.w + g.w := by omega
    _ = (y + 1) * g.w := by rw [Nat.succ_mul]
    _ ≤ g.h * g.w := Nat.mul_le_mul_right _ hy
    _ = g.w * g.h := Nat.mul_comm _ _

/-- With no significant coefficient in the block every ZC label is 0 (R131, R237). -/
theorem zcAt_of_insignificant {g : Geometry} {r : Arrays} (h : ∀ i < g.w * g.h, r.sig.getLsbD i = false) (x y : Nat) :
    zcAt g r x y = 0 := by
  have hnbr (dx dy : Int) : nbrSig g r x y dx dy = false := by
    refine (nbr_of_insignificant fun i hi => ?_).1
    obtain ⟨-, x', y', hx, hy, -, -, rfl⟩ := neighbour_eq_some_iff.1 hi
    exact h _ (coefIndex_lt_area hx hy)
  rw [zcAt, zcLabel_eq_zero_iff]
  simp only [countH, countV, countD, hnbr]
  decide

theorem sppVisit_of_label_zero {pa : PassArgs} {xy : Nat × Nat} {s : State} (h : zcAt pa.g s.arr xy.1 xy.2 = 0) :
    sppVisit pa xy s = .ok () s := by
  unfold sppVisit
  dsimp only
  rw [see_bind, if_neg fun hc => hc.2 h]
  rfl

theorem forEach_of_ok {α : Type} {f : α → Cmd Unit} {s : State} {l : List α} (h : ∀ x ∈ l, f x s = .ok () s) :
    forEach l f s = .ok () s := by
  induction l with
  | nil => rfl
  | cons x l ih =>
    rw [forEach_cons, bind_of_ok (h x List.mem_cons_self)]
    exact ih fun y hy => h y (List.mem_cons_of_mem _ hy)

/-- Settles O36: no coefficient has a label that is not 0, so none is visited. -/
theorem sppOnInsignificantBlock : Obligations.SppOnInsignificantBlock := by
  intro s p dir raw hp hmode hshape hsig
  have hfields : (Instr.bpcSpp p dir raw).wellFormed = true := decide_eq_true hp
  refine runCmd_pass_of_ok hfields hmode hshape (forEach_of_ok fun xy _ => ?_)
  exact sppVisit_of_label_zero (zcAt_of_insignificant hsig xy.1 xy.2)

end Sys2Proof.Proofs
end

section
/-!
PROOFS. The coders see the segment registers, the contexts and memory alone: `OnCoder c` says that c does the same whatever the rest
of the state is. So a decision coded inside a pass is the decision MQ.ENCODE, MQ.DECODE, RAW.PUTBIT or RAW.GETBIT codes there.
-/
namespace Sys2Proof.Proofs

open Sys2Proof.Machine Sys2Proof.Laws

/-- The state s₀ with the segment registers, contexts and memory of s. -/
def withCoderOf (s₀ s : State) : State := { s₀ with seg := s.seg, ctx := s.ctx, mem := s.mem }

variable {α β : Type}

/-- c from s₀ with the coder of s ends as c from s ends, with the rest of s₀. -/
def OnCoder (c : Cmd α) : Prop := ∀ s₀ s, c (withCoderOf s₀ s) = match c s with
  | .ok a t => .ok a (withCoderOf s₀ t)
  | .error e t => .error e (withCoderOf s₀ t)

theorem OnCoder.ok {c : Cmd α} (h : OnCoder c) {s t : State} {a : α} (e : c s = .ok a t) (s₀ : State) :
    c (withCoderOf s₀ s) = .ok a (withCoderOf s₀ t) := by rw [h s₀ s, e]

theorem OnCoder.pure (a : α) : OnCoder (Pure.pure a : Cmd α) := fun _ _ => rfl

theorem OnCoder.raise (e : ErrCode) : OnCoder (raise e : Cmd α) := fun _ _ => rfl

theorem OnCoder.faultOut (f : Fault) : OnCoder (faultOut f : Cmd α) := fun _ _ => rfl

theorem OnCoder.see {f : State → α} (h : ∀ s₀ s, f (withCoderOf s₀ s) = f s) : OnCoder (see f) :=
  fun s₀ s => congrArg (EStateM.Result.ok · (withCoderOf s₀ s)) (h s₀ s)

theorem OnCoder.updSeg (f : SegRegs → SegRegs) : OnCoder (updSeg f) := fun _ _ => rfl

theorem OnCoder.bind {c : Cmd α} {f : α → Cmd β} (hc : OnCoder c) (hf : ∀ a, OnCoder (f a)) : OnCoder (c >>= f) := by
  intro s₀ s
  rw [bind_run, bind_run, hc s₀ s]
  cases c s with
  | ok a t => exact hf a s₀ t
  | error e t => rfl

theorem OnCoder.ite {p : Prop} [Decidable p] {c d : Cmd α} (hc : OnCoder c) (hd : OnCoder d) :
    OnCoder (if p then c else d) := by
  split <;> assumption

theorem OnCoder.check (bad : Bool) (e : ErrCode) : OnCoder (check bad e) := .ite (.raise e) (.pure ())

/-! ### Bytes (20_memory.md R80, R81) -/

theorem setCtx_onCoder (cx : Label) (v : CtxEntry) : OnCoder (setCtx cx v) := fun _ _ => rfl

theorem memWriteByte_onCoder (a : Nat) (v : Byte) : OnCoder (memWriteByte a v) := fun _ _ => rfl

theorem memReadByte_onCoder (a : Nat) : OnCoder (memReadByte a) := by
  refine .bind (.see fun _ _ => rfl) fun m => ?_
  cases m.getByte a with
  | some v => exact .pure v
  | none => exact .faultOut _

theorem emitByte_onCoder (v : Byte) : OnCoder (emitByte v) :=
  .bind (.see fun _ _ => rfl) fun _ => .bind (.check _ _) fun _ => .bind (memWriteByte_onCoder _ _) fun _ => .updSeg _

theorem setLastByte_onCoder (v : Byte) : OnCoder (setLastByte v) :=
  .bind (.see fun _ _ => rfl) fun _ => .ite (memWriteByte_onCoder _ _) (.pure ())

theorem segByte_onCoder (i : Nat) : OnCoder (segByte i) :=
  .bind (.see fun _ _ => rfl) fun _ => .ite (.bind (memReadByte_onCoder _) fun _ => .pure _) (.pure _)

theorem countFill_onCoder (f : Bool) : OnCoder (countFill f) := .ite (.updSeg _) (.pure ())

/-! ### The MQ coder (42_mq_coder.md) -/

theorem stuffedOut_onCoder : OnCoder stuffedOut :=
  .bind (.updSeg _) fun _ => .bind (.see fun _ _ => rfl) fun _ => .bind (emitByte_onCoder _) fun _ => .updSeg _

theorem plainOut_onCoder : OnCoder plainOut :=
  .bind (.updSeg _) fun _ => .bind (.see fun _ _ => rfl) fun _ => .bind (emitByte_onCoder _) fun _ => .updSeg _

theorem byteOut_onCoder : OnCoder byteOut :=
  .bind (.see fun _ _ => rfl) fun _ => .ite stuffedOut_onCoder (.ite plainOut_onCoder
    (.bind (.updSeg _) fun _ => .bind (setLastByte_onCoder _) fun _ =>
      .ite (.bind (.updSeg _) fun _ => stuffedOut_onCoder) plainOut_onCoder))

theorem renormE_onCoder (n : Nat) : OnCoder (renormE n) := by
  induction n with
  | zero => exact .pure ()
  | succ n ih =>
    have hturn : OnCoder renormEStep :=
      .bind (.updSeg _) fun _ => .bind (.see fun _ _ => rfl) fun _ => .ite byteOut_onCoder (.pure ())
    exact .bind hturn fun _ => .bind (.see fun _ _ => rfl) fun _ => .ite (.pure ()) ih

/-- ENCODE (R166). -/
theorem mqEncode_onCoder (cx : Label) (d : Bool) : OnCoder (mqEncode cx d) := by
  have moved (v : CtxEntry) : OnCoder (do setCtx cx v; renormE 16) :=
    .bind (setCtx_onCoder cx v) fun _ => renormE_onCoder 16
  refine .bind (.see fun _ _ => rfl) fun e => .bind (.updSeg _) fun _ => .ite ?mps ?lps
  case mps =>
    exact .bind (.see fun _ _ => rfl) fun _ => .ite (.updSeg _)
      (.ite (.bind (.updSeg _) fun _ => moved _) (.bind (.updSeg _) fun _ => moved _))
  case lps =>
    exact .bind (.see fun _ _ => rfl) fun _ => .ite (.bind (.updSeg _) fun _ => moved _) (.bind (.updSeg _) fun _ => moved _)

theorem byteIn_onCoder : OnCoder byteIn := by
  refine .bind ?_ fun _ => countFill_onCoder _
  refine .bind (.see fun _ _ => rfl) fun _ => .bind (segByte_onCoder _) fun _ => .bind (segByte_onCoder _) fun _ =>
    .ite (.ite ?_ ?_) ?_
  all_goals exact .bind (.updSeg _) fun _ => .pure _

theorem renormD_onCoder (n : Nat) : OnCoder (renormD n) := by
  induction n with
  | zero => exact .pure ()
  | succ n ih =>
    have hturn : OnCoder renormDStep :=
      .bind (.see fun _ _ => rfl) fun _ => .ite (.bind byteIn_onCoder fun _ => .updSeg _) (.updSeg _)
    exact .bind hturn fun _ => .bind (.see fun _ _ => rfl) fun _ => .ite (.pure ()) ih

/-- DECODE (R185). -/
theorem mqDecode_onCoder (cx : Label) : OnCoder (mqDecode cx) := by
  have moved (v : CtxEntry) (d : Bool) : OnCoder (do setCtx cx v; renormD 16; pure d) :=
    .bind (setCtx_onCoder cx v) fun _ => .bind (renormD_onCoder 16) fun _ => .pure d
  refine .bind (.see fun _ _ => rfl) fun e => .bind (.updSeg _) fun _ => .bind (.see fun _ _ => rfl) fun _ => .ite ?lps ?mps
  case lps => exact .bind (.see fun _ _ => rfl) fun _ => .bind (.updSeg _) fun _ => moved _ _
  case mps => exact .bind (.updSeg _) fun _ => .bind (.see fun _ _ => rfl) fun _ => .ite (.pure _) (moved _ _)

/-! ### The raw coder (43_raw_bypass.md) -/

/-- RAWPUT (R212). -/
theorem rawPut_onCoder (d : Bool) : OnCoder (rawPut d) := by
  have hnext : OnCoder nextByte :=
    .bind (.bind (.see fun _ _ => rfl) fun _ => .bind (emitByte_onCoder _) fun _ => .updSeg _) fun _ => .updSeg _
  exact .bind (.updSeg _) fun _ => .bind (.updSeg _) fun _ => .bind (.see fun _ _ => rfl) fun _ => .ite hnext (.pure ())

/-- RAWGET (R217). -/
theorem rawGet_onCoder : OnCoder rawGet := by
  have htake : OnCoder takeBit := .bind (.updSeg _) fun _ => .see fun _ _ => rfl
  have hbyte : OnCoder rawByteIn := by
    refine .bind (.see fun _ _ => rfl) fun _ => .bind (segByte_onCoder _) fun _ => .ite (.ite ?_ ?_) ?_
    all_goals exact .bind (.updSeg _) fun _ => countFill_onCoder _
  exact .bind (.see fun _ _ => rfl) fun _ => .ite (.bind hbyte fun _ => htake) htake

end Sys2Proof.Proofs
end

section
/-!
PROOFS. The decisions of a pass and their coder (44_bitplane_coder.md R233): `Coded pa l s t` says that the decisions l, coded one
after the other in their labels, take the coder from s to t. What they emit and read, and that the commands MQ.ENCODE, MQ.DECODE,
RAW.PUTBIT and RAW.GETBIT of these decisions take it there too.
-/
namespace Sys2Proof.Proofs

open Sys2Proof.Machine Sys2Proof.Laws

variable {pa : PassArgs} {s t u : State} {cx : Label} {d : Bool} {l l' : List (Label × Bool)}

/-! ### Encoding with room, from any A (42_mq_coder.md R165, R166, 43_raw_bypass.md R212) -/

/-- From s to t an encoder has emitted at most n bytes; a raw one leaves the contexts. -/
structure Encoded (raw : Bool) (n : Nat) (s t : State) : Prop where
  emits : ∃ j ≤ n, Emits j (s.seg, s.mem) (t.seg, t.mem)
  ctx : raw = true → t.ctx = s.ctx

theorem Encoded.refl (raw : Bool) (s : State) : Encoded raw 0 s s := ⟨⟨0, Nat.le_refl 0, .refl _⟩, fun _ => rfl⟩

theorem Encoded.trans {raw : Bool} {m n : Nat} (h : Encoded raw m s t) (h' : Encoded raw n t u) : Encoded raw (m + n) s u := by
  obtain ⟨i, hi, hemit⟩ := h.emits
  obtain ⟨j, hj, hemit'⟩ := h'.emits
  exact ⟨⟨i + j, by omega, hemit.trans hemit'⟩, fun hraw => (h'.ctx hraw).trans (h.ctx hraw)⟩

theorem Encoded.mono {raw : Bool} {m n : Nat} (h : Encoded raw m s t) (hle : m ≤ n) : Encoded raw n s t := by
  obtain ⟨j, hj, hemit⟩ := h.emits
  exact ⟨⟨j, Nat.le_trans hj hle, hemit⟩, h.ctx⟩

/-- The room left. -/
theorem Encoded.hasRoom {raw : Bool} {m n : Nat} (h : Encoded raw m s t) (hroom : HasRoom s (m + n)) : HasRoom t n := by
  obtain ⟨j, hj, hemit⟩ := h.emits
  have hout : t.seg.outOffset = s.seg.outOffset + j := hemit.outOffset
  unfold HasRoom at *
  omega

/-- Bytes are emitted into BYTE memory alone: COEF stays (20_memory.md R72, R73). -/
theorem Encoded.getWord_coef {raw : Bool} {n : Nat} (h : Encoded raw n s t) {i : Nat} (hi : i < 4096) :
    t.mem.getWord (coefAddr i) = s.mem.getWord (coefAddr i) := by
  obtain ⟨j, -, hemit⟩ := h.emits
  exact getWord_congr fun k hk => hemit.outside _ (by unfold coefAddr byteAddr; omega)

/-- RENORME, however many turns it makes. -/
theorem renormE_room (s : State) (fuel : Nat) {k : Nat} {x : SegRegs × Memory} (h : TurnsFit fuel k x) :
    ∃ y, renormE fuel (withCoder s x) = .ok () (withCoder s y) ∧ ∃ j ≤ k, Emits j x y := by
  induction fuel generalizing k x with
  | zero => exact ⟨x, rfl, 0, Nat.zero_le k, .refl x⟩
  | succ fuel ih =>
    obtain ⟨i, hi, hemit, hfit⟩ := mqTurn_fits h
    unfold renormE
    rw [bind_of_ok (renormEStep_withCoder s h), see_bind, withCoder_seg]
    cases (mqTurn x).1.a.msb with
    | true => exact ⟨mqTurn x, rfl, i, hi, hemit⟩
    | false =>
      obtain ⟨y, hrun, j, hj, hemit'⟩ := ih hfit
      exact ⟨y, hrun, i + j, by omega, hemit.trans hemit'⟩

/-- ENCODE emits at most three bytes from any A: in sixteen turns a byte-out comes at most three times. -/
theorem mqEncode_encoded (cx : Label) (d : Bool) (hroom : HasRoom s 3) :
    ∃ t, mqEncode cx d s = .ok () t ∧ Encoded false 3 s t := by
  by_cases h : SkipsRenorm s.ctx[cx] d s.seg.a
  · exact ⟨_, mqEncode_of_skipsRenorm h, ⟨0, Nat.zero_le 3, rfl, rfl, fun _ _ => rfl⟩, nofun⟩
  · have hinterval := emits_mqInterval (e := s.ctx[cx]) (d := d) (s.seg, s.mem)
    have hfit : TurnsFit 16 3 (mqInterval s.ctx[cx] d s.seg, s.mem) := ⟨by omega, hinterval.outOffset ▸ hroom⟩
    obtain ⟨y, hrun, j, hj, hemit⟩ :=
      renormE_room { s with ctx := s.ctx.set cx (ctxAfter s.ctx[cx] s.seg.a d) } 16 hfit
    refine ⟨_, (mqEncode_of_renorm h).trans hrun, ⟨j, hj, ?_⟩, nofun⟩
    exact Nat.zero_add j ▸ hinterval.trans hemit

theorem nextByte_emits (hroom : HasRoom s 1) :
    ∃ t, nextByte s = .ok () t ∧ Encoded true 1 s t := by
  have hcap : s.seg.outOffset < Config.byteCap := hroom
  have hemit := mqEmit_emits (x := (s.seg, s.mem)) hcap (s.seg.c.extractLsb' 0 8) 0 (freeAfter (s.seg.c.extractLsb' 0 8))
  exact ⟨_, nextByte_room hroom, ⟨1, Nat.le_refl 1, hemit⟩, fun _ => rfl⟩

/-- RAWPUT emits at most one byte. -/
theorem rawPut_encoded (d : Bool) (hroom : HasRoom s 3) : ∃ t, rawPut d s = .ok () t ∧ Encoded true 3 s t := by
  have hset (c : Word) (ct : BitVec 4) : Encoded true 0 s { s with seg := { s.seg with ct := ct, c := c } } :=
    ⟨⟨0, Nat.le_refl 0, rfl, rfl, fun _ _ => rfl⟩, fun _ => rfl⟩
  by_cases hct : s.seg.ct = 1
  · have hroom' : HasRoom { s with seg := { s.seg with ct := 0, c := rawWith s.seg d } } 1 := by
      unfold HasRoom SegRegs.outOffset at *
      dsimp only
      omega
    obtain ⟨t, hrun, henc⟩ := nextByte_emits hroom'
    exact ⟨t, (rawPut_last hct).trans hrun, ((hset _ _).trans henc).mono (by omega)⟩
  · exact ⟨_, rawPut_inside hct, (hset _ _).mono (by omega)⟩

/-! ### Decoding on a written segment (42_mq_coder.md R185, 43_raw_bypass.md R217) -/

/-- From s to t a decoder has read its segment: memory stays, and the contexts of a raw one. -/
structure DecodedFrom (raw : Bool) (s t : State) : Prop where
  mem : t.mem = s.mem
  regs : ReadsOnly s.seg t.seg
  ctx : raw = true → t.ctx = s.ctx

theorem DecodedFrom.refl (raw : Bool) (s : State) : DecodedFrom raw s s := ⟨rfl, rfl, fun _ => rfl⟩

theorem DecodedFrom.trans {raw : Bool} (h : DecodedFrom raw s t) (h' : DecodedFrom raw t u) : DecodedFrom raw s u :=
  ⟨h'.mem.trans h.mem, h.regs.trans h'.regs, fun hraw => (h'.ctx hraw).trans (h.ctx hraw)⟩

theorem DecodedFrom.segmentWritten {raw : Bool} (h : DecodedFrom raw s t) (hs : SegmentWritten s) : SegmentWritten t := by
  have hregs := h.regs
  unfold ReadsOnly at hregs
  exact segmentWritten_of_eq hs h.mem (by rw [hregs]) (by rw [hregs])

theorem mqDecode_decoded (cx : Label) (h : SegmentWritten s) :
    ∃ d t, mqDecode cx s = .ok d t ∧ DecodedFrom false s t := by
  obtain ⟨r, hrun, hregs, -⟩ := mqDecode_written h cx
  exact ⟨_, _, hrun, rfl, hregs, nofun⟩

theorem rawGet_decoded (h : SegmentWritten s) : ∃ d t, rawGet s = .ok d t ∧ DecodedFrom true s t := by
  have htake {s' : State} (hrun : rawGet s = takeBit s') (hs' : DecodedFrom true s s') :
      ∃ d t, rawGet s = .ok d t ∧ DecodedFrom true s t :=
    ⟨_, _, hrun.trans (takeBit_run s'), hs'.trans ⟨rfl, rfl, fun _ => rfl⟩⟩
  by_cases hct : s.seg.ct = 0
  · by_cases hmark : NextIsMarker s
    · exact htake (rawGet_byteIn hct (rawByteIn_marker h hmark)) ⟨rfl, rfl, fun _ => rfl⟩
    · exact htake (rawGet_byteIn hct (rawByteIn_byte h hmark)) ⟨rfl, rfl, fun _ => rfl⟩
  · exact htake (rawGet_inside hct) (.refl true s)

/-! ### CODE (44_bitplane_coder.md R233) -/

/-- The coder of one decision of an encoding pass. -/
def putDecision (pa : PassArgs) (cx : Label) (d : Bool) : Cmd Unit := if pa.raw then rawPut d else mqEncode cx d

theorem code_enc (hdir : pa.dir = .enc) (cx : Label) (e : Cmd Bool) :
    code pa cx e = (do let d ← e; putDecision pa cx d; pure d) := by
  unfold code putDecision
  rw [hdir]
  dsimp only
  split <;> rfl

theorem code_dec (hdir : pa.dir = .dec) (cx : Label) (e : Cmd Bool) :
    code pa cx e = if pa.raw then rawGet else mqDecode cx := by
  unfold code
  rw [hdir]

/-- An encoding pass codes the decision it computes; a decoding pass computes none. -/
theorem code_eq_pure {e : Cmd Bool} (he : pa.dir = .enc → e s = .ok d s) : code pa cx e s = code pa cx (pure d) s := by
  cases hdir : pa.dir with
  | enc => rw [code_enc hdir, code_enc hdir, bind_of_ok (he hdir), pure_bind_run]
  | dec => rw [code_dec hdir, code_dec hdir]

theorem code_pure_enc_iff (hdir : pa.dir = .enc) :
    code pa cx (pure d) s = .ok d t ↔ putDecision pa cx d s = .ok () t := by
  rw [code_enc hdir, pure_bind_run, bind_eq_ok]
  constructor
  · rintro ⟨⟨⟩, t', hput, hpure⟩
    cases hpure
    exact hput
  · exact fun hput => ⟨(), t, hput, rfl⟩

theorem code_onCoder (cx : Label) (d : Bool) : OnCoder (code pa cx (pure d)) := by
  cases hdir : pa.dir with
  | enc =>
    rw [code_enc hdir]
    exact .bind (.pure d) fun d => .bind (.ite (rawPut_onCoder d) (mqEncode_onCoder cx d)) fun _ => .pure d
  | dec =>
    rw [code_dec hdir]
    exact .ite rawGet_onCoder (mqDecode_onCoder cx)

theorem code_coderFrame (h : code pa cx (pure d) s = .ok d t) : CoderFrame s t := by
  have hsteps := coderFrame_steps
  cases hdir : pa.dir with
  | enc =>
    have hkeeps : Keeps CoderFrame (putDecision pa cx d) := .ite (rawPut_keeps hsteps d) (mqEncode_keeps hsteps cx d)
    exact hkeeps.ok ((code_pure_enc_iff hdir).1 h)
  | dec =>
    rw [code_dec hdir] at h
    have hkeeps : Keeps CoderFrame (if pa.raw = true then rawGet else mqDecode cx) :=
      .ite (rawGet_keeps hsteps) (mqDecode_keeps hsteps cx)
    exact hkeeps.ok h

theorem code_encoded (hdir : pa.dir = .enc) (cx : Label) (d : Bool) (hroom : HasRoom s 3) :
    ∃ t, code pa cx (pure d) s = .ok d t ∧ Encoded pa.raw 3 s t := by
  simp only [code_pure_enc_iff hdir, putDecision]
  cases pa.raw with
  | true => exact rawPut_encoded d hroom
  | false => exact mqEncode_encoded cx d hroom

theorem code_decoded (hdir : pa.dir = .dec) (cx : Label) (e : Cmd Bool) (h : SegmentWritten s) :
    ∃ d t, code pa cx e s = .ok d t ∧ DecodedFrom pa.raw s t := by
  rw [code_dec hdir]
  cases pa.raw with
  | true => exact rawGet_decoded h
  | false => exact mqDecode_decoded cx h

/-! ### Decisions one after the other -/

/-- The decisions l, each coded in its label, take s to t. -/
def Coded (pa : PassArgs) : List (Label × Bool) → State → State → Prop
  | [], s, t => t = s
  | (cx, d) :: l, s, u => ∃ t, code pa cx (pure d) s = .ok d t ∧ Coded pa l t u

theorem Coded.single (h : code pa cx (pure d) s = .ok d t) : Coded pa [(cx, d)] s t := ⟨t, h, rfl⟩

theorem Coded.append (h : Coded pa l s t) (h' : Coded pa l' t u) : Coded pa (l ++ l') s u := by
  induction l generalizing s with
  | nil => cases h; exact h'
  | cons kd l ih =>
    obtain ⟨v, hv, hl⟩ := h
    exact ⟨v, hv, ih hl⟩

theorem Coded.coderFrame (h : Coded pa l s t) : CoderFrame s t := by
  induction l generalizing s with
  | nil => cases h; exact coderFrame_chains.refl _
  | cons kd l ih =>
    obtain ⟨v, hv, hl⟩ := h
    exact coderFrame_chains.trans (code_coderFrame hv) (ih hl)

/-- The rest of the state does not matter. -/
theorem Coded.withCoderOf (h : Coded pa l s t) (s₀ : State) :
    Coded pa l (Proofs.withCoderOf s₀ s) (Proofs.withCoderOf s₀ t) := by
  induction l generalizing s with
  | nil => cases h; rfl
  | cons kd l ih =>
    obtain ⟨v, hv, hl⟩ := h
    exact ⟨_, (code_onCoder _ _).ok hv s₀, ih hl⟩

/-- What the decisions of an encoding pass emit, with room for three bytes each. -/
theorem Coded.encoded (h : Coded pa l s t) (hdir : pa.dir = .enc) (hroom : HasRoom s (3 * l.length)) :
    Encoded pa.raw (3 * l.length) s t := by
  induction l generalizing s with
  | nil => cases h; exact .refl _ _
  | cons kd l ih =>
    obtain ⟨v, hv, hl⟩ := h
    have hsum : 3 * (kd :: l).length = 3 + 3 * l.length := by
      rw [List.length_cons]
      omega
    rw [hsum] at hroom ⊢
    have hroom3 : HasRoom s 3 := by
      unfold HasRoom at *
      omega
    obtain ⟨v', hv', henc⟩ := code_encoded hdir kd.1 kd.2 hroom3
    cases hv.symm.trans hv'
    exact henc.trans (ih hl (henc.hasRoom hroom))

/-- What the decisions of a decoding pass read, on a written segment. -/
theorem Coded.decoded (h : Coded pa l s t) (hdir : pa.dir = .dec) (hs : SegmentWritten s) : DecodedFrom pa.raw s t := by
  induction l generalizing s with
  | nil => cases h; exact .refl _ _
  | cons kd l ih =>
    obtain ⟨v, hv, hl⟩ := h
    obtain ⟨d', v', hv', hdec⟩ := code_decoded hdir kd.1 (pure kd.2) hs
    cases hv.symm.trans hv'
    exact hdec.trans (ih hl (hdec.segmentWritten hs))

/-! ### The commands of these decisions (R233) -/

theorem labelOf_ofNat (cx : Label) : labelOf (BitVec.ofNat 5 cx.val) = cx := by
  have hall : ∀ cx : Label, labelOf (BitVec.ofNat 5 cx.val) = cx := by decide
  exact hall cx

theorem legalCx_ofNat (cx : Label) : (BitVec.ofNat 5 cx.val).toNat ≤ 18 := by
  have := cx.isLt
  rw [BitVec.toNat_ofNat]
  omega

/-- The command that codes a decision. -/
theorem exec_putDecision (hmode : s.status.cmode = passMode .enc pa.raw) (h : putDecision pa cx d s = .ok () t) :
    exec (if pa.raw then .rawPutbit d else .mqEncode (BitVec.ofNat 5 cx.val) d) s = .next t.complete := by
  unfold putDecision at h
  cases hraw : pa.raw with
  | true =>
    rw [hraw] at hmode h
    exact runCmd_of_ok ((needMode_bind hmode _).trans h)
  | false =>
    rw [hraw] at hmode h
    exact exec_mqEncode_of_ok (legalCx_ofNat cx) hmode ((labelOf_ofNat cx).symm ▸ h)

/-- The command that decodes a decision. -/
theorem exec_getDecision (hmode : s.status.cmode = passMode .dec pa.raw)
    (h : (if pa.raw then rawGet else mqDecode cx) s = .ok d t) :
    exec (if pa.raw then .rawGetbit else .mqDecode (BitVec.ofNat 5 cx.val)) s =
      .next (State.complete { t with out := { t.out with result := zextBit d } }) := by
  cases hraw : pa.raw with
  | true =>
    rw [hraw] at hmode h
    exact runCmd_of_ok ((needMode_bind hmode _).trans (bind_of_ok h _))
  | false =>
    rw [hraw] at hmode h
    have hfields : (Instr.mqDecode (BitVec.ofNat 5 cx.val)).wellFormed = true := decide_eq_true (legalCx_ofNat cx)
    have h' : mqDecode (labelOf (BitVec.ofNat 5 cx.val)) s = .ok d t := (labelOf_ofNat cx).symm ▸ h
    exact runCmd_of_ok ((checkFields_needMode_bind hfields hmode _).trans (bind_of_ok h' _))

/-- Two states with the same coder. -/
def SameCoder (t u : State) : Prop := t.seg = u.seg ∧ t.ctx = u.ctx ∧ t.mem = u.mem

/-- MQ.ENCODE or RAW.PUTBIT of each decision leaves the coder as the pass does. -/
theorem Coded.execAll (h : Coded pa l s t) (hdir : pa.dir = .enc) (hmode : s.status.cmode = passMode .enc pa.raw) :
    ∃ u, Machine.execAll (codingCommands pa.raw l) s = .next u ∧ u.status.err = s.status.err ∧ SameCoder t u := by
  induction l generalizing s t with
  | nil => cases h; exact ⟨s, rfl, rfl, rfl, rfl, rfl⟩
  | cons kd l ih =>
    obtain ⟨v, hv, hl⟩ := h
    have hframe : CoderFrame s v := code_coderFrame hv
    unfold CoderFrame at hframe
    have hstep := exec_putDecision hmode ((code_pure_enc_iff hdir).1 hv)
    have hmode' : v.complete.status.cmode = passMode .enc pa.raw := by rw [hframe]; exact hmode
    obtain ⟨u, hrun, herr, hcoder⟩ := ih (hl.withCoderOf v.complete) hmode'
    refine ⟨u, ?_, herr.trans (by rw [hframe]; rfl), hcoder⟩
    show Machine.execAll ((if pa.raw then _ else _) :: codingCommands pa.raw l) s = _
    rw [Machine.execAll, hstep]
    exact hrun

/-- MQ.DECODE or RAW.GETBIT of each decision answers it and leaves the coder as the pass does. -/
theorem Coded.decodingCommands (h : Coded pa l s t) (hdir : pa.dir = .dec)
    (hmode : s.status.cmode = passMode .dec pa.raw) :
    ∃ u, Machine.decodingCommands pa.raw l s = some u ∧ SameCoder t u := by
  induction l generalizing s t with
  | nil => cases h; exact ⟨s, rfl, rfl, rfl, rfl⟩
  | cons kd l ih =>
    obtain ⟨v, hv, hl⟩ := h
    have hframe : CoderFrame s v := code_coderFrame hv
    unfold CoderFrame at hframe
    rw [code_dec hdir] at hv
    have hstep := exec_getDecision hmode hv
    let v' : State := State.complete { v with out := { v.out with result := zextBit kd.2 } }
    have hmode' : v'.status.cmode = passMode .dec pa.raw := by
      show v.status.cmode = _
      rw [hframe]
      exact hmode
    have herr : v'.status.err = s.status.err := by
      show v.status.err = _
      rw [hframe]
    obtain ⟨u, hrun, hcoder⟩ := ih (hl.withCoderOf v') hmode'
    refine ⟨u, ?_, hcoder⟩
    rw [Machine.decodingCommands, hstep]
    exact (if_pos ⟨herr, rfl⟩).trans hrun

end Sys2Proof.Proofs
end

section
/-!
PROOFS. A pass follows its replay (44_bitplane_coder.md R231): `Follows` says that a piece of a pass, from arrays r, codes some list of
decisions, and that the replay of the rules (Reference.lean) accepts this list and ends in the same arrays. One rule for each way
pieces are put together.
-/
namespace Sys2Proof.Proofs

open Sys2Proof.Machine Sys2Proof.Laws

/-- The replay of a pass: an encoding one reads COEF in the memory m (R232). -/
def replayOf (pa : PassArgs) (m : Memory) : Replay :=
  ⟨pa.g, pa.plane, pa.raw, if pa.dir = .enc then some m else none⟩

/-- What a pass finds: an encoder has room for n bytes, and its coefficients are those of m; a decoder's segment is written. -/
structure Ready (pa : PassArgs) (m : Memory) (n : Nat) (s : State) : Prop where
  room : pa.dir = .enc → HasRoom s n
  coefs : pa.dir = .enc → ∀ i < pa.g.w * pa.g.h, ∃ q, m.getWord (coefAddr i) = some q ∧ s.mem.getWord (coefAddr i) = some q
  segment : pa.dir = .dec → SegmentWritten s

/-- The decisions l take the coder from s to t; besides the coder only the arrays may differ. -/
def Traces (pa : PassArgs) (l : List (Label × Bool)) (s t : State) : Prop := Coded pa l s { t with arr := s.arr }

section Trace

variable {pa : PassArgs} {m : Memory} {n k : Nat} {s t u : State} {l l' : List (Label × Bool)}

theorem Ready.mono (h : Ready pa m n s) (hle : k ≤ n) : Ready pa m k s where
  room hdir := by
    have := h.room hdir
    unfold HasRoom at *
    omega
  coefs := h.coefs
  segment := h.segment

theorem Ready.coded (h : Ready pa m (n + k) s) (hg : pa.g.w * pa.g.h ≤ 4096) (hl : Coded pa l s t)
    (hn : 3 * l.length ≤ n) : Ready pa m k t := by
  have henc (hdir : pa.dir = .enc) : Encoded pa.raw n s t := by
    refine (hl.encoded hdir ?_).mono hn
    have := h.room hdir
    unfold HasRoom at *
    omega
  refine ⟨fun hdir => (henc hdir).hasRoom (h.room hdir), fun hdir i hi => ?_,
    fun hdir => (hl.decoded hdir (h.segment hdir)).segmentWritten (h.segment hdir)⟩
  rw [(henc hdir).getWord_coef (by omega)]
  exact h.coefs hdir i hi

theorem Ready.traces (h : Ready pa m (n + k) s) (hg : pa.g.w * pa.g.h ≤ 4096) (hl : Traces pa l s t)
    (hn : 3 * l.length ≤ n) : Ready pa m k t :=
  have h' := h.coded hg hl hn
  ⟨h'.room, h'.coefs, h'.segment⟩

theorem Traces.updArr (pa : PassArgs) (s : State) (r : Arrays) : Traces pa [] s { s with arr := r } := rfl

theorem Traces.trans (h : Traces pa l s t) (h' : Traces pa l' t u) : Traces pa (l ++ l') s u := by
  have hframe : CoderFrame t { u with arr := t.arr } := h'.coderFrame
  have hu : ({ u with arr := s.arr } : State) = withCoderOf { t with arr := s.arr } { u with arr := t.arr } :=
    congrArg (fun v : State => { v with arr := s.arr }) hframe
  unfold Traces
  rw [hu]
  exact h.append (h'.withCoderOf { t with arr := s.arr })

theorem Coded.traces (h : Coded pa l s t) : Traces pa l s t := by
  have hframe : CoderFrame s t := h.coderFrame
  have ht : ({ t with arr := s.arr } : State) = t := by
    unfold CoderFrame at hframe
    rw [hframe]
  unfold Traces
  rwa [ht]

end Trace

variable {pa : PassArgs} {m : Memory} {n k : Nat} {r : Arrays} {α β γ δ : Type}

/-- From arrays r, with at most n bytes emitted, c codes a list of decisions; the replay f accepts it, with the answer and the arrays
of c. -/
def Follows (pa : PassArgs) (m : Memory) (n : Nat) (r : Arrays) (c : Cmd α) (f : Replayed → Option β)
    (g : α → Replayed → β) : Prop :=
  ∀ s, s.arr = r → Ready pa m n s → ∃ l a t, c s = .ok a t ∧ Traces pa l s t ∧ 3 * l.length ≤ n ∧
    ∀ rest, f ⟨r, l ++ rest⟩ = some (g a ⟨t.arr, rest⟩)

/-- The same for a piece without an answer. -/
abbrev FollowsUnit (pa : PassArgs) (m : Memory) (n : Nat) (r : Arrays) (c : Cmd Unit) (f : Replayed → Option Replayed) : Prop :=
  Follows pa m n r c f fun _ z => z

section Rules

variable {c : Cmd α} {f f' : Replayed → Option β} {g : α → Replayed → β}

theorem Follows.congr (h : Follows pa m n r c f g) (hf : ∀ todo, f' ⟨r, todo⟩ = f ⟨r, todo⟩) : Follows pa m n r c f' g := by
  intro s hs hready
  obtain ⟨l, a, t, hrun, htrace, hlen, hreplay⟩ := h s hs hready
  exact ⟨l, a, t, hrun, htrace, hlen, fun rest => (hf _).trans (hreplay rest)⟩

theorem Follows.ofRun {c' : Cmd α} (h : Follows pa m n r c f g) (hc : ∀ s, s.arr = r → c' s = c s) :
    Follows pa m n r c' f g := by
  intro s hs hready
  rw [hc s hs]
  exact h s hs hready

theorem Follows.mono (h : Follows pa m k r c f g) (hle : k ≤ n) : Follows pa m n r c f g := by
  intro s hs hready
  obtain ⟨l, a, t, hrun, htrace, hlen, hreplay⟩ := h s hs (hready.mono hle)
  exact ⟨l, a, t, hrun, htrace, Nat.le_trans hlen hle, hreplay⟩

theorem Follows.pure {a : α} (hf : ∀ todo, f ⟨r, todo⟩ = some (g a ⟨r, todo⟩)) : Follows pa m n r (Pure.pure a) f g :=
  fun s hs _ => ⟨[], a, s, rfl, rfl, Nat.zero_le n, fun rest => hs ▸ hf rest⟩

/-- A read of the state codes nothing. -/
theorem Follows.read {d : Cmd δ} {x : δ} {c : δ → Cmd α} (hd : ∀ s, s.arr = r → Ready pa m n s → d s = .ok x s)
    (h : Follows pa m n r (c x) f g) : Follows pa m n r (d >>= c) f g := by
  intro s hs hready
  rw [bind_of_ok (hd s hs hready)]
  exact h s hs hready

/-- A write of the arrays codes nothing. -/
theorem Follows.write {d : Cmd Unit} {c : Unit → Cmd α} {w : Arrays → Arrays}
    (hd : ∀ s, d s = .ok () { s with arr := w s.arr }) (hf : ∀ todo, f ⟨r, todo⟩ = f' ⟨w r, todo⟩)
    (h : Follows pa m n (w r) (c ()) f' g) : Follows pa m n r (d >>= c) f g := by
  intro s hs hready
  obtain ⟨l, a, t, hrun, htrace, hlen, hreplay⟩ :=
    h { s with arr := w s.arr } (congrArg w hs) ⟨hready.room, hready.coefs, hready.segment⟩
  exact ⟨l, a, t, (bind_of_ok (hd s) c).trans hrun, (Traces.updArr pa s _).trans htrace, hlen,
    fun rest => (hf _).trans (hreplay rest)⟩

/-- A write of the arrays as the last piece. -/
theorem Follows.writeLast {d : Cmd Unit} {f : Replayed → Option Replayed} {w : Arrays → Arrays}
    (hd : ∀ s, d s = .ok () { s with arr := w s.arr }) (hf : ∀ todo, f ⟨r, todo⟩ = some ⟨w r, todo⟩) :
    FollowsUnit pa m n r d f :=
  fun s hs _ => ⟨[], (), _, hd s, rfl, Nat.zero_le n, fun rest => by rw [hs]; exact hf rest⟩

/-- c can answer a. -/
def Answers (c : Cmd α) (a : α) : Prop := ∃ s t, c s = .ok a t

/-- One piece after the other. -/
theorem Follows.bind {d : Cmd δ} {c : δ → Cmd α} {f₁ : Replayed → Option γ} {g₁ : δ → Replayed → γ} {f₂ : γ → Option β}
    (hg : pa.g.w * pa.g.h ≤ 4096) (hd : Follows pa m n r d f₁ g₁) (hf : ∀ todo, f ⟨r, todo⟩ = (f₁ ⟨r, todo⟩).bind f₂)
    (hc : ∀ x, Answers d x → ∀ r', Follows pa m k r' (c x) (fun z => f₂ (g₁ x z)) g) :
    Follows pa m (n + k) r (d >>= c) f g := by
  intro s hs hready
  obtain ⟨l, x, t, hrun, htrace, hlen, hreplay⟩ := hd s hs (hready.mono (Nat.le_add_right n k))
  obtain ⟨l', a, u, hrun', htrace', hlen', hreplay'⟩ := hc x ⟨s, t, hrun⟩ t.arr t rfl (hready.traces hg htrace hlen)
  refine ⟨l ++ l', a, u, (bind_of_ok hrun c).trans hrun', htrace.trans htrace', ?_, fun rest => ?_⟩
  · rw [List.length_append]
    omega
  · rw [hf, List.append_assoc, hreplay]
    exact hreplay' rest

/-- A loop. -/
theorem Follows.forEach {c : δ → Cmd Unit} {f : Replayed → δ → Option Replayed} {cost : δ → Nat} {L : List δ}
    (hg : pa.g.w * pa.g.h ≤ 4096) (h : ∀ x ∈ L, ∀ r, FollowsUnit pa m (cost x) r (c x) fun z => f z x) :
    FollowsUnit pa m (L.map cost).sum r (Machine.forEach L c) fun z => L.foldlM f z := by
  induction L generalizing r with
  | nil => exact .pure fun _ => rfl
  | cons x L ih =>
    rw [forEach_cons, List.map_cons, List.sum_cons]
    refine .bind hg (h x List.mem_cons_self r) (fun _ => List.foldlM_cons) fun _ _ r' => ?_
    exact ih fun y hy => h y (List.mem_cons_of_mem _ hy)

end Rules

/-! ### Decisions -/

/-- The decision an encoding pass computes by e is the one the replay wants; of a decoding pass it wants none (R232, R233). -/
structure Wanted (pa : PassArgs) (m : Memory) (e : Cmd Bool) (want : Option Bool) : Prop where
  enc : pa.dir = .enc → ∃ d, want = some d ∧ ∀ n s, Ready pa m n s → e s = .ok d s
  dec : pa.dir = .dec → want = none

/-- CODE answers a decision the replay accepts. -/
theorem code_ready {e : Cmd Bool} {want : Option Bool} {s : State} (hg : pa.g.w * pa.g.h ≤ 4096) (hw : Wanted pa m e want)
    (cx : Label) (h : Ready pa m (3 + n) s) :
    ∃ d t, code pa cx e s = .ok d t ∧ Coded pa [(cx, d)] s t ∧ Ready pa m n t ∧ (want = none ∨ want = some d) := by
  have hready {d : Bool} {t : State} (hpure : code pa cx (pure d) s = .ok d t) : Ready pa m n t :=
    h.coded hg (.single hpure) (by rw [List.length_singleton])
  cases hdir : pa.dir with
  | enc =>
    obtain ⟨d, hwant, he⟩ := hw.enc hdir
    have hroom : HasRoom s 3 := (h.mono (Nat.le_add_right 3 n)).room hdir
    obtain ⟨t, hrun, -⟩ := code_encoded hdir cx d hroom
    exact ⟨d, t, (code_eq_pure fun _ => he _ s h).trans hrun, .single hrun, hready hrun, .inr hwant⟩
  | dec =>
    obtain ⟨d, t, hrun, -⟩ := code_decoded hdir cx e (h.segment hdir)
    have hpure : code pa cx (pure d) s = .ok d t := by
      rw [code_dec hdir] at hrun ⊢
      exact hrun
    exact ⟨d, t, hrun, .single hpure, hready hpure, .inl (hw.dec hdir)⟩

theorem next_cons {want : Option Bool} {d : Bool} (h : want = none ∨ want = some d) (cx : Label)
    (rest : List (Label × Bool)) : (⟨r, (cx, d) :: rest⟩ : Replayed).next want cx = some (d, ⟨r, rest⟩) := if_pos ⟨rfl, h⟩

/-- A decision, which leaves the arrays, and what follows it. -/
theorem Follows.code {e : Cmd Bool} {want : Option Bool} {cx : Label} {c : Bool → Cmd α} {f : Replayed → Option β}
    {g : α → Replayed → β} {f₂ : Bool × Replayed → Option β} (hg : pa.g.w * pa.g.h ≤ 4096) (hw : Wanted pa m e want)
    (hf : ∀ todo, f ⟨r, todo⟩ = ((⟨r, todo⟩ : Replayed).next want cx).bind f₂)
    (hc : ∀ d, (want = none ∨ want = some d) → Follows pa m n r (c d) (fun z => f₂ (d, z)) g) :
    Follows pa m (3 + n) r (Machine.code pa cx e >>= c) f g := by
  intro s hs hready
  obtain ⟨d, t, hrun, hcoded, hready', hwant⟩ := code_ready hg hw cx hready
  have hframe : CoderFrame s t := hcoded.coderFrame
  have harr : t.arr = r := by
    unfold CoderFrame at hframe
    rw [hframe, hs]
  obtain ⟨l, a, u, hrun', htrace, hlen, hreplay⟩ := hc d hwant t harr hready'
  refine ⟨(cx, d) :: l, a, u, (bind_of_ok hrun c).trans hrun', hcoded.traces.trans htrace, ?_, fun rest => ?_⟩
  · rw [List.length_cons]
    omega
  · rw [hf, List.cons_append, next_cons hwant]
    exact hreplay rest

end Sys2Proof.Proofs
end

section
/-!
PROOFS. Every piece of a pass follows its replay (44_bitplane_coder.md R235 to R239): the decision values, MAGBIT, SIGNSTEP, the three
visits, a column in run mode, and the loops of the passes with the bytes they can emit.
-/
namespace Sys2Proof.Proofs

open Sys2Proof.Machine Sys2Proof.Laws

variable {pa : PassArgs} {m : Memory} {n i x y y0 : Nat} {s : State} {r : Arrays}

/-! ### The values an encoder codes (R232) -/

/-- COEF[i] in the memory m. -/
def coefOf (m : Memory) (i : Nat) : Word := (m.getWord (coefAddr i)).getD 0

theorem replayOf_coef_enc (hdir : pa.dir = .enc) : (replayOf pa m).coef = some m := if_pos hdir

theorem replayOf_coef_dec (hdir : pa.dir = .dec) : (replayOf pa m).coef = none := if_neg (by rw [hdir]; decide)

theorem replayOf_word_enc (hdir : pa.dir = .enc) (i : Nat) : (replayOf pa m).word i = some (coefOf m i) := by
  rw [Replay.word, replayOf_coef_enc hdir]
  rfl

theorem memReadWord_ready (h : Ready pa m n s) (hdir : pa.dir = .enc) (hi : i < pa.g.w * pa.g.h) :
    memReadWord (coefAddr i) s = .ok (coefOf m i) s := by
  obtain ⟨q, hm, hs⟩ := h.coefs hdir i hi
  rw [memReadWord_run, hs, coefOf, hm]
  rfl

/-- A decision the encoder computes from COEF[i]. -/
theorem wanted_word {e : Cmd Bool} {v : Word → Bool}
    (he : ∀ s, memReadWord (coefAddr i) s = .ok (coefOf m i) s → e s = .ok (v (coefOf m i)) s) (hi : i < pa.g.w * pa.g.h) :
    Wanted pa m e (((replayOf pa m).word i).map v) where
  enc hdir := ⟨v (coefOf m i), by rw [replayOf_word_enc hdir]; rfl, fun _ s h => he s (memReadWord_ready h hdir hi)⟩
  dec hdir := by rw [Replay.word, replayOf_coef_dec hdir]; rfl

/-- A decision it knows. -/
theorem wanted_pure {b : Bool} {want : Option Bool} (henc : pa.dir = .enc → want = some b) (hdec : pa.dir = .dec → want = none) :
    Wanted pa m (pure b) want := ⟨fun hdir => ⟨b, henc hdir, fun _ _ _ => rfl⟩, hdec⟩

theorem magBitOf_eq (q : Word) (p : Nat) : magBitOf q p = (q.toInt.natAbs / 2 ^ p % 2 == 1) := by
  rw [magBitOf, Nat.testBit_eq_decide_div_mod_eq]
  rfl

theorem coefBit_of_read {p : Nat} {q : Word} (h : memReadWord (coefAddr i) s = .ok q s) :
    coefBit i p s = .ok (magBitOf q p) s := bind_of_ok h _

theorem wanted_coefBit (hi : i < pa.g.w * pa.g.h) : Wanted pa m (coefBit i pa.plane) ((replayOf pa m).bit i) :=
  wanted_word (fun s hs => by rw [coefBit_of_read hs, magBitOf_eq]; rfl) hi

/-! ### MAGBIT and SIGNSTEP (R235, R236) -/

/-- MAG[i][p] ← 1 is the replay's (R235). -/
theorem markMagBit_run (pa : PassArgs) (m : Memory) (i : Nat) (s : State) :
    markMagBit pa i s = .ok () { s with arr := (replayOf pa m).mark i s.arr } := by
  unfold markMagBit Replay.mark
  cases hdir : pa.dir with
  | enc => rw [if_neg (by decide), replayOf_coef_enc hdir]; rfl
  | dec => rw [if_pos rfl, replayOf_coef_dec hdir]; rfl

/-- Label and prediction bit of a sign (R236). -/
def signLabel (raw : Bool) (g : Geometry) (r : Arrays) (x y : Nat) : Label × Bool := if raw then (0, false) else scAt g r x y

/-- SIGN[i] and SIG[i] of a coefficient that becomes significant (R236). -/
def signed (i : Nat) (neg : Bool) (r : Arrays) : Arrays := { r with sgn := bitPut r.sgn i neg, sig := bitSet r.sig i }

theorem signStep_run (pa : PassArgs) (x y : Nat) (s : State) : signStep pa x y s =
    (code pa (signLabel pa.raw pa.g s.arr x y).1
        (do pure ((← coefSign (coefIndex pa.g x y)) ^^ (signLabel pa.raw pa.g s.arr x y).2)) >>= fun d =>
      setSign (coefIndex pa.g x y) (d ^^ (signLabel pa.raw pa.g s.arr x y).2)) s := by
  unfold signStep signLabel
  cases pa.raw with
  | true => simp only [if_true, Bool.xor_false, bind_pure]
  | false => rfl

theorem sign_eq (p : Replay) (x y : Nat) (r : Arrays) (todo : List (Label × Bool)) : p.sign x y ⟨r, todo⟩ =
    ((⟨r, todo⟩ : Replayed).next ((p.word (coefIndex p.g x y)).map fun q => q.msb ^^ (signLabel p.raw p.g r x y).2)
      (signLabel p.raw p.g r x y).1).bind fun dz =>
        some { dz.2 with arr := signed (coefIndex p.g x y) (dz.1 ^^ (signLabel p.raw p.g r x y).2) dz.2.arr } :=
  Option.map_eq_bind

/-- A magnitude decision in label cx, and its bit of MAG (R235). -/
def replayMagnitude (p : Replay) (i : Nat) (cx : Label) (z : Replayed) : Option (Bool × Replayed) :=
  (z.next (p.bit i) cx).bind fun dz => some (dz.1, { dz.2 with arr := if dz.1 then p.mark i dz.2.arr else dz.2.arr })

theorem newCoef_eq (p : Replay) (x y : Nat) (r : Arrays) (todo : List (Label × Bool)) : p.newCoef x y ⟨r, todo⟩ =
    (replayMagnitude p (coefIndex p.g x y) (zcAt p.g r x y) ⟨r, todo⟩).bind fun dz =>
      if dz.1 then p.sign x y dz.2 else some dz.2 := by
  unfold Replay.newCoef replayMagnitude coefIndex
  dsimp only
  cases (⟨r, todo⟩ : Replayed).next (p.bit (y * p.g.w + x)) (zcAt p.g r x y) with
  | none => rfl
  | some dz =>
    obtain ⟨d, z'⟩ := dz
    cases d <;> rfl

theorem mrp_eq (p : Replay) (z : Replayed) (xy : Nat × Nat) : p.mrp z xy =
    if z.arr.sig.getLsbD (coefIndex p.g xy.1 xy.2) = true ∧ z.arr.visited.getLsbD (coefIndex p.g xy.1 xy.2) = false then
      (replayMagnitude p (coefIndex p.g xy.1 xy.2) (mrAt p.g z.arr xy.1 xy.2) z).bind fun dz =>
        some { dz.2 with arr :=
          { dz.2.arr with refined := bitSet dz.2.arr.refined (coefIndex p.g xy.1 xy.2) } }
    else some z := by
  unfold Replay.mrp replayMagnitude coefIndex
  dsimp only
  split
  · cases z.next (p.bit (xy.2 * p.g.w + xy.1)) (mrAt p.g z.arr xy.1 xy.2) <;> rfl
  · rfl

/-- VISITED[i] ← 1 (R237). -/
def visitedAt (i : Nat) (r : Arrays) : Arrays := { r with visited := bitSet r.visited i }

/-- REFINED[i] ← 1 (R238). -/
def refinedAt (i : Nat) (r : Arrays) : Arrays := { r with refined := bitSet r.refined i }

/-- SIGNSTEP does not look at VISITED. -/
theorem sign_visitedAt (p : Replay) (x y i : Nat) (z : Replayed) :
    p.sign x y { z with arr := visitedAt i z.arr } =
      (p.sign x y z).map fun z => { z with arr := visitedAt i z.arr } := by
  obtain ⟨r, todo⟩ := z
  have hlabel : signLabel p.raw p.g (visitedAt i r) x y = signLabel p.raw p.g r x y := rfl
  rw [sign_eq, sign_eq, hlabel]
  cases todo with
  | nil => rfl
  | cons kd rest =>
    unfold Replayed.next
    dsimp only
    split <;> rfl

theorem spp_eq (p : Replay) (xy : Nat × Nat) (r : Arrays) (todo : List (Label × Bool)) : p.spp ⟨r, todo⟩ xy =
    if r.sig.getLsbD (coefIndex p.g xy.1 xy.2) = false ∧ zcAt p.g r xy.1 xy.2 ≠ 0 then
      (p.newCoef xy.1 xy.2 ⟨r, todo⟩).map fun z => { z with arr := visitedAt (coefIndex p.g xy.1 xy.2) z.arr }
    else some ⟨r, todo⟩ := rfl

section Pieces

variable (hg : pa.g.w * pa.g.h ≤ 4096)
include hg

theorem magBit_follows (hi : i < pa.g.w * pa.g.h) (cx : Label) :
    Follows pa m 3 r (magBit pa i cx) (replayMagnitude (replayOf pa m) i cx) Prod.mk := by
  refine Follows.code (n := 0) (r := r) (cx := cx) hg (wanted_coefBit hi) (fun _ => rfl) fun d _ => ?_
  cases d with
  | true =>
    exact Follows.write (f' := fun z => some (true, z)) (markMagBit_run pa m i) (fun _ => rfl) (.pure fun _ => rfl)
  | false => exact .pure fun _ => rfl

theorem signStep_follows (hi : coefIndex pa.g x y < pa.g.w * pa.g.h) :
    FollowsUnit pa m 3 r (signStep pa x y) ((replayOf pa m).sign x y) := by
  refine Follows.ofRun (Follows.code (n := 0) hg (wanted_word ?value hi) (sign_eq (replayOf pa m) x y r) fun d _ => ?_)
    fun s hs => hs ▸ signStep_run pa x y s
  case value =>
    intro s hs
    unfold coefSign
    rw [bind_assoc, bind_of_ok hs]
    rfl
  exact Follows.writeLast (w := signed (coefIndex pa.g x y) (d ^^ (signLabel pa.raw pa.g r x y).2)) (fun _ => rfl)
    fun _ => rfl

/-- SIGNSTEP after a magnitude decision 1 (R235 to R237, R239). -/
theorem newCoef_follows (hi : coefIndex pa.g x y < pa.g.w * pa.g.h) :
    FollowsUnit pa m 6 r (do
      let d ← magBit pa (coefIndex pa.g x y) (zcAt pa.g r x y)
      if d then signStep pa x y else pure ()) ((replayOf pa m).newCoef x y) := by
  refine Follows.bind (n := 3) (k := 3) hg (magBit_follows hg hi _) (newCoef_eq (replayOf pa m) x y r) fun d _ r' => ?_
  cases d with
  | true => exact signStep_follows hg hi
  | false => exact .pure fun _ => rfl

/-- SPP at one coefficient (R237): VISITED is written between the magnitude and the sign. -/
theorem sppVisit_follows {xy : Nat × Nat} (hi : coefIndex pa.g xy.1 xy.2 < pa.g.w * pa.g.h) :
    FollowsUnit pa m 6 r (sppVisit pa xy) fun z => (replayOf pa m).spp z xy := by
  unfold sppVisit
  refine Follows.read (x := r) (fun s hs _ => by rw [see_run, hs]) ?_
  dsimp only
  by_cases hguard : r.sig.getLsbD (coefIndex pa.g xy.1 xy.2) = false ∧ zcAt pa.g r xy.1 xy.2 ≠ 0
  · rw [if_pos hguard]
    refine Follows.bind (n := 3) (k := 3) hg (magBit_follows hg hi _)
      (f₂ := fun dz => (if dz.1 then (replayOf pa m).sign xy.1 xy.2 dz.2 else some dz.2).map fun z =>
        { z with arr := visitedAt (coefIndex pa.g xy.1 xy.2) z.arr }) (fun todo => ?replay) fun d _ r' => ?rest
    case replay =>
      rw [spp_eq, newCoef_eq, Option.map_bind]
      exact if_pos hguard
    case rest =>
      cases d with
      | true =>
        exact Follows.write (fun _ => rfl) (fun todo => (sign_visitedAt _ _ _ _ ⟨r', todo⟩).symm) (signStep_follows hg hi)
      | false => exact Follows.write (f' := some) (fun _ => rfl) (fun _ => rfl) (.pure fun _ => rfl)
  · rw [if_neg hguard]
    exact .pure fun todo => (spp_eq _ _ _ _).trans (if_neg hguard)

/-- MRP at one coefficient (R238). -/
theorem mrpVisit_follows {xy : Nat × Nat} (hi : coefIndex pa.g xy.1 xy.2 < pa.g.w * pa.g.h) :
    FollowsUnit pa m 6 r (mrpVisit pa xy) fun z => (replayOf pa m).mrp z xy := by
  unfold mrpVisit
  refine Follows.read (x := r) (fun s hs _ => by rw [see_run, hs]) ?_
  by_cases hguard : r.sig.getLsbD (coefIndex pa.g xy.1 xy.2) = true ∧ r.visited.getLsbD (coefIndex pa.g xy.1 xy.2) = false
  · rw [if_pos hguard]
    refine Follows.bind (n := 3) (k := 3) hg (magBit_follows hg hi _)
      (fun todo => (mrp_eq _ ⟨r, todo⟩ xy).trans (if_pos hguard)) fun d _ r' => ?_
    exact Follows.writeLast (w := refinedAt (coefIndex pa.g xy.1 xy.2)) (fun _ => rfl) fun _ => rfl
  · rw [if_neg hguard]
    exact .pure fun todo => (mrp_eq _ ⟨r, todo⟩ xy).trans (if_neg hguard)

/-- CUP at one coefficient (R239). -/
theorem cupVisit_follows (hi : coefIndex pa.g x y < pa.g.w * pa.g.h) :
    FollowsUnit pa m 6 r (cupVisit pa x y) fun z => (replayOf pa m).cupCoef x z y := by
  unfold cupVisit
  refine Follows.read (x := r) (fun s hs _ => by rw [see_run, hs]) ?_
  by_cases hfresh : untouched pa.g r x y = true
  · rw [if_pos hfresh]
    exact (newCoef_follows hg hi).congr fun todo => if_pos hfresh
  · rw [if_neg hfresh]
    exact .pure fun todo => if_neg hfresh

end Pieces

end Sys2Proof.Proofs
end

section
/-!
PROOFS. A cleanup pass by columns (44_bitplane_coder.md R239): the run an encoder finds in a column, the column in run mode and outside
it, and the loops of the three passes with the bytes they can emit.
-/
namespace Sys2Proof.Proofs

open Sys2Proof.Machine Sys2Proof.Laws

variable {pa : PassArgs} {m : Memory} {n x y0 : Nat} {s : State} {r : Arrays}

/-! ### The run of a column -/

theorem stripeRows_of_four {h y0 : Nat} (hrows : y0 + 3 < h) : stripeRows h y0 = [y0, y0 + 1, y0 + 2, y0 + 3] := by
  have hfour : min 4 (h - y0) = 4 := by omega
  rw [stripeRows, hfour]
  rfl

/-- The bits of the four rows of a column at the pass's plane (R239). -/
def fourBits (pa : PassArgs) (m : Memory) (x y0 : Nat) : List Bool :=
  [0, 1, 2, 3].map fun k => magBitOf (coefOf m (coefIndex pa.g x (y0 + k))) pa.plane

/-- The first row with bit 1 that an encoder finds (R239). -/
def runOf (pa : PassArgs) (m : Memory) (x y0 : Nat) : Option Nat :=
  if pa.dir = .enc then (fourBits pa m x y0).findIdx? id else none

theorem columnBits_run (hdir : pa.dir = .enc) (h : Ready pa m n s) (hx : x < pa.g.w) {l : List Nat} (hl : ∀ y ∈ l, y < pa.g.h) :
    columnBits pa x l s = .ok (l.map fun y => magBitOf (coefOf m (coefIndex pa.g x y)) pa.plane) s := by
  induction l with
  | nil => rfl
  | cons y l ih =>
    have hread := memReadWord_ready h hdir (coefIndex_lt_area hx (hl y List.mem_cons_self))
    unfold columnBits
    rw [bind_of_ok (coefBit_of_read hread), bind_of_ok (ih fun z hz => hl z (List.mem_cons_of_mem _ hz))]
    rfl

theorem columnRun_run (h : Ready pa m n s) (hx : x < pa.g.w) (hrows : y0 + 3 < pa.g.h) :
    columnRun pa x y0 s = .ok (runOf pa m x y0) s := by
  unfold columnRun runOf
  cases hdir : pa.dir with
  | enc =>
    dsimp only
    rw [bind_of_ok (columnBits_run hdir h hx fun _ => mem_stripeRows), stripeRows_of_four hrows]
    rfl
  | dec => rfl

/-- The replay's bits of a column, when the pass encodes. -/
def replayBits (p : Replay) (x y0 : Nat) : Option (List Bool) :=
  p.coef.map fun _ => [0, 1, 2, 3].map fun k => (p.bit ((y0 + k) * p.g.w + x)).getD false

theorem replayBits_enc (hdir : pa.dir = .enc) (x y0 : Nat) :
    replayBits (replayOf pa m) x y0 = some (fourBits pa m x y0) := by
  have hbit (i : Nat) : (replayOf pa m).bit i = some (magBitOf (coefOf m i) pa.plane) := by
    rw [Replay.bit, replayOf_word_enc hdir, magBitOf_eq]
    rfl
  simp only [replayBits, hbit, replayOf_coef_enc hdir]
  rfl

theorem replayBits_dec (hdir : pa.dir = .dec) (x y0 : Nat) : replayBits (replayOf pa m) x y0 = none := by
  rw [replayBits, replayOf_coef_dec hdir]
  rfl

/-- A decision about the bits of a column: what the encoder makes of its run is what the replay makes of the bits. -/
theorem wanted_bits {b : Bool} {v : List Bool → Bool} (hv : pa.dir = .enc → v (fourBits pa m x y0) = b) :
    Wanted pa m (pure b) ((replayBits (replayOf pa m) x y0).map v) :=
  wanted_pure (fun hdir => by rw [replayBits_enc hdir, ← hv hdir]; rfl) fun hdir => by rw [replayBits_dec hdir]; rfl

/-- The run position of the replay is the encoder's, where there is a run. -/
theorem idxOf_true_eq {l : List Bool} {k : Nat} (h : l.findIdx? id = some k) : l.idxOf true = k ∧ k < l.length := by
  obtain ⟨hlt, hidx⟩ := List.findIdx?_eq_some_iff_findIdx_eq.1 h
  have hid : (fun b : Bool => b == true) = id := by
    funext b
    cases b <;> rfl
  rw [List.idxOf, hid]
  exact ⟨hidx, hlt⟩

/-! ### A column in run mode -/

theorem runColumn_eq (pa : PassArgs) (x y0 : Nat) : runColumn pa x y0 = (do
    let run ← columnRun pa x y0
    let r ← code pa 17 (pure run.isSome)
    if r then do
      let k1 ← code pa 18 (pure (run.getD 0 / 2 % 2 == 1))
      let k0 ← code pa 18 (pure (run.getD 0 % 2 == 1))
      markMagBit pa (coefIndex pa.g x (y0 + (2 * count k1 + count k0)))
      signStep pa x (y0 + (2 * count k1 + count k0))
      pure (some (y0 + (2 * count k1 + count k0) + 1))
    else pure none) := by
  simp only [runColumn, runPosition, bind_assoc, pure_bind]

/-- The replay at the run's end, the coefficient (x, y): its bit of MAG and its sign; the next row is to be coded. -/
def replayRunEnd (p : Replay) (x y : Nat) (z : Replayed) : Option (Nat × Replayed) :=
  (p.sign x y { z with arr := p.mark (coefIndex p.g x y) z.arr }).bind fun z => some (y + 1, z)

/-- The replay of a run once the upper bit of its position is k1. -/
def replayRunLow (p : Replay) (x y0 : Nat) (k1 : Bool) (z : Replayed) : Option (Nat × Replayed) :=
  (z.next ((replayBits p x y0).map fun l => l.idxOf true % 2 == 1) 18).bind fun dz =>
    replayRunEnd p x (y0 + (2 * count k1 + count dz.1)) dz.2

/-- The replay of a run after the run decision 1. -/
def replayRun (p : Replay) (x y0 : Nat) (z : Replayed) : Option (Nat × Replayed) :=
  (z.next ((replayBits p x y0).map fun l => decide (2 ≤ l.idxOf true)) 18).bind fun dz => replayRunLow p x y0 dz.1 dz.2

theorem run_eq (p : Replay) (x y0 : Nat) (z : Replayed) : p.run x y0 z =
    (z.next ((replayBits p x y0).map fun l => l.any id) 17).bind fun dz =>
      if dz.1 then replayRun p x y0 dz.2 else some (y0 + 4, dz.2) := by
  simp only [replayRun, replayRunLow, replayRunEnd, count_eq_toNat]
  refine congrArg (Option.bind _) (funext fun ⟨d, z⟩ => ?_)
  cases d with
  | false => rfl
  | true => exact congrArg (Option.bind _) (funext fun ⟨k1, z⟩ => congrArg (Option.bind _) (funext fun ⟨k0, z⟩ => rfl))

section Columns

variable (hg : pa.g.w * pa.g.h ≤ 4096)
include hg

/-- The end of a run (R239). -/
theorem runEnd_follows {y : Nat} (hi : coefIndex pa.g x y < pa.g.w * pa.g.h) :
    Follows pa m 3 r (do markMagBit pa (coefIndex pa.g x y); signStep pa x y; pure (some (y + 1)))
      (replayRunEnd (replayOf pa m) x y) fun first z => (first.getD (y0 + 4), z) := by
  refine Follows.write (f' := fun z => ((replayOf pa m).sign x y z).bind fun z => some (y + 1, z)) (markMagBit_run pa m _)
    (fun _ => rfl) ?_
  exact Follows.bind (n := 3) (k := 0) hg (signStep_follows hg hi) (fun _ => rfl) fun _ _ _ => .pure fun _ => rfl

/-- A column in run mode: the replay goes on below the run, or below the column. -/
theorem runColumn_follows (hx : x < pa.g.w) (hrows : y0 + 3 < pa.g.h) :
    Follows pa m 12 r (runColumn pa x y0) ((replayOf pa m).run x y0) fun first z => (first.getD (y0 + 4), z) := by
  have hany (hdir : pa.dir = .enc) : (fourBits pa m x y0).any id = (runOf pa m x y0).isSome := by
    rw [runOf, if_pos hdir, List.findIdx?_isSome]
  rw [runColumn_eq]
  refine Follows.read (fun s _ h => columnRun_run h hx hrows) ?_
  refine Follows.code (n := 9) hg (wanted_bits hany) (fun todo => run_eq _ x y0 ⟨r, todo⟩) fun d hd => ?_
  cases d with
  | false => exact .pure fun _ => rfl
  | true =>
    have hrun (hdir : pa.dir = .enc) : (fourBits pa m x y0).idxOf true = (runOf pa m x y0).getD 0 ∧
        (runOf pa m x y0).getD 0 < 4 := by
      rw [replayBits_enc hdir, Option.map_some, hany hdir] at hd
      obtain ⟨k, hk⟩ := Option.isSome_iff_exists.1 (Option.some.inj (hd.resolve_left nofun))
      rw [hk]
      rw [runOf, if_pos hdir] at hk
      exact idxOf_true_eq hk
    have hmsb (hdir : pa.dir = .enc) :
        decide (2 ≤ (fourBits pa m x y0).idxOf true) = ((runOf pa m x y0).getD 0 / 2 % 2 == 1) := by
      obtain ⟨hidx, hlt⟩ := hrun hdir
      rw [hidx, Bool.eq_iff_iff, decide_eq_true_eq, beq_iff_eq]
      omega
    have hlsb (hdir : pa.dir = .enc) :
        ((fourBits pa m x y0).idxOf true % 2 == 1) = ((runOf pa m x y0).getD 0 % 2 == 1) := by
      rw [(hrun hdir).1]
    refine Follows.code (n := 6) hg (wanted_bits hmsb) (fun _ => rfl) fun k1 _ => ?_
    refine Follows.code (n := 3) (f₂ := fun dz => replayRunEnd _ x (y0 + (2 * count k1 + count dz.1)) dz.2) hg
      (wanted_bits hlsb) (fun _ => rfl) fun k0 _ => ?_
    have hk : 2 * count k1 + count k0 ≤ 3 := by cases k1 <;> cases k0 <;> decide
    exact runEnd_follows hg (coefIndex_lt_area hx (by omega))

/-- The rows of a column that are coded one by one. -/
theorem rows_follow {x : Nat} {l : List Nat} (hx : x < pa.g.w) (hl : ∀ y ∈ l, y < pa.g.h) :
    FollowsUnit pa m (6 * l.length) r (forEach l (cupVisit pa x)) fun z => l.foldlM ((replayOf pa m).cupCoef x) z := by
  refine Follows.mono (Follows.forEach (cost := fun _ => 6) hg fun y hy r => cupVisit_follows hg (coefIndex_lt_area hx (hl y hy))) ?_
  rw [List.map_const', List.sum_replicate, smul_eq_mul, Nat.mul_comm]

end Columns

/-- A run ends in its column below the first row at least. -/
theorem runColumn_answers {first : Nat} (h : Answers (runColumn pa x y0) (some first)) : y0 + 1 ≤ first := by
  obtain ⟨s, t, h⟩ := h
  unfold runColumn at h
  obtain ⟨run, s₁, -, h⟩ := bind_eq_ok.1 h
  obtain ⟨d, s₂, -, h⟩ := bind_eq_ok.1 h
  split at h
  · obtain ⟨k, s₃, -, h⟩ := bind_eq_ok.1 h
    obtain ⟨-, s₄, -, h⟩ := bind_eq_ok.1 h
    obtain ⟨-, s₅, -, h⟩ := bind_eq_ok.1 h
    cases h
    omega
  · cases h

theorem cup_eq (p : Replay) (c : Nat × Nat) (z : Replayed) : p.cup z c =
    (if runMode p.g z.arr c.1 c.2 then p.run c.1 c.2 z else some (c.2, z)).bind fun yz =>
      ((stripeRows p.g.h c.2).filter (yz.1 ≤ ·)).foldlM (p.cupCoef c.1) yz.2 := by
  unfold Replay.cup
  rw [rowsOf_eq]
  show (if runMode p.g z.arr c.1 c.2 then _ else _) = _
  split <;> rfl

/-- Bytes a pass can emit for each coefficient at most (`passRoom`): the 10 decisions of a column in run mode stand for 4. -/
def coefRoom (h : Nat) : Nat := if h < 4 then 6 else 8

section Columns

variable (hg : pa.g.w * pa.g.h ≤ 4096)

/-- The rows of a column from the first one that is coded one by one (R239). -/
def rowsFrom (pa : PassArgs) (x y0 : Nat) (first : Option Nat) : Cmd Unit :=
  match first with
  | none => pure ()
  | some y1 => forEach ((stripeRows pa.g.h y0).filter (y1 ≤ ·)) (cupVisit pa x)

theorem cupColumn_of_runMode {x y0 : Nat} {s : State} (h : runMode pa.g s.arr x y0 = true) :
    cupColumn pa (x, y0) s = (runColumn pa x y0 >>= rowsFrom pa x y0) s := by
  unfold cupColumn
  dsimp only
  rw [bind_assoc, see_bind, if_pos h]
  rfl

theorem cupColumn_of_not_runMode {x y0 : Nat} {s : State} (h : runMode pa.g s.arr x y0 = false) :
    cupColumn pa (x, y0) s = rowsFrom pa x y0 (some y0) s := by
  unfold cupColumn
  dsimp only
  rw [bind_assoc, see_bind, h]
  rfl

include hg in
theorem rowsFrom_follow {x y0 k : Nat} (hx : x < pa.g.w) {first : Option Nat}
    (hlen : ∀ y1, first = some y1 → 6 * ((stripeRows pa.g.h y0).filter (y1 ≤ ·)).length ≤ k) :
    FollowsUnit pa m k r (rowsFrom pa x y0 first)
      fun z => ((stripeRows pa.g.h y0).filter (first.getD (y0 + 4) ≤ ·)).foldlM ((replayOf pa m).cupCoef x) z := by
  cases first with
  | none =>
    have hnil : (stripeRows pa.g.h y0).filter (y0 + 4 ≤ ·) = [] := List.filter_eq_nil_iff.2 fun y hy => by
      have := mem_stripeRows_iff.1 hy
      rw [decide_eq_true_eq]
      omega
    exact .pure fun todo => by rw [Option.getD_none, hnil]; rfl
  | some y1 => exact (rows_follow hg hx fun y hy => mem_stripeRows (List.mem_filter.1 hy).1).mono (hlen y1 rfl)

/-- Below the run of a column in run mode at most three rows are left. -/
theorem rowsBelow_length {h y0 y1 : Nat} (hrows : y0 + 3 < h) (hy : y0 + 1 ≤ y1) :
    ((stripeRows h y0).filter (y1 ≤ ·)).length ≤ 3 := by
  have htop : ¬ y1 ≤ y0 := by omega
  rw [stripeRows_of_four hrows, List.filter_cons, decide_eq_false htop]
  exact List.length_filter_le _ _

include hg in
/-- CUP at one column (R239). -/
theorem cupColumn_follows {x y0 : Nat} (hx : x < pa.g.w) :
    FollowsUnit pa m (coefRoom pa.g.h * (stripeRows pa.g.h y0).length) r (cupColumn pa (x, y0)) fun z =>
      (replayOf pa m).cup z (x, y0) := by
  cases hmode : runMode pa.g r x y0 with
  | true =>
    have hrows := runMode_rows hmode
    have hroom : coefRoom pa.g.h * (stripeRows pa.g.h y0).length = 12 + 20 := by
      rw [stripeRows_of_four hrows, coefRoom, if_neg (by omega)]
      rfl
    rw [hroom]
    refine Follows.ofRun (Follows.bind (f₂ := fun yz =>
      ((stripeRows pa.g.h y0).filter (yz.1 ≤ ·)).foldlM ((replayOf pa m).cupCoef x) yz.2) hg
        (runColumn_follows hg hx hrows) (fun todo => ?runReplay) fun first hans r' =>
          rowsFrom_follow hg hx fun y1 hy1 => ?below) fun s hs => cupColumn_of_runMode (by rw [hs, hmode])
    case runReplay =>
      rw [cup_eq]
      exact congrArg (Option.bind · _) (if_pos hmode)
    case below =>
      have := rowsBelow_length hrows (runColumn_answers (hy1 ▸ hans))
      omega
  | false =>
    refine Follows.ofRun (Follows.congr (rowsFrom_follow hg hx fun y1 hy1 => ?length) fun todo => ?replay)
      fun s hs => cupColumn_of_not_runMode (by rw [hs, hmode])
    case length =>
      have hfilter := List.length_filter_le (fun y => decide (y1 ≤ y)) (stripeRows pa.g.h y0)
      have hroom : 6 ≤ coefRoom pa.g.h := by unfold coefRoom; split <;> omega
      exact Nat.mul_le_mul hroom hfilter
    case replay =>
      rw [cup_eq]
      exact congrArg (Option.bind · _) (if_neg (Bool.eq_false_iff.1 hmode))

/-! ### The passes -/

include hg in
/-- SPP (R237). -/
theorem spp_follows : FollowsUnit pa m (6 * (pa.g.w * pa.g.h)) r (spp pa) fun z =>
    (Machine.scanOrder pa.g).foldlM (replayOf pa m).spp z := by
  rw [scanOrder_eq]
  refine Follows.mono (Follows.forEach (cost := fun _ => 6) hg fun xy hxy r => ?_) ?_
  · exact sppVisit_follows hg (coefIndex_lt_area (mem_scan_iff.1 hxy).1 (mem_scan_iff.1 hxy).2)
  · rw [List.map_const', List.sum_replicate, smul_eq_mul, scan_length, Nat.mul_comm]

include hg in
/-- MRP (R238). -/
theorem mrp_follows : FollowsUnit pa m (6 * (pa.g.w * pa.g.h)) r (mrp pa) fun z =>
    (Machine.scanOrder pa.g).foldlM (replayOf pa m).mrp z := by
  rw [scanOrder_eq]
  refine Follows.mono (Follows.forEach (cost := fun _ => 6) hg fun xy hxy r => ?_) ?_
  · exact mrpVisit_follows hg (coefIndex_lt_area (mem_scan_iff.1 hxy).1 (mem_scan_iff.1 hxy).2)
  · rw [List.map_const', List.sum_replicate, smul_eq_mul, scan_length, Nat.mul_comm]

include hg in
/-- The columns of CUP (R239). -/
theorem cupColumns_follow : FollowsUnit pa m (coefRoom pa.g.h * (pa.g.w * pa.g.h)) r
    (forEach (scanColumns pa.g) (cupColumn pa)) fun z => (columnOrder pa.g).foldlM (replayOf pa m).cup z := by
  rw [columnOrder_eq, ← columnRows_sum, ← List.sum_map_mul_left]
  exact Follows.forEach (cost := fun c => coefRoom pa.g.h * (stripeRows pa.g.h c.2).length) hg fun c hc r =>
    cupColumn_follows hg (mem_scanColumns hc)

end Columns

end Sys2Proof.Proofs
end

section
/-!
PROOFS. A pass command runs its pass (44_bitplane_coder.md R241, R245, R247): the decisions it codes, what the replay makes of them, and
STATUS.SEGMIS (R254, R255).
-/
namespace Sys2Proof.Proofs

open Sys2Proof.Machine Sys2Proof.Laws

/-- The last four decisions of a decoding cleanup pass with SEGMARK are not the segmentation symbol (R254, R255). -/
def missesMark (i : Instr) (segmark : Bool) (l : List (Label × Bool)) : Bool :=
  match i with
  | .bpcCup _ .dec => segmark && !((l.map (·.2)).drop (l.length - 4) == [true, false, true, false])
  | _ => false

/-- Bytes a pass can emit at most (R237 to R239, R254). -/
def roomOf (pa : PassArgs) : Nat := coefRoom pa.g.h * (pa.g.w * pa.g.h) + if pa.segmark then 12 else 0

/-- The pass of command i takes s to t by the decisions l. -/
structure PassRun (i : Instr) (pa : PassArgs) (s t : State) (l : List (Label × Bool)) : Prop where
  replay : replayPass i (replayOf pa s.mem) pa.segmark s.arr l = some t.arr
  coded : Coded pa l s { t with arr := s.arr, status := s.status }
  status : t.status = { s.status with segmis := s.status.segmis || missesMark i pa.segmark l }
  length : 3 * l.length ≤ roomOf pa

variable {pa : PassArgs} {m : Memory} {n : Nat} {s t : State} {l : List (Label × Bool)}

theorem Traces.status (h : Traces pa l s t) : t.status = s.status := by
  have hframe : CoderFrame s { t with arr := s.arr } := h.coderFrame
  unfold CoderFrame at hframe
  have hstatus := congrArg (fun v : State => v.status) hframe
  exact hstatus

theorem Coded.arr (h : Coded pa l s t) : t.arr = s.arr := by
  have hframe : CoderFrame s t := h.coderFrame
  unfold CoderFrame at hframe
  rw [hframe]

theorem Traces.coded (h : Traces pa l s t) : Coded pa l s { t with arr := s.arr, status := s.status } := by
  rw [← h.status]
  exact h

/-! ### The segmentation symbol (R254, R255) -/

/-- SEGMARK codes four decisions; a decoder compares them. -/
theorem segMark_ready (hg : pa.g.w * pa.g.h ≤ 4096) (h : Ready pa m 12 s) :
    ∃ v : List Bool, v.length = 4 ∧ ∃ t, Coded pa (v.map (18, ·)) s t ∧
      segMark pa s = .ok () { t with status := { s.status with segmis :=
        s.status.segmis || (decide (pa.dir = .dec) && !(v == [true, false, true, false])) } } ∧
      ∀ r rest, (replayOf pa m).segmark ⟨r, v.map (18, ·) ++ rest⟩ = some ⟨r, rest⟩ := by
  have hwant (b : Bool) : Wanted pa m (pure b) ((replayOf pa m).coef.map fun _ => b) :=
    wanted_pure (fun hdir => by rw [replayOf_coef_enc hdir]; rfl) fun hdir => by rw [replayOf_coef_dec hdir]; rfl
  obtain ⟨v3, s₁, hrun3, hcoded3, h, hw3⟩ := code_ready (n := 9) hg (hwant true) 18 h
  obtain ⟨v2, s₂, hrun2, hcoded2, h, hw2⟩ := code_ready (n := 6) hg (hwant false) 18 h
  obtain ⟨v1, s₃, hrun1, hcoded1, h, hw1⟩ := code_ready (n := 3) hg (hwant true) 18 h
  obtain ⟨v0, s₄, hrun0, hcoded0, h, hw0⟩ := code_ready (n := 0) hg (hwant false) 18 h
  have hcoded : Coded pa ([v3, v2, v1, v0].map (18, ·)) s s₄ :=
    hcoded3.append (hcoded2.append (hcoded1.append hcoded0))
  have hstatus : s₄.status = s.status := hcoded.traces.status
  refine ⟨[v3, v2, v1, v0], rfl, s₄, hcoded, ?run, fun r rest => ?replay⟩
  case run =>
    have hmark : (pa.dir = .dec ∧ ¬ (v3 = true ∧ v2 = false ∧ v1 = true ∧ v0 = false)) ↔
        (decide (pa.dir = .dec) && !([v3, v2, v1, v0] == [true, false, true, false])) = true := by
      simp only [Bool.and_eq_true, decide_eq_true_eq, Bool.not_eq_true', beq_eq_false_iff_ne, ne_eq, List.cons.injEq, and_true]
    unfold segMark
    rw [bind_of_ok hrun3, bind_of_ok hrun2, bind_of_ok hrun1, bind_of_ok hrun0, ← hstatus]
    simp only [hmark]
    cases decide (pa.dir = .dec) && !([v3, v2, v1, v0] == [true, false, true, false]) with
    | true => rw [Bool.or_true]; rfl
    | false => rw [Bool.or_false]; rfl
  case replay =>
    show ([true, false, true, false].foldlM _ _ : Option Replayed) = _
    simp only [List.foldlM_cons, List.map_cons, List.cons_append, next_cons hw3, next_cons hw2, next_cons hw1, next_cons hw0,
      Option.map_some, Option.bind_eq_bind, Option.bind_some]
    rfl

/-! ### The passes -/

/-- The arrays of a replay that has taken every decision. -/
def replayEnd (z : Replayed) : Option Arrays := if z.todo.isEmpty then some z.arr else none

/-- A pass that leaves STATUS alone and codes what its replay takes. -/
theorem passRun_of_follows {i : Instr} {c : Cmd Unit} {f : Replayed → Option Replayed}
    (h : FollowsUnit pa s.mem n s.arr c f) (hready : Ready pa s.mem n s) (hroom : n ≤ roomOf pa)
    (hf : ∀ l, replayPass i (replayOf pa s.mem) pa.segmark s.arr l = (f ⟨s.arr, l⟩).bind replayEnd)
    (hmark : ∀ l, missesMark i pa.segmark l = false) : ∃ l t, c s = .ok () t ∧ PassRun i pa s t l := by
  obtain ⟨l, ⟨⟩, t, hrun, htrace, hlen, hreplay⟩ := h s rfl hready
  refine ⟨l, t, hrun, ?_, htrace.coded, ?_, Nat.le_trans hlen hroom⟩
  · rw [hf, ← List.append_nil l, hreplay]
    rfl
  · rw [hmark, Bool.or_false]
    exact htrace.status

theorem area_le_roomOf (pa : PassArgs) : 6 * (pa.g.w * pa.g.h) ≤ roomOf pa := by
  have hcoef : 6 ≤ coefRoom pa.g.h := by unfold coefRoom; split <;> omega
  exact Nat.le_trans (Nat.mul_le_mul_right _ hcoef) (Nat.le_add_right _ _)

variable (hg : pa.g.w * pa.g.h ≤ 4096) (hready : Ready pa s.mem (roomOf pa) s)
include hg hready

theorem spp_passRun (p : BitVec 5) (dir : Dir) (raw : Bool) :
    ∃ l t, spp pa s = .ok () t ∧ PassRun (.bpcSpp p dir raw) pa s t l :=
  passRun_of_follows (spp_follows hg) (hready.mono (area_le_roomOf pa)) (area_le_roomOf pa) (fun _ => rfl) fun _ => rfl

theorem mrp_passRun (p : BitVec 5) (dir : Dir) (raw : Bool) :
    ∃ l t, mrp pa s = .ok () t ∧ PassRun (.bpcMrp p dir raw) pa s t l :=
  passRun_of_follows (mrp_follows hg) (hready.mono (area_le_roomOf pa)) (area_le_roomOf pa) (fun _ => rfl) fun _ => rfl

/-- The columns of CUP and CLEARVISITED (R239, R252). -/
theorem cupColumns_ready : ∃ l t, Traces pa l s t ∧ Ready pa s.mem (if pa.segmark then 12 else 0) t ∧
    3 * l.length ≤ coefRoom pa.g.h * (pa.g.w * pa.g.h) ∧
    cup pa s = (if pa.segmark then segMark pa else pure ()) t ∧
    ∀ rest, ((columnOrder pa.g).foldlM (replayOf pa s.mem).cup ⟨s.arr, l ++ rest⟩).map
      (fun z => ({ z with arr := { z.arr with visited := 0 } } : Replayed)) = some ⟨t.arr, rest⟩ := by
  have hcolumns := hready.mono (Nat.le_add_right (coefRoom pa.g.h * (pa.g.w * pa.g.h)) _)
  obtain ⟨l, ⟨⟩, t, hrun, htrace, hlen, hreplay⟩ := cupColumns_follow hg s rfl hcolumns
  have hclear : Traces pa l s { t with arr := { t.arr with visited := 0 } } := htrace
  refine ⟨l, _, hclear, hready.traces hg hclear hlen, hlen, ?_, fun rest => ?_⟩
  · unfold cup
    rw [bind_of_ok hrun]
    rfl
  · exact congrArg (Option.map _) (hreplay rest)

omit hg hready in
theorem replayPass_cup (p : BitVec 5) (dir : Dir) (P : Replay) (segmark : Bool) (r : Arrays) (l : List (Label × Bool)) :
    replayPass (.bpcCup p dir) P segmark r l = ((((columnOrder P.g).foldlM P.cup ⟨r, l⟩).map
      fun z => ({ z with arr := { z.arr with visited := 0 } } : Replayed)).bind
        fun z => if segmark then P.segmark z else some z).bind replayEnd := by
  unfold replayPass
  cases (columnOrder P.g).foldlM P.cup ⟨r, l⟩ <;> rfl

omit hg hready in
/-- The segmentation symbol is the last four decisions. -/
theorem missesMark_append (p : BitVec 5) (dir : Dir) (l : List (Label × Bool)) {v : List Bool} (hv : v.length = 4) :
    missesMark (.bpcCup p dir) true (l ++ v.map (18, ·)) = (decide (dir = .dec) && !(v == [true, false, true, false])) := by
  have hdrop : ((l ++ v.map ((18 : Label), ·)).map Prod.snd).drop ((l ++ v.map ((18 : Label), ·)).length - 4) = v := by
    have hlen : (l ++ v.map ((18 : Label), ·)).length - 4 = (l.map Prod.snd).length := by
      rw [List.length_append, List.length_map, List.length_map, hv]
      omega
    rw [hlen, List.map_append, List.drop_left, List.map_map]
    exact List.map_id v
  cases dir with
  | enc => rfl
  | dec => rw [missesMark, hdrop]; rfl

/-- CUP (R239), with its segmentation symbol. -/
theorem cup_passRun (p : BitVec 5) (dir : Dir) (hdir : pa.dir = dir) :
    ∃ l t, cup pa s = .ok () t ∧ PassRun (.bpcCup p dir) pa s t l := by
  obtain ⟨l, t, htrace, hready', hlen, hcup, hreplay⟩ := cupColumns_ready hg hready
  cases hmark : pa.segmark with
  | false =>
    rw [hmark] at hcup
    refine ⟨l, t, hcup, ?replay, htrace.coded, ?status, Nat.le_trans hlen (Nat.le_add_right _ _)⟩
    case replay =>
      rw [replayPass_cup, ← List.append_nil l]
      show (Option.bind (Option.map _ (List.foldlM _ _ (columnOrder pa.g))) _).bind _ = _
      rw [hreplay, hmark]
      rfl
    case status =>
      have hmiss : missesMark (.bpcCup p dir) pa.segmark l = false := by
        rw [hmark]
        cases dir <;> rfl
      rw [hmiss, Bool.or_false]
      exact htrace.status
  | true =>
    rw [hmark] at hcup hready'
    obtain ⟨v, hv, u, hcoded, hrun, hmarkReplay⟩ := segMark_ready hg hready'
    refine ⟨l ++ v.map (18, ·), _, hcup.trans hrun, ?replay', ?coded, ?status', ?length⟩
    case replay' =>
      rw [replayPass_cup]
      show (Option.bind (Option.map _ (List.foldlM _ _ (columnOrder pa.g))) _).bind _ = _
      have hend := hmarkReplay t.arr []
      rw [List.append_nil] at hend
      rw [hreplay, hmark, Option.bind_some, if_pos rfl, hend]
      exact congrArg some hcoded.arr.symm
    case coded => exact (htrace.trans hcoded.traces).coded
    case status' =>
      rw [hmark, missesMark_append p dir l hv, ← hdir, htrace.status]
    case length =>
      rw [List.length_append, List.length_map, hv, roomOf, hmark, if_pos rfl]
      omega

end Sys2Proof.Proofs
end

section
/-!
PROOFS. What a replay does to the arrays (44_bitplane_coder.md R235 to R239): `Grows` says that coefficients become significant, with
their bit of MAG and their sign, and that nothing else changes but VISITED. It chains, so each pass keeps it decision by decision.
-/
namespace Sys2Proof.Proofs

open Sys2Proof.Machine Sys2Proof.Laws

variable {p : Replay} {C : Nat → Prop} {r r₁ r₂ : Arrays} {i j x y : Nat} {z z' : Replayed}

/-! ### Writes of single elements -/

/-- MAG[i] after a magnitude decision 1: a decoder sets the bit (R235), an encoder leaves MAG alone. -/
def markBit (p : Replay) (v : BitVec 31) : BitVec 31 := if p.coef = none then v ||| (1#31 <<< p.plane) else v

theorem or_planeBit_ne_zero (v : BitVec 31) {k : Nat} (hk : k < 31) : v ||| (1#31 <<< k) ≠ 0 := by
  intro h
  have hbit := congrArg (·.getLsbD k) h
  simp [hk] at hbit

theorem mark_mag (hp : p.plane < 31) (i j : Nat) (r : Arrays) :
    magGet (p.mark i r).mag j = if j = i then markBit p (magGet r.mag j) else magGet r.mag j := by
  unfold Replay.mark markBit
  cases hc : p.coef with
  | some m => simp only [reduceCtorEq, if_false, ite_self]
  | none =>
    rw [if_pos rfl, if_pos rfl]
    show magGet (magSet r.mag i _) j = _
    rw [magSet, if_neg (or_planeBit_ne_zero _ hp), magGet, sparseGet_set]
    split
    · rename_i hj
      rw [hj]
      rfl
    · rfl

theorem mark_enc (hc : p.coef ≠ none) (i : Nat) (r : Arrays) : p.mark i r = r := if_neg hc

/-- Only MAG is marked. -/
theorem mark_eq (p : Replay) (i : Nat) (r : Arrays) : p.mark i r = { r with mag := (p.mark i r).mag } := by
  unfold Replay.mark
  split <;> rfl

/-! ### Coefficients that become significant -/

/-- Coefficient j is the same. -/
structure SameCoef (r r' : Arrays) (j : Nat) : Prop where
  sig : r'.sig.getLsbD j = r.sig.getLsbD j
  sgn : r'.sgn.getLsbD j = r.sgn.getLsbD j
  mag : magGet r'.mag j = magGet r.mag j

/-- Coefficient j becomes significant; of an encoding pass its bit is 1 and its sign that of its COEF word (R232, R236). -/
structure NewCoef (p : Replay) (r r' : Arrays) (j : Nat) : Prop where
  before : r.sig.getLsbD j = false
  after : r'.sig.getLsbD j = true
  mag : magGet r'.mag j = markBit p (magGet r.mag j)
  bit : ∀ b ∈ p.bit j, b = true
  sign : ∀ q ∈ p.word j, r'.sgn.getLsbD j = q.msb

/-- From r to r' some coefficients of C become significant; nothing else changes but VISITED. -/
structure Grows (p : Replay) (C : Nat → Prop) (r r' : Arrays) : Prop where
  coef : ∀ j, SameCoef r r' j ∨ (C j ∧ NewCoef p r r' j)
  refined : r'.refined = r.refined
  mag : p.coef ≠ none → r'.mag = r.mag

theorem Grows.refl (p : Replay) (C : Nat → Prop) (r : Arrays) : Grows p C r r :=
  ⟨fun _ => .inl ⟨rfl, rfl, rfl⟩, rfl, fun _ => rfl⟩

theorem Grows.trans (h : Grows p C r r₁) (h' : Grows p C r₁ r₂) : Grows p C r r₂ where
  coef j := by
    rcases h.coef j with hsame | ⟨hC, hnew⟩
    · rcases h'.coef j with hsame' | ⟨hC', hnew'⟩
      · exact .inl ⟨hsame'.sig.trans hsame.sig, hsame'.sgn.trans hsame.sgn, hsame'.mag.trans hsame.mag⟩
      · exact .inr ⟨hC', hsame.sig ▸ hnew'.before, hnew'.after, hsame.mag ▸ hnew'.mag, hnew'.bit, hnew'.sign⟩
    · rcases h'.coef j with hsame' | ⟨-, hnew'⟩
      · exact .inr ⟨hC, hnew.before, hsame'.sig.trans hnew.after, hsame'.mag.trans hnew.mag, hnew.bit,
          fun q hq => hsame'.sgn.trans (hnew.sign q hq)⟩
      · exact absurd (hnew'.before.symm.trans hnew.after) Bool.false_ne_true
  refined := h'.refined.trans h.refined
  mag hc := (h'.mag hc).trans (h.mag hc)

/-- VISITED does not matter. -/
theorem Grows.visited (h : Grows p C r r₁) (v : BitVec 4096) : Grows p C r { r₁ with visited := v } :=
  ⟨fun j => (h.coef j).imp (fun ⟨hsig, hsgn, hmag⟩ => ⟨hsig, hsgn, hmag⟩)
    fun ⟨hC, hb, ha, hm, hbit, hsign⟩ => ⟨hC, hb, ha, hm, hbit, hsign⟩, h.refined, h.mag⟩

theorem Grows.sig_mono (h : Grows p C r r₁) (hj : r.sig.getLsbD j = true) : r₁.sig.getLsbD j = true := by
  rcases h.coef j with hsame | ⟨-, hnew⟩
  · exact hsame.sig.trans hj
  · exact hnew.after

/-- What became significant was a coefficient of C. -/
theorem Grows.newCoef (h : Grows p C r r₁) (hafter : r₁.sig.getLsbD j = true) (hbefore : r.sig.getLsbD j = false) :
    C j ∧ NewCoef p r r₁ j := by
  rcases h.coef j with hsame | hnew
  · exact absurd (hsame.sig.symm.trans hafter) (by rw [hbefore]; exact Bool.false_ne_true)
  · exact hnew

/-! ### One coefficient -/

/-- Coefficient i is coded: with decision 0 the arrays stay, with 1 it gets its bit of MAG and its sign. -/
inductive CodesAt (p : Replay) (i : Nat) (r : Arrays) : Arrays → Prop where
  | zero : (∀ b ∈ p.bit i, b = false) → CodesAt p i r r
  | one (neg : Bool) : (∀ b ∈ p.bit i, b = true) → (∀ q ∈ p.word i, neg = q.msb) → CodesAt p i r (signed i neg (p.mark i r))

theorem signed_sig (neg : Bool) (hi : i < 4096) (j : Nat) :
    (signed i neg (p.mark i r)).sig.getLsbD j = (r.sig.getLsbD j || decide (j = i)) := by
  rw [mark_eq]
  exact getLsbD_bitSet _ _ _ hi

theorem signed_sgn (neg : Bool) (hi : i < 4096) (j : Nat) :
    (signed i neg (p.mark i r)).sgn.getLsbD j = if j = i then neg else r.sgn.getLsbD j := by
  rw [mark_eq]
  exact getLsbD_bitPut _ _ _ _ hi

theorem CodesAt.grows (h : CodesAt p i r r₁) (hp : p.plane < 31) (hi : i < 4096) (hC : C i) (hsig : r.sig.getLsbD i = false) :
    Grows p C r r₁ := by
  cases h with
  | zero => exact .refl p C r
  | one neg hbit hsign =>
    refine ⟨fun j => ?_, by rw [mark_eq]; rfl, fun hc => by rw [mark_enc hc]; rfl⟩
    have hmag : magGet (signed i neg (p.mark i r)).mag j = _ := mark_mag hp i j r
    by_cases hj : j = i
    · subst hj
      refine .inr ⟨hC, hsig, ?_, hmag.trans (if_pos rfl), hbit, fun q hq => ?_⟩
      · rw [signed_sig neg hi, decide_eq_true rfl, Bool.or_true]
      · rw [signed_sgn neg hi, if_pos rfl, hsign q hq]
    · refine .inl ⟨?_, ?_, hmag.trans (if_neg hj)⟩
      · rw [signed_sig neg hi, decide_eq_false hj, Bool.or_false]
      · rw [signed_sgn neg hi, if_neg hj]

theorem CodesAt.visited (h : CodesAt p i r r₁) : r₁.visited = r.visited := by
  cases h with
  | zero => rfl
  | one neg => rw [mark_eq]; rfl

/-- An encoding pass makes the coefficient significant exactly when its bit is 1. -/
theorem CodesAt.sig (h : CodesAt p i r r₁) (hi : i < 4096) (hsig : r.sig.getLsbD i = false) {b : Bool} (hb : b ∈ p.bit i) :
    r₁.sig.getLsbD i = b := by
  cases h with
  | zero hbit => rw [hbit b hb, hsig]
  | one neg hbit => rw [hbit b hb, signed_sig neg hi, decide_eq_true rfl, Bool.or_true]

/-! ### The pieces of a replay -/

theorem next_eq_some {want : Option Bool} {cx : Label} {d : Bool} (h : z.next want cx = some (d, z')) :
    (∀ b ∈ want, b = d) ∧ z'.arr = z.arr := by
  obtain ⟨r, todo⟩ := z
  cases todo with
  | nil => cases h
  | cons kd rest =>
    unfold Replayed.next at h
    dsimp only at h
    split at h
    · rename_i hwant
      cases h
      refine ⟨fun b hb => ?_, rfl⟩
      rcases hwant.2 with hnone | hsome
      · rw [hnone] at hb
        cases hb
      · rw [hsome] at hb
        exact (Option.some.inj hb).symm
    · cases h

theorem sign_eq_some (h : p.sign x y z = some z') :
    ∃ neg, (∀ q ∈ p.word (coefIndex p.g x y), neg = q.msb) ∧ z'.arr = signed (coefIndex p.g x y) neg z.arr := by
  obtain ⟨r, todo⟩ := z
  rw [sign_eq] at h
  obtain ⟨⟨d, z₁⟩, hnext, hz⟩ := Option.bind_eq_some_iff.1 h
  obtain ⟨hwant, harr⟩ := next_eq_some hnext
  cases hz
  refine ⟨_, fun q hq => ?_, by dsimp only; rw [harr]⟩
  have hd := hwant _ (Option.mem_map_of_mem _ hq)
  rw [← hd, Bool.xor_assoc, Bool.xor_self, Bool.xor_false]

theorem magnitude_eq_some {cx : Label} {d : Bool} (h : replayMagnitude p i cx z = some (d, z')) :
    (∀ b ∈ p.bit i, b = d) ∧ z'.arr = if d then p.mark i z.arr else z.arr := by
  obtain ⟨⟨d', z₁⟩, hnext, hz⟩ := Option.bind_eq_some_iff.1 h
  obtain ⟨hwant, harr⟩ := next_eq_some hnext
  cases hz
  exact ⟨hwant, by dsimp only; rw [harr]⟩

theorem newCoef_codesAt (h : p.newCoef x y z = some z') : CodesAt p (coefIndex p.g x y) z.arr z'.arr := by
  obtain ⟨r, todo⟩ := z
  rw [newCoef_eq] at h
  obtain ⟨⟨d, z₁⟩, hmagnitude, hrest⟩ := Option.bind_eq_some_iff.1 h
  obtain ⟨hwant, harr⟩ := magnitude_eq_some hmagnitude
  cases d with
  | false =>
    cases hrest
    exact harr ▸ .zero hwant
  | true =>
    obtain ⟨neg, hsign, hz'⟩ := sign_eq_some hrest
    rw [hz', show z₁.arr = _ from harr, if_pos rfl]
    exact .one neg hwant hsign

/-- An invariant of a loop that may stop: I L z holds while the elements L are still to come. -/
theorem foldlM_some {α β : Type} {f : β → α → Option β} {I : List α → β → Prop} {L₀ : List α}
    (step : ∀ a ∈ L₀, ∀ L b b', f b a = some b' → I (a :: L) b → I L b') {b b' : β} (h : L₀.foldlM f b = some b')
    (hI : I L₀ b) : I [] b' := by
  have hall (L : List α) (hL : ∀ a ∈ L, a ∈ L₀) (b : β) (h : L.foldlM f b = some b') (hI : I L b) : I [] b' := by
    induction L generalizing b with
    | nil => cases h; exact hI
    | cons a L ih =>
      rw [List.foldlM_cons] at h
      obtain ⟨b₁, hb₁, hrest⟩ := Option.bind_eq_some_iff.1 h
      exact ih (fun c hc => hL c (List.mem_cons_of_mem _ hc)) b₁ hrest (step a (hL a List.mem_cons_self) L b b₁ hb₁ hI)
  exact hall L₀ (fun _ => id) b h hI

/-- A loop that keeps I and makes Q true of each element in turn, for good. -/
theorem foldlM_done {α β : Type} {f : β → α → Option β} {I : β → Prop} {Q : α → β → Prop} {L₀ : List α}
    (step : ∀ a ∈ L₀, ∀ b b', f b a = some b' → I b → I b' ∧ Q a b' ∧ ∀ c, Q c b → Q c b') {b b' : β}
    (h : L₀.foldlM f b = some b') (hI : I b) : I b' ∧ ∀ a ∈ L₀, Q a b' := by
  have hloop := foldlM_some (I := fun L b => I b ∧ ∀ c ∈ L₀, c ∈ L ∨ Q c b)
    (fun a ha L b₁ b₂ hb ⟨hkept, hQ⟩ => ?_) h ⟨hI, fun _ => .inl⟩
  · exact ⟨hloop.1, fun a ha => (hloop.2 a ha).resolve_left List.not_mem_nil⟩
  · obtain ⟨hkept', hnew, hmono⟩ := step a ha b₁ b₂ hb hkept
    refine ⟨hkept', fun c hc => ?_⟩
    rcases hQ c hc with hmem | hdone
    · rcases List.mem_cons.1 hmem with rfl | hL
      · exact .inr hnew
      · exact .inl hL
    · exact .inr (hmono c hdone)

end Sys2Proof.Proofs
end

section
/-!
PROOFS. The arrays after a significance and after a refinement pass (44_bitplane_coder.md R237, R238), from their replays.
-/
namespace Sys2Proof.Proofs

open Sys2Proof.Machine Sys2Proof.Laws

variable {p : Replay} {r₀ r r' : Arrays} {z z' : Replayed} {xy : Nat × Nat}

/-! ### Significant neighbours (41_context_model.md R131) -/

theorem nbrSig_mono {g : Geometry} (h : ∀ j, r.sig.getLsbD j = true → r'.sig.getLsbD j = true) {x y : Nat} {dx dy : Int}
    (hn : nbrSig g r x y dx dy = true) : nbrSig g r' x y dx dy = true := by
  cases hnbr : neighbour g x y dx dy with
  | none => rw [nbrSig_of_none hnbr] at hn; cases hn
  | some i =>
    rw [nbrSig_of_some hnbr] at hn ⊢
    exact h i hn

/-- A label that is not 0 stays so while coefficients become significant. -/
theorem zcAt_ne_zero_mono {g : Geometry} (h : ∀ j, r.sig.getLsbD j = true → r'.sig.getLsbD j = true) {x y : Nat}
    (hz : zcAt g r x y ≠ 0) : zcAt g r' x y ≠ 0 := by
  intro hz'
  have hnone := (passLabelsPrintedTables.2 g r' x y).1 hz'
  refine hz ((passLabelsPrintedTables.2 g r x y).2 fun dx hdx dy hdy hne => Bool.eq_false_iff.2 fun hsig => ?_)
  exact absurd (nbrSig_mono h hsig) (Bool.eq_false_iff.1 (hnone dx hdx dy hdy hne))

/-! ### SPP (R237) -/

/-- The coefficient is visited by the SPP: not significant, and with a significant neighbour. -/
def SppGuard (p : Replay) (r : Arrays) (xy : Nat × Nat) : Prop :=
  r.sig.getLsbD (coefIndex p.g xy.1 xy.2) = false ∧ zcAt p.g r xy.1 xy.2 ≠ 0

theorem spp_eq_some (h : p.spp z xy = some z') :
    (¬ SppGuard p z.arr xy ∧ z' = z) ∨ (SppGuard p z.arr xy ∧
      ∃ r, CodesAt p (coefIndex p.g xy.1 xy.2) z.arr r ∧ z'.arr = visitedAt (coefIndex p.g xy.1 xy.2) r) := by
  obtain ⟨r, todo⟩ := z
  rw [spp_eq] at h
  split at h
  case isTrue hguard =>
    obtain ⟨z₁, hnew, rfl⟩ := Option.map_eq_some_iff.1 h
    exact .inr ⟨hguard, z₁.arr, newCoef_codesAt hnew, rfl⟩
  case isFalse hguard => exact .inl ⟨hguard, (Option.some.inj h).symm⟩

/-- From r₀ to r an SPP has coded coefficients and marked them as visited. -/
structure SppCodes (p : Replay) (r₀ r : Arrays) : Prop where
  grows : Grows p (· < p.g.w * p.g.h) r₀ r
  mono : ∀ j, r₀.visited.getLsbD j = true → r.visited.getLsbD j = true
  newSig : ∀ j, r.sig.getLsbD j = true → r₀.sig.getLsbD j = false → r.visited.getLsbD j = true
  newVisited : ∀ j, r.visited.getLsbD j = true → r₀.visited.getLsbD j = false →
    (j < p.g.w * p.g.h ∧ r₀.sig.getLsbD j = false) ∧ ∀ b ∈ p.bit j, r.sig.getLsbD j = b

theorem SppCodes.refl (p : Replay) (r : Arrays) : SppCodes p r r where
  grows := .refl p _ r
  mono _ := id
  newSig _ h h' := absurd (h.symm.trans h') (Bool.false_ne_true ∘ Eq.symm)
  newVisited _ h h' := absurd (h.symm.trans h') (Bool.false_ne_true ∘ Eq.symm)

theorem visitedAt_getLsbD {i : Nat} (hi : i < 4096) (j : Nat) :
    (visitedAt i r).visited.getLsbD j = (r.visited.getLsbD j || decide (j = i)) := getLsbD_bitSet _ _ _ hi

section Spp

variable (hp : p.plane < 31) (hg : p.g.w * p.g.h ≤ 4096)
include hp hg

/-- One more coefficient. -/
theorem SppCodes.codesAt {i : Nat} (h : SppCodes p r₀ r) (hi : i < p.g.w * p.g.h) (hsig : r.sig.getLsbD i = false)
    (hc : CodesAt p i r r') : SppCodes p r₀ (visitedAt i r') := by
  have hi' : i < 4096 := by omega
  have hgrows : Grows p (· < p.g.w * p.g.h) r r' := hc.grows hp hi' hi hsig
  have hsig₀ : r₀.sig.getLsbD i = false := Bool.eq_false_iff.2 fun h₀ =>
    Bool.eq_false_iff.1 hsig (h.grows.sig_mono h₀)
  have hkeep {j : Nat} (hj : j ≠ i) : r'.sig.getLsbD j = r.sig.getLsbD j := by
    cases hc with
    | zero => rfl
    | one neg => rw [signed_sig neg hi', decide_eq_false hj, Bool.or_false]
  refine ⟨(h.grows.trans hgrows).visited _, fun j hj => ?_, fun j hafter hbefore => ?_, fun j hafter hbefore => ?_⟩
  · rw [visitedAt_getLsbD hi', hc.visited, h.mono j hj, Bool.true_or]
  · rw [visitedAt_getLsbD hi', hc.visited]
    by_cases hj : j = i
    · rw [decide_eq_true hj, Bool.or_true]
    · rw [h.newSig j ((hkeep hj).symm.trans hafter) hbefore, Bool.true_or]
  · by_cases hj : j = i
    · subst hj
      exact ⟨⟨hi, hsig₀⟩, fun b hb => hc.sig hi' hsig hb⟩
    · rw [visitedAt_getLsbD hi', hc.visited, decide_eq_false hj, Bool.or_false] at hafter
      obtain ⟨hj₀, hbit⟩ := h.newVisited j hafter hbefore
      exact ⟨hj₀, fun b hb => (hkeep hj).trans (hbit b hb)⟩

theorem SppCodes.spp (h : SppCodes p r₀ z.arr) (hxy : xy ∈ scan p.g) (hz : p.spp z xy = some z') : SppCodes p r₀ z'.arr := by
  rcases spp_eq_some hz with ⟨-, rfl⟩ | ⟨hguard, r₁, hcodes, harr⟩
  · exact h
  · rw [harr]
    exact h.codesAt hp hg (coefIndex_lt_area (mem_scan_iff.1 hxy).1 (mem_scan_iff.1 hxy).2) hguard.1 hcodes

/-- The coefficients R237 names are visited. -/
def SppVisited (p : Replay) (r₀ r : Arrays) (xy : Nat × Nat) : Prop :=
  SppGuard p r₀ xy → r.visited.getLsbD (coefIndex p.g xy.1 xy.2) = true

omit hp in
theorem sppVisited_of_spp (h : SppCodes p r₀ z.arr) (hxy : xy ∈ scan p.g) (hz : p.spp z xy = some z') :
    SppVisited p r₀ z'.arr xy := by
  intro ⟨hsig, hlabel⟩
  have hi : coefIndex p.g xy.1 xy.2 < 4096 := coefIndex_scan_lt hg hxy
  rcases spp_eq_some hz with ⟨hguard, rfl⟩ | ⟨-, r₁, -, harr⟩
  · have hlabel' := zcAt_ne_zero_mono (fun j => h.grows.sig_mono) hlabel
    refine h.newSig _ (Bool.eq_true_of_not_eq_false fun hsig' => hguard ⟨hsig', hlabel'⟩) hsig
  · rw [harr, visitedAt_getLsbD hi, decide_eq_true rfl, Bool.or_true]

theorem visited_mono_spp (hxy : xy ∈ scan p.g) (hz : p.spp z xy = some z') {j : Nat} (hj : z.arr.visited.getLsbD j = true) :
    z'.arr.visited.getLsbD j = true :=
  ((SppCodes.refl p z.arr).spp hp hg hxy hz).mono j hj

/-- The arrays after an SPP. -/
theorem spp_arrays (h : (Machine.scanOrder p.g).foldlM p.spp z = some z') :
    SppCodes p z.arr z'.arr ∧ ∀ xy ∈ scan p.g, SppVisited p z.arr z'.arr xy := by
  rw [scanOrder_eq] at h
  exact foldlM_done (I := fun z₁ => SppCodes p z.arr z₁.arr) (Q := fun xy z₁ => SppVisited p z.arr z₁.arr xy)
    (fun _ hxy _ _ hz hcodes => ⟨hcodes.spp hp hg hxy hz, sppVisited_of_spp hg hcodes hxy hz,
      fun _ hdone hguard => visited_mono_spp hp hg hxy hz (hdone hguard)⟩) h (.refl p z.arr)

end Spp

/-! ### MRP (R238) -/

/-- The coefficient is refined by the MRP: significant and not visited. -/
def MrpGuard (r : Arrays) (i : Nat) : Prop := r.sig.getLsbD i = true ∧ r.visited.getLsbD i = false

theorem mrp_eq_some (h : p.mrp z xy = some z') :
    (¬ MrpGuard z.arr (coefIndex p.g xy.1 xy.2) ∧ z' = z) ∨ (MrpGuard z.arr (coefIndex p.g xy.1 xy.2) ∧ ∃ d : Bool,
      z'.arr = refinedAt (coefIndex p.g xy.1 xy.2) (if d then p.mark (coefIndex p.g xy.1 xy.2) z.arr else z.arr)) := by
  rw [mrp_eq] at h
  split at h
  case isTrue hguard =>
    obtain ⟨⟨d, z₁⟩, hmagnitude, hz⟩ := Option.bind_eq_some_iff.1 h
    cases hz
    exact .inr ⟨hguard, d, by rw [← (magnitude_eq_some hmagnitude).2]; rfl⟩
  case isFalse hguard => exact .inl ⟨hguard, (Option.some.inj h).symm⟩

/-- From r₀ to r an MRP has refined significant coefficients that are not visited. -/
structure MrpCodes (p : Replay) (r₀ r : Arrays) : Prop where
  sig : r.sig = r₀.sig
  sgn : r.sgn = r₀.sgn
  visited : r.visited = r₀.visited
  mono : ∀ j, r₀.refined.getLsbD j = true → r.refined.getLsbD j = true
  refined : ∀ j, r.refined.getLsbD j = true → r₀.refined.getLsbD j = true ∨ (j < p.g.w * p.g.h ∧ MrpGuard r₀ j)
  mag : ∀ j, magGet r.mag j = magGet r₀.mag j ∨ (j < p.g.w * p.g.h ∧ magGet r.mag j = markBit p (magGet r₀.mag j))
  magEnc : p.coef ≠ none → r.mag = r₀.mag

theorem MrpCodes.refl (p : Replay) (r : Arrays) : MrpCodes p r r :=
  ⟨rfl, rfl, rfl, fun _ => id, fun _ => .inl, fun _ => .inl rfl, fun _ => rfl⟩

theorem markBit_markBit (p : Replay) (v : BitVec 31) : markBit p (markBit p v) = markBit p v := by
  unfold markBit
  split
  · rw [BitVec.or_assoc, BitVec.or_self]
  · rfl

section Mrp

variable (hp : p.plane < 31) (hg : p.g.w * p.g.h ≤ 4096)
include hp hg

/-- One more coefficient. -/
theorem MrpCodes.refinedAt {i : Nat} (h : MrpCodes p r₀ r) (hi : i < p.g.w * p.g.h) (hguard : MrpGuard r i) (d : Bool) :
    MrpCodes p r₀ (refinedAt i (if d then p.mark i r else r)) := by
  have hi' : i < 4096 := by omega
  have hmark : (if d then p.mark i r else r) = { r with mag := (if d then p.mark i r else r).mag } := by
    cases d with
    | true => exact mark_eq p i r
    | false => rfl
  have hrefined (j : Nat) : (Proofs.refinedAt i (if d then p.mark i r else r)).refined.getLsbD j =
      (r.refined.getLsbD j || decide (j = i)) := by
    rw [hmark]
    exact getLsbD_bitSet _ _ _ hi'
  refine ⟨by rw [hmark]; exact h.sig, by rw [hmark]; exact h.sgn, by rw [hmark]; exact h.visited, fun j hj => ?mono,
    fun j hj => ?refined, fun j => ?mag, fun hc => ?magEnc⟩
  case mono => rw [hrefined, h.mono j hj, Bool.true_or]
  case refined =>
    by_cases hji : j = i
    · subst hji
      obtain ⟨hsig, hvisited⟩ := hguard
      exact .inr ⟨hi, h.sig ▸ hsig, h.visited ▸ hvisited⟩
    · rw [hrefined, decide_eq_false hji, Bool.or_false] at hj
      exact h.refined j hj
  case mag =>
    show magGet (if d then p.mark i r else r).mag j = _ ∨ _ ∧ magGet (if d then p.mark i r else r).mag j = _
    cases d with
    | false => exact h.mag j
    | true =>
      rw [if_pos rfl, mark_mag hp]
      by_cases hji : j = i
      · subst hji
        rw [if_pos rfl]
        rcases h.mag j with hsame | ⟨-, hset⟩
        · exact .inr ⟨hi, by rw [hsame]⟩
        · exact .inr ⟨hi, by rw [hset, markBit_markBit]⟩
      · rw [if_neg hji]
        exact h.mag j
  case magEnc =>
    show (if d then p.mark i r else r).mag = _
    rw [mark_enc hc, ite_self]
    exact h.magEnc hc

theorem MrpCodes.mrp (h : MrpCodes p r₀ z.arr) (hxy : xy ∈ scan p.g) (hz : p.mrp z xy = some z') : MrpCodes p r₀ z'.arr := by
  rcases mrp_eq_some hz with ⟨-, rfl⟩ | ⟨hguard, d, harr⟩
  · exact h
  · rw [harr]
    exact h.refinedAt hp hg (coefIndex_lt_area (mem_scan_iff.1 hxy).1 (mem_scan_iff.1 hxy).2) hguard d

/-- A coefficient R238 names is refined. -/
def MrpRefined (p : Replay) (r₀ r : Arrays) (xy : Nat × Nat) : Prop :=
  MrpGuard r₀ (coefIndex p.g xy.1 xy.2) → r.refined.getLsbD (coefIndex p.g xy.1 xy.2) = true

omit hp in
theorem mrpRefined_of_mrp (h : MrpCodes p r₀ z.arr) (hxy : xy ∈ scan p.g) (hz : p.mrp z xy = some z') :
    MrpRefined p r₀ z'.arr xy := by
  intro hguard
  rcases mrp_eq_some hz with ⟨hno, -⟩ | ⟨-, d, harr⟩
  · unfold MrpGuard at hno hguard
    rw [h.sig, h.visited] at hno
    exact absurd hguard hno
  · rw [harr]
    exact (getLsbD_bitSet _ _ _ (coefIndex_scan_lt hg hxy)).trans (by rw [decide_eq_true rfl, Bool.or_true])

theorem refined_mono_mrp (hxy : xy ∈ scan p.g) (hz : p.mrp z xy = some z') {j : Nat} (hj : z.arr.refined.getLsbD j = true) :
    z'.arr.refined.getLsbD j = true :=
  ((MrpCodes.refl p z.arr).mrp hp hg hxy hz).mono j hj

/-- The arrays after an MRP. -/
theorem mrp_arrays (h : (Machine.scanOrder p.g).foldlM p.mrp z = some z') :
    MrpCodes p z.arr z'.arr ∧ ∀ xy ∈ scan p.g, MrpRefined p z.arr z'.arr xy := by
  rw [scanOrder_eq] at h
  exact foldlM_done (I := fun z₁ => MrpCodes p z.arr z₁.arr) (Q := fun xy z₁ => MrpRefined p z.arr z₁.arr xy)
    (fun _ hxy _ _ hz hcodes => ⟨hcodes.mrp hp hg hxy hz, mrpRefined_of_mrp hg hcodes hxy hz,
      fun _ hdone hguard => refined_mono_mrp hp hg hxy hz (hdone hguard)⟩) h (.refl p z.arr)

end Mrp

end Sys2Proof.Proofs
end

section
/-!
PROOFS. The arrays after a cleanup pass (44_bitplane_coder.md R239, R252, R254), from its replay: row by row, the run of a column,
and column by column.
-/
namespace Sys2Proof.Proofs

open Sys2Proof.Machine Sys2Proof.Laws

variable {p : Replay} {r₀ r r' : Arrays} {z z' : Replayed} {x y y0 : Nat}

/-- A coefficient of the block that is not visited: what a CUP can make significant. -/
def CupCandidate (p : Replay) (v : BitVec 4096) (j : Nat) : Prop := j < p.g.w * p.g.h ∧ v.getLsbD j = false

/-- From r₀ to r a CUP has coded coefficients that are not visited. -/
structure CupCodes (p : Replay) (r₀ r : Arrays) : Prop where
  grows : Grows p (CupCandidate p r₀.visited) r₀ r
  visited : r.visited = r₀.visited

theorem CupCodes.refl (p : Replay) (r : Arrays) : CupCodes p r r := ⟨.refl p _ r, rfl⟩

theorem CupCodes.trans (h : CupCodes p r₀ r) (h' : CupCodes p r r') : CupCodes p r₀ r' :=
  ⟨h.grows.trans (h.visited ▸ h'.grows), h'.visited.trans h.visited⟩

/-- Of an encoding pass: coefficient i, when it is not visited and its bit is 1, is significant. -/
def Settled (p : Replay) (r : Arrays) (i : Nat) : Prop :=
  r.visited.getLsbD i = false → p.bit i = some true → r.sig.getLsbD i = true

theorem Settled.mono {i : Nat} (h : Settled p r i) (hr : CupCodes p r r') : Settled p r' i :=
  fun hv hb => hr.grows.sig_mono (h (hr.visited ▸ hv) hb)

section Coef

variable (hp : p.plane < 31) (hg : p.g.w * p.g.h ≤ 4096) (hx : x < p.g.w)
include hp hg hx

theorem cupCodes_of_codesAt (hy : y < p.g.h) (hsig : r.sig.getLsbD (coefIndex p.g x y) = false)
    (hvisited : r.visited.getLsbD (coefIndex p.g x y) = false) (h : CodesAt p (coefIndex p.g x y) r r') :
    CupCodes p r r' ∧ Settled p r' (coefIndex p.g x y) := by
  have hi := coefIndex_lt_area hx hy
  exact ⟨⟨h.grows hp (by omega) ⟨hi, hvisited⟩ hsig, h.visited⟩, fun _ hb => h.sig (by omega) hsig hb⟩

/-- CUP at one coefficient. -/
theorem cupCoef_arrays (hy : y < p.g.h) (h : p.cupCoef x z y = some z') :
    CupCodes p z.arr z'.arr ∧ Settled p z'.arr (coefIndex p.g x y) := by
  unfold Replay.cupCoef at h
  cases hfresh : p.fresh x y z with
  | true =>
    rw [hfresh] at h
    simp only [Replay.fresh, Bool.and_eq_true, Bool.not_eq_true'] at hfresh
    exact cupCodes_of_codesAt hp hg hx hy hfresh.1 hfresh.2 (newCoef_codesAt h)
  | false =>
    rw [hfresh] at h
    obtain rfl := Option.some.inj h
    refine ⟨.refl p _, fun hv _ => Bool.eq_true_of_not_eq_false fun hsig => ?_⟩
    have hfresh' : (!z.arr.sig.getLsbD (coefIndex p.g x y) && !z.arr.visited.getLsbD (coefIndex p.g x y)) = false := hfresh
    rw [hsig, hv] at hfresh'
    cases hfresh'

/-- CUP at rows of a column. -/
theorem rows_arrays {rows : List Nat} (hrows : ∀ y ∈ rows, y < p.g.h) (h : rows.foldlM (p.cupCoef x) z = some z') :
    CupCodes p z.arr z'.arr ∧ ∀ y ∈ rows, Settled p z'.arr (coefIndex p.g x y) := by
  refine foldlM_done (I := fun z₁ => CupCodes p z.arr z₁.arr) (Q := fun y z₁ => Settled p z₁.arr (coefIndex p.g x y))
    (fun y hy z₁ z₂ hz hbefore => ?_) h (.refl p z.arr)
  obtain ⟨hcodes, hsettled⟩ := cupCoef_arrays hp hg hx (hrows y hy) hz
  exact ⟨hbefore.trans hcodes, hsettled, fun _ hdone => hdone.mono hcodes⟩

end Coef

/-! ### The run of a column -/

/-- The bit of row y0 + k of a column in the replay of an encoding pass. -/
def columnBit (p : Replay) (x y0 k : Nat) : Bool := (p.bit (coefIndex p.g x (y0 + k))).getD false

theorem replayBits_of_bit {i : Nat} {b : Bool} (h : p.bit i = some b) (x y0 : Nat) :
    replayBits p x y0 = some ([0, 1, 2, 3].map (columnBit p x y0)) := by
  unfold Replay.bit Replay.word at h
  cases hc : p.coef with
  | none => rw [hc] at h; cases h
  | some m => rw [replayBits, hc]; rfl

theorem columnBit_of_bit {k : Nat} {b : Bool} (h : p.bit (coefIndex p.g x (y0 + k)) = some b) : columnBit p x y0 k = b := by
  rw [columnBit, h]
  rfl

/-- With the two decisions of its position, a run ends at row offset k: there the bit is 1, above it the bits are 0. -/
theorem run_bits {f : Nat → Bool} {k1 k0 : Bool} (hany : ([0, 1, 2, 3].map f).any id = true)
    (h1 : decide (2 ≤ ([0, 1, 2, 3].map f).idxOf true) = k1) (h0 : (([0, 1, 2, 3].map f).idxOf true % 2 == 1) = k0) :
    f (2 * count k1 + count k0) = true ∧ ∀ k < 2 * count k1 + count k0, f k = false := by
  have hmem : true ∈ [0, 1, 2, 3].map f := by
    obtain ⟨b, hb, rfl⟩ := List.any_eq_true.1 hany
    exact hb
  have hlt := List.idxOf_lt_length_of_mem hmem
  have hidx := List.getElem_idxOf hlt
  have hbefore (k : Nat) (hk : k < ([0, 1, 2, 3].map f).idxOf true) := List.not_of_lt_findIdx hk
  have hf (k : Nat) (hk : k < ([0, 1, 2, 3].map f).length) : ([0, 1, 2, 3].map f)[k] = f k := by
    simp only [show [0, 1, 2, 3] = List.range 4 from rfl, List.getElem_map, List.getElem_range]
  have hpos : 2 * count k1 + count k0 = ([0, 1, 2, 3].map f).idxOf true := by
    rw [List.length_map] at hlt
    subst h1 h0
    simp only [count, decide_eq_true_eq, beq_iff_eq]
    change _ < 4 at hlt
    split <;> split <;> omega
  rw [hpos]
  refine ⟨(hf _ hlt).symm.trans hidx, fun k hk => ?_⟩
  rw [← hf k (Nat.lt_trans hk hlt)]
  exact beq_eq_false_iff_ne.1 (hbefore k hk) |> Bool.eq_false_of_not_eq_true

/-- The end of a run: the coefficient there becomes significant. -/
theorem runEnd_eq_some {first : Nat} (hbit : ∀ b ∈ p.bit (coefIndex p.g x y), b = true)
    (h : replayRunEnd p x y z = some (first, z')) :
    first = y + 1 ∧ CodesAt p (coefIndex p.g x y) z.arr z'.arr := by
  obtain ⟨z₁, hsign, hz⟩ := Option.bind_eq_some_iff.1 h
  obtain ⟨neg, hneg, harr⟩ := sign_eq_some hsign
  cases hz
  exact ⟨rfl, harr ▸ .one neg hbit hneg⟩

/-- A column in run mode: four bits 0, or a first row with bit 1. -/
theorem run_eq_some {first : Nat} (h : p.run x y0 z = some (first, z')) :
    (first = y0 + 4 ∧ z'.arr = z.arr ∧ ∀ k < 4, ∀ b ∈ p.bit (coefIndex p.g x (y0 + k)), b = false) ∨
    ∃ k ≤ 3, first = y0 + k + 1 ∧ CodesAt p (coefIndex p.g x (y0 + k)) z.arr z'.arr ∧
      ∀ j < k, ∀ b ∈ p.bit (coefIndex p.g x (y0 + j)), b = false := by
  rw [run_eq] at h
  obtain ⟨⟨d, z₁⟩, hd, hrest⟩ := Option.bind_eq_some_iff.1 h
  obtain ⟨hany, harr⟩ := next_eq_some hd
  cases d with
  | false =>
    cases hrest
    refine .inl ⟨rfl, harr, fun k hk b hb => ?_⟩
    rw [replayBits_of_bit hb x y0] at hany
    have hnone := List.any_eq_false.1 (hany _ rfl) (columnBit p x y0 k)
      (List.mem_map_of_mem (by simp only [List.mem_cons, List.not_mem_nil]; omega))
    rw [columnBit_of_bit hb] at hnone
    exact Bool.eq_false_iff.2 hnone
  | true =>
    obtain ⟨⟨k1, z₂⟩, h1, hlow⟩ := Option.bind_eq_some_iff.1 (show replayRun p x y0 z₁ = _ from hrest)
    obtain ⟨⟨k0, z₃⟩, h0, hend⟩ := Option.bind_eq_some_iff.1 (show replayRunLow p x y0 k1 z₂ = _ from hlow)
    obtain ⟨hk1, harr1⟩ := next_eq_some h1
    obtain ⟨hk0, harr0⟩ := next_eq_some h0
    have hbits {i : Nat} {b : Bool} (hb : p.bit i = some b) := by
      have hcolumn := replayBits_of_bit hb x y0
      rw [hcolumn] at hany hk1 hk0
      exact run_bits (hany _ rfl) (hk1 _ rfl) (hk0 _ rfl)
    obtain ⟨hfirst, hcodes⟩ := runEnd_eq_some (fun b hb => columnBit_of_bit hb ▸ (hbits hb).1) hend
    rw [harr0, harr1, harr] at hcodes
    refine .inr ⟨_, by cases k1 <;> cases k0 <;> decide, hfirst, hcodes, fun j hj b hb => ?_⟩
    rw [← columnBit_of_bit hb]
    exact (hbits hb).2 j hj

/-! ### Columns -/

section Columns

variable (hp : p.plane < 31) (hg : p.g.w * p.g.h ≤ 4096) (hx : x < p.g.w)
include hp hg hx

omit hp hg hx in
theorem runMode_fresh {g : Geometry} (h : runMode g r x y0 = true) (hy : y ∈ stripeRows g.h y0) :
    r.sig.getLsbD (coefIndex g x y) = false ∧ r.visited.getLsbD (coefIndex g x y) = false := by
  simp only [runMode, untouched, Bool.and_eq_true, List.all_eq_true, Bool.not_eq_true'] at h
  exact (h.2 y hy).1

/-- A column in run mode: the rows above the first one still to be coded are settled. -/
theorem run_arrays (hmode : runMode p.g z.arr x y0 = true) {first : Nat} (h : p.run x y0 z = some (first, z')) :
    CupCodes p z.arr z'.arr ∧ ∀ y ∈ stripeRows p.g.h y0, first ≤ y ∨ Settled p z'.arr (coefIndex p.g x y) := by
  have hrows := runMode_rows hmode
  have hzero {k : Nat} {r : Arrays} (hbit : ∀ b ∈ p.bit (coefIndex p.g x (y0 + k)), b = false) :
      Settled p r (coefIndex p.g x (y0 + k)) := fun _ hb => absurd (hbit true hb) Bool.noConfusion
  rcases run_eq_some h with ⟨hfirst, harr, hbits⟩ | ⟨k, hk, hfirst, hcodes, hbits⟩
  · refine ⟨harr ▸ .refl p _, fun y hy => .inr ?_⟩
    obtain ⟨h0, h4, -⟩ := mem_stripeRows_iff.1 hy
    obtain ⟨j, rfl⟩ := Nat.exists_eq_add_of_le h0
    exact hzero (hbits j (by omega))
  · have hmem : y0 + k ∈ stripeRows p.g.h y0 := mem_stripeRows_iff.2 (by omega)
    obtain ⟨hsig, hvisited⟩ := runMode_fresh hmode hmem
    obtain ⟨hcup, hsettled⟩ := cupCodes_of_codesAt hp hg hx (mem_stripeRows hmem) hsig hvisited hcodes
    refine ⟨hcup, fun y hy => ?_⟩
    obtain ⟨j, rfl⟩ := Nat.exists_eq_add_of_le (mem_stripeRows_iff.1 hy).1
    rcases Nat.lt_trichotomy j k with hlt | rfl | hgt
    · exact .inr (hzero (hbits j hlt))
    · exact .inr hsettled
    · exact .inl (by omega)

/-- CUP at one column. -/
theorem cupColumn_arrays (h : p.cup z (x, y0) = some z') :
    CupCodes p z.arr z'.arr ∧ ∀ y ∈ stripeRows p.g.h y0, Settled p z'.arr (coefIndex p.g x y) := by
  rw [cup_eq] at h
  obtain ⟨⟨first, z₁⟩, hfirst, hrows⟩ := Option.bind_eq_some_iff.1 h
  have hstart : CupCodes p z.arr z₁.arr ∧
      ∀ y ∈ stripeRows p.g.h y0, first ≤ y ∨ Settled p z₁.arr (coefIndex p.g x y) := by
    split at hfirst
    case isTrue hmode => exact run_arrays hp hg hx hmode hfirst
    case isFalse =>
      cases hfirst
      exact ⟨.refl p _, fun y hy => .inl (mem_stripeRows_iff.1 hy).1⟩
  obtain ⟨hcodes, hsettled⟩ := rows_arrays hp hg hx (fun y hy => mem_stripeRows (List.mem_filter.1 hy).1) hrows
  refine ⟨hstart.1.trans hcodes, fun y hy => ?_⟩
  rcases hstart.2 y hy with hle | hdone
  · exact hsettled y (List.mem_filter.2 ⟨hy, decide_eq_true hle⟩)
  · exact hdone.mono hcodes

end Columns

/-- The rows of column c are settled. -/
def ColumnSettled (p : Replay) (c : Nat × Nat) (z : Replayed) : Prop :=
  ∀ y ∈ stripeRows p.g.h c.2, Settled p z.arr (coefIndex p.g c.1 y)

/-- The arrays after the columns of a CUP. -/
theorem cup_arrays (hp : p.plane < 31) (hg : p.g.w * p.g.h ≤ 4096) (h : (columnOrder p.g).foldlM p.cup z = some z') :
    CupCodes p z.arr z'.arr ∧ ∀ xy ∈ scan p.g, Settled p z'.arr (coefIndex p.g xy.1 xy.2) := by
  have step (c : Nat × Nat) (hc : c ∈ scanColumns p.g) (z₁ z₂ : Replayed) (hz : p.cup z₁ c = some z₂)
      (hbefore : CupCodes p z.arr z₁.arr) : CupCodes p z.arr z₂.arr ∧ ColumnSettled p c z₂ ∧
        ∀ c', ColumnSettled p c' z₁ → ColumnSettled p c' z₂ := by
    obtain ⟨hcodes, hsettled⟩ := cupColumn_arrays hp hg (mem_scanColumns hc) hz
    exact ⟨hbefore.trans hcodes, hsettled, fun c' hdone y hy => (hdone y hy).mono hcodes⟩
  rw [columnOrder_eq] at h
  obtain ⟨hcodes, hsettled⟩ := foldlM_done step h (.refl p z.arr)
  refine ⟨hcodes, fun xy hxy => ?_⟩
  obtain ⟨c, hc, hmem⟩ := List.mem_flatMap.1 hxy
  obtain ⟨y, hy, rfl⟩ := List.mem_map.1 hmem
  exact hsettled c hc y hy

/-- The segmentation symbol leaves the arrays (R254). -/
theorem segmark_arrays (h : p.segmark z = some z') : z'.arr = z.arr := by
  unfold Replay.segmark at h
  refine foldlM_some (I := fun (_ : List Bool) (z₁ : Replayed) => z₁.arr = z.arr) (fun v _ L z₁ z₂ hz hI => ?_) h rfl
  obtain ⟨dz, hnext, rfl⟩ := Option.map_eq_some_iff.1 hz
  exact (next_eq_some hnext).2.trans hI

end Sys2Proof.Proofs
end

section
/-!
PROOFS. What the replay of a pass leaves in the arrays (44_bitplane_coder.md R235 to R239, R252): `PassEffect`, from the facts about
each of the three passes.
-/
namespace Sys2Proof.Proofs

open Sys2Proof.Machine Sys2Proof.Laws

variable {p : Replay} {C : Nat → Prop} {i : Instr} {r r' : Arrays} {z z' : Replayed} {l : List (Label × Bool)} {segmark : Bool}
  {m : Memory} {j : Nat}

/-- The bit an encoder codes, and 0 where COEF was never written (R232). -/
theorem bit_eq_coefHasBit (hc : p.coef = some m) (j : Nat) : p.bit j = some (coefHasBit m j p.plane) := by
  have hbit : p.bit j = some (((m.getWord (coefAddr j)).getD 0).toInt.natAbs / 2 ^ p.plane % 2 == 1) := by
    rw [Replay.bit, Replay.word, hc]
    rfl
  rw [hbit, coefHasBit]
  cases m.getWord (coefAddr j) with
  | some q => rfl
  | none =>
    rw [Option.getD_none, show (0 : Word).toInt.natAbs = 0 from rfl, Nat.zero_div]
    rfl

/-- A coefficient of the block stands in the scan. -/
theorem exists_scan_of_lt {g : Geometry} (hj : j < g.w * g.h) : ∃ xy ∈ scan g, coefIndex g xy.1 xy.2 = j := by
  have hw : 0 < g.w := Nat.pos_of_ne_zero fun h => by rw [h, Nat.zero_mul] at hj; omega
  exact ⟨(j % g.w, j / g.w), mem_scan_iff.2 ⟨Nat.mod_lt _ hw, Nat.div_lt_of_lt_mul hj⟩, Nat.div_add_mod' j g.w⟩

/-- Coefficient j becomes significant from r to r'. -/
def Fresh (r r' : Arrays) (j : Nat) : Prop := r'.sig.getLsbD j = true ∧ r.sig.getLsbD j = false

/-! ### What every pass does -/

/-- From r to r' a pass with the replay p has changed elements of the block alone, and MAG at its plane alone. -/
structure ArrayEffect (p : Replay) (r r' : Arrays) : Prop where
  beyond : ArraysBeyond (p.g.w * p.g.h) r r'
  kept : ∀ j, r.sig.getLsbD j = true → r'.sig.getLsbD j = true ∧ r'.sgn.getLsbD j = r.sgn.getLsbD j
  mag : ∀ j, magGet r'.mag j = magGet r.mag j ∨ magGet r'.mag j = markBit p (magGet r.mag j)
  magEnc : p.coef ≠ none → r'.mag = r.mag
  sign : ∀ j, Fresh r r' j → j < p.g.w * p.g.h ∧ ∀ q ∈ p.word j, r'.sgn.getLsbD j = q.msb

theorem Grows.effect (h : Grows p C r r') (hC : ∀ j, C j → j < p.g.w * p.g.h) : ArrayEffect p r r' where
  beyond j hj := by
    rcases h.coef j with ⟨hsig, hsgn, hmag⟩ | ⟨hin, -⟩
    · exact ⟨hsig, hsgn, by rw [h.refined], hmag⟩
    · exact absurd (hC j hin) (Nat.not_lt.2 hj)
  kept j hj := by
    rcases h.coef j with hsame | ⟨-, hnew⟩
    · exact ⟨hsame.sig.trans hj, hsame.sgn⟩
    · exact absurd (hnew.before.symm.trans hj) Bool.false_ne_true
  mag j := (h.coef j).imp SameCoef.mag fun hnew => hnew.2.mag
  magEnc := h.mag
  sign j hj := by
    obtain ⟨hin, hnew⟩ := h.newCoef hj.1 hj.2
    exact ⟨hC j hin, hnew.sign⟩

/-- The coefficients that become significant, and no others, get their bit of MAG. -/
theorem Grows.mag_eq (h : Grows p C r r') (j : Nat) : magGet r'.mag j =
    if r'.sig.getLsbD j && !r.sig.getLsbD j then markBit p (magGet r.mag j) else magGet r.mag j := by
  rcases h.coef j with ⟨hsig, -, hmag⟩ | ⟨-, hnew⟩
  · rw [hsig, Bool.and_not_self]
    exact hmag
  · rw [hnew.before, hnew.after]
    exact hnew.mag

theorem MrpCodes.effect (h : MrpCodes p r r') : ArrayEffect p r r' where
  beyond j hj := by
    have hrefined : r'.refined.getLsbD j = r.refined.getLsbD j := by
      rw [Bool.eq_iff_iff]
      exact ⟨fun hr => (h.refined j hr).resolve_right fun hin => absurd hin.1 (Nat.not_lt.2 hj), h.mono j⟩
    exact ⟨by rw [h.sig], by rw [h.sgn], hrefined, (h.mag j).resolve_right fun hin => absurd hin.1 (Nat.not_lt.2 hj)⟩
  kept j hj := ⟨by rw [h.sig, hj], by rw [h.sgn]⟩
  mag j := (h.mag j).imp id And.right
  magEnc := h.magEnc
  sign j hj := absurd (hj.2.symm.trans (h.sig ▸ hj.1)) Bool.false_ne_true

/-! ### The three passes -/

/-- What the pass of command i has done from r to r'. -/
structure PassEffect (i : Instr) (p : Replay) (r r' : Arrays) : Prop extends ArrayEffect p r r' where
  arrays : PassArrays i p.g r r'
  encoded : ∀ m, p.coef = some m → EncodedSig i p.g m p.plane r r'
  mag_eq : (∃ q dir raw, i = .bpcMrp q dir raw) ∨ ∀ j, magGet r'.mag j =
    if r'.sig.getLsbD j && !r.sig.getLsbD j then markBit p (magGet r.mag j) else magGet r.mag j

theorem replayEnd_eq_some (h : replayEnd z = some r) : r = z.arr := by
  unfold replayEnd at h
  split at h
  · exact (Option.some.inj h).symm
  · cases h

section Passes

variable (hp : p.plane < 31) (hg : p.g.w * p.g.h ≤ 4096)
include hp hg

/-- SPP (R237). -/
theorem spp_effect {q : BitVec 5} {dir : Dir} {raw : Bool} (h : replayPass (.bpcSpp q dir raw) p segmark r l = some r') :
    PassEffect (.bpcSpp q dir raw) p r r' := by
  obtain ⟨z, hz, hend⟩ := Option.bind_eq_some_iff.1 (show Option.bind _ replayEnd = _ from h)
  obtain rfl := replayEnd_eq_some hend
  obtain ⟨hcodes, hvisited⟩ := spp_arrays hp hg hz
  refine ⟨hcodes.grows.effect fun _ => id, ⟨hcodes.grows.refined, hcodes.mono, hcodes.newSig, ?new, ?all⟩,
    fun m hm j _ hbefore hafter => ?encoded, .inr hcodes.grows.mag_eq⟩
  case new => exact fun j hafter hbefore => (hcodes.newVisited j hafter hbefore).1
  case all => exact fun x hx y hy hsig hlabel => hvisited (x, y) (mem_scan_iff.2 ⟨hx, hy⟩) ⟨hsig, hlabel⟩
  case encoded => exact (hcodes.newVisited j hafter hbefore).2 _ (bit_eq_coefHasBit hm j)

/-- MRP (R238). -/
theorem mrp_effect {q : BitVec 5} {dir : Dir} {raw : Bool} (h : replayPass (.bpcMrp q dir raw) p segmark r l = some r') :
    PassEffect (.bpcMrp q dir raw) p r r' := by
  obtain ⟨z, hz, hend⟩ := Option.bind_eq_some_iff.1 (show Option.bind _ replayEnd = _ from h)
  obtain rfl := replayEnd_eq_some hend
  obtain ⟨hcodes, hrefined⟩ := mrp_arrays hp hg hz
  refine ⟨hcodes.effect, ⟨hcodes.sig, hcodes.sgn, hcodes.visited, fun j => ?_⟩, fun _ _ => trivial, .inl ⟨q, dir, raw, rfl⟩⟩
  rw [Bool.eq_iff_iff]
  simp only [Bool.or_eq_true, Bool.and_eq_true, decide_eq_true_eq, Bool.not_eq_true', and_assoc]
  refine ⟨hcodes.refined j, fun hj => ?_⟩
  rcases hj with hbefore | ⟨hin, hguard⟩
  · exact hcodes.mono j hbefore
  · obtain ⟨xy, hxy, rfl⟩ := exists_scan_of_lt hin
    exact hrefined xy hxy hguard

omit hp hg in
theorem cup_replay_eq_some {q : BitVec 5} {dir : Dir} (h : replayPass (.bpcCup q dir) p segmark r l = some r') :
    ∃ z, (columnOrder p.g).foldlM p.cup ⟨r, l⟩ = some z ∧ r' = { z.arr with visited := 0 } := by
  rw [replayPass_cup] at h
  obtain ⟨z₂, hmark, hend⟩ := Option.bind_eq_some_iff.1 h
  obtain ⟨z₁, hclear, hmark⟩ := Option.bind_eq_some_iff.1 hmark
  obtain ⟨z, hz, rfl⟩ := Option.map_eq_some_iff.1 hclear
  refine ⟨z, hz, (replayEnd_eq_some hend).trans ?_⟩
  split at hmark
  · exact segmark_arrays hmark
  · rw [← Option.some.inj hmark]

/-- CUP (R239, R252). -/
theorem cup_effect {q : BitVec 5} {dir : Dir} (h : replayPass (.bpcCup q dir) p segmark r l = some r') :
    PassEffect (.bpcCup q dir) p r r' := by
  obtain ⟨z, hz, rfl⟩ := cup_replay_eq_some h
  obtain ⟨hcodes, hsettled⟩ := cup_arrays hp hg hz
  have hgrows : Grows p (CupCandidate p r.visited) r { z.arr with visited := 0 } := hcodes.grows.visited 0
  refine ⟨hgrows.effect fun _ => And.left, ⟨hgrows.refined, rfl, fun j hafter hbefore => ?fresh⟩, fun m hm j hj => ?encoded,
    .inr hgrows.mag_eq⟩
  case fresh => exact (hgrows.newCoef hafter hbefore).1.2
  case encoded =>
    have hbit := bit_eq_coefHasBit hm j
    rw [Bool.eq_iff_iff]
    simp only [Bool.or_eq_true, Bool.and_eq_true, Bool.not_eq_true']
    constructor
    · intro hafter
      refine or_iff_not_imp_left.2 fun hbefore => ?_
      obtain ⟨⟨-, hvisited⟩, hnew⟩ := hgrows.newCoef hafter (Bool.eq_false_of_not_eq_true hbefore)
      exact ⟨hvisited, hnew.bit _ hbit⟩
    · rintro (hbefore | ⟨hvisited, hone⟩)
      · exact hgrows.sig_mono hbefore
      · obtain ⟨xy, hxy, rfl⟩ := exists_scan_of_lt hj
        exact hsettled xy hxy (hcodes.visited ▸ hvisited) (hone ▸ hbit)

end Passes

/-- Pass command i with plane q, direction dir and coder raw (R240). -/
def IsPassOf (i : Instr) (q : BitVec 5) (dir : Dir) (raw : Bool) : Prop :=
  i = .bpcSpp q dir raw ∨ i = .bpcMrp q dir raw ∨ (raw = false ∧ i = .bpcCup q dir)

theorem IsPassOf.effect {q : BitVec 5} {dir : Dir} {raw : Bool} (hi : IsPassOf i q dir raw) (hp : p.plane < 31)
    (hg : p.g.w * p.g.h ≤ 4096) (h : replayPass i p segmark r l = some r') : PassEffect i p r r' := by
  rcases hi with rfl | rfl | ⟨-, rfl⟩
  · exact spp_effect hp hg h
  · exact mrp_effect hp hg h
  · exact cup_effect hp hg h

end Sys2Proof.Proofs
end

section
/-!
PROOFS. A pass command completes: decoding (O34) and encoding (O35). The decisions its pass codes take the coder where the coding
commands take it; their replay says what happens to the arrays.
-/
namespace Sys2Proof.Proofs

open Sys2Proof.Machine Sys2Proof.Laws

variable {i : Instr} {q : BitVec 5} {dir : Dir} {raw : Bool} {s t : State} {l : List (Label × Bool)} {pa : PassArgs}

/-- A pass command that finds what it needs runs its pass (R240, R241). -/
theorem IsPassOf.exec (hi : IsPassOf i q dir raw) (hq : q.toNat ≤ 30) (hmode : s.status.cmode = passMode dir raw)
    (hshape : s.cfg.badShape = false) (hready : Ready (s.cfg.passArgs q.toNat dir raw) s.mem (passRoom s.cfg) s) :
    ∃ l t, Machine.exec i s = .next t.complete ∧ PassRun i (s.cfg.passArgs q.toNat dir raw) s t l := by
  obtain ⟨-, -, hg⟩ := shape_of_check hshape
  rcases hi with rfl | rfl | ⟨rfl, rfl⟩
  · obtain ⟨l, t, hrun, hpass⟩ := spp_passRun hg hready q dir raw
    exact ⟨l, t, runCmd_pass_of_ok (i := .bpcSpp q dir raw) (decide_eq_true hq) hmode hshape hrun, hpass⟩
  · obtain ⟨l, t, hrun, hpass⟩ := mrp_passRun hg hready q dir raw
    exact ⟨l, t, runCmd_pass_of_ok (i := .bpcMrp q dir raw) (decide_eq_true hq) hmode hshape hrun, hpass⟩
  · obtain ⟨l, t, hrun, hpass⟩ := cup_passRun hg hready q dir rfl
    exact ⟨l, t, runCmd_pass_of_ok (i := .bpcCup q dir) (decide_eq_true hq) hmode hshape hrun, hpass⟩

/-- Besides the coder and the arrays a pass changes SEGMIS alone. -/
theorem PassRun.state (h : PassRun i pa s t l) : t = { s with
    status := { s.status with segmis := s.status.segmis || missesMark i pa.segmark l }
    seg := t.seg, ctx := t.ctx, arr := t.arr, mem := t.mem } := by
  have hframe : CoderFrame s { t with arr := s.arr, status := s.status } := h.coded.coderFrame
  have ht : t = { s with status := t.status, seg := t.seg, ctx := t.ctx, arr := t.arr, mem := t.mem } :=
    congrArg (fun u : State => { u with arr := t.arr, status := t.status }) hframe
  rw [h.status] at ht
  exact ht

theorem IsPassOf.missesMark_dec (hi : IsPassOf i q .dec raw) (segmark : Bool) (l : List (Label × Bool)) :
    missesMark i segmark l =
      (i == .bpcCup q .dec && segmark && !((l.map (·.2)).drop (l.length - 4) == [true, false, true, false])) := by
  rcases hi with rfl | rfl | ⟨-, rfl⟩
  · rfl
  · rfl
  · rw [beq_self_eq_true, Bool.true_and]
    rfl

theorem IsPassOf.missesMark_enc (hi : IsPassOf i q .enc raw) (segmark : Bool) (l : List (Label × Bool)) :
    missesMark i segmark l = false := by
  rcases hi with rfl | rfl | ⟨-, rfl⟩ <;> rfl

/-- Settles O34: the pass follows its replay, whose effect on the arrays is `PassEffect`. -/
theorem decodingPassCompletes : Obligations.DecodingPassCompletes := by
  intro i q raw s hi hq hmode hshape hseg
  have hpass : IsPassOf i q .dec raw := hi
  have hmode' : s.status.cmode = passMode .dec raw := hmode.trans (by cases raw <;> rfl)
  have hready : Ready (s.cfg.passArgs q.toNat .dec raw) s.mem (passRoom s.cfg) s := ⟨nofun, nofun, fun _ => hseg⟩
  obtain ⟨l, t, hexec, hrun⟩ := hpass.exec hq hmode' hshape hready
  have hdecoded : DecodedFrom raw s { t with arr := s.arr, status := s.status } := hrun.coded.decoded rfl hseg
  obtain ⟨u, hcommands, hsegu, hctxu, -⟩ := hrun.coded.decodingCommands rfl hmode'
  have heffect := hpass.effect (p := replayOf (s.cfg.passArgs q.toNat .dec raw) s.mem) (Nat.lt_succ_of_le hq)
    (shape_of_check hshape).2.2 hrun.replay
  refine ⟨s.status.segmis || missesMark i s.cfg.segmark l, t.seg, t.ctx, t.arr, ?exec,
    ⟨l, u, hrun.replay, hcommands, hsegu, hctxu, ?segmis⟩, hdecoded.regs, hdecoded.ctx,
    heffect.arrays, heffect.beyond, heffect.kept, heffect.mag, fun hmrp j => ?mag⟩
  case exec =>
    have hmem : t.mem = s.mem := hdecoded.mem
    have ht := hrun.state
    rw [hmem] at ht
    exact hexec.trans (congrArg (fun t => Host.Outcome.next (State.complete t)) ht)
  case segmis => exact congrArg (s.status.segmis || ·) (hpass.missesMark_dec s.cfg.segmark l)
  case mag =>
    rcases heffect.mag_eq with ⟨q', dir, raw', rfl⟩ | hmag
    · rcases hi with h | h | ⟨-, h⟩
      · cases h
      · exact absurd h hmrp
      · cases h
    · exact hmag j

/-- Settles O35: the pass follows its replay, whose effect on the arrays is `PassEffect`, and emits at most three bytes for each
decision. -/
theorem encodingPassCompletes : Obligations.EncodingPassCompletes := by
  intro i q raw s hi hq hmode hshape hcoefs hroom
  have hpass : IsPassOf i q .enc raw := hi
  have hmode' : s.status.cmode = passMode .enc raw := hmode.trans (by cases raw <;> rfl)
  have hword (j : Nat) (hj : j < s.cfg.w * s.cfg.h) : ∃ w, s.mem.getWord (coefAddr j) = some w :=
    Option.isSome_iff_exists.1 (hcoefs j hj)
  have hready : Ready (s.cfg.passArgs q.toNat .enc raw) s.mem (passRoom s.cfg) s :=
    ⟨fun _ => hroom, fun _ j hj => (hword j hj).imp fun w hw => ⟨hw, hw⟩, nofun⟩
  obtain ⟨l, t, hexec, hrun⟩ := hpass.exec hq hmode' hshape hready
  have hlen : 3 * l.length ≤ passRoom s.cfg := hrun.length
  have hencoded : Encoded raw (passRoom s.cfg) s { t with arr := s.arr, status := s.status } :=
    (hrun.coded.encoded rfl (Nat.le_trans (Nat.add_le_add_left hlen _) hroom)).mono hlen
  obtain ⟨n, hn, hemits⟩ := hencoded.emits
  obtain ⟨u, hcommands, herr, hsegu, hctxu, hmemu⟩ := hrun.coded.execAll rfl hmode'
  have heffect := hpass.effect (p := replayOf (s.cfg.passArgs q.toNat .enc raw) s.mem) (Nat.lt_succ_of_le hq)
    (shape_of_check hshape).2.2 hrun.replay
  have hbp : t.seg.bp.toNat = s.seg.bp.toNat + n := hemits.bp
  refine ⟨t.seg, t.ctx, t.arr, t.mem, ?exec, ⟨l, u, hrun.replay, hcommands, herr, hsegu, hctxu, hmemu⟩, hemits.regs, by omega,
    by omega, hencoded.ctx, heffect.magEnc nofun, heffect.arrays, heffect.beyond, heffect.encoded _ rfl, heffect.kept,
    fun j hafter hbefore => ?sign, hemits.outside⟩
  case exec =>
    have ht := hrun.state
    rw [hpass.missesMark_enc, Bool.or_false] at ht
    exact hexec.trans (congrArg (fun t => Host.Outcome.next (State.complete t)) ht)
  case sign =>
    obtain ⟨hj, hsign⟩ := heffect.sign j ⟨hafter, hbefore⟩
    obtain ⟨w, hw⟩ := hword j hj
    exact ⟨w, hw, hsign w (congrArg (fun o : Option Word => some (o.getD 0)) hw)⟩

end Sys2Proof.Proofs
end

section
/-!
PROOFS. The MEL encoder's registers (O40): MELBIT of a list of bits is `melAppend`, the bytes it emits, and MELPUT as the bits of
`melBits`.
-/
namespace Sys2Proof.Proofs

open Sys2Proof.Machine Sys2Proof.Laws

/-! ### The tables (45_ht_block_coder.md R280) -/

theorem melE_le (k : Fin 13) : melE k ≤ 5 := by
  revert k
  decide

theorem melT_pos (k : Fin 13) : 0 < melT k := Nat.two_pow_pos _

theorem melT_le (k : Fin 13) : melT k ≤ 32 := Nat.pow_le_pow_right Nat.two_pos (melE_le k)

theorem melUp_val (k : Fin 13) : (melUp k).val = min (k.val + 1) 12 := by
  unfold melUp
  split
  · show k.val + 1 = _
    omega
  · omega

/-- The two lists of a number's bits, of the model and of the raw segments (O31), are one. -/
theorem machine_msbBits_eq (v n : Nat) : Machine.msbBits v n = msbBits v n := by
  induction n with
  | zero => rfl
  | succ n ih => rw [Machine.msbBits, msbBits, ih]

theorem melBits_length_le (k : Fin 13) (run : Nat) (d : Bool) : (melBits k run d).length ≤ 6 := by
  have hE := melE_le k
  unfold melBits
  split_ifs
  · rw [machine_msbBits_eq, List.length_cons, length_msbBits]
    omega
  · decide
  · decide

/-- A 0 is a hit when it completes the run (R284). -/
theorem melHit_zero (k : Fin 13) (run : Nat) : melHit k run false = decide (run + 1 = melT k) := by
  rw [melHit, Bool.not_false, Bool.true_and, beq_eq_decide]

theorem melHit_toNat_iff (k : Fin 13) (run : BitVec 16) : melHit k run.toNat false = true ↔ (run + 1).toNat = melT k := by
  have hpos := melT_pos k
  have hle := melT_le k
  rw [melHit_zero, decide_eq_true_iff]
  bv_omega

/-! ### MELBIT (45_ht_block_coder.md R284) -/

/-- MELBIT of each of these bits. -/
def melSend : List Bool → Cmd Unit
  | [] => pure ()
  | v :: l => do
      melBit v
      melSend l

/-- MELBIT of one bit on the registers and memory. -/
def melPush (v : Bool) (x : SegRegs × Memory) : SegRegs × Memory := melAppend [v] x

theorem melAppend_cons (v : Bool) (l : List Bool) (x : SegRegs × Memory) :
    melAppend (v :: l) x = melAppend l (melPush v x) := by
  simp only [melPush, melAppend]
  split <;> rfl

/-- The byte being assembled once v is in it. -/
def melWith (r : SegRegs) (v : Bool) : Word := 2 * r.c + zextBit v

theorem melPush_inside {x : SegRegs × Memory} (hct : x.1.ct ≠ 1) (v : Bool) :
    melPush v x = ({ x.1 with c := melWith x.1 v, ct := x.1.ct - 1 }, x.2) := if_neg hct

theorem melPush_last {x : SegRegs × Memory} (hct : x.1.ct = 1) (v : Bool) :
    melPush v x = ({ x.1 with
      c := 0, ct := freeAfter ((melWith x.1 v).extractLsb' 0 8), b := (melWith x.1 v).extractLsb' 0 8, bp := x.1.bp + 1 },
      x.2.setByte (byteAddr x.1.outOffset) ((melWith x.1 v).extractLsb' 0 8)) := if_pos hct

/-- There is room for every byte that MELBIT of these bits emits. -/
def MelFits : List Bool → SegRegs × Memory → Prop
  | [], _ => True
  | v :: l, x => (x.1.ct = 1 → x.1.outOffset < Config.byteCap) ∧ MelFits l (melPush v x)

theorem melBit_withCoder (s : State) {v : Bool} {x : SegRegs × Memory} (h : x.1.ct = 1 → x.1.outOffset < Config.byteCap) :
    melBit v (withCoder s x) = .ok () (withCoder s (melPush v x)) := by
  have hct : x.1.ct - 1 = 0 ↔ x.1.ct = 1 := by bv_omega
  refine (melBit_run v _).trans ?_
  by_cases h1 : x.1.ct = 1
  · have hroom : HasRoom (withCoder s ({ x.1 with c := melWith x.1 v, ct := x.1.ct - 1 }, x.2)) 1 := h h1
    rw [melPush_last h1]
    exact (if_pos (hct.2 h1)).trans (nextByte_room hroom)
  · rw [melPush_inside h1]
    exact if_neg (mt hct.1 h1)

theorem melSend_withCoder (s : State) {l : List Bool} {x : SegRegs × Memory} (h : MelFits l x) :
    melSend l (withCoder s x) = .ok () (withCoder s (melAppend l x)) := by
  induction l generalizing x with
  | nil => rfl
  | cons v l ih =>
    obtain ⟨hroom, hrest⟩ := h
    rw [melSend, bind_of_ok (melBit_withCoder s hroom), ih hrest, melAppend_cons]

theorem melRunBits_eq_melSend (run : BitVec 16) (n : Nat) : melRunBits run n = melSend (Machine.msbBits run.toNat n) := by
  induction n with
  | zero => rfl
  | succ n ih => rw [melRunBits, Machine.msbBits, melSend, ih]; rfl

theorem melOnes_eq_melSend (n : Nat) : melOnes n = melSend (List.replicate n true) := by
  induction n with
  | zero => rfl
  | succ n ih => rw [melOnes, List.replicate_succ, melSend, ih]

/-! ### The run and the state index are not MELBIT's -/

/-- The registers with another run and state index. -/
def setRun (k : Fin 13) (run : BitVec 16) (x : SegRegs × Memory) : SegRegs × Memory :=
  ({ x.1 with melK := k, melRun := run }, x.2)

theorem melPush_setRun (k : Fin 13) (run : BitVec 16) (v : Bool) (x : SegRegs × Memory) :
    melPush v (setRun k run x) = setRun k run (melPush v x) := by
  by_cases h1 : x.1.ct = 1
  · rw [melPush_last h1, melPush_last (x := setRun k run x) h1]
    rfl
  · rw [melPush_inside h1, melPush_inside (x := setRun k run x) h1]
    rfl

theorem melAppend_setRun (k : Fin 13) (run : BitVec 16) (l : List Bool) (x : SegRegs × Memory) :
    melAppend l (setRun k run x) = setRun k run (melAppend l x) := by
  induction l generalizing x with
  | nil => rfl
  | cons v l ih => rw [melAppend_cons, melPush_setRun, ih, melAppend_cons]

theorem melFits_setRun (k : Fin 13) (run : BitVec 16) {l : List Bool} {x : SegRegs × Memory} (h : MelFits l x) :
    MelFits l (setRun k run x) := by
  induction l generalizing x with
  | nil => trivial
  | cons v l ih =>
    obtain ⟨hroom, hrest⟩ := h
    exact ⟨hroom, melPush_setRun k run v x ▸ ih hrest⟩

theorem setRun_melAppend_self (l : List Bool) (x : SegRegs × Memory) :
    setRun x.1.melK x.1.melRun (melAppend l x) = melAppend l x := (melAppend_setRun x.1.melK x.1.melRun l x).symm

theorem melAppend_melK (l : List Bool) (x : SegRegs × Memory) : (melAppend l x).1.melK = x.1.melK :=
  congrArg (·.1.melK) (setRun_melAppend_self l x).symm

/-! ### MELPUT (45_ht_block_coder.md R284) -/

/-- MELPUT on the registers and memory: the bits of `melBits`, then the next run and state index. -/
def melCoded (d : Bool) (x : SegRegs × Memory) : SegRegs × Memory :=
  setRun (melNextK x.1.melK x.1.melRun.toNat d) (BitVec.ofNat 16 (melNextRun x.1.melK x.1.melRun.toNat d))
    (melAppend (melBits x.1.melK x.1.melRun.toNat d) x)

section Coded

variable {x : SegRegs × Memory}

theorem melCoded_hit (h : (x.1.melRun + 1).toNat = melT x.1.melK) :
    melCoded false x = setRun (melUp x.1.melK) 0 (melPush true x) := by
  have hhit := (melHit_toNat_iff _ _).2 h
  simp [melCoded, melNextK, melNextRun, melBits, hhit, melPush]

theorem melCoded_zero (h : (x.1.melRun + 1).toNat ≠ melT x.1.melK) :
    melCoded false x = setRun x.1.melK (x.1.melRun + 1) x := by
  have hhit := mt (melHit_toNat_iff _ _).1 h
  have hrun : BitVec.ofNat 16 (x.1.melRun.toNat + 1) = x.1.melRun + 1 := by bv_omega
  simp [melCoded, melNextK, melNextRun, melBits, hhit, melAppend, hrun]

end Coded

section Put

variable {s : State} {d : Bool}

theorem melPutOne_run (hfit : MelFits (melBits s.seg.melK s.seg.melRun.toNat true) (s.seg, s.mem)) :
    melPutOne s = .ok () (withCoder s (melCoded true (s.seg, s.mem))) := by
  obtain ⟨hfirst, hrest⟩ := hfit
  have hbit : melBit false s = _ := melBit_withCoder s (x := (s.seg, s.mem)) hfirst
  have hbits := melSend_withCoder s hrest
  rw [← melRunBits_eq_melSend, ← melAppend_cons] at hbits
  have hk := melAppend_melK (false :: Machine.msbBits s.seg.melRun.toNat (melE s.seg.melK)) (s.seg, s.mem)
  unfold melPutOne
  rw [see_bind, bind_of_ok hbit, bind_of_ok hbits, updSeg_run, withCoder_seg, hk]
  rfl

theorem melPutZero_run (hfit : MelFits (melBits s.seg.melK s.seg.melRun.toNat false) (s.seg, s.mem)) :
    melPutZero s = .ok () (withCoder s (melCoded false (s.seg, s.mem))) := by
  unfold melPutZero
  rw [updSeg_bind, see_bind]
  dsimp only
  by_cases hhit : (s.seg.melRun + 1).toNat = melT s.seg.melK
  · rw [melBits, if_neg Bool.false_ne_true, if_pos ((melHit_toNat_iff _ _).2 hhit)] at hfit
    have hbit := melBit_withCoder s (v := true) (melFits_setRun s.seg.melK (s.seg.melRun + 1) hfit).1
    rw [melPush_setRun] at hbit
    rw [if_pos hhit, melCoded_hit hhit]
    exact (bind_of_ok hbit _).trans rfl
  · rw [if_neg hhit, melCoded_zero hhit]
    rfl

theorem melPut_run (hfit : MelFits (melBits s.seg.melK s.seg.melRun.toNat d) (s.seg, s.mem)) :
    melPut d s = .ok () (withCoder s (melCoded d (s.seg, s.mem))) := by
  cases d with
  | true => exact melPutOne_run hfit
  | false => exact melPutZero_run hfit

theorem exec_melPut (hmode : s.status.cmode = .mele)
    (hfit : MelFits (melBits s.seg.melK s.seg.melRun.toNat d) (s.seg, s.mem)) :
    exec (.melPut d) s = .next (withCoder s (melCoded d (s.seg, s.mem))).complete :=
  runCmd_of_ok ((needMode_bind hmode _).trans (melPut_run hfit))

end Put

/-! ### The bytes MELBIT emits (20_memory.md R81) -/

/-- From x to y n bytes are emitted: only C, CT, B and BP differ, and memory only in those bytes. -/
structure Adds (n : Nat) (x y : SegRegs × Memory) : Prop where
  regs : y.1 = { x.1 with c := y.1.c, ct := y.1.ct, b := y.1.b, bp := y.1.bp }
  bp : y.1.bp.toNat = x.1.bp.toNat + n
  outside : ∀ a, ¬ (byteAddr x.1.outOffset ≤ a ∧ a < byteAddr y.1.outOffset) → y.2.getByte a = x.2.getByte a

section Adds

variable {x y z : SegRegs × Memory} {n n' : Nat}

theorem Adds.outOffset (h : Adds n x y) : y.1.outOffset = x.1.outOffset + n := by
  have hstart : y.1.start = x.1.start := by rw [h.regs]
  rw [SegRegs.outOffset, SegRegs.outOffset, hstart, h.bp, Nat.add_assoc]

theorem Adds.refl (x : SegRegs × Memory) : Adds 0 x x := ⟨rfl, rfl, fun _ _ => rfl⟩

theorem Adds.trans (h : Adds n x y) (h' : Adds n' y z) : Adds (n + n') x z where
  regs := by rw [h'.regs, h.regs]
  bp := by rw [h'.bp, h.bp, Nat.add_assoc]
  outside a ha := by
    have hy := h.outOffset
    have hz := h'.outOffset
    simp only [byteAddr] at ha
    have hyz : z.2.getByte a = y.2.getByte a := h'.outside a (by simp only [byteAddr]; omega)
    exact hyz.trans (h.outside a (by simp only [byteAddr]; omega))

theorem melPush_adds_inside (hct : x.1.ct ≠ 1) (v : Bool) : Adds 0 x (melPush v x) := by
  rw [melPush_inside hct]
  exact ⟨rfl, rfl, fun _ _ => rfl⟩

theorem melPush_adds_last (hct : x.1.ct = 1) (hroom : x.1.outOffset < Config.byteCap) (v : Bool) :
    Adds 1 x (melPush v x) := by
  have hbp : (melPush v x).1.bp.toNat = x.1.bp.toNat + 1 := by
    rw [melPush_last hct]
    exact bp_add_one hroom
  have hregs : (melPush v x).1 = { x.1 with
      c := (melPush v x).1.c, ct := (melPush v x).1.ct, b := (melPush v x).1.b, bp := (melPush v x).1.bp } := by
    rw [melPush_last hct]
  refine ⟨hregs, hbp, fun a ha => ?_⟩
  have hend : (melPush v x).1.outOffset = x.1.outOffset + 1 := by
    rw [SegRegs.outOffset, hbp, hregs]
    rfl
  rw [hend] at ha
  rw [melPush_last hct]
  refine (getByte_setByte _ _ _ _).trans (if_neg ?_)
  simp only [byteAddr] at ha ⊢
  omega

theorem Adds.setRun_regs (h : Adds n x y) (k : Fin 13) (run : BitVec 16) : (setRun k run y).1 = { x.1 with
    c := y.1.c, ct := y.1.ct, b := y.1.b, bp := y.1.bp, melK := k, melRun := run } := by
  show ({ y.1 with melK := k, melRun := run } : SegRegs) = _
  rw [h.regs]

/-- Bits that emit at most k bytes fit in a room of k bytes. -/
theorem melAppend_adds {l : List Bool} {k : Nat} (h : TurnsFit l.length k x) :
    MelFits l x ∧ ∃ n ≤ k, Adds n x (melAppend l x) := by
  induction l generalizing x k with
  | nil => exact ⟨trivial, 0, Nat.zero_le k, .refl x⟩
  | cons v l ih =>
    have ⟨hbits, hcap⟩ := h
    rw [List.length_cons] at h hbits
    rw [melAppend_cons]
    by_cases hct : x.1.ct = 1
    · have hroom := h.room hct
      have hadds := melPush_adds_last hct hroom v
      have hfree : 6 ≤ ((melPush v x).1.ct - 1).toNat := by
        rw [melPush_last hct]
        show 6 ≤ (freeAfter _ - 1).toNat
        unfold freeAfter
        split <;> decide
      have hfirst : (x.1.ct - 1).toNat = 0 := by rw [hct]; rfl
      obtain ⟨hfits, n, hn, hrest⟩ := ih (x := melPush v x) (k := k - 1)
        ⟨by omega, by rw [hadds.outOffset]; omega⟩
      exact ⟨⟨fun _ => hroom, hfits⟩, 1 + n, by omega, hadds.trans hrest⟩
    · have hadds := melPush_adds_inside hct v
      have hnext : (melPush v x).1.ct = x.1.ct - 1 := by rw [melPush_inside hct]
      obtain ⟨hfits, n, hn, hrest⟩ := ih (x := melPush v x) (k := k)
        ⟨by rw [hnext]; bv_omega, by rw [hadds.outOffset]; exact hcap⟩
      exact ⟨⟨fun h1 => absurd h1 hct, hfits⟩, 0 + n, by omega, hadds.trans hrest⟩

end Adds

/-- Settles O40: MELPUT sends at most six bits, which emit at most one byte; the symbol is a 1, completes the run, or counts. -/
theorem melPutCompletes : Obligations.MelPutCompletes := by
  intro s d hmode hroom
  have hlen := melBits_length_le s.seg.melK s.seg.melRun.toNat d
  have hturns : TurnsFit (melBits s.seg.melK s.seg.melRun.toNat d).length 1 (s.seg, s.mem) := ⟨by omega, hroom⟩
  obtain ⟨hfits, n, hn, hadds⟩ := melAppend_adds hturns
  have hbp : (melCoded d (s.seg, s.mem)).1.bp.toNat = s.seg.bp.toNat + n := hadds.bp
  refine ⟨_, _, exec_melPut hmode hfits, hadds.setRun_regs _ _, ?one, ?hit, ?zero, ⟨rfl, rfl⟩, by omega, by omega,
    hadds.outside⟩
  case one =>
    rintro rfl
    exact ⟨rfl, rfl⟩
  case hit =>
    rintro rfl hhit
    rw [melCoded_hit (x := (s.seg, s.mem)) hhit]
    exact ⟨rfl, melUp_val _⟩
  case zero =>
    rintro rfl hzero
    rw [melCoded_zero (x := (s.seg, s.mem)) hzero]
    exact ⟨rfl, rfl⟩

end Sys2Proof.Proofs
end

section
/-!
PROOFS. MEL.FLUSH (O41): the incomplete run, the padding of the last byte, and the bytes both emit.
-/
namespace Sys2Proof.Proofs

open Sys2Proof.Machine Sys2Proof.Laws

/-! ### MELFLUSH (45_ht_block_coder.md R284) -/

/-- What MELFLUSH sends of an incomplete run. -/
def melLast (r : SegRegs) : List Bool := if r.melRun = 0 then [] else [true]

/-- The bits 1 that fill a partial byte. -/
def melPadding (r : SegRegs) : List Bool := if r.ct < r.fullCt then List.replicate r.ct.toNat true else []

/-- The coder with its run made empty. -/
def clearRun (x : SegRegs × Memory) : SegRegs × Memory := setRun x.1.melK 0 x

/-- MELFLUSH on the registers and memory. -/
def melFlushed (x : SegRegs × Memory) : SegRegs × Memory :=
  let y := melAppend (melLast x.1) x
  clearRun (melAppend (melPadding y.1) y)

/-- There is room for the bytes MELFLUSH emits. -/
def FlushFits (x : SegRegs × Memory) : Prop :=
  MelFits (melLast x.1) x ∧ MelFits (melPadding (melAppend (melLast x.1) x).1) (melAppend (melLast x.1) x)

theorem melAppend_clearRun (l : List Bool) (x : SegRegs × Memory) :
    melAppend l (clearRun x) = clearRun (melAppend l x) := by
  rw [clearRun, melAppend_setRun, clearRun, melAppend_melK]

section Flush

variable {s : State} {x : SegRegs × Memory}

/-- MELFLUSH once the run is sent. -/
theorem melPad_run (hfit : MelFits (melPadding x.1) x) (s : State) :
    (see (·.seg) >>= fun r => if r.ct < r.fullCt then melOnes r.ct.toNat else pure ()) (withCoder s (clearRun x)) =
      .ok () (withCoder s (clearRun (melAppend (melPadding x.1) x))) := by
  have hsend := melSend_withCoder s (melFits_setRun x.1.melK 0 hfit)
  rw [← clearRun, melAppend_clearRun] at hsend
  rw [see_bind, withCoder_seg]
  show (if x.1.ct < x.1.fullCt then melOnes x.1.ct.toNat else pure ()) _ = _
  unfold melPadding at hsend ⊢
  split
  · rename_i hct
    rwa [if_pos hct, ← melOnes_eq_melSend] at hsend
  · rfl

theorem melFlush_run (hfit : FlushFits (s.seg, s.mem)) :
    melFlush s = .ok () (withCoder s (melFlushed (s.seg, s.mem))) := by
  obtain ⟨hlast, hpad⟩ := hfit
  have hrest := melPad_run hpad s
  unfold melFlush
  rw [see_bind]
  dsimp only
  by_cases h0 : s.seg.melRun = 0
  · have hsent : withCoder s (clearRun (melAppend (melLast s.seg) (s.seg, s.mem))) = s := by
      rw [melLast, if_pos h0, clearRun, setRun, ← h0]
      rfl
    rw [if_pos h0]
    exact (congrArg _ hsent.symm).trans hrest
  · have hsent : melLast s.seg = [true] := if_neg h0
    have hbit : melBit true s = .ok () (withCoder s (melAppend (melLast s.seg) (s.seg, s.mem))) := by
      dsimp only at hlast
      rw [hsent] at hlast ⊢
      exact melBit_withCoder s hlast.1
    rw [if_neg h0, bind_of_ok hbit, updSeg_bind]
    exact hrest

theorem exec_melFlush (hmode : s.status.cmode = .mele) (hfit : FlushFits (s.seg, s.mem)) :
    exec .melFlush s = .next (State.complete { s with
      status := { s.status with cmode := .idle }
      out := { s.out with nbytes := (melFlushed (s.seg, s.mem)).1.bp }
      seg := (melFlushed (s.seg, s.mem)).1, mem := (melFlushed (s.seg, s.mem)).2 }) :=
  runCmd_termination hmode (melFlush_run hfit)

/-- After a byte-out there is no partial byte. -/
theorem melPadding_of_last (hct : x.1.ct = 1) (hroom : x.1.outOffset < Config.byteCap) (v : Bool) :
    melPadding (melPush v x).1 = [] := by
  have hbp := (melPush_adds_last hct hroom v).bp
  have hfull : (melPush v x).1.ct = (melPush v x).1.fullCt := by
    unfold SegRegs.fullCt
    rw [hbp, melPush_last hct]
    simp [freeAfter]
  rw [melPadding, hfull, if_neg (BitVec.lt_irrefl _)]

theorem melPadding_adds (hroom : x.1.outOffset + 1 ≤ Config.byteCap) :
    MelFits (melPadding x.1) x ∧ ∃ n ≤ 1, Adds n x (melAppend (melPadding x.1) x) := by
  refine melAppend_adds ⟨?_, hroom⟩
  unfold melPadding
  split
  · rw [List.length_replicate]
    bv_omega
  · exact Nat.zero_le _

/-- MELFLUSH emits at most one byte: with an incomplete run that fills the byte there is nothing to pad. -/
theorem melFlushed_adds (hroom : x.1.outOffset + 1 ≤ Config.byteCap) :
    FlushFits x ∧ ∃ n ≤ 1, ∃ y, Adds n x y ∧ melFlushed x = clearRun y := by
  unfold FlushFits melFlushed melLast
  by_cases h0 : x.1.melRun = 0
  · rw [if_pos h0]
    obtain ⟨hfits, n, hn, hadds⟩ := melPadding_adds hroom
    exact ⟨⟨trivial, hfits⟩, n, hn, _, hadds, rfl⟩
  · rw [if_neg h0]
    show (MelFits [true] x ∧ MelFits (melPadding (melPush true x).1) (melPush true x)) ∧
      ∃ n ≤ 1, ∃ y, Adds n x y ∧ clearRun (melAppend (melPadding (melPush true x).1) (melPush true x)) = clearRun y
    by_cases hct : x.1.ct = 1
    · rw [melPadding_of_last hct hroom]
      exact ⟨⟨⟨fun _ => hroom, trivial⟩, trivial⟩, 1, Nat.le_refl 1, _, melPush_adds_last hct hroom true, rfl⟩
    · have hbit := melPush_adds_inside hct true
      obtain ⟨hfits, n, hn, hadds⟩ := melPadding_adds (x := melPush true x) (by rw [hbit.outOffset]; exact hroom)
      exact ⟨⟨⟨fun h1 => absurd h1 hct, trivial⟩, hfits⟩, 0 + n, by omega, _, hbit.trans hadds, rfl⟩

theorem Adds.clearRun_regs {n : Nat} {y : SegRegs × Memory} (h : Adds n x y) : (clearRun y).1 = { x.1 with
    c := (clearRun y).1.c, ct := (clearRun y).1.ct, b := (clearRun y).1.b, bp := (clearRun y).1.bp, melRun := 0 } := by
  have hk : y.1.melK = x.1.melK := by rw [h.regs]
  rw [clearRun, h.setRun_regs, hk]

theorem melAppend_padding (x : SegRegs × Memory) : melAppend (melPadding x.1) x =
    if x.1.ct < (if 1 ≤ x.1.bp.toNat ∧ x.1.b = 0xFF then 7 else 8) then melAppend (List.replicate x.1.ct.toNat true) x
    else x := by
  unfold melPadding
  rw [apply_ite (melAppend · x)]
  rfl

/-- MELFLUSH written out (R284): a partial byte is one with fewer free positions than an empty one. -/
theorem melFlushed_eq (r : SegRegs) (m : Memory) :
    let x := melAppend (if r.melRun = 0 then [] else [true]) (r, m)
    let full : BitVec 4 := if 1 ≤ x.1.bp.toNat ∧ x.1.b = 0xFF then 7 else 8
    let y := if x.1.ct < full then melAppend (List.replicate x.1.ct.toNat true) x else x
    (melFlushed (r, m)).1 = { y.1 with melRun := 0 } ∧ (melFlushed (r, m)).2 = y.2 := by
  intro x full y
  have hy : melFlushed (r, m) = clearRun y := congrArg clearRun (melAppend_padding x)
  clear_value y
  rw [hy]
  exact ⟨rfl, rfl⟩

end Flush

/-- MEL.INITENC leaves nothing for MEL.FLUSH to send (R310, R312). -/
theorem melInitenc_melFlush (s : State) :
    ∃ t, execAll [.melInitenc, .melFlush] s = .next t ∧ t.out.nbytes = 0 ∧ t.mem = s.mem := by
  obtain ⟨-, -, hinit⟩ := encoderInitialisation s
  exact ⟨_, execAll_pair hinit (exec_melFlush rfl ⟨trivial, trivial⟩), rfl, rfl⟩

end Sys2Proof.Proofs
end

section
/-!
PROOFS. The MEL stream (O41): the bytes of a bit sequence, what the encoder keeps while it codes a symbol sequence, and the
segment MEL.FLUSH leaves.
-/
namespace Sys2Proof.Proofs

open Sys2Proof.Machine Sys2Proof.Laws

/-! ### The bytes of a bit sequence (45_ht_block_coder.md R284) -/

theorem melFree_eq (b : Byte) : melFree b = (freeAfter b).toNat := by
  rw [melFree, freeAfter_toNat]

/-- A partial byte is padded with bits 1. -/
theorem melPack_padding {c full ct : Nat} (hpos : 0 < ct) (hct : ct < full) :
    melPack (List.replicate ct true) c full ct = melPack [] c full ct := by
  induction ct generalizing c with
  | zero => omega
  | succ n ih =>
    rw [melPack, if_pos hct, List.replicate_succ, melPack]
    rcases Nat.eq_zero_or_pos n with rfl | hn
    · simp [melPack, Nat.mul_comm]
    · have hbits : 2 ^ (n + 1) = 2 * 2 ^ n := Nat.pow_succ'
      have hval : (2 * c + true.toNat) * 2 ^ n + (2 ^ n - 1) = c * 2 ^ (n + 1) + (2 ^ (n + 1) - 1) := by
        have := Nat.two_pow_pos n
        rw [hbits, Bool.toNat_true, Nat.add_mul, Nat.mul_comm 2 c, Nat.mul_assoc, Nat.one_mul]
        omega
      rw [if_neg (by omega), Nat.add_sub_cancel, ih hn (by omega), melPack, if_pos (by omega), hval]

/-- The assembly register holds k bits of the open byte and the rest of its positions is free. -/
structure MelOpen (r : SegRegs) (k : Nat) : Prop where
  free_pos : 0 < r.ct.toNat
  free : r.ct.toNat + k = (freeAfter r.b).toNat
  lt : r.c.toNat < 2 ^ k

theorem melOpen_empty {r : SegRegs} (hct : r.ct = freeAfter r.b) (hc : r.c = 0) : MelOpen r 0 where
  free_pos := hct ▸ freeAfter_pos r.b
  free := by rw [hct, Nat.add_zero]
  lt := by
    rw [hc]
    exact Nat.one_pos

theorem zextBit_toNat (v : Bool) : (zextBit v).toNat = v.toNat := by cases v <;> rfl

section Open

variable {r : SegRegs} {k : Nat}

/-- The bits with one more at their end. -/
theorem MelOpen.with_toNat (h : MelOpen r k) (v : Bool) :
    (melWith r v).toNat = 2 * r.c.toNat + v.toNat ∧ 2 * r.c.toNat + v.toNat < 2 ^ (k + 1) ∧ k < 8 := by
  obtain ⟨hpos, hfree, hlt⟩ := h
  have hk : k < 8 := by
    rw [freeAfter_toNat] at hfree
    split at hfree <;> omega
  have hv := Bool.toNat_le v
  have hmax : 2 ^ (k + 1) ≤ 2 ^ 8 := Nat.pow_le_pow_right Nat.two_pos hk
  have hval := zextBit_toNat v
  have hbits : 2 ^ (k + 1) = 2 * 2 ^ k := Nat.pow_succ'
  refine ⟨?_, by omega, hk⟩
  unfold melWith
  bv_omega

/-- The byte the bits are, once it is complete. -/
theorem MelOpen.extract (h : MelOpen r k) (v : Bool) :
    (melWith r v).extractLsb' 0 8 = BitVec.ofNat 8 (2 * r.c.toNat + v.toNat) := by
  obtain ⟨hval, -, -⟩ := h.with_toNat v
  apply BitVec.eq_of_toNat_eq
  rw [BitVec.extractLsb'_toNat, hval, Nat.shiftRight_zero, BitVec.toNat_ofNat]

end Open

/-! ### The stream in memory -/

/-- The encoder has emitted the first bytes of w, and the bits l still to come give the others. -/
def MelToCome (base : Word) (w : List Byte) (l : List Bool) (x : SegRegs × Memory) : Prop :=
  ∃ vs k, Emitted base x.1 x.2 vs ∧ MelOpen x.1 k ∧
    vs ++ melPack l x.1.c.toNat (freeAfter x.1.b).toNat x.1.ct.toNat = w

section Stream

variable {base : Word} {w : List Byte} {x : SegRegs × Memory}

/-- MELBIT sends the first of them; the byte it may complete is one of w. -/
theorem MelToCome.push {v : Bool} {l : List Bool} (h : MelToCome base w (v :: l) x)
    (hfit : base.toNat + w.length ≤ Config.byteCap) :
    (x.1.ct = 1 → x.1.outOffset < Config.byteCap) ∧ MelToCome base w l (melPush v x) := by
  obtain ⟨vs, k, hem, hopen, hw⟩ := h
  obtain ⟨hval, hlt, hk⟩ := hopen.with_toNat v
  have hfree := hopen.free
  have hpos := hopen.free_pos
  by_cases hct : x.1.ct = 1
  · have hct' : x.1.ct.toNat = 1 := by rw [hct]; rfl
    rw [melPack, if_pos hct', ← hopen.extract v] at hw
    dsimp only at hw
    have hroom : x.1.outOffset < Config.byteCap := by
      rw [← hw, List.length_append, List.length_cons] at hfit
      rw [hem.outOffset]
      omega
    have hbyte : ((melWith x.1 v).extractLsb' 0 8).toNat < 2 ^ (freeAfter x.1.b).toNat := by
      rw [← hfree, hct', Nat.add_comm, hopen.extract, BitVec.toNat_ofNat]
      exact Nat.lt_of_le_of_lt (Nat.mod_le _ _) hlt
    refine ⟨fun _ => hroom, vs ++ [(melWith x.1 v).extractLsb' 0 8], 0, ?_⟩
    rw [melPush_last hct]
    refine ⟨hem.snoc hroom (stuffed_of_lt hbyte) rfl rfl rfl, melOpen_empty rfl rfl, ?_⟩
    rw [← hw, List.append_assoc, melFree_eq]
    rfl
  · have hct' : x.1.ct.toNat ≠ 1 := fun h1 => hct (BitVec.eq_of_toNat_eq h1)
    have hnext : (x.1.ct - 1).toNat = x.1.ct.toNat - 1 := by bv_omega
    refine ⟨fun h1 => absurd h1 hct, vs, k + 1, ?_⟩
    rw [melPush_inside hct]
    refine ⟨hem.congr rfl rfl rfl, ⟨?_, ?_, ?_⟩, ?_⟩
    · show 0 < (x.1.ct - 1).toNat
      omega
    · show (x.1.ct - 1).toNat + (k + 1) = (freeAfter x.1.b).toNat
      omega
    · show (melWith x.1 v).toNat < _
      rwa [hval]
    · rw [melPack, if_neg hct'] at hw
      rw [← hw, ← hval, ← hnext]

theorem MelToCome.append {l l' : List Bool} (h : MelToCome base w (l ++ l') x)
    (hfit : base.toNat + w.length ≤ Config.byteCap) : MelFits l x ∧ MelToCome base w l' (melAppend l x) := by
  induction l generalizing x with
  | nil => exact ⟨trivial, h⟩
  | cons v l ih =>
    obtain ⟨hroom, hrest⟩ := h.push hfit
    obtain ⟨hfits, hend⟩ := ih hrest
    rw [melAppend_cons]
    exact ⟨⟨hroom, hfits⟩, hend⟩

theorem MelToCome.setRun {l : List Bool} (h : MelToCome base w l x) (k : Fin 13) (run : BitVec 16) :
    MelToCome base w l (setRun k run x) := by
  obtain ⟨vs, n, hem, hopen, hw⟩ := h
  exact ⟨vs, n, hem.congr rfl rfl rfl, ⟨hopen.free_pos, hopen.free, hopen.lt⟩, hw⟩

/-- The positions of the open byte, as MELFLUSH and as the stream count them. -/
theorem MelToCome.fullCt {l : List Bool} (h : MelToCome base w l x) : x.1.fullCt = freeAfter x.1.b := by
  obtain ⟨vs, -, hem, -⟩ := h
  apply BitVec.eq_of_toNat_eq
  rw [fullCt_toNat, hem.full]

/-- With no bit left to come the padding gives the rest of w. -/
theorem MelToCome.padding (h : MelToCome base w [] x) : MelToCome base w (melPadding x.1) x := by
  have hfull := h.fullCt
  obtain ⟨vs, k, hem, hopen, hw⟩ := h
  refine ⟨vs, k, hem, hopen, ?_⟩
  rw [melPadding, hfull]
  split
  · rename_i hct
    rw [melPack_padding hopen.free_pos (BitVec.lt_def.1 hct), hw]
  · exact hw

theorem MelToCome.complete (h : MelToCome base w [] x) (hpad : melPadding x.1 = []) : Emitted base x.1 x.2 w := by
  have hfull := h.fullCt
  obtain ⟨vs, k, hem, hopen, rfl⟩ := h
  have hct : ¬ x.1.ct.toNat < (freeAfter x.1.b).toNat := by
    intro hlt
    rw [melPadding, hfull, if_pos (BitVec.lt_def.2 hlt), List.replicate_eq_nil_iff] at hpad
    exact absurd hopen.free_pos (by omega)
  rwa [melPack, if_neg hct, List.append_nil]

/-- As many bits as there are free positions complete the byte. -/
theorem melPadding_after {n : Nat} (h : MelToCome base w (List.replicate (n + 1) true) x) (hct : x.1.ct.toNat = n + 1)
    (hfit : base.toNat + w.length ≤ Config.byteCap) :
    melPadding (melAppend (List.replicate (n + 1) true) x).1 = [] := by
  induction n generalizing x with
  | zero =>
    have hct' : x.1.ct = 1 := BitVec.eq_of_toNat_eq hct
    exact melPadding_of_last hct' ((h.push hfit).1 hct') true
  | succ n ih =>
    have hct' : x.1.ct ≠ 1 := by
      intro h1
      rw [h1] at hct
      simp at hct
    rw [List.replicate_succ, melAppend_cons]
    refine ih (h.push hfit).2 ?_
    rw [melPush_inside hct']
    show (x.1.ct - 1).toNat = n + 1
    bv_omega

theorem MelToCome.padded (h : MelToCome base w [] x) (hfit : base.toNat + w.length ≤ Config.byteCap) :
    MelFits (melPadding x.1) x ∧
      Emitted base (melAppend (melPadding x.1) x).1 (melAppend (melPadding x.1) x).2 w := by
  have hpad : MelToCome base w (melPadding x.1 ++ []) x := by
    rw [List.append_nil]
    exact h.padding
  obtain ⟨hfits, hend⟩ := hpad.append hfit
  refine ⟨hfits, hend.complete ?_⟩
  by_cases hct : x.1.ct < x.1.fullCt
  · obtain ⟨_, _, _, hopen, _⟩ := h
    obtain ⟨n, hn⟩ := Nat.exists_eq_succ_of_ne_zero (Nat.ne_of_gt hopen.free_pos)
    have hbits : melPadding x.1 = List.replicate (n + 1) true := by rw [melPadding, if_pos hct, hn]
    rw [hbits, List.append_nil] at hpad
    rw [hbits]
    exact melPadding_after hpad hn hfit
  · have hnone : melPadding x.1 = [] := if_neg hct
    rw [hnone]
    exact hnone

theorem Emitted.clearRun (h : Emitted base x.1 x.2 w) : Emitted base (clearRun x).1 (clearRun x).2 w := h.congr rfl rfl rfl

/-- MELFLUSH leaves exactly w. -/
theorem MelToCome.flush (h : MelToCome base w (melLast x.1) x) (hfit : base.toNat + w.length ≤ Config.byteCap) :
    FlushFits x ∧ Emitted base (melFlushed x).1 (melFlushed x).2 w := by
  rw [← List.append_nil (melLast x.1)] at h
  obtain ⟨hlast, hend⟩ := h.append hfit
  obtain ⟨hpad, hem⟩ := hend.padded hfit
  exact ⟨⟨hlast, hpad⟩, hem.clearRun⟩

end Stream

/-! ### A symbol sequence (45_ht_block_coder.md R284) -/

theorem melNextRun_lt {k : Fin 13} {run : Nat} (h : run < melT k) (d : Bool) :
    melNextRun k run d < melT (melNextK k run d) := by
  unfold melNextRun melNextK
  cases d with
  | true => exact melT_pos _
  | false =>
    by_cases hhit : run + 1 = melT k
    · rw [melHit_zero, decide_eq_true hhit]
      exact melT_pos _
    · rw [melHit_zero, decide_eq_false hhit]
      show run + 1 < melT k
      omega

/-- The encoder has the symbols syms still to code, whose bits give the rest of the segment w at base; e is the error flag it
leaves alone. -/
structure MelCoding (base : Word) (e : Option ErrCode) (w : List Byte) (syms : List Bool) (s : State) : Prop where
  mode : s.status.cmode = .mele
  err : s.status.err = e
  run_lt : s.seg.melRun.toNat < melT s.seg.melK
  toCome : MelToCome base w (melSequence syms s.seg.melK s.seg.melRun.toNat) (s.seg, s.mem)

section Coding

variable {base : Word} {e : Option ErrCode} {w : List Byte} {s : State}

theorem melPut_coding {d : Bool} {syms : List Bool} (h : MelCoding base e w (d :: syms) s)
    (hfit : base.toNat + w.length ≤ Config.byteCap) :
    ∃ t, exec (.melPut d) s = .next t ∧ MelCoding base e w syms t := by
  obtain ⟨hfits, hrest⟩ := h.toCome.append hfit
  have hlt := melNextRun_lt h.run_lt d
  have hle := melT_le (melNextK s.seg.melK s.seg.melRun.toNat d)
  have hrun : (BitVec.ofNat 16 (melNextRun s.seg.melK s.seg.melRun.toNat d)).toNat =
      melNextRun s.seg.melK s.seg.melRun.toNat d := by
    rw [BitVec.toNat_ofNat]
    exact Nat.mod_eq_of_lt (by omega)
  refine ⟨_, exec_melPut h.mode hfits, h.mode, h.err, ?_, ?_⟩
  · exact hrun.trans_lt hlt
  · rw [← hrun] at hrest
    exact hrest.setRun _ _

theorem melPuts_coding (syms : List Bool) {s : State} (h : MelCoding base e w syms s)
    (hfit : base.toNat + w.length ≤ Config.byteCap) :
    ∃ t, execAll (syms.map .melPut) s = .next t ∧ MelCoding base e w [] t := by
  induction syms generalizing s with
  | nil => exact ⟨s, rfl, h⟩
  | cons d syms ih =>
    obtain ⟨t, hrun, ht⟩ := melPut_coding h hfit
    obtain ⟨u, hruns, hu⟩ := ih ht
    exact ⟨u, by simp only [List.map_cons, execAll, hrun, hruns], hu⟩

theorem melSequence_nil (r : SegRegs) : melSequence [] r.melK r.melRun.toNat = melLast r := by
  have h0 : r.melRun.toNat = 0 ↔ r.melRun = 0 := ⟨fun h => BitVec.eq_of_toNat_eq h, fun h => by rw [h]; rfl⟩
  simp only [melSequence, melLast, h0]

theorem melFlush_coding (h : MelCoding base e w [] s) (hfit : base.toNat + w.length ≤ Config.byteCap) :
    ∃ t, exec .melFlush s = .next t ∧ t.status.err = e ∧ Emitted base t.seg t.mem w ∧ t.out.nbytes = t.seg.bp := by
  have hlast := h.toCome
  rw [melSequence_nil] at hlast
  obtain ⟨hfits, hem⟩ := hlast.flush hfit
  have hrun := exec_melFlush h.mode hfits
  generalize melFlushed (s.seg, s.mem) = y at hrun hem
  exact ⟨_, hrun, h.err, hem, rfl⟩

/-- MEL.INITENC has every symbol still to code (R310). -/
theorem melInitenc_coding (syms : List Bool) (s : State) :
    ∃ t, exec .melInitenc s = .next t ∧ MelCoding s.cfg.segbase s.status.err (melStream syms) syms t := by
  obtain ⟨-, -, hinit⟩ := encoderInitialisation s
  refine ⟨_, hinit, rfl, rfl, melT_pos 0, [], 0, ⟨rfl, rfl, rfl, .singleton 0, fun j hj => absurd hj (Nat.not_lt_zero j)⟩,
    melOpen_empty rfl rfl, rfl⟩

end Coding

/-- MEL.INITENC, MEL.PUT of each symbol and MEL.FLUSH write the stream of the symbols (R284, R310 to R312). -/
theorem melStream_written (syms : List Bool) (s : State)
    (hfit : s.cfg.segbase.toNat + (melStream syms).length ≤ Config.byteCap) :
    ∃ t, execAll (.melInitenc :: syms.map .melPut ++ [.melFlush]) s = .next t ∧ t.status.err = s.status.err ∧
      t.out.nbytes = BitVec.ofNat 32 (melStream syms).length ∧
      ∀ j < (melStream syms).length, t.mem.getByte (byteAddr (s.cfg.segbase.toNat + j)) = (melStream syms)[j]? := by
  obtain ⟨s₀, hinit, h₀⟩ := melInitenc_coding syms s
  obtain ⟨s₁, hput, h₁⟩ := melPuts_coding syms h₀ hfit
  obtain ⟨t, hflush, herr, hem, hn⟩ := melFlush_coding h₁ hfit
  have hcoded : execAll (.melInitenc :: syms.map .melPut) s = .next s₁ := by
    simp only [execAll, hinit, hput]
  refine ⟨t, ?_, herr, ?_, fun j hj => ?_⟩
  · rw [execAll_append _ _ hcoded]
    simp only [execAll, hflush]
  · rw [hn, ← hem.bp, BitVec.ofNat_toNat, BitVec.setWidth_eq]
  · rw [hem.holds j hj, List.getElem?_eq_getElem hj]

/-- Settles O41: MELFLUSH sends an incomplete run and pads, which emit at most one byte; the bytes of a symbol sequence are those
of its bits. -/
theorem melFlushCompletes : Obligations.MelFlushCompletes := by
  refine ⟨fun s hmode hroom => ?_, melInitenc_melFlush, melStream_written⟩
  obtain ⟨hfits, n, hn, y, hadds, heq⟩ := melFlushed_adds (x := (s.seg, s.mem)) hroom
  have hrun := exec_melFlush hmode hfits
  have hexact := melFlushed_eq s.seg s.mem
  have hbp : (clearRun y).1.bp.toNat = s.seg.bp.toNat + n := hadds.bp
  rw [heq] at hrun hexact
  exact ⟨_, _, hrun, hadds.clearRun_regs, hexact, by omega, by omega, hadds.outside⟩

end Sys2Proof.Proofs
end

section
/-!
PROOFS. The MEL round trip (O42): the bits `melPack` puts into bytes, the bits a reader has ahead of it, and the symbols it makes of
a hit and of a run length.
-/
namespace Sys2Proof.Proofs

open Sys2Proof.Machine Sys2Proof.Laws

/-! ### The bits of the stream (45_ht_block_coder.md R284, R285) -/

theorem toNat_ofNat_of_lt_freeAfter {b : Byte} {n : Nat} (h : n < 2 ^ (freeAfter b).toNat) : (BitVec.ofNat 8 n).toNat = n := by
  rw [BitVec.toNat_ofNat]
  exact Nat.mod_eq_of_lt (toNat_lt_of_freeAfter h)

/-- The bytes of `melPack` hold the bits it is given, after the k bits of the open byte. -/
theorem bits_prefix_melPack (l : List Bool) {b : Byte} {c ct k : Nat} (hpos : 0 < ct) (hfree : ct + k = (freeAfter b).toNat)
    (hc : c < 2 ^ k) : msbBits c k ++ l <+: segmentBits b (melPack l c (freeAfter b).toNat ct) := by
  induction l generalizing b c ct k with
  | nil =>
    rw [List.append_nil, melPack]
    split
    · have hmax := Nat.two_pow_pos ct
      have hlt : 2 ^ ct * c + (2 ^ ct - 1) < 2 ^ (freeAfter b).toNat := by
        rw [← hfree, Nat.pow_add]
        calc 2 ^ ct * c + (2 ^ ct - 1) < 2 ^ ct * (c + 1) := by rw [Nat.mul_succ]; omega
          _ ≤ 2 ^ ct * 2 ^ k := Nat.mul_le_mul_left _ hc
      rw [Nat.mul_comm c, segmentBits, toNat_ofNat_of_lt_freeAfter hlt, ← hfree, Nat.add_comm ct k,
        msbBits_append c (by omega), List.append_assoc]
      exact List.prefix_append _ _
    · obtain rfl : k = 0 := by omega
      exact List.nil_prefix
  | cons v l ih =>
    have hv := Bool.toNat_le v
    have hlt : 2 * c + v.toNat < 2 ^ (k + 1) := by
      rw [Nat.pow_succ]
      omega
    have hbits : msbBits c k ++ v :: l = msbBits (2 * c + v.toNat) (k + 1) ++ l := by
      rw [msbBits_snoc, List.append_assoc, List.singleton_append]
    rw [hbits, melPack]
    split
    · rename_i hct
      have hfull : k + 1 = (freeAfter b).toNat := by omega
      have hbyte := toNat_ofNat_of_lt_freeAfter (hfull ▸ hlt)
      dsimp only
      rw [segmentBits, hbyte, melFree_eq, ← hfull]
      exact (List.prefix_append_right_inj _).2 (ih (k := 0) (freeAfter_pos _) rfl Nat.one_pos)
    · exact ih (by omega) (by omega) hlt

/-- The reader has these bits ahead of it: first what is left of its byte, then those of the bytes to come. -/
def HasBits (l : List Bool) (r : MelReader) : Prop := l <+: msbBits r.c.toNat r.ct ++ segmentBits r.c r.bytes

section Reader

variable {r : MelReader} {l : List Bool} {v : Bool}

theorem hasBits_melStream (syms : List Bool) : HasBits (melSequence syms 0 0) ⟨melStream syms, 0, 0, 0, 0, false⟩ :=
  bits_prefix_melPack (b := 0) (k := 0) _ (freeAfter_pos 0) rfl Nat.one_pos

/-! ### MELGETBIT (45_ht_block_coder.md R287) -/

/-- The reader once it has taken its next byte. -/
def readerByteIn (r : MelReader) : MelReader :=
  { r with c := r.bytes.headD 0xFF, bytes := r.bytes.tail, ct := melFree r.c }

theorem readerBit_inside (hct : r.ct ≠ 0) : r.bit = (r.c.getLsbD (r.ct - 1), { r with ct := r.ct - 1 }) := by
  simp only [MelReader.bit, if_neg hct]

theorem readerByteIn_ct (r : MelReader) : (readerByteIn r).ct ≠ 0 := by
  show melFree r.c ≠ 0
  rw [melFree_eq]
  exact Nat.ne_of_gt (freeAfter_pos _)

theorem readerBit_byteIn (hct : r.ct = 0) : r.bit = (readerByteIn r).bit := by
  rw [readerBit_inside (readerByteIn_ct r)]
  simp only [MelReader.bit, if_pos hct]
  rfl

theorem HasBits.byteIn (h : HasBits (v :: l) r) (hct : r.ct = 0) : HasBits (v :: l) (readerByteIn r) := by
  unfold HasBits at *
  rw [hct, msbBits, List.nil_append] at h
  obtain ⟨bytes, c, ct, k, run, one⟩ := r
  cases bytes with
  | nil => exact absurd (List.prefix_nil.1 h) (List.cons_ne_nil v l)
  | cons w ws =>
    show v :: l <+: msbBits w.toNat (melFree c) ++ segmentBits w ws
    rwa [melFree_eq]

theorem HasBits.bit_inside (h : HasBits (v :: l) r) (hct : r.ct ≠ 0) : r.bit.1 = v ∧ HasBits l r.bit.2 := by
  obtain ⟨n, hn⟩ := Nat.exists_eq_succ_of_ne_zero hct
  unfold HasBits at *
  rw [hn, msbBits, List.cons_append, List.cons_prefix_cons] at h
  obtain ⟨rfl, hrest⟩ := h
  rw [readerBit_inside hct, hn]
  exact ⟨rfl, hrest⟩

theorem HasBits.bit (h : HasBits (v :: l) r) : r.bit.1 = v ∧ HasBits l r.bit.2 := by
  by_cases hct : r.ct = 0
  · rw [readerBit_byteIn hct]
    exact (h.byteIn hct).bit_inside (readerByteIn_ct r)
  · exact h.bit_inside hct

/-- Bits do not touch the state index and the run. -/
theorem readerBit_frame (r : MelReader) : r.bit.2.k = r.k ∧ r.bit.2.run = r.run ∧ r.bit.2.one = r.one := by
  by_cases hct : r.ct = 0
  · rw [readerBit_byteIn hct, readerBit_inside (readerByteIn_ct r)]
    exact ⟨rfl, rfl, rfl⟩
  · rw [readerBit_inside hct]
    exact ⟨rfl, rfl, rfl⟩

theorem readerBits_frame (n a : Nat) (r : MelReader) :
    (r.bits n a).2.k = r.k ∧ (r.bits n a).2.run = r.run ∧ (r.bits n a).2.one = r.one := by
  induction n generalizing a r with
  | zero => exact ⟨rfl, rfl, rfl⟩
  | succ n ih =>
    obtain ⟨hk, hrun, hone⟩ := readerBit_frame r
    obtain ⟨hk', hrun', hone'⟩ := ih (2 * a + r.bit.1.toNat) r.bit.2
    exact ⟨hk'.trans hk, hrun'.trans hrun, hone'.trans hone⟩

/-- The next n bits are read as a number, after the number a. -/
theorem HasBits.bits {z n : Nat} (h : HasBits (msbBits z n ++ l) r) (a : Nat) :
    (r.bits n a).1 = 2 ^ n * a + z % 2 ^ n ∧ HasBits l (r.bits n a).2 := by
  induction n generalizing a r with
  | zero => exact ⟨by simp [MelReader.bits, Nat.mod_one], h⟩
  | succ n ih =>
    obtain ⟨hbit, hrest⟩ := h.bit
    obtain ⟨hval, hend⟩ := ih hrest (2 * a + r.bit.1.toNat)
    refine ⟨?_, hend⟩
    rw [MelReader.bits, hval, hbit, Nat.mod_pow_succ, ← Nat.toNat_testBit, Nat.pow_succ]
    ring

/-! ### MELGET (45_ht_block_coder.md R287) -/

/-- The first zeros of a run. -/
theorem symbols_zeros {m : Nat} (n : Nat) (h : m ≤ r.run) :
    MelReader.symbols (m + n) r = List.replicate m false ++ MelReader.symbols n { r with run := r.run - m } := by
  induction m generalizing r with
  | zero => rw [Nat.zero_add]; rfl
  | succ m ih =>
    have hrun : r.run ≠ 0 := by omega
    have hsym : r.symbol = (false, { r with run := r.run - 1 }) := if_pos hrun
    rw [Nat.add_right_comm, MelReader.symbols, hsym, List.replicate_succ, List.cons_append,
      ih (r := { r with run := r.run - 1 }) (by show m ≤ r.run - 1; omega)]
    dsimp only
    rw [Nat.sub_sub, Nat.add_comm 1 m]

/-- No symbol of an earlier run is left, and these bits are ahead. -/
structure ReadsNext (k : Fin 13) (l : List Bool) (r : MelReader) : Prop where
  k : r.k = k
  run : r.run = 0
  one : r.one = false
  bits : HasBits l r

variable {k : Fin 13} {z : Nat}

/-- A hit gives a run of T(k) zeros. -/
theorem symbols_hit (h : ReadsNext k (true :: l) r) (hz : z + 1 ≤ melT k) (n : Nat) :
    ∃ r', MelReader.symbols (z + 1 + n) r = List.replicate (z + 1) false ++ MelReader.symbols n r' ∧
      (z + 1 = melT k → ReadsNext (melUp k) l r') := by
  obtain ⟨rfl, hrun, hone, hbits⟩ := h
  obtain ⟨hbit, hrest⟩ := hbits.bit
  obtain ⟨-, -, hone'⟩ := readerBit_frame r
  have hsym : r.symbol = (false, { r.bit.2 with run := melT r.k - 1, k := melUp r.k }) := by
    simp [MelReader.symbol, hrun, hone, hbit]
  refine ⟨{ r.bit.2 with run := melT r.k - 1 - z, k := melUp r.k }, ?_, fun hall => ⟨rfl, ?_, hone'.trans hone, hrest⟩⟩
  · rw [Nat.add_right_comm, MelReader.symbols, hsym, List.replicate_succ, List.cons_append,
      symbols_zeros n (by show z ≤ melT r.k - 1; omega)]
  · show melT r.k - 1 - z = 0
    omega

/-- A run length z gives z zeros and a 1. -/
theorem symbols_miss (h : ReadsNext k (false :: (msbBits z (melE k) ++ l)) r) (hz : z < melT k) (n : Nat) :
    ∃ r', MelReader.symbols (z + 1 + n) r = List.replicate z false ++ true :: MelReader.symbols n r' ∧
      ReadsNext (melDown k) l r' := by
  obtain ⟨rfl, hrun, hone, hbits⟩ := h
  obtain ⟨hbit, hrest⟩ := hbits.bit
  obtain ⟨hval, hend⟩ := hrest.bits 0
  have hmod : z % 2 ^ melE r.k = z := Nat.mod_eq_of_lt hz
  rw [Nat.mul_zero, Nat.zero_add, hmod] at hval
  obtain ⟨-, hrun', hone'⟩ := readerBit_frame r
  obtain ⟨-, hrun'', hone''⟩ := readerBits_frame (melE r.k) 0 r.bit.2
  refine ⟨{ (r.bit.2.bits (melE r.k) 0).2 with k := melDown r.k }, ?_,
    rfl, hrun''.trans (hrun'.trans hrun), hone''.trans (hone'.trans hone), hend⟩
  rcases Nat.eq_zero_or_pos z with rfl | hpos
  · have hsym : r.symbol = (true, { (r.bit.2.bits (melE r.k) 0).2 with k := melDown r.k }) := by
      simp [MelReader.symbol, hrun, hone, hbit, hval]
    rw [Nat.zero_add, Nat.add_comm, MelReader.symbols, hsym]
    rfl
  · obtain ⟨m, rfl⟩ := Nat.exists_eq_succ_of_ne_zero (Nat.ne_of_gt hpos)
    have hsym : r.symbol = (false, { (r.bit.2.bits (melE r.k) 0).2 with k := melDown r.k, run := m, one := true }) := by
      simp [MelReader.symbol, hrun, hone, hbit, hval]
    have hcount : m.succ + 1 + n = m + (n + 1) + 1 := by omega
    rw [hcount, MelReader.symbols, hsym, symbols_zeros (n + 1) (Nat.le_refl m), List.replicate_succ, List.cons_append,
      MelReader.symbols]
    simp [MelReader.symbol, hrun'', hrun', hrun, hone'', hone', hone]

end Reader

/-! ### A symbol sequence (45_ht_block_coder.md R284, R287) -/

section Sequence

variable (l : List Bool) {k : Fin 13} {z : Nat}

theorem melSequence_one : melSequence (true :: l) k z = false :: (msbBits z (melE k) ++ melSequence l (melDown k) 0) := by
  rw [← machine_msbBits_eq]
  rfl

theorem melSequence_hit (h : z + 1 = melT k) : melSequence (false :: l) k z = true :: melSequence l (melUp k) 0 := by
  have hhit := (melHit_zero k z).trans (decide_eq_true h)
  simp [melSequence, melBits, melNextK, melNextRun, hhit]

theorem melSequence_zero (h : z + 1 ≠ melT k) : melSequence (false :: l) k z = melSequence l k (z + 1) := by
  have hhit := (melHit_zero k z).trans (decide_eq_false h)
  simp [melSequence, melBits, melNextK, melNextRun, hhit]

end Sequence

/-- From an encoder with a run of z zeros on: the reader returns those zeros and the symbols coded after them. -/
theorem symbols_melSequence (syms : List Bool) {k : Fin 13} {z : Nat} {r : MelReader}
    (h : ReadsNext k (melSequence syms k z) r) (hz : z < melT k) :
    MelReader.symbols (z + syms.length) r = List.replicate z false ++ syms := by
  induction syms generalizing k z r with
  | nil =>
    rcases Nat.eq_zero_or_pos z with rfl | hpos
    · rfl
    · obtain ⟨m, rfl⟩ := Nat.exists_eq_succ_of_ne_zero (Nat.ne_of_gt hpos)
      obtain ⟨r', hsym, -⟩ := symbols_hit h (Nat.le_of_lt hz) 0
      exact hsym
  | cons d syms ih =>
    have hcount : z + (d :: syms).length = z + 1 + syms.length := by
      rw [List.length_cons]
      omega
    have hempty {k' : Fin 13} {r' : MelReader} (h' : ReadsNext k' (melSequence syms k' 0) r') :
        MelReader.symbols syms.length r' = syms := by
      have hrest := ih h' (melT_pos k')
      rwa [Nat.zero_add] at hrest
    rw [hcount]
    cases d with
    | true =>
      rw [melSequence_one] at h
      obtain ⟨r', hsym, h'⟩ := symbols_miss h hz syms.length
      rw [hsym, hempty h']
    | false =>
      by_cases hhit : z + 1 = melT k
      · rw [melSequence_hit _ hhit] at h
        obtain ⟨r', hsym, h'⟩ := symbols_hit h (Nat.le_of_eq hhit) syms.length
        rw [hsym, hempty (h' hhit), List.replicate_succ', List.append_assoc, List.singleton_append]
      · rw [melSequence_zero _ hhit] at h
        rw [ih h (by omega), List.replicate_succ', List.append_assoc, List.singleton_append]

/-- The MEL round trip (R288). -/
theorem melSymbols_melStream (syms : List Bool) : melSymbols syms.length (melStream syms) = syms := by
  have h := symbols_melSequence syms (k := 0) (z := 0) ⟨rfl, rfl, rfl, hasBits_melStream syms⟩ (melT_pos 0)
  rwa [Nat.zero_add] at h

end Sys2Proof.Proofs
end

section
/-!
PROOFS. MEL.GET (O42): MELGETBIT and MELGET as functions of the registers and memory, exactly.
-/
namespace Sys2Proof.Proofs

open Sys2Proof.Machine Sys2Proof.Laws

/-! ### MELGETBIT (45_ht_block_coder.md R287) -/

/-- The registers once the next byte is taken. -/
def melNextByte (m : Memory) (r : SegRegs) : SegRegs :=
  { r with
    c := (fillByte m r.start.toNat r.stop.toNat r.bp.toNat).zeroExtend 32
    ct := freeAfter (r.c.extractLsb' 0 8)
    bp := r.bp + 1
    fillcnt := fillAfter r.fillcnt (decide (r.stop.toNat ≤ r.start.toNat + r.bp.toNat)) }

/-- The registers a MEL decoder changes to read bits. -/
def TakesOnly (r r' : SegRegs) : Prop := r' = { r with c := r'.c, ct := r'.ct, bp := r'.bp, fillcnt := r'.fillcnt }

theorem TakesOnly.trans {r r' r'' : SegRegs} (h : TakesOnly r r') (h' : TakesOnly r' r'') : TakesOnly r r'' := by
  unfold TakesOnly at *
  rw [h] at h'
  exact h'

theorem segmentWritten_of_takesOnly {s : State} (h : SegmentWritten s) {r : SegRegs} (hr : TakesOnly s.seg r) :
    SegmentWritten { s with seg := r } := by
  unfold TakesOnly at hr
  exact segmentWritten_of_eq h rfl (by rw [hr]) (by rw [hr])

section Take

variable {m : Memory} {r : SegRegs} {s : State}

theorem melTake_inside (hct : r.ct ≠ 0) : melTake m r = (r.c.getLsbD (r.ct - 1).toNat, { r with ct := r.ct - 1 }) := by
  simp only [melTake, if_neg hct]

theorem melNextByte_ct (m : Memory) (r : SegRegs) : (melNextByte m r).ct ≠ 0 := by
  show freeAfter _ ≠ 0
  unfold freeAfter
  split <;> decide

theorem melTake_byteIn (hct : r.ct = 0) : melTake m r = melTake m (melNextByte m r) := by
  rw [melTake_inside (melNextByte_ct m r)]
  simp only [melTake, if_pos hct]
  rfl

theorem melTake_takesOnly (m : Memory) (r : SegRegs) : TakesOnly r (melTake m r).2 := by
  by_cases hct : r.ct = 0
  · rw [melTake_byteIn hct, melTake_inside (melNextByte_ct m r)]
    rfl
  · rw [melTake_inside hct]
    rfl

theorem melTakeMore_takesOnly (m : Memory) (n v : Nat) (r : SegRegs) : TakesOnly r (melTakeMore m n v r).2 := by
  induction n generalizing v r with
  | zero => rfl
  | succ n ih => exact (melTake_takesOnly m r).trans (ih _ _)

theorem melTakeMore_lt (m : Memory) (n v : Nat) (r : SegRegs) : (melTakeMore m n v r).1 < 2 ^ n * (v + 1) := by
  induction n generalizing v r with
  | zero => rw [Nat.pow_zero, Nat.one_mul]; exact Nat.lt_succ_self v
  | succ n ih =>
    have hbit := Bool.toNat_le (melTake m r).1
    calc (melTakeMore m (n + 1) v r).1 < 2 ^ n * (2 * v + (melTake m r).1.toNat + 1) := ih _ _
      _ ≤ 2 ^ n * (2 * (v + 1)) := Nat.mul_le_mul_left _ (by omega)
      _ = 2 ^ (n + 1) * (v + 1) := by rw [Nat.pow_succ, Nat.mul_assoc]

theorem melByteIn_run (h : SegmentWritten s) : melByteIn s = .ok () { s with seg := melNextByte s.mem s.seg } := by
  unfold melByteIn
  rw [see_bind, bind_of_ok (segByte_written h _)]
  dsimp only
  rw [updSeg_bind, countFill_eq_fillAfter]
  rfl

theorem melGetBit_run (h : SegmentWritten s) :
    melGetBit s = .ok (melTake s.mem s.seg).1 { s with seg := (melTake s.mem s.seg).2 } := by
  unfold melGetBit
  rw [see_bind]
  dsimp only
  by_cases hct : s.seg.ct = 0
  · rw [if_pos hct, bind_of_ok (melByteIn_run h), takeBit_run, melTake_byteIn hct, melTake_inside (melNextByte_ct _ _)]
  · rw [if_neg hct, takeBit_run, melTake_inside hct]

theorem melReadRun_run (n v : Nat) (h : SegmentWritten s) :
    melReadRun n v s = .ok (melTakeMore s.mem n v s.seg).1 { s with seg := (melTakeMore s.mem n v s.seg).2 } := by
  induction n generalizing v s with
  | zero => rfl
  | succ n ih =>
    rw [melReadRun, bind_of_ok (melGetBit_run h), count_eq_toNat]
    exact ih _ (segmentWritten_of_takesOnly h (melTake_takesOnly s.mem s.seg))

end Take

/-! ### MELGET (45_ht_block_coder.md R287) -/

/-- MELGET once no symbol of an earlier run is left: the symbol and the registers after it. -/
def melNew (m : Memory) (r : SegRegs) : Bool × SegRegs :=
  let b := melTake m r
  let x := melTakeMore m (melE r.melK) 0 b.2
  if b.1 then (false, { b.2 with melRun := BitVec.ofNat 16 (melT r.melK - 1), melK := melUp r.melK })
  else if x.1 = 0 then (true, { x.2 with melK := melDown r.melK })
  else (false, { x.2 with melK := melDown r.melK, melRun := BitVec.ofNat 16 (x.1 - 1), onePend := true })

/-- MELGET: the symbol and the registers after it. -/
def melGot (m : Memory) (r : SegRegs) : Bool × SegRegs :=
  if r.melRun ≠ 0 then (false, { r with melRun := r.melRun - 1 })
  else if r.onePend then (true, { r with onePend := false })
  else melNew m r

/-- The three ways MELGET reads a new run: a hit, a run length 0, and another run length. -/
theorem melNew_cases (m : Memory) (r : SegRegs) :
    let b := melTake m r
    let x := melTakeMore m (melE r.melK) 0 b.2
    (b.1 = true ∧ melNew m r =
      (false, { b.2 with melRun := BitVec.ofNat 16 (melT r.melK - 1), melK := melUp r.melK })) ∨
    (b.1 = false ∧ x.1 = 0 ∧ melNew m r = (true, { x.2 with melK := melDown r.melK })) ∨
    (b.1 = false ∧ x.1 ≠ 0 ∧ melNew m r =
      (false, { x.2 with melK := melDown r.melK, melRun := BitVec.ofNat 16 (x.1 - 1), onePend := true })) := by
  intro b x
  cases hb : b.1 with
  | true => exact .inl ⟨rfl, if_pos hb⟩
  | false =>
    refine .inr ?_
    have hmiss := (if_neg (Bool.eq_false_iff.1 hb) : melNew m r = _)
    by_cases hx : x.1 = 0
    · exact .inl ⟨rfl, hx, hmiss.trans (if_pos hx)⟩
    · exact .inr ⟨rfl, hx, hmiss.trans (if_neg hx)⟩

section Get

variable {s : State}

theorem melGetNew_run (h : SegmentWritten s) :
    melGetNew s = .ok (melNew s.mem s.seg).1 { s with seg := (melNew s.mem s.seg).2 } := by
  have h' := segmentWritten_of_takesOnly h (melTake_takesOnly s.mem s.seg)
  unfold melGetNew
  rw [see_bind, bind_of_ok (melGetBit_run h)]
  rcases melNew_cases s.mem s.seg with ⟨hb, heq⟩ | ⟨hb, hx, heq⟩ | ⟨hb, hx, heq⟩
  · rw [heq, if_pos hb]
    rfl
  · rw [heq, if_neg (Bool.eq_false_iff.1 hb), bind_of_ok (melReadRun_run _ 0 h'), updSeg_bind]
    dsimp only
    rw [if_pos hx]
    rfl
  · rw [heq, if_neg (Bool.eq_false_iff.1 hb), bind_of_ok (melReadRun_run _ 0 h'), updSeg_bind]
    dsimp only
    rw [if_neg hx]
    rfl

theorem melGet_run (h : SegmentWritten s) :
    melGet s = .ok (melGot s.mem s.seg).1 { s with seg := (melGot s.mem s.seg).2 } := by
  unfold melGet melGot
  rw [see_bind]
  by_cases hrun : s.seg.melRun ≠ 0
  · rw [if_pos hrun, if_pos hrun]
    rfl
  · rw [if_neg hrun, if_neg hrun]
    by_cases hone : s.seg.onePend = true
    · rw [if_pos hone, if_pos hone]
      rfl
    · rw [if_neg hone, if_neg hone]
      exact melGetNew_run h

theorem exec_melGet (hmode : s.status.cmode = .meld) (h : SegmentWritten s) :
    exec .melGet s = .next (State.complete { s with
      out := { s.out with result := if (melGot s.mem s.seg).1 then 1 else 0 }, seg := (melGot s.mem s.seg).2 }) := by
  refine runCmd_of_ok ((needMode_bind hmode _).trans ?_)
  rw [bind_of_ok (melGet_run h)]
  rfl

end Get

/-! ### The outcomes of MELGET (45_ht_block_coder.md R287) -/

section Outcomes

variable {m : Memory} {r : SegRegs}

theorem melGot_zero (hrun : r.melRun ≠ 0) : melGot m r = (false, { r with melRun := r.melRun - 1 }) := if_pos hrun

theorem melGot_one (hrun : r.melRun = 0) (hone : r.onePend = true) : melGot m r = (true, { r with onePend := false }) :=
  (if_neg (not_not.2 hrun)).trans (if_pos hone)

theorem melGot_new (hrun : r.melRun = 0) (hone : r.onePend = false) : melGot m r = melNew m r :=
  (if_neg (not_not.2 hrun)).trans (if_neg (Bool.eq_false_iff.1 hone))

theorem melRun_toNat {n : Nat} (k : Fin 13) (h : n < melT k) : (BitVec.ofNat 16 n).toNat = n := by
  have hle := melT_le k
  rw [BitVec.toNat_ofNat]
  exact Nat.mod_eq_of_lt (by omega)

theorem TakesOnly.set {r' : SegRegs} (h : TakesOnly r r') (k : Fin 13) (run : BitVec 16) (one : Bool) :
    ({ r' with melK := k, melRun := run, onePend := one } : SegRegs) =
      { r with c := r'.c, ct := r'.ct, bp := r'.bp, fillcnt := r'.fillcnt, melK := k, melRun := run, onePend := one } := by
  unfold TakesOnly at h
  rw [h]

theorem melNew_regs (m : Memory) (r : SegRegs) : (melNew m r).2 = { r with
    c := (melNew m r).2.c, ct := (melNew m r).2.ct, bp := (melNew m r).2.bp, fillcnt := (melNew m r).2.fillcnt
    melK := (melNew m r).2.melK, melRun := (melNew m r).2.melRun, onePend := (melNew m r).2.onePend } := by
  have hb := melTake_takesOnly m r
  have hx := hb.trans (melTakeMore_takesOnly m (melE r.melK) 0 _)
  rcases melNew_cases m r with ⟨-, heq⟩ | ⟨-, -, heq⟩ | ⟨-, -, heq⟩
  · rw [heq]
    exact hb.set _ _ _
  · rw [heq]
    exact hx.set _ _ _
  · rw [heq]
    exact hx.set _ _ _

/-- A hit moves the state index up and leaves T(k) − 1 zeros; a run length moves it down. -/
theorem melNew_outcome (hrun : r.melRun = 0) (hone : r.onePend = false) :
    ((melNew m r).2.melK.val = min (r.melK.val + 1) 12 ∧ (melNew m r).1 = false ∧
        (melNew m r).2.melRun.toNat = melThreshold r.melK - 1 ∧ (melNew m r).2.onePend = false) ∨
      ((melNew m r).2.melK.val = r.melK.val - 1 ∧ (melNew m r).1 = true ∧ (melNew m r).2.melRun = 0 ∧
        (melNew m r).2.onePend = false) ∨
      ((melNew m r).2.melK.val = r.melK.val - 1 ∧ (melNew m r).1 = false ∧
        (melNew m r).2.melRun.toNat + 1 < melThreshold r.melK ∧ (melNew m r).2.onePend = true) := by
  have hb := melTake_takesOnly m r
  have hx := hb.trans (melTakeMore_takesOnly m (melE r.melK) 0 _)
  have hpos := melT_pos r.melK
  rcases melNew_cases m r with ⟨-, heq⟩ | ⟨-, -, heq⟩ | ⟨-, hne, heq⟩
  · have hone' : (melTake m r).2.onePend = false := by rw [hb, hone]
    rw [heq]
    exact .inl ⟨melUp_val _, rfl, melRun_toNat r.melK (by omega), hone'⟩
  · rw [heq]
    refine .inr (.inl ⟨rfl, rfl, ?_, ?_⟩)
    · show (melTakeMore _ _ _ _).2.melRun = 0
      rw [hx, hrun]
    · show (melTakeMore _ _ _ _).2.onePend = false
      rw [hx, hone]
  · have hlt : (melTakeMore m (melE r.melK) 0 (melTake m r).2).1 < melT r.melK := by
      have := melTakeMore_lt m (melE r.melK) 0 (melTake m r).2
      rwa [Nat.zero_add, Nat.mul_one] at this
    rw [heq]
    refine .inr (.inr ⟨rfl, rfl, ?_, rfl⟩)
    show (BitVec.ofNat 16 _).toNat + 1 < melT r.melK
    rw [melRun_toNat r.melK (by omega)]
    omega

/-- MELGET on a new run: the symbol and the registers of a hit and of a run length. -/
theorem melNew_exact (m : Memory) (r : SegRegs) :
    let b := melTake m r
    let x := melTakeMore m (melE r.melK) 0 b.2
    if b.1 then (melNew m r).1 = false ∧ (melNew m r).2 =
      { b.2 with melK := melUp r.melK, melRun := BitVec.ofNat 16 (melThreshold r.melK - 1) }
    else if x.1 = 0 then (melNew m r).1 = true ∧ (melNew m r).2 = { x.2 with melK := melDown r.melK }
    else (melNew m r).1 = false ∧ (melNew m r).2 =
      { x.2 with melK := melDown r.melK, melRun := BitVec.ofNat 16 (x.1 - 1), onePend := true } := by
  intro b x
  rcases melNew_cases m r with ⟨hb, heq⟩ | ⟨hb, hx, heq⟩ | ⟨hb, hx, heq⟩
  · rw [if_pos hb, heq]
    exact ⟨rfl, rfl⟩
  · rw [if_neg (Bool.eq_false_iff.1 hb), if_pos hx, heq]
    exact ⟨rfl, rfl⟩
  · rw [if_neg (Bool.eq_false_iff.1 hb), if_neg hx, heq]
    exact ⟨rfl, rfl⟩

end Outcomes

end Sys2Proof.Proofs
end

section
/-!
PROOFS. MEL.INITDEC and MEL.GETs (O42): the decoder's registers track the reader of the segment's bytes.
-/
namespace Sys2Proof.Proofs

open Sys2Proof.Machine Sys2Proof.Laws

/-- The registers stand where the reader does, after n bits. -/
structure Tracks (m : Memory) (n : Nat) (q : MelReader) (r : SegRegs) : Prop where
  ahead : ∀ j, fillByte m r.start.toNat r.stop.toNat (r.bp.toNat + j) = q.bytes.getD j 0xFF
  c : r.c = q.c.zeroExtend 32
  ct : r.ct.toNat = q.ct
  ct_le : q.ct ≤ 8
  k : r.melK = q.k
  run : r.melRun.toNat = q.run
  one : r.onePend = q.one
  taken : 7 * r.bp.toNat ≤ n + q.ct

section Tracks

variable {m : Memory} {n : Nat} {q : MelReader} {r : SegRegs}

theorem Tracks.mono {n' : Nat} (h : Tracks m n q r) (hn : n ≤ n') : Tracks m n' q r :=
  { h with taken := by have := h.taken; omega }

/-- Other values of the run and the state index. -/
theorem Tracks.set (h : Tracks m n q r) {k k' : Fin 13} {run : BitVec 16} {z : Nat} {b b' : Bool} (hk : k = k')
    (hz : run.toNat = z) (hb : b = b') :
    Tracks m n { q with k := k', run := z, one := b' } { r with melK := k, melRun := run, onePend := b } :=
  ⟨h.ahead, h.c, h.ct, h.ct_le, hk, hz, hb, h.taken⟩

theorem zeroExtend_low (v : Byte) : (v.zeroExtend 32).extractLsb' 0 8 = v := by
  rw [BitVec.zeroExtend_eq_setWidth, BitVec.extractLsb'_setWidth_of_le (by decide)]
  exact BitVec.extractLsb'_eq_self

theorem Tracks.byteIn (h : Tracks m n q r) (hct : r.ct = 0) (hn : n ≤ 2 ^ 34) :
    Tracks m n (readerByteIn q) (melNextByte m r) := by
  have hct' : q.ct = 0 := by rw [← h.ct, hct]; rfl
  have htaken := h.taken
  have hfree := freeAfter_toNat q.c
  have hbp : (r.bp + 1).toNat = r.bp.toNat + 1 := by bv_omega
  have hlow : r.c.extractLsb' 0 8 = q.c := by rw [h.c, zeroExtend_low]
  have hbyte := h.ahead 0
  refine ⟨fun j => ?_, ?_, ?_, ?_, h.k, h.run, h.one, ?_⟩
  · show fillByte m r.start.toNat r.stop.toNat ((r.bp + 1).toNat + j) = q.bytes.tail.getD j 0xFF
    rw [hbp, Nat.add_assoc, Nat.add_comm 1 j, h.ahead (j + 1)]
    cases q.bytes <;> rfl
  · show (fillByte m r.start.toNat r.stop.toNat r.bp.toNat).zeroExtend 32 = (q.bytes.headD 0xFF).zeroExtend 32
    rw [Nat.add_zero] at hbyte
    rw [hbyte]
    cases q.bytes <;> rfl
  · show (freeAfter (r.c.extractLsb' 0 8)).toNat = melFree q.c
    rw [hlow, melFree_eq]
  · show melFree q.c ≤ 8
    rw [melFree_eq, hfree]
    split <;> omega
  · show 7 * (r.bp + 1).toNat ≤ n + melFree q.c
    rw [melFree_eq, hfree, hbp]
    split <;> omega

theorem Tracks.bit_inside (h : Tracks m n q r) (hct : r.ct ≠ 0) :
    (melTake m r).1 = q.bit.1 ∧ Tracks m (n + 1) q.bit.2 (melTake m r).2 := by
  have hpos : r.ct.toNat ≠ 0 := fun h0 => hct (BitVec.eq_of_toNat_eq h0)
  have hct' : q.ct ≠ 0 := h.ct ▸ hpos
  have hnext : (r.ct - 1).toNat = q.ct - 1 := by
    rw [← h.ct]
    bv_omega
  have hle := h.ct_le
  have htaken := h.taken
  rw [melTake_inside hct, readerBit_inside hct', hnext, h.c]
  refine ⟨?_, h.ahead, rfl, hnext, ?_, h.k, h.run, h.one, ?_⟩
  · show (q.c.zeroExtend 32).getLsbD (q.ct - 1) = q.c.getLsbD (q.ct - 1)
    rw [BitVec.getLsbD_setWidth, decide_eq_true (by omega), Bool.true_and]
  · show q.ct - 1 ≤ 8
    omega
  · show 7 * r.bp.toNat ≤ n + 1 + (q.ct - 1)
    omega

/-- MELGETBIT takes the reader's bit. -/
theorem Tracks.bit (h : Tracks m n q r) (hn : n ≤ 2 ^ 34) :
    (melTake m r).1 = q.bit.1 ∧ Tracks m (n + 1) q.bit.2 (melTake m r).2 := by
  by_cases hct : r.ct = 0
  · have hct' : q.ct = 0 := by rw [← h.ct, hct]; rfl
    rw [melTake_byteIn hct, readerBit_byteIn hct']
    exact (h.byteIn hct hn).bit_inside (melNextByte_ct m r)
  · exact h.bit_inside hct

theorem Tracks.bits (h : Tracks m n q r) (i v : Nat) (hn : n + i ≤ 2 ^ 34) :
    (melTakeMore m i v r).1 = (q.bits i v).1 ∧ Tracks m (n + i) (q.bits i v).2 (melTakeMore m i v r).2 := by
  induction i generalizing n v q r with
  | zero => exact ⟨rfl, h⟩
  | succ i ih =>
    obtain ⟨hbit, hnext⟩ := h.bit (by omega)
    have hrest := ih hnext (2 * v + q.bit.1.toNat) (by omega)
    rw [melTakeMore, MelReader.bits, hbit]
    rwa [Nat.add_right_comm, Nat.add_assoc] at hrest

/-- MELGET on a new run. -/
theorem Tracks.new (h : Tracks m n q r) (hrun : q.run = 0) (hone : q.one = false) (hn : n + 6 ≤ 2 ^ 34) :
    (melNew m r).1 = q.symbol.1 ∧ Tracks m (n + 6) q.symbol.2 (melNew m r).2 := by
  have hE := melE_le q.k
  have hpos := melT_pos q.k
  obtain ⟨hbit, hnext⟩ := h.bit (by omega)
  obtain ⟨hval, hend⟩ := hnext.bits (melE q.k) 0 (by omega)
  have hlt := melTakeMore_lt m (melE q.k) 0 (melTake m r).2
  rw [Nat.zero_add, Nat.mul_one] at hlt
  have hsym : q.symbol = if q.bit.1 then (false, { q.bit.2 with run := melT q.k - 1, k := melUp q.k })
      else if (q.bit.2.bits (melE q.k) 0).1 = 0 then (true, { (q.bit.2.bits (melE q.k) 0).2 with k := melDown q.k })
      else (false, { (q.bit.2.bits (melE q.k) 0).2 with
        k := melDown q.k, run := (q.bit.2.bits (melE q.k) 0).1 - 1, one := true }) := by
    simp only [MelReader.symbol, hrun, hone, ne_eq, not_true, if_false, Bool.false_eq_true]
  have hcases := melNew_cases m r
  dsimp only at hcases
  rw [h.k, hbit, hval] at hcases
  rw [hval] at hlt
  rw [hsym]
  rcases hcases with ⟨hb, heq⟩ | ⟨hb, hx, heq⟩ | ⟨hb, hx, heq⟩
  · have hrun' := melRun_toNat q.k (n := melT q.k - 1) (by omega)
    rw [heq, if_pos hb]
    exact ⟨rfl, (hnext.set rfl hrun' hnext.one).mono (by omega)⟩
  · rw [heq, if_neg (Bool.eq_false_iff.1 hb), if_pos hx]
    exact ⟨rfl, (hend.set rfl hend.run hend.one).mono (by omega)⟩
  · have hrun' := melRun_toNat q.k (Nat.lt_of_le_of_lt (Nat.sub_le _ 1) hlt)
    rw [heq, if_neg (Bool.eq_false_iff.1 hb), if_neg hx]
    exact ⟨rfl, (hend.set rfl hrun' rfl).mono (by omega)⟩

/-- MELGET returns the reader's symbol; it reads at most six bits. -/
theorem Tracks.symbol (h : Tracks m n q r) (hn : n + 6 ≤ 2 ^ 34) :
    (melGot m r).1 = q.symbol.1 ∧ Tracks m (n + 6) q.symbol.2 (melGot m r).2 := by
  have hrun0 : r.melRun = 0 ↔ q.run = 0 := by
    rw [← h.run]
    exact ⟨fun h0 => by rw [h0]; rfl, fun h0 => BitVec.eq_of_toNat_eq h0⟩
  by_cases hrun : q.run = 0
  · cases hone : q.one with
    | true =>
      have hsym : q.symbol = (true, { q with one := false }) := by simp [MelReader.symbol, hrun, hone]
      rw [melGot_one (hrun0.2 hrun) (h.one.trans hone), hsym]
      exact ⟨rfl, (h.set h.k h.run rfl).mono (Nat.le_add_right n 6)⟩
    | false =>
      rw [melGot_new (hrun0.2 hrun) (h.one.trans hone)]
      exact h.new hrun hone hn
  · have hsym : q.symbol = (false, { q with run := q.run - 1 }) := if_pos hrun
    have hne := mt hrun0.1 hrun
    have hnext : (r.melRun - 1).toNat = q.run - 1 := by
      rw [← h.run]
      bv_omega
    rw [melGot_zero hne, hsym]
    exact ⟨rfl, (h.set h.k hnext h.one).mono (Nat.le_add_right n 6)⟩

theorem melGot_bounds (m : Memory) (r : SegRegs) : (melGot m r).2.start = r.start ∧ (melGot m r).2.stop = r.stop := by
  by_cases hrun : r.melRun = 0
  · cases hone : r.onePend with
    | true =>
      rw [melGot_one hrun hone]
      exact ⟨rfl, rfl⟩
    | false =>
      rw [melGot_new hrun hone, melNew_regs]
      exact ⟨rfl, rfl⟩
  · rw [melGot_zero hrun]
    exact ⟨rfl, rfl⟩

/-- The MEL decoder on a written segment stands where the reader does, after n bits. -/
structure MelReading (n : Nat) (q : MelReader) (s : State) : Prop where
  mode : s.status.cmode = .meld
  written : SegmentWritten s
  tracks : Tracks s.mem n q s.seg

theorem melGet_reading {s : State} (h : MelReading n q s) (hn : n + 6 ≤ 2 ^ 34) :
    ∃ t, exec .melGet s = .next t ∧ t.status.err = s.status.err ∧ t.out.result.getLsbD 0 = q.symbol.1 ∧
      MelReading (n + 6) q.symbol.2 t := by
  obtain ⟨hsym, hnext⟩ := h.tracks.symbol hn
  obtain ⟨hstart, hstop⟩ := melGot_bounds s.mem s.seg
  exact ⟨_, exec_melGet h.mode h.written, rfl, (zextBit_getLsbD_zero _).trans hsym, h.mode,
    segmentWritten_of_eq h.written rfl hstart hstop, hnext⟩

/-- MEL.GETs return the reader's symbols. -/
theorem melResults_reading (i : Nat) {n : Nat} {q : MelReader} {s : State} (h : MelReading n q s)
    (hn : n + 6 * i ≤ 2 ^ 34) : melResults i s = some (MelReader.symbols i q) := by
  induction i generalizing n q s with
  | zero => rfl
  | succ i ih =>
    obtain ⟨t, hrun, herr, hbit, ht⟩ := melGet_reading h (by omega)
    rw [melResults, hrun]
    dsimp only
    rw [if_pos herr, ih ht (by omega), hbit]
    rfl

/-- The byte the decoder of a latched segment reads at j (20_memory.md R80). -/
theorem fillByte_cfgSegment (s : State) (j : Nat) :
    fillByte s.mem s.cfg.segbase.toNat (s.cfg.segbase.toNat + s.cfg.seglen.toNat) j = (cfgSegmentBytes s).getD j 0xFF := by
  unfold fillByte cfgSegmentBytes
  by_cases hj : j < s.cfg.seglen.toNat
  · rw [if_pos (by omega), List.getD_eq_getElem _ _ (by simpa using hj)]
    simp
  · rw [if_neg (by omega), List.getD_eq_default _ _ (by simpa using hj)]

/-- MEL.INITDEC stands before the first byte of the segment (R313). -/
theorem melInitdec_reading {s : State} (hfit : s.cfg.segbase.toNat + s.cfg.seglen.toNat ≤ Config.byteCap)
    (hwritten : CfgSegmentWritten s) :
    ∃ u, exec .melInitdec s = .next u ∧ u.status.err = s.status.err ∧
      MelReading 0 ⟨cfgSegmentBytes s, 0, 0, 0, 0, false⟩ u := by
  have hcap := byteCap_le
  have hstop : (s.cfg.segbase + s.cfg.seglen).toNat = s.cfg.segbase.toNat + s.cfg.seglen.toNat := by bv_omega
  obtain ⟨-, hin⟩ := rawAndMelInitdecExact s
  obtain ⟨-, hrun⟩ := hin hfit
  refine ⟨_, hrun, rfl, rfl, fun j hj hle => hwritten j (hstop ▸ hj) hle,
    ⟨fun j => ?_, rfl, rfl, Nat.zero_le 8, rfl, rfl, rfl, Nat.le_refl 0⟩⟩
  show fillByte s.mem s.cfg.segbase.toNat (s.cfg.segbase + s.cfg.seglen).toNat (0 + j) = (cfgSegmentBytes s).getD j 0xFF
  rw [hstop, Nat.zero_add, fillByte_cfgSegment]

end Tracks

/-- Settles O42: MELGET on the registers, the reader the registers track, and the symbols that reader finds in the stream. -/
theorem melGetCompletes : Obligations.MelGetCompletes := by
  refine ⟨fun s hmode hwritten => ?exact, fun n s hn hfit hwritten => ?reads, melSymbols_melStream⟩
  case exact =>
    refine ⟨_, _, exec_melGet hmode hwritten, fun hrun => ?_, fun hrun hone => ?_, fun hrun hone => ?_⟩
    · rw [melGot_zero hrun]
      exact ⟨rfl, rfl⟩
    · rw [melGot_one hrun hone]
      exact ⟨rfl, rfl⟩
    · rw [melGot_new hrun hone]
      exact ⟨melNew_regs _ _, melNew_outcome hrun hone, melNew_exact _ _⟩
  case reads =>
    obtain ⟨u, hrun, herr, hu⟩ := melInitdec_reading hfit hwritten
    exact ⟨u, hrun, herr, melResults_reading n hu (by omega)⟩

end Sys2Proof.Proofs
end

section
/-!
PROOFS. The validation and the start of a block (46_coordinator.md R320, R321): what each check answers, E_CONFIG of steps 2 to 6
(O43), and what is left of CB.ENCODE and CB.DECODE once the checks are passed.
-/
namespace Sys2Proof.Proofs

open Sys2Proof.Machine Sys2Proof.Laws

variable {s : State}

/-! ### Steps 1 to 5 (46_coordinator.md R320) -/

theorem checkBlock_run (hshape : s.cfg.badShape = false) :
    checkBlock s = if s.cfg.styleReserved then .error (.err .config) s else .ok () s := by
  unfold checkBlock
  rw [bind_of_ok (by rw [checkShape_run, hshape]; rfl), see_bind, check_run]

theorem checkBlock_ok (hshape : s.cfg.badShape = false) (hstyle : s.cfg.styleReserved = false) : checkBlock s = .ok () s := by
  rw [checkBlock_run hshape, hstyle]
  rfl

/-- A block command stops at E_CONFIG, whatever the style bit is, when what follows the first two steps raises it. -/
theorem checkBlock_bind_error (hshape : s.cfg.badShape = false) {c : Unit → Cmd Unit} (h : c () s = .error (.err .config) s) :
    (checkBlock >>= c) s = .error (.err .config) s := by
  rw [bind_run, checkBlock_run hshape]
  cases s.cfg.styleReserved with
  | true => rfl
  | false => exact h

/-- The test of COEF[i] (R320 step 3). -/
def checkCoef (c : Cfg) (i : Nat) : Cmd Unit := do
  let q ← memReadWord (coefAddr i)
  check (decide (2 ^ c.p ≤ q.toInt.natAbs)) .config

theorem checkCoefs_eq (s : State) : checkCoefs s = forEach (List.range (s.cfg.w * s.cfg.h)) (checkCoef s.cfg) s := rfl

theorem checkCoef_run (c : Cfg) {i : Nat} {q : Word} (hq : s.mem.getWord (coefAddr i) = some q) :
    checkCoef c i s = if 2 ^ c.p ≤ q.toInt.natAbs then .error (.err .config) s else .ok () s := by
  unfold checkCoef
  rw [bind_of_ok (a := q) (t := s) (by rw [memReadWord_run, hq]), check_run]
  simp only [decide_eq_true_eq]

theorem checkCoefs_ok (h : CoefsLegal s) : checkCoefs s = .ok () s := by
  rw [checkCoefs_eq]
  refine forEach_of_ok fun i hi => ?_
  obtain ⟨q, hq, hlt⟩ := h i (List.mem_range.1 hi)
  rw [checkCoef_run _ hq, if_neg (Nat.not_le.2 hlt)]

/-- A loop of checks that all pass or raise e raises e when one of them does. -/
theorem forEach_of_error {α : Type} {f : α → Cmd Unit} {e : Stop} {l : List α}
    (h : ∀ x ∈ l, f x s = .ok () s ∨ f x s = .error e s) (hx : ∃ x ∈ l, f x s = .error e s) : forEach l f s = .error e s := by
  induction l with
  | nil => obtain ⟨x, hmem, -⟩ := hx; cases hmem
  | cons y l ih =>
    rw [forEach_cons]
    rcases h y List.mem_cons_self with hy | hy
    · rw [bind_of_ok hy]
      refine ih (fun x hmem => h x (List.mem_cons_of_mem _ hmem)) ?_
      obtain ⟨x, hmem, hraise⟩ := hx
      rcases List.mem_cons.1 hmem with rfl | hmem
      · cases hy.symm.trans hraise
      · exact ⟨x, hmem, hraise⟩
    · exact bind_of_error hy _

theorem checkCoefs_error (hwritten : CoefsWritten s)
    (hbad : ∃ i < s.cfg.w * s.cfg.h, ∃ q ∈ s.mem.getWord (coefAddr i), 2 ^ s.cfg.p ≤ q.toInt.natAbs) :
    checkCoefs s = .error (.err .config) s := by
  rw [checkCoefs_eq]
  refine forEach_of_error (fun i hi => ?_) ?_
  · obtain ⟨q, hq⟩ := Option.isSome_iff_exists.1 (hwritten i (List.mem_range.1 hi))
    rw [checkCoef_run _ hq]
    split
    · exact .inr rfl
    · exact .inl rfl
  · obtain ⟨i, hi, q, hq, hge⟩ := hbad
    exact ⟨i, List.mem_range.2 hi, by rw [checkCoef_run _ hq, if_pos hge]⟩

theorem checkDecodeArgs_run (s : State) : checkDecodeArgs s =
    if s.cfg.maxPasses < s.cfg.npass.toNat ∨ s.cfg.segOutside = true then .error (.err .config) s else .ok () s := by
  unfold checkDecodeArgs
  rw [see_bind, bind_run, check_run]
  by_cases hn : s.cfg.maxPasses < s.cfg.npass.toNat
  · simp [hn]
  · simp [hn, check_run]

theorem checkDecodeArgs_bind_error {c : Unit → Cmd Unit} (h : c () s = .error (.err .config) s) :
    (checkDecodeArgs >>= c) s = .error (.err .config) s := by
  rw [bind_run, checkDecodeArgs_run]
  split_ifs with hbad
  · rfl
  · exact h

/-- The passes a block has, by its mode (R320 step 4). -/
theorem maxPasses_eq (c : Cfg) :
    c.maxPasses = if c.p = 0 then 0 else if c.ht then (if c.p = 1 then 1 else 3) else 3 * c.p - 2 := by
  unfold Cfg.maxPasses numPasses
  split_ifs <;> omega

/-! ### The segment ends (46_coordinator.md R320 step 6, R331, R347) -/

theorem segtabEnd_run {k : Nat} {v : Word} (hv : s.mem.getWord (segtabAddr k) = some v) :
    segtabEnd k s = .ok (tabEnd s v) s := by
  unfold segtabEnd
  rw [bind_of_ok (a := v) (t := s) (by rw [memReadWord_run, hv]), see_bind]
  rfl

theorem segmentEnd_run {b e : Nat} (h : segEnd s b = some e) : segmentEnd b s = .ok e s := by
  unfold segmentEnd
  unfold segEnd at h
  rw [see_bind]
  split_ifs at h ⊢ with htab
  · obtain ⟨v, hv, rfl⟩ := Option.map_eq_some_iff.1 h
    exact segtabEnd_run hv
  · cases h
    rfl

/-- The uses of these segments, one after the other from `lo` on, with these ends (R331). -/
def segUses : List (Nat × Nat) → List Nat → Nat → List SegUse
  | (a, b) :: l, hi :: ends, lo => ⟨a, b, lo, hi⟩ :: segUses l ends hi
  | _, _, _ => []

/-- The ends are read and compared in order (R320 step 6; log entry 16). -/
theorem part1Segments_run {l : List (Nat × Nat)} {ends : List Nat} (h : l.map (fun ab => segEnd s ab.2) = ends.map some)
    (lo : Nat) : part1Segments l lo s = if (lo :: ends).IsChain (· ≤ ·) then .ok (segUses l ends lo) s else .error (.err .config) s := by
  induction l generalizing ends lo with
  | nil =>
    obtain rfl : ends = [] := by simpa using h.symm
    rw [if_pos (List.isChain_singleton lo)]
    rfl
  | cons ab l ih =>
    cases ends with
    | nil => cases h
    | cons hi ends =>
      obtain ⟨hend, hrest⟩ := List.cons.inj h
      have hchain : (lo :: hi :: ends).IsChain (· ≤ ·) ↔ lo ≤ hi ∧ (hi :: ends).IsChain (· ≤ ·) := List.isChain_cons_cons
      unfold part1Segments
      rw [bind_of_ok (segmentEnd_run hend), bind_run, check_run]
      by_cases hlt : hi < lo
      · rw [if_pos (decide_eq_true hlt), if_neg fun hc => absurd hlt (Nat.not_lt.2 (hchain.1 hc).1)]
      · rw [if_neg (by simpa using hlt)]
        dsimp only
        rw [bind_run, ih hrest]
        by_cases hnext : (hi :: ends).IsChain (· ≤ ·)
        · rw [if_pos hnext, if_pos (hchain.2 ⟨Nat.not_lt.1 hlt, hnext⟩)]
          rfl
        · rw [if_neg hnext, if_neg fun hc => hnext (hchain.1 hc).2]

theorem isChain_zero_cons (l : List Nat) : (0 :: l).IsChain (· ≤ ·) ↔ l.Pairwise (· ≤ ·) := by
  rw [List.isChain_iff_pairwise, List.pairwise_cons]
  exact and_iff_right fun _ _ => Nat.zero_le _

theorem part1Uses_run {ends : List Nat} (h : (usedSegments s).map (fun ab => segEnd s ab.2) = ends.map some) :
    part1Uses s = if ends.Pairwise (· ≤ ·) then .ok (segUses (usedSegments s) ends 0) s else .error (.err .config) s := by
  have hrun := part1Segments_run h 0
  simp only [isChain_zero_cons] at hrun
  exact hrun

/-- The ends of an HT decode (R347), v0 and v1 standing in SEGTAB[0] and SEGTAB[NPASS − 1]. -/
theorem htEnds_run {v0 v1 : Word} (hn : 1 ≤ s.cfg.npass.toNat) (h0 : s.mem.getWord (segtabAddr 0) = some v0)
    (h1 : s.mem.getWord (segtabAddr (s.cfg.npass.toNat - 1)) = some v1) :
    htEnds s = if tabEnd s v1 < tabEnd s v0 then .error (.err .config) s else .ok (tabEnd s v0, tabEnd s v1) s := by
  unfold htEnds
  rw [see_bind, if_neg (by omega), bind_of_ok (segtabEnd_run h0)]
  by_cases hone : s.cfg.npass.toNat = 1
  · obtain rfl : v0 = v1 := by
      rw [hone, h0] at h1
      exact Option.some.inj h1
    rw [if_pos hone, if_neg (Nat.lt_irrefl _)]
    rfl
  · rw [if_neg hone, bind_of_ok (segtabEnd_run h1), bind_run, check_run]
    by_cases hlt : tabEnd s v1 < tabEnd s v0
    · rw [if_pos (decide_eq_true hlt), if_pos hlt]
    · rw [if_neg (by simpa using hlt), if_neg hlt]
      rfl

/-! ### E_CONFIG (46_coordinator.md R320, R331, R347) -/

theorem cbDecode_error (hshape : s.cfg.badShape = false)
    (h : s.cfg.maxPasses < s.cfg.npass.toNat ∨ s.cfg.segOutside = true) : exec .cbDecode s = .next (s.takeError .config) :=
  runCmd_of_err (checkBlock_bind_error hshape (bind_of_error (by rw [checkDecodeArgs_run, if_pos h]) _))

/-- CB.DECODE where the ends of the segments are not in order. -/
theorem cbDecode_ends_error (hshape : s.cfg.badShape = false)
    (h : (s.cfg.ht = true ∧ htEnds s = .error (.err .config) s) ∨ (s.cfg.ht = false ∧ part1Uses s = .error (.err .config) s)) :
    exec .cbDecode s = .next (s.takeError .config) := by
  refine runCmd_of_err (checkBlock_bind_error hshape (checkDecodeArgs_bind_error ?_))
  rw [see_bind]
  rcases h with ⟨hht, hends⟩ | ⟨hht, huses⟩
  · rw [hht]
    exact bind_of_error hends _
  · rw [hht]
    exact bind_of_error huses _

/-- Settles O43: each check raises before anything is written. -/
theorem blockValidation : Obligations.BlockValidation := by
  intro s hshape
  refine ⟨fun hstyle => ?style, fun hwritten hbad => ?coefs, fun hn => ?passes, fun hout => ?outside,
    fun hht ends hends hnot => ?part1, fun hht hn v0 v1 h0 h1 hlt => ?ht⟩
  case style =>
    have hcheck : checkBlock s = .error (.err .config) s := by rw [checkBlock_run hshape, hstyle]; rfl
    exact ⟨runCmd_of_err (bind_of_error hcheck _), runCmd_of_err (bind_of_error hcheck _)⟩
  case coefs =>
    exact runCmd_of_err (checkBlock_bind_error hshape (bind_of_error (checkCoefs_error hwritten hbad) _))
  case passes => exact cbDecode_error hshape (.inl (maxPasses_eq s.cfg ▸ hn))
  case outside => exact cbDecode_error hshape (.inr (decide_eq_true hout))
  case part1 =>
    exact cbDecode_ends_error hshape (.inr ⟨hht, by rw [part1Uses_run hends, if_neg hnot]⟩)
  case ht =>
    exact cbDecode_ends_error hshape (.inl ⟨hht, by rw [htEnds_run (by omega) h0 h1, if_pos hlt]⟩)

/-! ### Past the checks (46_coordinator.md R321, R350, R351) -/

/-- The state after the block start (R321). -/
def blockStarted (s : State) : State := { s with
  status := { s.status with partialRes := false, segmis := false, trunc := false }, ctx := initialCtx, arr := clearedArrays }

@[simp] theorem blockStarted_cfg (s : State) : (blockStarted s).cfg = s.cfg := rfl
@[simp] theorem blockStarted_out (s : State) : (blockStarted s).out = s.out := rfl
@[simp] theorem blockStarted_seg (s : State) : (blockStarted s).seg = s.seg := rfl
@[simp] theorem blockStarted_arr (s : State) : (blockStarted s).arr = clearedArrays := rfl
@[simp] theorem blockStarted_ctx (s : State) : (blockStarted s).ctx = initialCtx := rfl
@[simp] theorem blockStarted_mem (s : State) : (blockStarted s).mem = s.mem := rfl

theorem blockStart_run (s : State) : blockStart s = .ok () (blockStarted s) := rfl

theorem runCmd_congr {c d : Cmd Unit} {t : State} (h : c s = d t) : runCmd c s = runCmd d t := by
  unfold runCmd
  rw [h]

/-- CB.ENCODE of a legal block (R350). -/
theorem exec_cbEncode (hshape : s.cfg.badShape = false) (hstyle : s.cfg.styleReserved = false) (hcoefs : CoefsLegal s) :
    exec .cbEncode s = runCmd (if s.cfg.ht then htEncode else part1Encode) (blockStarted s) := by
  refine runCmd_congr ?_
  rw [bind_of_ok (checkBlock_ok hshape hstyle), bind_of_ok (checkCoefs_ok hcoefs), bind_of_ok (blockStart_run s)]
  rfl

section Decode

variable (hshape : s.cfg.badShape = false) (hstyle : s.cfg.styleReserved = false)
  (hn : s.cfg.npass.toNat ≤ s.cfg.maxPasses) (hin : s.cfg.segbase.toNat + s.cfg.seglen.toNat ≤ Config.byteCap)
include hshape hstyle hn hin

theorem decodeChecks_bind (c : Cmd Unit) :
    (checkBlock >>= fun _ => checkDecodeArgs >>= fun _ => c) s = c s := by
  have hseg : ¬ s.cfg.segOutside = true := by
    unfold Cfg.segOutside
    rw [decide_eq_true_eq]
    omega
  have hargs : checkDecodeArgs s = .ok () s := by
    rw [checkDecodeArgs_run, if_neg (not_or.2 ⟨Nat.not_lt.2 hn, hseg⟩)]
  rw [bind_of_ok (checkBlock_ok hshape hstyle), bind_of_ok hargs]

/-- CB.DECODE of a valid Part 1 block (R351). -/
theorem exec_cbDecode_part1 (hht : s.cfg.ht = false) {uses : List SegUse} (h : part1Uses s = .ok uses s) :
    exec .cbDecode s = runCmd (part1Decode uses) (blockStarted s) := by
  refine runCmd_congr ((decodeChecks_bind hshape hstyle hn hin _).trans ?_)
  rw [see_bind, hht]
  exact bind_of_ok h _

/-- CB.DECODE of a valid HT block (R351). -/
theorem exec_cbDecode_ht (hht : s.cfg.ht = true) {ends : Nat × Nat} (h : htEnds s = .ok ends s) :
    exec .cbDecode s = runCmd (htDecode ends) (blockStarted s) := by
  refine runCmd_congr ((decodeChecks_bind hshape hstyle hn hin _).trans ?_)
  rw [see_bind, hht]
  exact bind_of_ok h _

end Decode

end Sys2Proof.Proofs
end

section
/-!
PROOFS. The ends of the block commands (46_coordinator.md R328, R345 to R348) and two blocks that code nothing: CB.ENCODE with
P = 0 in Part 1 mode (O44) and CB.DECODE of no pass (O47).
-/
namespace Sys2Proof.Proofs

open Sys2Proof.Machine Sys2Proof.Laws

variable {s : State}

/-! ### CB.ENCODE with P = 0 (46_coordinator.md R328) -/

theorem endEncode_run (v : Word) (n : Nat) (s : State) : endEncode v n s = .ok () { s with
    status := { s.status with cmode := .idle }, out := { s.out with nbytes := v, npassout := BitVec.ofNat 8 n } } := rfl

/-- PART1_ENCODE with P = 0: a segment without a decision, flushed. -/
theorem part1Encode_zero (hp : s.cfg.p = 0) (hroom : s.cfg.segbase.toNat + 2 ≤ Config.byteCap) :
    part1Encode s = .ok () { s with
      status := { s.status with cmode := .idle }
      out := { s.out with nbytes := 2, npassout := 0 }
      seg := { s.seg with start := s.cfg.segbase, a := 0x8000, c := 0, ct := 7, b := 0x7F, bp := 2 }
      mem := (s.mem.setByte (byteAddr s.cfg.segbase.toNat) 0xFF).setByte (byteAddr (s.cfg.segbase.toNat + 1)) 0x7F } := by
  have hflushed := mqFlushed_initial { s.seg with start := s.cfg.segbase } s.mem
  have hflush := mqFlush_run (s := { s with seg := { s.seg with
    start := s.cfg.segbase, a := 0x8000, c := 0, ct := 12, b := 0, bp := 0 } }) hroom
  dsimp only at hflushed hflush
  rw [hflushed] at hflush
  unfold part1Encode mqInitEnc
  rw [see_bind, if_pos hp, bind_of_ok (latchSegbase_run s), updSeg_bind, bind_of_ok hflush, see_bind, endEncode_run]
  rfl

/-- Settles O44: FLUSH of a segment without a decision. -/
theorem cbEncodeZeroPlanes : Obligations.CbEncodeZeroPlanes := by
  intro s hshape hstyle hht hp hcoefs hroom
  have hexec := exec_cbEncode hshape hstyle hcoefs
  rw [hht, if_neg Bool.false_ne_true, runCmd_of_ok (part1Encode_zero (s := blockStarted s) hp hroom)] at hexec
  refine ⟨_, _, hexec, ?first, getByte_setByte_same _ _ _, fun a ha => ?outside⟩
  case first =>
    dsimp only [blockStarted_cfg, blockStarted_mem]
    rw [getByte_setByte, if_neg (by unfold byteAddr; omega), getByte_setByte_same]
  case outside =>
    dsimp only [blockStarted_cfg, blockStarted_mem]
    unfold byteAddr at ha
    rw [getByte_setByte, if_neg (by unfold byteAddr; omega), getByte_setByte, if_neg (by unfold byteAddr; omega)]

/-! ### The end of a decode (46_coordinator.md R345 to R348) -/

/-- The state a decode ends in: `done` passes done, the input truncated or not, and fewer passes asked for than the block has or
not. -/
def decodeEnded (s : State) (done : Nat) (trunc short : Bool) : State := { s with
  status := { s.status with
    cmode := .idle
    partialRes := s.status.partialRes || (if trunc then s.cfg.tolerate else short)
    trunc := s.status.trunc || trunc }
  out := { s.out with npassout := BitVec.ofNat 8 done }
  mem := coefsStored s.arr.value s.mem (s.cfg.w * s.cfg.h) }

theorem runCmd_endDecode (s : State) (done : Nat) (trunc short : Bool) : runCmd (endDecode done trunc short) s =
    .next (if trunc = true ∧ s.cfg.tolerate = false then (decodeEnded s done trunc short).takeError .truncated
      else (decodeEnded s done trunc short).complete) := by
  have hrun : endDecode done trunc short s =
      if trunc = true ∧ s.cfg.tolerate = false then .error (.err .truncated) (decodeEnded s done trunc short)
      else .ok () (decodeEnded s done trunc short) := by
    unfold endDecode decodeEnded
    rw [bind_of_ok (store_run s), bind_of_ok (setNpassout_run _ _), bind_of_ok (setMode_run _ _)]
    cases trunc with
    | true =>
      rw [if_pos rfl, Bool.or_true]
      show (see (·.cfg.tolerate) >>= fun tol => if tol = true then setPartial else raise .truncated) _ = _
      rw [see_bind]
      cases htol : s.cfg.tolerate <;> simp [setPartial]
    | false =>
      cases short <;> simp [setPartial]
  rw [runCmd, hrun]
  split_ifs <;> rfl

theorem decodeEnded_coef {done : Nat} {trunc short : Bool} {i : Nat} (hi : i < s.cfg.w * s.cfg.h) :
    (decodeEnded s done trunc short).mem.getWord (coefAddr i) = some (s.arr.value i) := coefsStored_getWord _ _ hi

theorem decodeEnded_outside (done : Nat) (trunc short : Bool) :
    SameOutside s (decodeEnded s done trunc short) (coefAddr 0) (coefAddr (s.cfg.w * s.cfg.h)) :=
  fun _ ha => coefsStored_outside _ _ _ ha

/-- A coefficient of cleared arrays. -/
theorem clearedArrays_value (i : Nat) : clearedArrays.value i = 0 := by
  obtain ⟨-, hsgn, -, -, hmag⟩ := clearedArrays_zero i
  unfold Arrays.value
  rw [hsgn, hmag]
  rfl

/-! ### CB.DECODE of no pass (46_coordinator.md R330, R345) -/

theorem part1Decode_nil (s : State) :
    part1Decode [] s = endDecode 0 false (decide (s.cfg.npass.toNat < numPasses s.cfg.p)) s := rfl

theorem htDecode_noPass (hn : s.cfg.npass = 0) (ends : Nat × Nat) :
    htDecode ends s = endDecode 0 false (decide (0 < s.cfg.p)) s := by
  unfold htDecode
  rw [see_bind, hn]
  rfl

/-- Settles O47: no segment is used, and the cleared arrays are stored. -/
theorem cbDecodeNoPass : Obligations.CbDecodeNoPass := by
  intro s hshape hstyle hn hin
  have hnat : s.cfg.npass.toNat = 0 := by rw [hn]; rfl
  have hmax : s.cfg.npass.toNat ≤ s.cfg.maxPasses := by omega
  have hexec : exec .cbDecode s = runCmd (endDecode 0 false (decide (1 ≤ s.cfg.p))) (blockStarted s) := by
    cases hht : s.cfg.ht with
    | true =>
      have hends : htEnds s = .ok (0, 0) s := by
        unfold htEnds
        rw [see_bind, if_pos hnat]
        rfl
      exact (exec_cbDecode_ht hshape hstyle hmax hin hht hends).trans (runCmd_congr (htDecode_noPass (s := blockStarted s) hn _))
    | false =>
      have hused : usedSegments s = [] := by
        unfold usedSegments
        rw [hnat]
        simp
      have huses : part1Uses s = .ok [] s := by
        rw [part1Uses_run (ends := []) (by rw [hused]; rfl), if_pos List.Pairwise.nil, hused]
        rfl
      have hshort : decide (s.cfg.npass.toNat < numPasses s.cfg.p) = decide (1 ≤ s.cfg.p) := by
        rw [hnat]
        exact decide_eq_decide.2 (by unfold numPasses; omega)
      refine (exec_cbDecode_part1 hshape hstyle hmax hin hht huses).trans (runCmd_congr ?_)
      rw [part1Decode_nil]
      exact congrArg (fun short => endDecode 0 false short (blockStarted s)) hshort
  refine ⟨_, hexec.trans (runCmd_endDecode _ _ _ _), fun i hi => ?_,
    decodeEnded_outside (s := blockStarted s) 0 false (decide (1 ≤ s.cfg.p))⟩
  have hcoef := decodeEnded_coef (s := blockStarted s) (done := 0) (trunc := false) (short := decide (1 ≤ s.cfg.p)) hi
  exact hcoef.trans (congrArg some (clearedArrays_value i))

end Sys2Proof.Proofs
end

section
/-!
PROOFS. The schedule of a block (44_bitplane_coder.md R256 to R262): which pass is which, which of them ends a segment, and the
segments as a list; and from their first element a CB.DECODE that is truncated at its start (O49).
-/
namespace Sys2Proof.Proofs

open Sys2Proof.Machine Sys2Proof.Laws

variable {c : Cfg} {np n a b k : Nat}

/-! ### Passes (44_bitplane_coder.md R256, R261, R262) -/

theorem passType_eq (k : Nat) : passType k = if k % 3 = 1 then .spp else if k % 3 = 2 then .mrp else .cup := by
  unfold passType
  by_cases h0 : k = 0
  · subst h0
    rfl
  · have hspp : (k - 1) % 3 = 0 ↔ k % 3 = 1 := by omega
    have hmrp : (k - 1) % 3 = 1 ↔ k % 3 = 2 := by omega
    simp only [if_neg h0, hspp, hmrp]

theorem passRaw_iff : passRaw c k = true ↔ c.bypass = true ∧ 10 ≤ k ∧ k % 3 ≠ 0 := by
  unfold passRaw
  rw [passType_eq]
  simp only [Bool.and_eq_true, decide_eq_true_eq, and_assoc]
  refine and_congr_right fun _ => and_congr_right fun _ => ?_
  split_ifs <;> simp <;> omega

theorem passTerminates_iff : passTerminates c np k = true ↔ endsSegment c np k := by
  unfold passTerminates endsSegment
  rw [passType_eq]
  simp only [Bool.or_eq_true, Bool.and_eq_true, decide_eq_true_eq, beq_iff_eq, or_assoc, and_assoc]
  refine or_congr_right (or_congr_right (and_congr_right fun _ => and_congr_right fun _ => ?_))
  split_ifs <;> simp <;> omega

/-- The passes of a segment have one coder (R261, R262): a is its first pass and none before k ends it. -/
theorem passRaw_of_open (hak : a ≤ k) (h : ∀ j, a ≤ j → j < k → ¬ endsSegment c np j) : passRaw c k = passRaw c a := by
  rw [Bool.eq_iff_iff, passRaw_iff, passRaw_iff]
  refine and_congr_right fun hbypass => ?_
  have hspp (j : Nat) (hj : a ≤ j) (hjk : j < k) : j < 9 ∨ j % 3 = 1 := by
    by_contra hcon
    exact h j hj hjk (.inr (.inr ⟨hbypass, by omega, by omega⟩))
  rcases Nat.lt_or_ge a k with hlt | hge
  · have hlast := hspp (k - 1) (by omega) (by omega)
    rcases Nat.lt_or_ge a (k - 1) with hlt' | hge'
    · have hbefore := hspp (k - 2) (by omega) (by omega)
      omega
    · omega
  · obtain rfl : a = k := by omega
    exact Iff.rfl

/-! ### Segments (44_bitplane_coder.md R262) -/

theorem segmentsFrom_ends (h : endsSegment c np (np - (n + 1))) :
    segmentsFrom c np (n + 1) a = (a, np - (n + 1)) :: segmentsFrom c np n (np - (n + 1) + 1) := by
  rw [segmentsFrom]
  exact if_pos (passTerminates_iff.2 h)

theorem segmentsFrom_goes_on (h : ¬ endsSegment c np (np - (n + 1))) :
    segmentsFrom c np (n + 1) a = segmentsFrom c np n a := by
  rw [segmentsFrom]
  exact if_neg (mt passTerminates_iff.1 h)

/-- The segments from an open one on, whose first pass is a and which no pass before np − n ends. -/
theorem mem_segmentsFrom (hn : n ≤ np) (ha : a ≤ np - n) (hfirst : a = 0 ∨ endsSegment c np (a - 1))
    (hopen : ∀ j, a ≤ j → j < np - n → ¬ endsSegment c np j) {x y : Nat} :
    (x, y) ∈ segmentsFrom c np n a ↔ IsSegment c np x y ∧ a ≤ x := by
  induction n generalizing a with
  | zero =>
    refine ⟨fun h => absurd h List.not_mem_nil, fun ⟨⟨_, hy, _, hend, _⟩, _⟩ => ?_⟩
    exact absurd hend (hopen y (by omega) (by omega))
  | succ n ih =>
    have hnext : np - n = np - (n + 1) + 1 := by omega
    by_cases hend : endsSegment c np (np - (n + 1))
    · have hrest := ih (a := np - (n + 1) + 1) (by omega) (by omega) (.inr hend) (by omega)
      rw [segmentsFrom_ends hend, List.mem_cons, hrest, Prod.mk.injEq]
      constructor
      · rintro (⟨rfl, rfl⟩ | ⟨hseg, hx⟩)
        · exact ⟨⟨ha, by omega, hfirst, hend, hopen⟩, Nat.le_refl x⟩
        · exact ⟨hseg, by omega⟩
      · rintro ⟨hseg, hax⟩
        have ⟨hxy, hy, hx, hendy, hinner⟩ := hseg
        have hky : np - (n + 1) ≤ y := by
          by_contra hlt
          exact hopen y (by omega) (by omega) hendy
        rcases Nat.lt_or_ge (np - (n + 1)) x with hlt | hge
        · exact .inr ⟨hseg, hlt⟩
        · have hyk : y = np - (n + 1) := by
            by_contra hne
            exact hinner _ hge (by omega) hend
          have hxa : x = a := by
            by_contra hne
            rcases hx with hx | hx
            · omega
            · exact hopen (x - 1) (by omega) (by omega) hx
          exact .inl ⟨hxa, hyk⟩
    · rw [segmentsFrom_goes_on hend]
      refine ih (by omega) (by omega) hfirst fun j hj hjk => ?_
      by_cases hjn : j = np - (n + 1)
      · exact hjn ▸ hend
      · exact hopen j hj (by omega)

theorem mem_segments_iff : (a, b) ∈ c.segments ↔ IsSegment c (3 * c.p - 2) a b := by
  have h := mem_segmentsFrom (c := c) (np := numPasses c.p) (n := numPasses c.p) (a := 0) (x := a) (y := b) (Nat.le_refl _)
    (by omega) (.inl rfl) (by omega)
  exact h.trans (and_iff_left (Nat.zero_le a))

/-- The segments follow one another: from first pass a on, each starts where the one before it ended. -/
def Consecutive (np : Nat) : Nat → List (Nat × Nat) → Prop
  | a, [] => np ≤ a
  | a, (x, y) :: l => x = a ∧ a ≤ y ∧ y < np ∧ Consecutive np (y + 1) l

theorem segmentsFrom_consecutive (hn : n ≤ np) (ha : a ≤ np - n) (hempty : n = 0 → np ≤ a) :
    Consecutive np a (segmentsFrom c np n a) := by
  induction n generalizing a with
  | zero => exact hempty rfl
  | succ n ih =>
    by_cases hend : endsSegment c np (np - (n + 1))
    · rw [segmentsFrom_ends hend]
      exact ⟨rfl, ha, by omega, ih (by omega) (by omega) (by omega)⟩
    · rw [segmentsFrom_goes_on hend]
      refine ih (by omega) (by omega) fun hn0 => absurd (.inl ?_) hend
      omega

theorem segments_consecutive (c : Cfg) : Consecutive (numPasses c.p) 0 c.segments :=
  segmentsFrom_consecutive (Nat.le_refl _) (Nat.zero_le _) (by omega)

/-! ### CB.DECODE truncated at its start (46_coordinator.md R341, R345) -/

/-- The first segment starts with pass 0. -/
theorem segments_head (h : IsSegment c (3 * c.p - 2) 0 b) : ∃ l, c.segments = (0, b) :: l := by
  have hmem := mem_segments_iff.2 h
  have hcons := segments_consecutive c
  obtain ⟨-, hb, -, hend, hinner⟩ := h
  cases hsegs : c.segments with
  | nil => rw [hsegs] at hmem; cases hmem
  | cons ab l =>
    obtain ⟨x, y⟩ := ab
    rw [hsegs] at hcons
    obtain ⟨rfl, -, -, -⟩ := hcons
    obtain ⟨-, hy, -, hendy, hinnery⟩ := mem_segments_iff.1 (show (0, y) ∈ c.segments by rw [hsegs]; exact List.mem_cons_self)
    have hyb : y = b := by
      by_contra hne
      rcases Nat.lt_or_gt_of_ne hne with hlt | hgt
      · exact hinner y (Nat.zero_le y) hlt hendy
      · exact hinnery b (Nat.zero_le b) hgt hend
    exact ⟨l, by rw [hyb]⟩

section Decode

variable {s t : State}

/-- A segment that ends past SEGLEN is not started (R341). -/
theorem decodeSegments_truncated {u : SegUse} (h : s.cfg.seglen.toNat < u.hi) (rest : List SegUse) (done : Nat) :
    decodeSegments (u :: rest) done s = .ok (done, true) s := by
  rw [decodeSegments, see_bind, if_pos h]
  rfl

theorem part1Decode_of_ok {uses : List SegUse} {done : Nat} {trunc : Bool} (h : decodeSegments uses 0 s = .ok (done, trunc) t) :
    part1Decode uses s = endDecode done trunc (decide (t.cfg.npass.toNat < numPasses t.cfg.p)) t := by
  unfold part1Decode
  rw [bind_of_ok h]
  rfl

end Decode

/-- Settles O49: the first segment's end is tested before its decoder is started. -/
theorem cbDecodeTruncatedAtStart : Obligations.CbDecodeTruncatedAtStart := by
  intro s b e hshape hstyle hht hpos hn hin ⟨ends, hends, hsorted⟩ hseg hend hlt
  have hmax : s.cfg.npass.toNat ≤ s.cfg.maxPasses := by
    rw [Cfg.maxPasses, hht]
    exact hn
  obtain ⟨l, hsegs⟩ := segments_head hseg
  have hused : usedSegments s = (0, b) :: l.filter fun ab => ab.1 < s.cfg.npass.toNat := by
    unfold usedSegments
    rw [hsegs]
    exact List.filter_cons_of_pos (decide_eq_true hpos)
  obtain ⟨uses, huses⟩ : ∃ uses, part1Uses s = .ok (⟨0, b, 0, e⟩ :: uses) s := by
    have hrun := part1Uses_run hends
    rw [if_pos hsorted] at hrun
    rw [hused] at hends hrun
    cases ends with
    | nil => cases hends
    | cons e' ends =>
      obtain rfl : e = e' := Option.some.inj (hend.symm.trans (List.cons.inj hends).1)
      exact ⟨_, hrun⟩
  have hdecode := part1Decode_of_ok (decodeSegments_truncated (s := blockStarted s) (u := ⟨0, b, 0, e⟩) hlt uses 0)
  have hexec := (exec_cbDecode_part1 hshape hstyle hmax hin hht huses).trans (runCmd_congr hdecode)
  refine ⟨(decodeEnded (blockStarted s) 0 true true).mem, hexec.trans ((runCmd_endDecode _ _ _ _).trans ?_), fun i hi => ?_,
    decodeEnded_outside (s := blockStarted s) 0 true true⟩
  · cases htol : s.cfg.tolerate <;> simp [decodeEnded, htol, blockStarted]
  · have hcoef := decodeEnded_coef (s := blockStarted s) (done := 0) (trunc := true) (short := true) hi
    exact hcoef.trans (congrArg some (clearedArrays_value i))

end Sys2Proof.Proofs
end

section
/-!
PROOFS. CB.ENCODE of an HT block (46_coordinator.md R329): the bytes a list of EmitBytes leaves, in BYTE memory and past its end,
and HTCodec.encode's bytes as a block (O46).
-/
namespace Sys2Proof.Proofs

open Sys2Proof.Machine Sys2Proof.Laws

variable {s : State}

/-! ### A list of bytes emitted (20_memory.md R81) -/

/-- Memory once the bytes stand in BYTE from offset `off` on. -/
def bytesStored : Nat → List Byte → Memory → Memory
  | _, [], m => m
  | off, v :: l, m => bytesStored (off + 1) l (m.setByte (byteAddr off) v)

theorem bytesStored_outside (l : List Byte) (off : Nat) (m : Memory) {a : Nat}
    (ha : ¬ (byteAddr off ≤ a ∧ a < byteAddr (off + l.length))) : (bytesStored off l m).getByte a = m.getByte a := by
  induction l generalizing off m with
  | nil => rfl
  | cons v l ih =>
    rw [List.length_cons] at ha
    unfold byteAddr at ha
    rw [bytesStored, ih _ _ (by unfold byteAddr; omega), getByte_setByte, if_neg (by unfold byteAddr; omega)]

theorem bytesStored_getByte (l : List Byte) (off : Nat) (m : Memory) {j : Nat} (hj : j < l.length) :
    (bytesStored off l m).getByte (byteAddr (off + j)) = l[j]? := by
  induction l generalizing off m j with
  | nil => exact absurd hj (Nat.not_lt_zero _)
  | cons v l ih =>
    rw [bytesStored]
    cases j with
    | zero =>
      rw [bytesStored_outside _ _ _ (by unfold byteAddr; omega)]
      exact getByte_setByte_same _ _ _
    | succ j =>
      rw [Nat.add_comm j 1, ← Nat.add_assoc, ih _ _ (by simpa using hj), Nat.add_comm 1 j, List.getElem?_cons_succ]

/-- The state once the segment is longer by these bytes. -/
def emitted (s : State) (l : List Byte) : State :=
  { s with seg := { s.seg with bp := s.seg.bp + BitVec.ofNat 32 l.length }, mem := bytesStored s.seg.outOffset l s.mem }

theorem emitted_nil (s : State) : emitted s [] = s := by
  unfold emitted
  rw [List.length_nil, BitVec.add_zero]
  rfl

/-- One byte emitted inside BYTE memory, then a list of them. -/
theorem emitted_cons (v : Byte) (l : List Byte) (h : s.seg.outOffset < Config.byteCap) :
    ∃ t, emitByte v s = .ok () t ∧ t.seg.outOffset = s.seg.outOffset + 1 ∧ emitted t l = emitted s (v :: l) := by
  have hcap := byteCap_le
  have hbp : (s.seg.bp + 1#32).toNat = s.seg.bp.toNat + 1 := by
    unfold SegRegs.outOffset at h
    exact BitVec.toNat_add_of_lt (by show s.seg.bp.toNat + 1 < 2 ^ 32; omega)
  have hoff : SegRegs.outOffset { s.seg with bp := s.seg.bp + 1 } = s.seg.outOffset + 1 := by
    unfold SegRegs.outOffset
    exact congrArg (s.seg.start.toNat + ·) hbp
  refine ⟨_, by rw [emitByte_run, if_neg (Nat.not_le.2 h)], hoff, ?_⟩
  unfold emitted
  dsimp only
  rw [hoff, BitVec.add_assoc, List.length_cons, Nat.add_comm l.length 1, BitVec.ofNat_add]
  rfl

theorem forEach_emitByte_run (l : List Byte) (h : s.seg.outOffset + l.length ≤ Config.byteCap) :
    forEach l emitByte s = .ok () (emitted s l) := by
  induction l generalizing s with
  | nil => rw [emitted_nil]; rfl
  | cons v l ih =>
    rw [List.length_cons] at h
    obtain ⟨t, hrun, hoff, ht⟩ := emitted_cons v l (s := s) (by omega)
    rw [forEach_cons, bind_of_ok hrun, ← ht]
    exact ih (by omega)

/-- Bytes that do not fit: those that do stand in memory (60_exceptions.md R364). -/
theorem forEach_emitByte_overflow (l : List Byte) (hl : l ≠ []) (h : Config.byteCap < s.seg.outOffset + l.length) :
    forEach l emitByte s = .error (.err .overflow) (emitted s (l.take (Config.byteCap - s.seg.outOffset))) := by
  induction l generalizing s with
  | nil => exact absurd rfl hl
  | cons v l ih =>
    rw [List.length_cons] at h
    rw [forEach_cons]
    rcases Nat.lt_or_ge s.seg.outOffset Config.byteCap with hlt | hge
    · obtain ⟨t, hrun, hoff, ht⟩ := emitted_cons v (l.take (Config.byteCap - (s.seg.outOffset + 1))) hlt
      have hleft : Config.byteCap - s.seg.outOffset = Config.byteCap - (s.seg.outOffset + 1) + 1 := by omega
      rw [bind_of_ok hrun, hleft, List.take_succ_cons, ← ht, ← hoff]
      exact ih (List.ne_nil_of_length_pos (by omega)) (by omega)
    · rw [Nat.sub_eq_zero_of_le hge, List.take_zero, emitted_nil]
      exact bind_of_error (by rw [emitByte_run, if_pos hge]) _

/-! ### The coefficients of a block (46_coordinator.md R329) -/

/-- A legal coefficient's word stands for the coefficient. -/
theorem toInt_ofInt_of_legal {v : Int} {p : Nat} (hp : p ≤ 31) (h : v.natAbs < 2 ^ p) : (BitVec.ofInt 32 v).toInt = v := by
  have hpow : 2 ^ p ≤ 2 ^ 31 := Nat.pow_le_pow_right (by decide) hp
  rw [BitVec.toInt_ofInt, Int.bmod_eq_of_le] <;> omega

/-- The coefficients q of a block, legal and written: what the statements about HT blocks assume. -/
structure Coefs (s : State) (q : List Int) : Prop where
  length : q.length = s.cfg.w * s.cfg.h
  legal : ∀ v ∈ q, v.natAbs < 2 ^ s.cfg.p
  written : ∀ i v, q[i]? = some v → s.mem.getWord (coefAddr i) = some (BitVec.ofInt 32 v)

theorem Coefs.toInt {q : List Int} (hq : Coefs s q) {v : Int} (hv : v ∈ q) : (BitVec.ofInt 32 v).toInt = v :=
  toInt_ofInt_of_legal (cfg_p_le _) (hq.legal v hv)

theorem Coefs.coefsLegal {q : List Int} (hq : Coefs s q) : CoefsLegal s := by
  intro i hi
  rw [← hq.length] at hi
  have hmem : q[i] ∈ q := List.getElem_mem hi
  refine ⟨_, hq.written i q[i] (List.getElem?_eq_getElem hi), ?_⟩
  rw [hq.toInt hmem]
  exact hq.legal _ hmem

theorem Coefs.htBlock {q : List Int} (hq : Coefs s q) (hshape : s.cfg.badShape = false) (hp : 1 ≤ s.cfg.p) :
    HtBlock s.cfg.w s.cfg.h s.cfg.p q := by
  obtain ⟨hw, hh, hwh⟩ := shape_of_check hshape
  exact ⟨⟨hw, hh, hwh, hp, cfg_p_le _⟩, hq.length, hq.legal⟩

theorem readCoefs_run (l : List Int) (k : Nat)
    (h : ∀ i v, l[i]? = some v → s.mem.getWord (coefAddr (k + i)) = some (BitVec.ofInt 32 v) ∧ (BitVec.ofInt 32 v).toInt = v) :
    readCoefs l.length k s = .ok l s := by
  induction l generalizing k with
  | nil => rfl
  | cons v l ih =>
    obtain ⟨hword, hv⟩ := h 0 v rfl
    have hrest : readCoefs l.length (k + 1) s = .ok l s := ih (k + 1) fun i x hx => by
      have := h (i + 1) x hx
      rwa [show k + (i + 1) = k + 1 + i from by omega] at this
    have hread : memReadWord (coefAddr k) s = .ok (BitVec.ofInt 32 v) s := by rw [memReadWord_run, ← Nat.add_zero k, hword]
    rw [List.length_cons, readCoefs, bind_of_ok hread, bind_of_ok hrest, hv]
    rfl

theorem Coefs.readCoefs {q : List Int} (hq : Coefs s q) : readCoefs (s.cfg.w * s.cfg.h) 0 s = .ok q s := by
  rw [← hq.length]
  refine readCoefs_run q 0 fun i v hv => ⟨?_, hq.toInt (List.mem_of_getElem? hv)⟩
  rw [Nat.zero_add]
  exact hq.written i v hv

/-! ### HT_ENCODE (46_coordinator.md R329) -/

/-- HTCodec's bytes of the block. -/
def htBytes (c : Cfg) (q : List Int) : List Byte := htCodec.codec.encode c.w c.h c.p c.vcausal q

/-- A cleanup segment holds its Scup, so it is not empty (45_ht_block_coder.md R292). -/
theorem Coefs.htBytes_ne_nil {q : List Int} (hq : Coefs s q) (hshape : s.cfg.badShape = false) (hp : 1 ≤ s.cfg.p) :
    htBytes s.cfg q ≠ [] := by
  obtain ⟨hlo, hhi⟩ := htCodec.lawful.layout _ _ _ s.cfg.vcausal _ (hq.htBlock hshape hp)
  exact List.ne_nil_of_length_pos (by unfold htBytes; omega)

/-- The state in which HT_ENCODE emits its bytes. -/
def htOpened (s : State) : State := { s with seg := { s.seg with start := s.cfg.segbase, bp := 0 } }

theorem htOpened_outOffset (s : State) : (htOpened s).seg.outOffset = s.cfg.segbase.toNat := rfl

theorem htEncode_noPlanes (hp : s.cfg.p = 0) : htEncode s = endEncode 0 0 s := by
  unfold htEncode
  rw [see_bind, if_pos hp]

theorem htEncode_planes (hp : 1 ≤ s.cfg.p) {q : List Int} (hq : Coefs s q) :
    htEncode s = (do
      forEach (htBytes s.cfg q) emitByte
      memWriteWord (segtabAddr 0) (BitVec.ofNat 32 (htBytes s.cfg q).length)
      endEncode (BitVec.ofNat 32 (htBytes s.cfg q).length) 1) (htOpened s) := by
  unfold htEncode
  rw [see_bind, if_neg (by omega), bind_of_ok hq.readCoefs, bind_of_ok (latchSegbase_run s), updSeg_bind]
  rfl

/-- The state after an HT block whose bytes fit. -/
def htEncoded (s : State) (b : List Byte) : State := { s with
  status := { s.status with cmode := .idle }
  out := { s.out with nbytes := BitVec.ofNat 32 b.length, npassout := 1 }
  seg := { s.seg with start := s.cfg.segbase, bp := BitVec.ofNat 32 b.length }
  mem := (bytesStored s.cfg.segbase.toNat b s.mem).setWord (segtabAddr 0) (BitVec.ofNat 32 b.length) }

theorem htEncode_run (hp : 1 ≤ s.cfg.p) {q : List Int} (hq : Coefs s q)
    (hfit : s.cfg.segbase.toNat + (htBytes s.cfg q).length ≤ Config.byteCap) :
    htEncode s = .ok () (htEncoded s (htBytes s.cfg q)) := by
  rw [htEncode_planes hp hq, bind_of_ok (forEach_emitByte_run (s := htOpened s) _ hfit),
    bind_of_ok (memWriteWord_run _ _ _), endEncode_run]
  unfold emitted htEncoded
  rw [htOpened_outOffset]
  simp only [htOpened, BitVec.ofNat_eq_ofNat, BitVec.zero_add]

theorem htEncode_overflow (hshape : s.cfg.badShape = false) (hp : 1 ≤ s.cfg.p) {q : List Int} (hq : Coefs s q)
    (hfit : Config.byteCap < s.cfg.segbase.toNat + (htBytes s.cfg q).length) :
    htEncode s = .error (.err .overflow)
      (emitted (htOpened s) ((htBytes s.cfg q).take (Config.byteCap - s.cfg.segbase.toNat))) := by
  rw [htEncode_planes hp hq]
  exact bind_of_error (forEach_emitByte_overflow (s := htOpened s) _ (hq.htBytes_ne_nil hshape hp) hfit) _

/-- An HT block in CB.ENCODE. -/
theorem exec_cbEncode_ht (hshape : s.cfg.badShape = false) (hstyle : s.cfg.styleReserved = false) (hht : s.cfg.ht = true)
    {q : List Int} (hq : Coefs s q) : exec .cbEncode s = runCmd htEncode (blockStarted s) := by
  rw [exec_cbEncode hshape hstyle hq.coefsLegal, if_pos hht]

/-! ### What an HT block leaves in memory -/

theorem htEncoded_getByte (b : List Byte) {j : Nat} (hj : j < b.length) :
    (htEncoded s b).mem.getByte (byteAddr (s.cfg.segbase.toNat + j)) = b[j]? := by
  refine (getByte_setWord_out _ _ _ _ ?_).trans (bytesStored_getByte b _ _ hj)
  unfold segtabAddr byteAddr
  omega

theorem htEncoded_outside (b : List Byte) {a : Nat} (htab : ¬ (segtabAddr 0 ≤ a ∧ a < segtabAddr 1))
    (hbytes : ¬ (byteAddr s.cfg.segbase.toNat ≤ a ∧ a < byteAddr (s.cfg.segbase.toNat + b.length))) :
    (htEncoded s b).mem.getByte a = s.mem.getByte a := by
  refine (getByte_setWord_out _ _ _ _ ?_).trans (bytesStored_outside b _ _ hbytes)
  unfold segtabAddr at htab ⊢
  omega

/-- Settles O46: HTCodec's bytes, emitted one after the other. -/
theorem cbEncodeHt : Obligations.CbEncodeHt := by
  intro s q hshape hstyle hht hlen hlegal hwritten
  have hq : Coefs s q := ⟨hlen, hlegal, hwritten⟩
  have hexec := exec_cbEncode_ht hshape hstyle hht hq
  have hqb : Coefs (blockStarted s) q := ⟨hlen, hlegal, hwritten⟩
  refine ⟨fun hp => ?_, fun hp => ?_⟩
  · exact hexec.trans (runCmd_of_ok ((htEncode_noPlanes (s := blockStarted s) hp).trans (endEncode_run _ _ _)))
  · split_ifs with hfit
    · have hrun := htEncode_run (s := blockStarted s) hp hqb hfit
      exact ⟨_, hexec.trans (runCmd_of_ok hrun), fun j hj => htEncoded_getByte (s := blockStarted s) _ hj,
        getWord_setWord_same _ _ _, fun a htab hbytes => htEncoded_outside (s := blockStarted s) _ htab hbytes⟩
    · have hrun := htEncode_overflow (s := blockStarted s) hshape hp hqb (Nat.not_le.1 hfit)
      refine ⟨_, hexec.trans (runCmd_of_err hrun), rfl, fun j hj => ?_, fun a ha => ?_⟩
      · refine (bytesStored_getByte _ _ _ ?_).trans (List.getElem?_take_of_lt ?_)
        · rw [List.length_take]
          exact Nat.lt_min.2 ⟨by show j < _ - s.cfg.segbase.toNat; omega, by unfold htBytes; dsimp only [blockStarted_cfg]; omega⟩
        · show j < _ - s.cfg.segbase.toNat
          omega
      · refine bytesStored_outside _ _ _ ?_
        rw [htOpened_outOffset, List.length_take]
        unfold byteAddr at ha ⊢
        dsimp only [blockStarted_cfg]
        omega

end Sys2Proof.Proofs
end

section
/-!
PROOFS. CB.DECODE of an HT block (46_coordinator.md R347): the bytes it reads, the coefficients it stores (O50), and the round trip
with CB.ENCODE (O51).
-/
namespace Sys2Proof.Proofs

open Sys2Proof.Machine Sys2Proof.Laws

variable {s : State}

theorem readBytes_run {l : List Byte} {n base : Nat}
    (h : (List.range n).map (fun j => s.mem.getByte (byteAddr (base + j))) = l.map some) : readBytes n base s = .ok l s := by
  induction n generalizing l base with
  | zero =>
    obtain rfl : l = [] := by simpa using h.symm
    rfl
  | succ n ih =>
    rw [List.range_succ_eq_map, List.map_cons, List.map_map] at h
    cases l with
    | nil => cases h
    | cons v l =>
      obtain ⟨hfirst, hrest⟩ := List.cons.inj h
      have hnext : readBytes n (base + 1) s = .ok l s := by
        refine ih (hrest ▸ List.map_congr_left fun j _ => ?_)
        rw [Function.comp_apply, Nat.succ_eq_add_one, Nat.add_assoc, Nat.add_comm 1 j]
      rw [readBytes, bind_of_ok (a := v) (t := s) (by rw [memReadByte_run, ← Nat.add_zero base, hfirst]), bind_of_ok hnext]
      rfl

/-! ### The coefficients of HTCodec.decode (46_coordinator.md R347) -/

/-- The arrays with the coefficients k, k + 1, … as HTCodec returns them. -/
def htPuts : List HtCoef → Nat → Arrays → Arrays
  | [], _, r => r
  | x :: l, k, r => htPuts l (k + 1) (htPut k x r)

theorem storeHt_run (l : List HtCoef) (k : Nat) (s : State) : storeHt l k s = .ok () { s with arr := htPuts l k s.arr } := by
  induction l generalizing k s with
  | nil => rfl
  | cons x l ih =>
    unfold storeHt
    rw [updArr_bind]
    exact ih _ _

/-- Coefficient i of the arrays is x as HTCodec returns it. -/
def HoldsCoef (r : Arrays) (i : Nat) (x : HtCoef) : Prop :=
  magGet r.mag i = x.mag ∧ r.sgn.getLsbD i = x.neg ∧ r.sig.getLsbD i = !(x.mag == 0)

theorem holdsCoef_htPut_same {r : Arrays} (hr : sparseSorted r.mag) {k : Nat} (hk : k < 4096) (x : HtCoef) :
    HoldsCoef (htPut k x r) k x := by
  unfold HoldsCoef htPut
  dsimp only
  rw [magGet_magSet hr, getLsbD_bitPut _ _ _ _ hk, getLsbD_bitPut _ _ _ _ hk, if_pos rfl, if_pos rfl, if_pos rfl]
  exact ⟨rfl, rfl, rfl⟩

theorem holdsCoef_htPut_other {r : Arrays} (hr : sparseSorted r.mag) {i k : Nat} (hk : k < 4096) (hik : i ≠ k) {x y : HtCoef}
    (h : HoldsCoef r i y) : HoldsCoef (htPut k x r) i y := by
  unfold HoldsCoef htPut
  dsimp only
  rw [magGet_magSet hr, getLsbD_bitPut _ _ _ _ hk, getLsbD_bitPut _ _ _ _ hk, if_neg hik, if_neg hik, if_neg hik]
  exact h

theorem holdsCoef_htPuts_before {l : List HtCoef} {i k : Nat} {r : Arrays} (hr : sparseSorted r.mag) (hk : k + l.length ≤ 4096)
    (hik : i < k) {y : HtCoef} (h : HoldsCoef r i y) : HoldsCoef (htPuts l k r) i y := by
  induction l generalizing k r with
  | nil => exact h
  | cons x l ih =>
    rw [List.length_cons] at hk
    exact ih (sparseSorted_magSet hr _ _) (by omega) (by omega) (holdsCoef_htPut_other hr (by omega) (by omega) h)

theorem holdsCoef_htPuts {l : List HtCoef} {k : Nat} {r : Arrays} (hr : sparseSorted r.mag) (hk : k + l.length ≤ 4096) {i : Nat}
    {x : HtCoef} (hx : l[i]? = some x) : HoldsCoef (htPuts l k r) (k + i) x := by
  induction l generalizing k r i with
  | nil => cases hx
  | cons y l ih =>
    rw [List.length_cons] at hk
    have hsorted : sparseSorted (htPut k y r).mag := sparseSorted_magSet hr _ _
    cases i with
    | zero =>
      obtain rfl : y = x := Option.some.inj hx
      exact holdsCoef_htPuts_before hsorted (by omega) (by omega) (holdsCoef_htPut_same hr (by omega) y)
    | succ i =>
      have hnext := ih (k := k + 1) hsorted (by omega) hx
      rwa [show k + 1 + i = k + (i + 1) from by omega] at hnext

theorem htPuts_flags (l : List HtCoef) (k : Nat) (r : Arrays) :
    (htPuts l k r).visited = r.visited ∧ (htPuts l k r).refined = r.refined := by
  induction l generalizing k r with
  | nil => exact ⟨rfl, rfl⟩
  | cons x l ih => exact ih (k + 1) (htPut k x r)

/-- The arrays after a decode are these coefficients. -/
structure HoldsBlock (r : List HtCoef) (arr : Arrays) : Prop where
  visited : arr.visited = 0
  refined : arr.refined = 0
  coef : ∀ i x, r[i]? = some x → HoldsCoef arr i x

theorem holdsBlock_htPuts {r : List HtCoef} (h : r.length ≤ 4096) : HoldsBlock r (htPuts r 0 clearedArrays) := by
  obtain ⟨hvisited, hrefined⟩ := htPuts_flags r 0 clearedArrays
  refine ⟨hvisited, hrefined, fun i x hx => ?_⟩
  have := holdsCoef_htPuts (r := clearedArrays) (k := 0) List.Pairwise.nil (by omega) hx
  rwa [Nat.zero_add] at this

/-- Cleared arrays are all-zero coefficients (46_coordinator.md R345). -/
theorem holdsBlock_cleared (n : Nat) : HoldsBlock (List.replicate n ⟨0, false⟩) clearedArrays := by
  refine ⟨rfl, rfl, fun i x hx => ?_⟩
  obtain rfl := List.eq_of_mem_replicate (List.mem_of_getElem? hx)
  obtain ⟨hsig, hsgn, -, -, hmag⟩ := clearedArrays_zero i
  exact ⟨hmag, hsgn, hsig⟩

theorem HoldsCoef.value {r : Arrays} {i : Nat} {x : HtCoef} (h : HoldsCoef r i x) :
    r.value i = if x.neg then -(x.mag.zeroExtend 32) else x.mag.zeroExtend 32 := by
  obtain ⟨hmag, hsgn, -⟩ := h
  unfold Arrays.value
  rw [hmag, hsgn]

/-! ### HT_DECODE (46_coordinator.md R347) -/

/-- The passes done with the ends e0 and e1. -/
def htPasses (c : Cfg) (e0 e1 : Nat) : Nat :=
  if c.seglen.toNat < e0 then 0 else if c.seglen.toNat < e1 then 1 else c.npass.toNat

/-- What the passes done give: all-zero coefficients with none, else HTCodec's answer. -/
def htAnswer (c : Cfg) (done : Nat) (cup ref : List Byte) : HtDecoded :=
  if done = 0 then .ok (List.replicate (c.w * c.h) ⟨0, false⟩)
  else htCodec.codec.decode c.w c.h c.p c.vcausal (if c.npass.toNat = 1 then 0 else 1) done cup (if 2 ≤ done then ref else [])

theorem htDone_eq {c : Cfg} {e0 e1 : Nat} (hn : 1 ≤ c.npass.toNat) (hle : e0 ≤ e1) (hone : c.npass.toNat = 1 → e0 = e1) :
    htDone c.npass.toNat e0 e1 c.seglen.toNat = (htPasses c e0 e1, decide (c.seglen.toNat < e1)) := by
  unfold htDone htPasses
  rw [if_neg (by omega)]
  split_ifs with h0 h1 h2 h3
  · rw [decide_eq_true (by omega)]
  · exact absurd h2 (by have := hone h1; omega)
  · rw [decide_eq_false h2, h1]
  · rw [decide_eq_true h3]
  · rw [decide_eq_false h3]

/-- What HT_DECODE does with HTCodec's answer. -/
def htStore : HtDecoded → Cmd Unit
  | .malformed => raise .htMalformed
  | .ok r => storeHt r 0

/-- HTCodec.decode of the bytes that are read (R347). -/
theorem htDecodeBlock_run {e0 e1 done : Nat} {cup ref : List Byte} (hcup : readBytes e0 s.cfg.segbase.toNat s = .ok cup s)
    (href : 2 ≤ done → readBytes (e1 - e0) (s.cfg.segbase.toNat + e0) s = .ok ref s) :
    htDecodeBlock e0 e1 done s = htStore (htCodec.codec.decode s.cfg.w s.cfg.h s.cfg.p s.cfg.vcausal
      (if s.cfg.npass.toNat = 1 then 0 else 1) done cup (if 2 ≤ done then ref else [])) s := by
  unfold htDecodeBlock
  rw [see_bind, bind_of_ok hcup]
  by_cases htwo : 2 ≤ done
  · simp only [if_pos htwo]
    exact bind_of_ok (href htwo) _
  · simp only [if_neg htwo]
    rfl

/-- HT_DECODE once the number of passes done is known. -/
def htRest (e0 e1 done : Nat) (trunc : Bool) : Cmd Unit := do
  if 1 ≤ done then htDecodeBlock e0 e1 done else pure ()
  endDecode done trunc false

theorem htDecode_run {ends : Nat × Nat} {done : Nat} {trunc : Bool} (hn : 1 ≤ s.cfg.npass.toNat)
    (hdone : htDone s.cfg.npass.toNat ends.1 ends.2 s.cfg.seglen.toNat = (done, trunc)) :
    htDecode ends s = htRest ends.1 ends.2 done trunc s := by
  unfold htDecode htRest
  rw [see_bind, hdone, decide_eq_false (Nat.ne_of_gt hn), Bool.false_and]

/-- A valid HT block to decode, whose segments end at e0 and e1 and hold these bytes: what the statements about it assume. -/
structure HtInput (s : State) (e0 e1 : Nat) (cup ref : List Byte) : Prop where
  shape : s.cfg.badShape = false
  style : s.cfg.styleReserved = false
  ht : s.cfg.ht = true
  passes : 1 ≤ s.cfg.npass.toNat ∧ s.cfg.npass.toNat ≤ s.cfg.maxPasses
  inside : s.cfg.segbase.toNat + s.cfg.seglen.toNat ≤ Config.byteCap
  ends : htEnds s = .ok (e0, e1) s
  done : htDone s.cfg.npass.toNat e0 e1 s.cfg.seglen.toNat = (htPasses s.cfg e0 e1, decide (s.cfg.seglen.toNat < e1))
  cup : e0 ≤ s.cfg.seglen.toNat → (List.range e0).map (fun j => s.mem.getByte (byteAddr (s.cfg.segbase.toNat + j))) = cup.map some
  ref : e1 ≤ s.cfg.seglen.toNat →
    (List.range (e1 - e0)).map (fun j => s.mem.getByte (byteAddr (s.cfg.segbase.toNat + e0 + j))) = ref.map some

/-- The state a decode of `done` passes ends in, the arrays holding the block, the input truncated or not (R345). -/
def htDecoded (s : State) (arr : Arrays) (done : Nat) (tr : Bool) : State := { s with
  status := { s.status with cmode := .idle, partialRes := tr && s.cfg.tolerate, segmis := false, trunc := tr }
  out := { s.out with npassout := BitVec.ofNat 8 done }
  ctx := initialCtx, arr := arr, mem := coefsStored arr.value s.mem (s.cfg.w * s.cfg.h) }

section Input

variable {e0 e1 : Nat} {cup ref : List Byte} (h : HtInput s e0 e1 cup ref)
include h

/-- What the block is decoded to: nothing, or the answer of HTCodec. -/
theorem HtInput.block_run (hdone : 1 ≤ htPasses s.cfg e0 e1) : htDecodeBlock e0 e1 (htPasses s.cfg e0 e1) (blockStarted s) =
    htStore (htAnswer s.cfg (htPasses s.cfg e0 e1) cup ref) (blockStarted s) := by
  have hcup : readBytes e0 s.cfg.segbase.toNat (blockStarted s) = .ok cup (blockStarted s) := by
    refine readBytes_run (s := blockStarted s) (h.cup ?_)
    by_contra hlt
    unfold htPasses at hdone
    rw [if_pos (by omega)] at hdone
    omega
  have href (htwo : 2 ≤ htPasses s.cfg e0 e1) :
      readBytes (e1 - e0) (s.cfg.segbase.toNat + e0) (blockStarted s) = .ok ref (blockStarted s) := by
    refine readBytes_run (s := blockStarted s) (h.ref ?_)
    by_contra hlt
    unfold htPasses at htwo
    split_ifs at htwo <;> omega
  rw [htDecodeBlock_run hcup href, htAnswer, if_neg (Nat.ne_of_gt hdone)]
  rfl

theorem HtInput.exec : exec .cbDecode s = runCmd (htRest e0 e1 (htPasses s.cfg e0 e1) (decide (s.cfg.seglen.toNat < e1)))
    (blockStarted s) := by
  obtain ⟨hone, hmax⟩ := h.passes
  exact (exec_cbDecode_ht h.shape h.style hmax h.inside h.ht h.ends).trans
    (runCmd_congr (htDecode_run (s := blockStarted s) hone h.done))

theorem HtInput.exec_malformed (ha : htAnswer s.cfg (htPasses s.cfg e0 e1) cup ref = .malformed) :
    Machine.exec .cbDecode s = .next ((blockStarted s).takeError .htMalformed) := by
  have hdone : 1 ≤ htPasses s.cfg e0 e1 := by
    by_contra hzero
    unfold htAnswer at ha
    rw [if_pos (by omega)] at ha
    cases ha
  have hrun := h.block_run hdone
  rw [ha] at hrun
  rw [h.exec]
  unfold htRest
  rw [if_pos hdone]
  exact runCmd_of_err (bind_of_error hrun _)

theorem HtInput.answer_length {r : List HtCoef} (ha : htAnswer s.cfg (htPasses s.cfg e0 e1) cup ref = .ok r) :
    r.length = s.cfg.w * s.cfg.h := by
  unfold htAnswer at ha
  by_cases hzero : htPasses s.cfg e0 e1 = 0
  · rw [if_pos hzero] at ha
    cases ha
    exact List.length_replicate
  · rw [if_neg hzero] at ha
    have hpos : 1 ≤ (htDone s.cfg.npass.toNat e0 e1 s.cfg.seglen.toNat).1 := by
      rw [h.done]
      exact Nat.pos_of_ne_zero hzero
    have hcall := htDone_call h.shape h.ht h.passes.2 hpos
    rw [h.done] at hcall
    exact (htCodec.lawful.shape _ _ _ _ _ _ _ _ _ hcall ha).1

/-- The block ends with the coefficients of the answer in the arrays. -/
theorem HtInput.exec_ok {r : List HtCoef} (ha : htAnswer s.cfg (htPasses s.cfg e0 e1) cup ref = .ok r) :
    ∃ arr : Arrays, HoldsBlock r arr ∧ Machine.exec .cbDecode s =
      runCmd (endDecode (htPasses s.cfg e0 e1) (decide (s.cfg.seglen.toNat < e1)) false) { blockStarted s with arr := arr } := by
  by_cases hdone : 1 ≤ htPasses s.cfg e0 e1
  · obtain ⟨-, -, hwh⟩ := shape_of_check h.shape
    refine ⟨_, holdsBlock_htPuts (by rw [h.answer_length ha]; exact hwh), ?_⟩
    have hrun := h.block_run hdone
    rw [ha] at hrun
    rw [h.exec]
    unfold htRest
    rw [if_pos hdone]
    exact runCmd_congr (bind_of_ok (hrun.trans (storeHt_run _ _ _)) _)
  · refine ⟨clearedArrays, ?_, ?_⟩
    · unfold htAnswer at ha
      rw [if_pos (by omega)] at ha
      cases ha
      exact holdsBlock_cleared _
    · rw [h.exec]
      unfold htRest
      rw [if_neg hdone]
      rfl

omit h in
theorem decodeEnded_blockStarted (arr : Arrays) (done : Nat) (tr : Bool) :
    decodeEnded { blockStarted s with arr := arr } done tr false = htDecoded s arr done tr := by
  unfold decodeEnded htDecoded blockStarted
  cases tr <;> rfl

/-- What a decode that succeeds leaves (R345, R347, R348). -/
theorem HtInput.decoded {r : List HtCoef} (ha : htAnswer s.cfg (htPasses s.cfg e0 e1) cup ref = .ok r) :
    ∃ arr : Arrays,
      let tr := decide (s.cfg.seglen.toNat < e1)
      let t := htDecoded s arr (htPasses s.cfg e0 e1) tr
      Machine.exec .cbDecode s = .next (if tr = true ∧ s.cfg.tolerate = false then t.takeError .truncated else t.complete) ∧
      HoldsBlock r arr ∧
      ∀ i x, r[i]? = some x →
        t.mem.getWord (coefAddr i) = some (if x.neg then -(x.mag.zeroExtend 32) else x.mag.zeroExtend 32) := by
  obtain ⟨arr, hheld, hexec⟩ := h.exec_ok ha
  refine ⟨arr, hexec.trans ?_, hheld, fun i x hx => ?_⟩
  · rw [← decodeEnded_blockStarted]
    exact runCmd_endDecode _ _ _ _
  obtain ⟨hi, -⟩ := List.getElem?_eq_some_iff.1 hx
  rw [h.answer_length ha] at hi
  exact (coefsStored_getWord _ _ hi).trans (congrArg some (hheld.coef i x hx).value)

end Input

theorem HtInput.of_entries {v0 v1 : Word} {cup ref : List Byte} (hshape : s.cfg.badShape = false)
    (hstyle : s.cfg.styleReserved = false) (hht : s.cfg.ht = true) (hp : 1 ≤ s.cfg.p) (hn : 1 ≤ s.cfg.npass.toNat)
    (hmax : s.cfg.npass.toNat ≤ (if s.cfg.p = 1 then 1 else 3)) (hin : s.cfg.segbase.toNat + s.cfg.seglen.toNat ≤ Config.byteCap)
    (h0 : s.mem.getWord (segtabAddr 0) = some v0) (h1 : s.mem.getWord (segtabAddr (s.cfg.npass.toNat - 1)) = some v1)
    (hle : tabEnd s v0 ≤ tabEnd s v1)
    (hcup : tabEnd s v0 ≤ s.cfg.seglen.toNat →
      (List.range (tabEnd s v0)).map (fun j => s.mem.getByte (byteAddr (s.cfg.segbase.toNat + j))) = cup.map some)
    (href : tabEnd s v1 ≤ s.cfg.seglen.toNat →
      (List.range (tabEnd s v1 - tabEnd s v0)).map
        (fun j => s.mem.getByte (byteAddr (s.cfg.segbase.toNat + tabEnd s v0 + j))) = ref.map some) :
    HtInput s (tabEnd s v0) (tabEnd s v1) cup ref where
  shape := hshape
  style := hstyle
  ht := hht
  passes := ⟨hn, by rw [maxPasses_eq, if_neg (by omega), if_pos hht]; exact hmax⟩
  inside := hin
  ends := by rw [htEnds_run hn h0 h1, if_neg (Nat.not_lt.2 hle)]
  done := htDone_eq hn hle fun hone => by
    rw [hone, h0] at h1
    rw [Option.some.inj h1]
  cup := hcup
  ref := href

/-- Settles O50: HTCodec's answer, or none, is stored and the flags follow. -/
theorem cbDecodeHt : Obligations.CbDecodeHt := by
  intro s v0 v1 cup ref hshape hstyle hht hp hn hmax hin h0 h1 hle hcup href
  have h := HtInput.of_entries hshape hstyle hht hp hn hmax hin h0 h1 hle hcup href
  show match htAnswer s.cfg (htPasses s.cfg (tabEnd s v0) (tabEnd s v1)) cup ref with
    | .malformed => _
    | .ok r => _
  cases ha : htAnswer s.cfg (htPasses s.cfg (tabEnd s v0) (tabEnd s v1)) cup ref with
  | malformed => exact h.exec_malformed ha
  | ok r =>
    obtain ⟨arr, hexec, hheld, hcoef⟩ := h.decoded ha
    refine ⟨arr, _, hexec, hheld.visited, hheld.refined, fun i x hx => ?_, fun a ha => coefsStored_outside _ _ _ ha⟩
    obtain ⟨hmag, hsgn, hsig⟩ := hheld.coef i x hx
    exact ⟨hmag, hsgn, hsig, hcoef i x hx⟩

/-! ### The round trip (46_coordinator.md R349) -/

/-- Magnitude and sign of a legal coefficient give its word back. -/
theorem htCoefOf_word {v : Int} {p : Nat} (hp : p ≤ 31) (hv : v.natAbs < 2 ^ p) :
    (if (htCoefOf v).neg then -((htCoefOf v).mag.zeroExtend 32) else (htCoefOf v).mag.zeroExtend 32) = BitVec.ofInt 32 v := by
  have hpow : 2 ^ p ≤ 2 ^ 31 := Nat.pow_le_pow_right (by decide) hp
  have hmag : (BitVec.ofNat 31 v.natAbs).zeroExtend 32 = BitVec.ofInt 32 v.natAbs := by
    apply BitVec.eq_of_toNat_eq
    rw [BitVec.toNat_setWidth, BitVec.toNat_ofNat, BitVec.ofInt_natCast, BitVec.toNat_ofNat]
    omega
  unfold htCoefOf
  dsimp only
  rw [hmag]
  by_cases hneg : v < 0
  · rw [decide_eq_true hneg, if_pos rfl, ← BitVec.ofInt_neg]
    exact congrArg _ (by omega)
  · rw [decide_eq_false hneg, if_neg Bool.false_ne_true]
    exact congrArg _ (by omega)

/-- The host hands the block to CB.DECODE: NPASS ← NPASSOUT, SEGLEN ← NBYTES. -/
def handedBack (t : State) : State := { t with cfg := { t.cfg with npass := t.out.npassout, seglen := t.out.nbytes } }

/-- An HT block that was encoded and fits is a valid one to decode, of one segment. -/
theorem htInput_handedBack (hshape : s.cfg.badShape = false) (hstyle : s.cfg.styleReserved = false) (hht : s.cfg.ht = true)
    (hp : 1 ≤ s.cfg.p) {b : List Byte} (hfit : s.cfg.segbase.toNat + b.length ≤ Config.byteCap) :
    HtInput (handedBack (htEncoded s b).complete) b.length b.length b [] := by
  have hcap := byteCap_le
  have hlen : (handedBack (htEncoded s b).complete).cfg.seglen.toNat = b.length := by
    show (BitVec.ofNat 32 b.length).toNat = _
    rw [BitVec.toNat_ofNat, Nat.mod_eq_of_lt (by omega)]
  have hend : tabEnd (handedBack (htEncoded s b).complete) (handedBack (htEncoded s b).complete).cfg.seglen = b.length := by
    unfold tabEnd
    rw [ite_self, hlen]
  have hentry : (handedBack (htEncoded s b).complete).mem.getWord (segtabAddr 0) =
      some (handedBack (htEncoded s b).complete).cfg.seglen := getWord_setWord_same _ _ _
  have hin := HtInput.of_entries (cup := b) (ref := []) (s := handedBack (htEncoded s b).complete) hshape hstyle hht hp
    (Nat.le_refl 1) (by show 1 ≤ if s.cfg.p = 1 then 1 else 3; split_ifs <;> decide) (by rw [hlen]; exact hfit) hentry hentry
    (Nat.le_refl _)
  rw [hend, Nat.sub_self] at hin
  refine hin (fun _ => List.ext_getElem (by simp) fun j hj hj' => ?_) fun _ => rfl
  rw [List.getElem_map, List.getElem_range, List.getElem_map, ← List.getElem?_eq_getElem]
  exact htEncoded_getByte b (by simpa using hj)

/-- Settles O51: law HT-roundtrip on the bytes CB.ENCODE left. -/
theorem htBlockRoundTrip : Obligations.HtBlockRoundTrip := by
  intro s q hshape hstyle hht hp hlen hlegal hwritten
  have hq : Coefs s q := ⟨hlen, hlegal, hwritten⟩
  have hqb : Coefs (blockStarted s) q := ⟨hlen, hlegal, hwritten⟩
  have hexec := exec_cbEncode_ht hshape hstyle hht hq
  have hb : htCodec.codec.encode s.cfg.w s.cfg.h s.cfg.p s.cfg.vcausal q = htBytes s.cfg q := rfl
  rw [hb]
  by_cases hfit : s.cfg.segbase.toNat + (htBytes s.cfg q).length ≤ Config.byteCap
  case neg =>
    refine ⟨_, hexec.trans (runCmd_of_err (htEncode_overflow (s := blockStarted s) hshape hp hqb (Nat.not_le.1 hfit))), ?_⟩
    rw [if_neg hfit]
    rfl
  case pos =>
    refine ⟨_, hexec.trans (runCmd_of_ok (htEncode_run (s := blockStarted s) hp hqb hfit)), ?_⟩
    rw [if_pos hfit]
    have hin := htInput_handedBack (s := blockStarted s) hshape hstyle hht hp hfit
    have hnot : ¬ (handedBack (htEncoded (blockStarted s) (htBytes s.cfg q)).complete).cfg.seglen.toNat <
        (htBytes s.cfg q).length := by
      have hcap := byteCap_le
      show ¬ (BitVec.ofNat 32 _).toNat < _
      rw [BitVec.toNat_ofNat, Nat.mod_eq_of_lt] <;> omega
    have hdone : htPasses (handedBack (htEncoded (blockStarted s) (htBytes s.cfg q)).complete).cfg (htBytes s.cfg q).length
        (htBytes s.cfg q).length = 1 := by
      unfold htPasses
      rw [if_neg hnot, if_neg hnot]
      rfl
    have hanswer : htAnswer (handedBack (htEncoded (blockStarted s) (htBytes s.cfg q)).complete).cfg 1 (htBytes s.cfg q) [] =
        .ok (q.map htCoefOf) := htCodec.lawful.roundtrip _ _ _ s.cfg.vcausal _ (hq.htBlock hshape hp)
    rw [← hdone] at hanswer
    obtain ⟨arr, hdecode, -, hcoef⟩ := hin.decoded hanswer
    rw [decide_eq_false hnot] at hdecode hcoef
    refine ⟨_, hdecode, rfl, rfl, rfl, fun i v hv => ?_⟩
    rw [← htCoefOf_word (cfg_p_le _) (hlegal v (List.mem_of_getElem? hv))]
    exact hcoef i (htCoefOf v) (by rw [List.getElem?_map, hv]; rfl)

end Sys2Proof.Proofs
end

section
/-!
PROOFS. The coders and the passes see neither SEGTAB nor the registers the coordinator works with: `Mirrors c` says that c, from a
state that differs in these alone, does the same. So the passes a block runs are the passes a host runs (44_bitplane_coder.md R266).
-/
namespace Sys2Proof.Proofs

open Sys2Proof.Machine Sys2Proof.Laws

variable {α β : Type}

/-- The memories agree but for the first n entries of SEGTAB. -/
def Agree (n : Nat) (m m' : Memory) : Prop := ∀ a, ¬ (segtabAddr 0 ≤ a ∧ a < segtabAddr n) → m'.getByte a = m.getByte a

/-- The state x with the coder, the arrays and SEGMIS of s. -/
def mirrored (s x : State) : State :=
  { x with seg := s.seg, ctx := s.ctx, arr := s.arr, status := { x.status with segmis := s.status.segmis } }

/-- c does the same in a mirrored state: same answer, same coder, arrays and SEGMIS, memories that agree, and nothing else
changed. -/
def Mirrors (c : Cmd α) : Prop :=
  ∀ ⦃n : Nat⦄, n ≤ 128 → ∀ ⦃s t x : State⦄ ⦃a : α⦄, Agree n s.mem x.mem → c s = .ok a t →
    ∃ m, c (mirrored s x) = .ok a (mirrored t { x with mem := m }) ∧ Agree n t.mem m

/-! ### What keeps the agreement of memories -/

theorem Agree.setByte {n : Nat} {m m' : Memory} (h : Agree n m m') (a : Nat) (v : Byte) :
    Agree n (m.setByte a v) (m'.setByte a v) := by
  intro b hb
  rw [getByte_setByte, getByte_setByte, h b hb]

theorem Agree.getByte_byteAddr {n : Nat} {m m' : Memory} (h : Agree n m m') (hn : n ≤ 128) (j : Nat) :
    m'.getByte (byteAddr j) = m.getByte (byteAddr j) := h _ (by unfold segtabAddr byteAddr; omega)

theorem Agree.getWord_coefAddr {n : Nat} {m m' : Memory} (h : Agree n m m') (hn : n ≤ 128) (i : Nat) :
    m'.getWord (coefAddr i) = m.getWord (coefAddr i) :=
  getWord_congr fun j _ => h _ (by unfold segtabAddr coefAddr; omega)

/-! ### The rules -/

theorem Mirrors.pure (a : α) : Mirrors (Pure.pure a : Cmd α) := by
  intro n hn s t x b hm hrun
  cases hrun
  exact ⟨x.mem, rfl, hm⟩

theorem Mirrors.see {f : State → α} (h : ∀ s x, f (mirrored s x) = f s) : Mirrors (see f) := by
  intro n hn s t x b hm hrun
  cases hrun
  exact ⟨x.mem, congrArg (EStateM.Result.ok · (mirrored s x)) (h s x), hm⟩

theorem Mirrors.updSeg (f : SegRegs → SegRegs) : Mirrors (updSeg f) := by
  intro n hn s t x b hm hrun
  cases hrun
  exact ⟨x.mem, rfl, hm⟩

theorem Mirrors.updArr (f : Arrays → Arrays) : Mirrors (updArr f) := by
  intro n hn s t x b hm hrun
  cases hrun
  exact ⟨x.mem, rfl, hm⟩

theorem Mirrors.bind {c : Cmd α} {f : α → Cmd β} (hc : Mirrors c) (hf : ∀ a, Mirrors (f a)) : Mirrors (c >>= f) := by
  intro n hn s t x b hm hrun
  obtain ⟨a, u, hcs, hfu⟩ := bind_eq_ok.1 hrun
  obtain ⟨m, hcx, hmu⟩ := hc hn hm hcs
  obtain ⟨m', hfx, hmt⟩ := hf a hn (x := { x with mem := m }) hmu hfu
  exact ⟨m', (bind_of_ok hcx f).trans hfx, hmt⟩

theorem Mirrors.ite {p : Prop} [Decidable p] {c d : Cmd α} (hc : Mirrors c) (hd : Mirrors d) :
    Mirrors (if p then c else d) := by
  split <;> assumption

theorem Mirrors.raise (e : ErrCode) : Mirrors (raise e : Cmd α) := by
  intro n hn s t x b hm hrun
  cases hrun

theorem Mirrors.check (bad : Bool) (e : ErrCode) : Mirrors (check bad e) := .ite (.raise e) (.pure ())

theorem Mirrors.forEach {l : List β} {f : β → Cmd Unit} (h : ∀ x, Mirrors (f x)) : Mirrors (forEach l f) := by
  induction l with
  | nil => exact .pure ()
  | cons x l ih => exact .bind (h x) fun _ => ih

/-! ### Contexts, memory and bytes (20_memory.md R80, R81) -/

theorem setCtx_mirrors (cx : Label) (v : CtxEntry) : Mirrors (setCtx cx v) := by
  intro n hn s t x b hm hrun
  cases hrun
  exact ⟨x.mem, rfl, hm⟩

theorem setSegmis_mirrors : Mirrors setSegmis := by
  intro n hn s t x b hm hrun
  cases hrun
  exact ⟨x.mem, rfl, hm⟩

theorem memWriteByte_mirrors (a : Nat) (v : Byte) : Mirrors (memWriteByte a v) := by
  intro n hn s t x b hm hrun
  cases hrun
  exact ⟨_, rfl, hm.setByte a v⟩

/-- A look at memory that agreeing memories answer alike. -/
theorem Mirrors.seeMem {f : Memory → α} (h : ∀ {n : Nat} {m m' : Memory}, n ≤ 128 → Agree n m m' → f m' = f m) :
    Mirrors (Machine.see fun s => f s.mem) := by
  intro n hn s t x b hm hrun
  cases hrun
  exact ⟨x.mem, congrArg (EStateM.Result.ok · (mirrored s x)) (h hn hm), hm⟩

/-- A value read, or the fault of unwritten memory. -/
def readOut (v : Option α) : Cmd α :=
  match v with
  | some v => pure v
  | none => faultOut .engineReadUnwritten

theorem readOut_mirrors (v : Option α) : Mirrors (readOut v) := by
  cases v with
  | some v => exact .pure v
  | none =>
    intro n hn s t x b hm hrun
    cases hrun

theorem memReadByte_mirrors (j : Nat) : Mirrors (memReadByte (byteAddr j)) := by
  have hread : memReadByte (byteAddr j) = see (fun s => s.mem.getByte (byteAddr j)) >>= readOut := by
    funext s
    rw [memReadByte_run, see_bind]
    cases s.mem.getByte (byteAddr j) <;> rfl
  rw [hread]
  exact .bind (.seeMem fun hn hm => hm.getByte_byteAddr hn j) readOut_mirrors

theorem memReadWord_mirrors (i : Nat) : Mirrors (memReadWord (coefAddr i)) := by
  have hread : memReadWord (coefAddr i) = see (fun s => s.mem.getWord (coefAddr i)) >>= readOut := by
    funext s
    rw [memReadWord_run, see_bind]
    cases s.mem.getWord (coefAddr i) <;> rfl
  rw [hread]
  exact .bind (.seeMem fun hn hm => hm.getWord_coefAddr hn i) readOut_mirrors

theorem emitByte_mirrors (v : Byte) : Mirrors (emitByte v) :=
  .bind (.see fun _ _ => rfl) fun _ => .bind (.check _ _) fun _ => .bind (memWriteByte_mirrors _ _) fun _ => .updSeg _

theorem setLastByte_mirrors (v : Byte) : Mirrors (setLastByte v) :=
  .bind (.see fun _ _ => rfl) fun _ => .ite (memWriteByte_mirrors _ _) (.pure ())

theorem dropTrailingFF_mirrors : Mirrors dropTrailingFF :=
  .bind (.see fun _ _ => rfl) fun _ => .ite (.updSeg _) (.pure ())

theorem segByte_mirrors (i : Nat) : Mirrors (segByte i) :=
  .bind (.see fun _ _ => rfl) fun _ => .ite (.bind (memReadByte_mirrors _) fun _ => .pure _) (.pure _)

theorem countFill_mirrors (f : Bool) : Mirrors (countFill f) := .ite (.updSeg _) (.pure ())

/-! ### The MQ coder (42_mq_coder.md) -/

theorem stuffedOut_mirrors : Mirrors stuffedOut :=
  .bind (.updSeg _) fun _ => .bind (.see fun _ _ => rfl) fun _ => .bind (emitByte_mirrors _) fun _ => .updSeg _

theorem plainOut_mirrors : Mirrors plainOut :=
  .bind (.updSeg _) fun _ => .bind (.see fun _ _ => rfl) fun _ => .bind (emitByte_mirrors _) fun _ => .updSeg _

theorem byteOut_mirrors : Mirrors byteOut :=
  .bind (.see fun _ _ => rfl) fun _ => .ite stuffedOut_mirrors (.ite plainOut_mirrors
    (.bind (.updSeg _) fun _ => .bind (setLastByte_mirrors _) fun _ =>
      .ite (.bind (.updSeg _) fun _ => stuffedOut_mirrors) plainOut_mirrors))

theorem renormE_mirrors (n : Nat) : Mirrors (renormE n) := by
  induction n with
  | zero => exact .pure ()
  | succ n ih =>
    have hturn : Mirrors renormEStep :=
      .bind (.updSeg _) fun _ => .bind (.see fun _ _ => rfl) fun _ => .ite byteOut_mirrors (.pure ())
    exact .bind hturn fun _ => .bind (.see fun _ _ => rfl) fun _ => .ite (.pure ()) ih

/-- ENCODE (R166). -/
theorem mqEncode_mirrors (cx : Label) (d : Bool) : Mirrors (mqEncode cx d) := by
  have moved (v : CtxEntry) : Mirrors (do setCtx cx v; renormE 16) :=
    .bind (setCtx_mirrors cx v) fun _ => renormE_mirrors 16
  refine .bind (.see fun _ _ => rfl) fun e => .bind (.updSeg _) fun _ => .ite ?mps ?lps
  case mps =>
    exact .bind (.see fun _ _ => rfl) fun _ => .ite (.updSeg _)
      (.ite (.bind (.updSeg _) fun _ => moved _) (.bind (.updSeg _) fun _ => moved _))
  case lps =>
    exact .bind (.see fun _ _ => rfl) fun _ => .ite (.bind (.updSeg _) fun _ => moved _) (.bind (.updSeg _) fun _ => moved _)

/-- FLUSH (R169). -/
theorem mqFlush_mirrors : Mirrors mqFlush :=
  .bind (.updSeg _) fun _ => .bind (.updSeg _) fun _ => .bind byteOut_mirrors fun _ => .bind (.updSeg _) fun _ =>
    .bind byteOut_mirrors fun _ => dropTrailingFF_mirrors

theorem ertermLoop_mirrors (n : Nat) (k : Int) : Mirrors (ertermLoop n k) := by
  induction n generalizing k with
  | zero => exact .pure ()
  | succ n ih =>
    exact .ite (.bind (.updSeg _) fun _ => .bind (.updSeg _) fun _ => .bind byteOut_mirrors fun _ =>
      .bind (.see fun _ _ => rfl) fun _ => ih _) (.pure ())

/-- ERTERM (R175). -/
theorem mqErterm_mirrors : Mirrors mqErterm :=
  .bind (.see fun _ _ => rfl) fun _ => .bind (ertermLoop_mirrors _ _) fun _ => dropTrailingFF_mirrors

theorem byteInBody_mirrors : Mirrors byteInBody := by
  refine .bind (.see fun _ _ => rfl) fun _ => .bind (segByte_mirrors _) fun _ => .bind (segByte_mirrors _) fun _ =>
    .ite (.ite ?_ ?_) ?_
  all_goals exact .bind (.updSeg _) fun _ => .pure _

theorem byteIn_mirrors : Mirrors byteIn := .bind byteInBody_mirrors fun _ => countFill_mirrors _

/-- INITDEC (R181). -/
theorem mqInitDec_mirrors : Mirrors mqInitDec :=
  .bind (.updSeg _) fun _ => .bind (segByte_mirrors _) fun _ => .bind (.updSeg _) fun _ => .bind byteInBody_mirrors fun _ =>
    .bind (countFill_mirrors _) fun _ => .updSeg _

theorem renormD_mirrors (n : Nat) : Mirrors (renormD n) := by
  induction n with
  | zero => exact .pure ()
  | succ n ih =>
    have hturn : Mirrors renormDStep :=
      .bind (.see fun _ _ => rfl) fun _ => .ite (.bind byteIn_mirrors fun _ => .updSeg _) (.updSeg _)
    exact .bind hturn fun _ => .bind (.see fun _ _ => rfl) fun _ => .ite (.pure ()) ih

/-- DECODE (R185). -/
theorem mqDecode_mirrors (cx : Label) : Mirrors (mqDecode cx) := by
  have moved (v : CtxEntry) (d : Bool) : Mirrors (do setCtx cx v; renormD 16; pure d) :=
    .bind (setCtx_mirrors cx v) fun _ => .bind (renormD_mirrors 16) fun _ => .pure d
  refine .bind (.see fun _ _ => rfl) fun e => .bind (.updSeg _) fun _ => .bind (.see fun _ _ => rfl) fun _ => .ite ?lps ?mps
  case lps => exact .bind (.see fun _ _ => rfl) fun _ => .bind (.updSeg _) fun _ => moved _ _
  case mps => exact .bind (.updSeg _) fun _ => .bind (.see fun _ _ => rfl) fun _ => .ite (.pure _) (moved _ _)

/-! ### The raw coder (43_raw_bypass.md) -/

theorem emitAssembled_mirrors : Mirrors emitAssembled :=
  .bind (.see fun _ _ => rfl) fun _ => .bind (emitByte_mirrors _) fun _ => .updSeg _

/-- RAWPUT (R212). -/
theorem rawPut_mirrors (d : Bool) : Mirrors (rawPut d) :=
  .bind (.updSeg _) fun _ => .bind (.updSeg _) fun _ => .bind (.see fun _ _ => rfl) fun _ =>
    .ite (.bind emitAssembled_mirrors fun _ => .updSeg _) (.pure ())

theorem rawPad_mirrors (n : Nat) (b : Bool) : Mirrors (rawPad n b) := by
  induction n generalizing b with
  | zero => exact .pure ()
  | succ n ih => exact .bind (.updSeg _) fun _ => .bind (.updSeg _) fun _ => ih _

/-- RAWFLUSH (R213). -/
theorem rawFlush_mirrors : Mirrors rawFlush := by
  have hlast : Mirrors (do emitAssembled; updSeg fun r => { r with ct := 8, c := 0 }) :=
    .bind emitAssembled_mirrors fun _ => .updSeg _
  exact .bind (.see fun _ _ => rfl) fun _ => .ite
    (.bind (rawPad_mirrors _ _) fun _ => .bind emitAssembled_mirrors fun _ => .bind (.updSeg _) fun _ => dropTrailingFF_mirrors)
    dropTrailingFF_mirrors

/-- RAWGET (R217). -/
theorem rawGet_mirrors : Mirrors rawGet := by
  have htake : Mirrors takeBit := .bind (.updSeg _) fun _ => .see fun _ _ => rfl
  have hbyte : Mirrors rawByteIn := by
    refine .bind (.see fun _ _ => rfl) fun _ => .bind (segByte_mirrors _) fun _ => .ite (.ite ?_ ?_) ?_
    all_goals exact .bind (.updSeg _) fun _ => countFill_mirrors _
  exact .bind (.see fun _ _ => rfl) fun _ => .ite (.bind hbyte fun _ => htake) htake

/-! ### Decisions (44_bitplane_coder.md R232 to R236) -/

section Pass

variable (pa : PassArgs)

theorem coefBit_mirrors (i p : Nat) : Mirrors (coefBit i p) := .bind (memReadWord_mirrors _) fun _ => .pure _

theorem coefSign_mirrors (i : Nat) : Mirrors (coefSign i) := .bind (memReadWord_mirrors _) fun _ => .pure _

theorem code_mirrors (cx : Label) {e : Cmd Bool} (he : Mirrors e) : Mirrors (code pa cx e) := by
  unfold code
  cases pa.dir with
  | enc =>
    exact .bind he fun _ => .ite (.bind (rawPut_mirrors _) fun _ => .pure _) (.bind (mqEncode_mirrors _ _) fun _ => .pure _)
  | dec => exact .ite rawGet_mirrors (mqDecode_mirrors _)

theorem markMagBit_mirrors (i : Nat) : Mirrors (markMagBit pa i) := .ite (.updArr _) (.pure ())

theorem magBit_mirrors (i : Nat) (cx : Label) : Mirrors (magBit pa i cx) :=
  .bind (code_mirrors pa cx (coefBit_mirrors _ _)) fun _ =>
    .ite (.bind (markMagBit_mirrors pa i) fun _ => .pure _) (.pure _)

theorem signStep_mirrors (x y : Nat) : Mirrors (signStep pa x y) := by
  refine .ite (.bind (code_mirrors pa 0 (coefSign_mirrors _)) fun _ => .updArr _) ?_
  refine .bind (.see fun _ _ => rfl) fun k => .bind (code_mirrors pa k.1 ?_) fun _ => .updArr _
  exact .bind (coefSign_mirrors _) fun _ => .pure _

/-! ### The passes (44_bitplane_coder.md R237 to R239, R254) -/

theorem sppVisit_mirrors (xy : Nat × Nat) : Mirrors (sppVisit pa xy) :=
  .bind (.see fun _ _ => rfl) fun _ => .ite (.bind (magBit_mirrors pa _ _) fun _ => .bind (.updArr _) fun _ =>
    .ite (signStep_mirrors pa _ _) (.pure ())) (.pure ())

theorem mrpVisit_mirrors (xy : Nat × Nat) : Mirrors (mrpVisit pa xy) :=
  .bind (.see fun _ _ => rfl) fun _ => .ite (.bind (magBit_mirrors pa _ _) fun _ => .updArr _) (.pure ())

theorem cupVisit_mirrors (x y : Nat) : Mirrors (cupVisit pa x y) :=
  .bind (.see fun _ _ => rfl) fun _ =>
    .ite (.bind (magBit_mirrors pa _ _) fun _ => .ite (signStep_mirrors pa _ _) (.pure ())) (.pure ())

theorem columnBits_mirrors (x : Nat) (l : List Nat) : Mirrors (columnBits pa x l) := by
  induction l with
  | nil => exact .pure _
  | cons y l ih => exact .bind (coefBit_mirrors _ _) fun _ => .bind ih fun _ => .pure _

theorem columnRun_mirrors (x y0 : Nat) : Mirrors (columnRun pa x y0) := by
  unfold columnRun
  cases pa.dir with
  | enc => exact .bind (columnBits_mirrors pa _ _) fun _ => .pure _
  | dec => exact .pure _

theorem runPosition_mirrors (k : Nat) : Mirrors (runPosition pa k) :=
  .bind (code_mirrors pa 18 (.pure _)) fun _ => .bind (code_mirrors pa 18 (.pure _)) fun _ => .pure _

theorem runColumn_mirrors (x y0 : Nat) : Mirrors (runColumn pa x y0) :=
  .bind (columnRun_mirrors pa x y0) fun _ => .bind (code_mirrors pa 17 (.pure _)) fun _ =>
    .ite (.bind (runPosition_mirrors pa _) fun _ => .bind (markMagBit_mirrors pa _) fun _ =>
      .bind (signStep_mirrors pa _ _) fun _ => .pure _) (.pure _)

theorem cupColumn_mirrors (c : Nat × Nat) : Mirrors (cupColumn pa c) := by
  refine .bind (.bind (.see fun _ _ => rfl) fun _ => .ite (runColumn_mirrors pa _ _) (.pure _)) fun first => ?_
  cases first with
  | none => exact .pure ()
  | some y => exact .forEach fun _ => cupVisit_mirrors pa _ _

theorem segMark_mirrors : Mirrors (segMark pa) :=
  .bind (code_mirrors pa 18 (.pure _)) fun _ => .bind (code_mirrors pa 18 (.pure _)) fun _ =>
    .bind (code_mirrors pa 18 (.pure _)) fun _ => .bind (code_mirrors pa 18 (.pure _)) fun _ =>
      .ite setSegmis_mirrors (.pure ())

theorem spp_mirrors : Mirrors (spp pa) := .forEach fun _ => sppVisit_mirrors pa _

theorem mrp_mirrors : Mirrors (mrp pa) := .forEach fun _ => mrpVisit_mirrors pa _

theorem cup_mirrors : Mirrors (cup pa) :=
  .bind (.forEach fun _ => cupColumn_mirrors pa _) fun _ => .bind (.updArr _) fun _ => .ite (segMark_mirrors pa) (.pure ())

end Pass

end Sys2Proof.Proofs
end

section
/-!
PROOFS. One pass of a block, run by the coordinator and by a host (44_bitplane_coder.md R256, R261, R264, R266): the pass command
does what the coordinator's pass does, in a state that mirrors it.
-/
namespace Sys2Proof.Proofs

open Sys2Proof.Machine Sys2Proof.Laws

variable {s t u : State} {c : Cfg} {dir : Dir} {a k n : Nat}

/-! ### The commands of a host -/

theorem execAll_singleton (i : Instr) (s : State) : execAll [i] s = exec i s := by
  unfold execAll
  cases exec i s <;> rfl

/-- The commands of pass k with its MQ.RESETCTX (R264). -/
def passCommands (c : Cfg) (dir : Dir) (k : Nat) : List Instr :=
  passOf c dir k :: (if c.resetCtx then [.mqResetctx] else [])

theorem passesFrom_succ (c : Cfg) (dir : Dir) (a n : Nat) :
    passesFrom c dir a (n + 1) = passesFrom c dir a n ++ passCommands c dir (a + n) := by
  unfold passesFrom
  rw [List.range_succ, List.flatMap_append, List.flatMap_singleton]
  rfl

/-! ### A pass of the coordinator -/

/-- What the coordinator runs pass k with (R256, R261). -/
def blockArgs (c : Cfg) (dir : Dir) (k : Nat) : PassArgs := c.passArgs (passPlane c.p k) dir (passRaw c k)

/-- Pass k of a block with configuration c. -/
def passWith (c : Cfg) (dir : Dir) (k : Nat) : Cmd Unit :=
  match passType k with
  | .spp => spp (blockArgs c dir k)
  | .mrp => mrp (blockArgs c dir k)
  | .cup => cup (blockArgs c dir k)

theorem runPass_eq (dir : Dir) (k : Nat) (s : State) : runPass dir k s = passWith s.cfg dir k s := rfl

theorem passWith_mirrors (c : Cfg) (dir : Dir) (k : Nat) : Mirrors (passWith c dir k) := by
  unfold passWith
  cases passType k with
  | spp => exact spp_mirrors _
  | mrp => exact mrp_mirrors _
  | cup => exact cup_mirrors _

/-- The plane a pass command of a block carries. -/
theorem passPlane_toNat (hk : k < numPasses c.p) : (BitVec.ofNat 5 (c.p - 1 - (k + 2) / 3)).toNat = passPlane c.p k := by
  have hp := cfg_p_le c
  unfold numPasses at hk
  have hplane : passPlane c.p k = c.p - 1 - (k + 2) / 3 := by
    unfold passPlane
    split_ifs with h0
    · subst h0
      rfl
    · omega
  rw [hplane, BitVec.toNat_ofNat]
  omega

theorem passPlane_le (c : Cfg) (k : Nat) : passPlane c.p k ≤ 30 := by
  have hp := cfg_p_le c
  unfold passPlane
  split_ifs <;> omega

/-- The three forms of a pass of a block: its command and the pass it runs. -/
theorem passOf_cases (c : Cfg) (dir : Dir) (k : Nat) :
    (passOf c dir k = .bpcSpp (BitVec.ofNat 5 (c.p - 1 - (k + 2) / 3)) dir (passRaw c k) ∧
        passWith c dir k = spp (blockArgs c dir k)) ∨
      (passOf c dir k = .bpcMrp (BitVec.ofNat 5 (c.p - 1 - (k + 2) / 3)) dir (passRaw c k) ∧
        passWith c dir k = mrp (blockArgs c dir k)) ∨
      (passRaw c k = false ∧ passOf c dir k = .bpcCup (BitVec.ofNat 5 (c.p - 1 - (k + 2) / 3)) dir ∧
        passWith c dir k = cup (blockArgs c dir k)) := by
  unfold passOf passWith passRaw
  rw [passType_eq]
  by_cases h1 : k % 3 = 1
  · simp [h1]
  · by_cases h2 : k % 3 = 2
    · simp [h2]
    · simp [h1, h2]

/-- A pass that finds what it needs completes (R231). -/
theorem runPass_run (hshape : s.cfg.badShape = false)
    (hready : Ready (blockArgs s.cfg dir k) s.mem (passRoom s.cfg) s) :
    ∃ l t, runPass dir k s = .ok () t ∧ PassRun (passOf s.cfg dir k) (blockArgs s.cfg dir k) s t l := by
  obtain ⟨-, -, hg⟩ := shape_of_check hshape
  rw [runPass_eq]
  rcases passOf_cases s.cfg dir k with ⟨hi, hp⟩ | ⟨hi, hp⟩ | ⟨-, hi, hp⟩
  · rw [hi, hp]
    exact spp_passRun hg hready _ dir _
  · rw [hi, hp]
    exact mrp_passRun hg hready _ dir _
  · rw [hi, hp]
    exact cup_passRun hg hready _ dir rfl

/-- The pass command of a block, in its mode, runs the pass (R240). -/
theorem exec_passOf (hk : k < numPasses s.cfg.p) (hmode : s.status.cmode = passMode dir (passRaw s.cfg k))
    (hshape : s.cfg.badShape = false) (hrun : runPass dir k s = .ok () t) : exec (passOf s.cfg dir k) s = .next t.complete := by
  have hplane := passPlane_toNat hk
  have hfield : (BitVec.ofNat 5 (s.cfg.p - 1 - (k + 2) / 3)).toNat ≤ 30 := hplane ▸ passPlane_le _ _
  have hargs : s.cfg.passArgs (BitVec.ofNat 5 (s.cfg.p - 1 - (k + 2) / 3)).toNat dir (passRaw s.cfg k) =
      blockArgs s.cfg dir k := by
    rw [hplane]
    rfl
  rw [runPass_eq] at hrun
  rcases passOf_cases s.cfg dir k with ⟨hi, hp⟩ | ⟨hi, hp⟩ | ⟨hraw, hi, hp⟩
  · rw [hp, ← hargs] at hrun
    rw [hi]
    exact runCmd_pass_of_ok (i := .bpcSpp _ dir _) (decide_eq_true hfield) hmode hshape hrun
  · rw [hp, ← hargs] at hrun
    rw [hi]
    exact runCmd_pass_of_ok (i := .bpcMrp _ dir _) (decide_eq_true hfield) hmode hshape hrun
  · rw [hp, ← hargs, hraw] at hrun
    rw [hraw] at hmode
    rw [hi]
    exact runCmd_pass_of_ok (i := .bpcCup _ dir) (decide_eq_true hfield) hmode hshape hrun

/-! ### The same pass in a mirrored state -/

/-- The state after the MQ.RESETCTX of R264. -/
def afterReset (c : Cfg) (s : State) : State := { s with ctx := if c.resetCtx then initialCtx else s.ctx }

theorem resetAfterPass_run (s : State) : resetAfterPass s = .ok () (afterReset s.cfg s) := by
  unfold resetAfterPass afterReset
  rw [see_bind]
  split_ifs <;> rfl

theorem execAll_resetctx (c : Cfg) (s : State) :
    execAll (if c.resetCtx then [.mqResetctx] else []) s.complete = .next (afterReset c s).complete := by
  unfold afterReset
  split_ifs <;> rfl

/-- u is s for the coder, the arrays and SEGMIS, and its memory is that of s but for the first n SEGTAB entries; its configuration
is that of s but for the segment. -/
structure Twins (n : Nat) (s u : State) : Prop where
  state : u = mirrored s u
  mem : Agree n s.mem u.mem
  cfg : u.cfg = { s.cfg with segbase := u.cfg.segbase, seglen := u.cfg.seglen }

/-- A host pass, command by command, in a twin of the coordinator's state. -/
theorem Twins.execAll_pass (h : Twins n s u) (hn : n ≤ 128) (hk : k < numPasses s.cfg.p)
    (hmode : u.status.cmode = passMode dir (passRaw s.cfg k)) (hshape : s.cfg.badShape = false)
    (hrun : runPass dir k s = .ok () t) (hcfg : t.cfg = s.cfg) :
    ∃ v, execAll (passCommands u.cfg dir k) u = .next v ∧ Twins n (afterReset s.cfg t) v ∧
      v.cfg = u.cfg ∧ v.out = u.out ∧ v.status.err = u.status.err ∧ v.status.cmode = u.status.cmode := by
  obtain ⟨m, hmirror, hm⟩ := passWith_mirrors s.cfg dir k hn h.mem hrun
  rw [← h.state] at hmirror
  have hpass : passWith u.cfg dir k = passWith s.cfg dir k := by
    rw [h.cfg]
    rfl
  have hrunu : runPass dir k u = .ok () (mirrored t { u with mem := m }) := by
    rw [runPass_eq, hpass]
    exact hmirror
  have hexec := exec_passOf (s := u) (dir := dir) (k := k) (by rw [h.cfg]; exact hk) (by rw [hmode, h.cfg]; rfl)
    (by rw [h.cfg]; exact hshape) hrunu
  refine ⟨(afterReset u.cfg (mirrored t { u with mem := m })).complete, ?_, ?_⟩
  · unfold passCommands
    rw [execAll, hexec]
    exact execAll_resetctx _ _
  · have hreset : u.cfg.resetCtx = s.cfg.resetCtx := by
      rw [h.cfg]
      rfl
    unfold afterReset
    rw [hreset]
    exact ⟨⟨rfl, hm, by rw [hcfg]; exact h.cfg⟩, rfl, rfl, rfl, rfl⟩

end Sys2Proof.Proofs
end

section
/-!
PROOFS. The encoder's segments, one step at a time (44_bitplane_coder.md R263, 46_coordinator.md R325, R328): what a pass and a
termination emit, and the termination of the coordinator as a command of a host.
-/
namespace Sys2Proof.Proofs

open Sys2Proof.Machine Sys2Proof.Laws

variable {s t u : State} {c : Cfg} {a k n : Nat}

/-! ### What a pass emits -/

/-- A pass of a block is one of the three pass commands. -/
theorem passOf_isPassOf (c : Cfg) (dir : Dir) (k : Nat) :
    IsPassOf (passOf c dir k) (BitVec.ofNat 5 (c.p - 1 - (k + 2) / 3)) dir (passRaw c k) := by
  rcases passOf_cases c dir k with ⟨hi, -⟩ | ⟨hi, -⟩ | ⟨hraw, hi, -⟩
  · exact .inl hi
  · exact .inr (.inl hi)
  · exact .inr (.inr ⟨hraw, hi⟩)

/-- An encoding pass of a block with room for its bytes (44_bitplane_coder.md R237 to R239, R254). -/
structure EncodedPass (s t : State) : Prop where
  state : t = { s with seg := t.seg, ctx := t.ctx, arr := t.arr, mem := t.mem }
  emits : ∃ j ≤ passRoom s.cfg, Emits j (s.seg, s.mem) (t.seg, t.mem)
  mag : t.arr.mag = s.arr.mag

theorem encodePass_run (k : Nat) (hshape : s.cfg.badShape = false) (hcoefs : CoefsWritten s)
    (hroom : HasRoom s (passRoom s.cfg)) : ∃ t, runPass .enc k s = .ok () t ∧ EncodedPass s t := by
  have hword (j : Nat) (hj : j < s.cfg.w * s.cfg.h) : ∃ w, s.mem.getWord (coefAddr j) = some w :=
    Option.isSome_iff_exists.1 (hcoefs j hj)
  have hready : Ready (blockArgs s.cfg .enc k) s.mem (passRoom s.cfg) s :=
    ⟨fun _ => hroom, fun _ j hj => (hword j hj).imp fun w hw => ⟨hw, hw⟩, nofun⟩
  obtain ⟨l, t, hrun, hpass⟩ := runPass_run hshape hready
  have hlen : 3 * l.length ≤ passRoom s.cfg := hpass.length
  have hencoded : Encoded (passRaw s.cfg k) (passRoom s.cfg) s { t with arr := s.arr, status := s.status } :=
    (hpass.coded.encoded rfl (Nat.le_trans (Nat.add_le_add_left hlen _) hroom)).mono hlen
  have hplane : (blockArgs s.cfg .enc k).plane < 31 := Nat.lt_succ_of_le (passPlane_le _ _)
  have heffect := (passOf_isPassOf s.cfg .enc k).effect (p := replayOf (blockArgs s.cfg .enc k) s.mem) hplane
    (shape_of_check hshape).2.2 hpass.replay
  have hstate := hpass.state
  rw [(passOf_isPassOf s.cfg .enc k).missesMark_enc, Bool.or_false] at hstate
  exact ⟨t, hrun, hstate, hencoded.emits, heffect.magEnc nofun⟩

/-! ### Terminations (44_bitplane_coder.md R263) -/

/-- What ends a segment: the coder it was coded by, and the termination the style asks for. -/
def closer (raw pred : Bool) : Cmd Unit := if raw then rawFlush else if pred then mqErterm else mqFlush

/-- Its command. -/
def closerOf (raw pred : Bool) : Instr := if raw then .rawFlush else if pred then .mqErterm else .mqFlush

theorem closeSegment_eq (raw : Bool) (s : State) : closeSegment raw s = closer raw s.cfg.predictable s := by
  unfold closeSegment closer
  cases raw
  · rw [if_neg Bool.false_ne_true, see_bind]
    rfl
  · rfl

theorem closer_mirrors (raw pred : Bool) : Mirrors (closer raw pred) :=
  .ite rawFlush_mirrors (.ite mqErterm_mirrors mqFlush_mirrors)

theorem exec_closerOf {raw pred : Bool} (hmode : s.status.cmode = passMode .enc raw) (h : closer raw pred s = .ok () t) :
    exec (closerOf raw pred) s = .next (State.complete { t with
      status := { t.status with cmode := .idle }, out := { t.out with nbytes := t.seg.bp } }) := by
  have hmode' : needMode (passMode .enc raw) s = .ok () s := by rw [needMode_run, if_pos hmode]
  cases raw with
  | true => exact runCmd_of_ok ((bind_of_ok hmode' _).trans (bind_of_ok h _))
  | false =>
    cases pred with
    | true => exact runCmd_of_ok ((bind_of_ok hmode' _).trans (bind_of_ok h _))
    | false => exact runCmd_of_ok ((bind_of_ok hmode' _).trans (bind_of_ok h _))

theorem rawEmit_emits {x : SegRegs × Memory} (hroom : x.1.outOffset < Config.byteCap) (v : Byte) : Emits 1 x (rawEmit v x) := by
  have hcap := byteCap_le
  unfold SegRegs.outOffset at hroom
  refine ⟨rfl, ?_, fun b hb => ?_⟩
  · show (x.1.bp + 1).toNat = x.1.bp.toNat + 1
    bv_omega
  · have hend : (rawEmit v x).1.outOffset = x.1.outOffset + 1 := by
      unfold SegRegs.outOffset rawEmit
      dsimp only
      bv_omega
    rw [hend, openOffset_eq] at hb
    unfold SegRegs.outOffset at hb
    unfold byteAddr at hb
    show (x.2.setByte (byteAddr x.1.outOffset) v).getByte b = x.2.getByte b
    rw [getByte_setByte, if_neg (by unfold byteAddr SegRegs.outOffset; omega)]

/-- Each termination ends the segment after at most two bytes. -/
theorem closer_run (raw pred : Bool) (hroom : HasRoom s 2) :
    ∃ x, closer raw pred s = .ok () (withCoder s x) ∧ ∃ n ≤ 2, EndsSegment n (s.seg, s.mem) x := by
  unfold closer
  cases raw with
  | true =>
    have hlt : s.seg.outOffset < Config.byteCap := by
      unfold HasRoom at hroom
      omega
    by_cases hct : s.seg.ct.toNat < s.seg.fullCt.toNat
    · exact ⟨_, rawFlush_partial hct (by unfold HasRoom; omega), 1, by decide,
        (rawEmit_emits (x := (s.seg, s.mem)) hlt _).endsSegment rfl⟩
    · exact ⟨_, rawFlush_complete hct, 0, by decide, (Emits.refl (s.seg, s.mem)).endsSegment rfl⟩
  | false =>
    cases pred with
    | true => exact ⟨_, mqErterm_run (.inl hroom), mqErtermed_ends (x := (s.seg, s.mem)) hroom⟩
    | false => exact ⟨_, mqFlush_run hroom, 2, Nat.le_refl 2, mqFlushed_ends (x := (s.seg, s.mem)) hroom⟩

/-- The termination as a command of a host, in a twin of the coordinator's state. -/
theorem Twins.exec_closerOf (h : Twins n s u) (hn : n ≤ 128) {raw pred : Bool} (hmode : u.status.cmode = passMode .enc raw)
    (hrun : closer raw pred s = .ok () t) (hcfg : t.cfg = s.cfg) :
    ∃ v, exec (closerOf raw pred) u = .next v ∧ Twins n t v ∧ v.cfg = u.cfg ∧ v.status.err = u.status.err ∧
      v.out.nbytes = t.seg.bp := by
  obtain ⟨m, hmirror, hm⟩ := closer_mirrors raw pred hn h.mem hrun
  rw [← h.state] at hmirror
  exact ⟨_, Proofs.exec_closerOf hmode hmirror, ⟨rfl, hm, by rw [hcfg]; exact h.cfg⟩, rfl, rfl, rfl⟩

/-! ### The start of a segment (46_coordinator.md R325) -/

/-- The initialisation of a segment, as a command. -/
def openerOf (raw : Bool) : Instr := if raw then .rawInitenc else .mqInitenc

/-- The registers a segment starts with (42_mq_coder.md R162, 43_raw_bypass.md R220). -/
def openedRegs (raw : Bool) (r : SegRegs) : SegRegs :=
  if raw then { r with c := 0, ct := 8, b := 0, bp := 0 } else { r with a := 0x8000, c := 0, ct := 12, b := 0, bp := 0 }

/-- The state once a segment is open at this offset. -/
def segmentOpened (raw : Bool) (start : Word) (s : State) : State := { s with
  status := { s.status with cmode := passMode .enc raw }, seg := openedRegs raw { s.seg with start := start } }

theorem openSegment_run (raw : Bool) (total : Word) (s : State) :
    openSegment raw total s = .ok () (segmentOpened raw (s.cfg.segbase + total) s) := by
  cases raw <;> rfl

theorem exec_openerOf (raw : Bool) (s : State) :
    exec (openerOf raw) s = .next (segmentOpened raw s.cfg.segbase s).complete := by
  cases raw <;> rfl

theorem segmentOpened_bp (raw : Bool) (start : Word) (s : State) : (segmentOpened raw start s).seg.bp = 0 := by
  cases raw <;> rfl

theorem segmentOpened_start (raw : Bool) (start : Word) (s : State) : (segmentOpened raw start s).seg.start = start := by
  cases raw <;> rfl

theorem Twins.segmentOpened (h : Twins n s u) (raw : Bool) (start : Word) :
    Twins n (segmentOpened raw start s) (segmentOpened raw start u).complete := by
  have hseg : u.seg = s.seg := by
    rw [h.state]
    rfl
  refine ⟨?_, h.mem, h.cfg⟩
  unfold Proofs.segmentOpened
  rw [hseg]
  have hstate := h.state
  exact congrArg (fun v : State => State.complete { v with
    status := { v.status with cmode := passMode .enc raw }, seg := openedRegs raw { s.seg with start := start } }) hstate

/-! ### The host's segments (44_bitplane_coder.md R266) -/

theorem rawSegment_eq (c : Cfg) (a : Nat) : rawSegment c a = passRaw c a := by
  rw [Bool.eq_iff_iff, passRaw_iff]
  simp [rawSegment, and_assoc]

theorem segmentEncode_eq (c : Cfg) (a b : Nat) : segmentEncode c a b =
    openerOf (passRaw c a) :: passesFrom c .enc a (b + 1 - a) ++ [closerOf (passRaw c a) c.predictable] := by
  unfold segmentEncode
  rw [rawSegment_eq]
  rfl

/-- The host moves SEGBASE to the end of its segment. -/
def rebased (s : State) : State := { s with cfg := { s.cfg with segbase := s.cfg.segbase + s.out.nbytes } }

theorem hostEncode_cons {b : Nat} {rest : List (Nat × Nat)} (h : execAll (segmentEncode s.cfg a b) s = .next t)
    (herr : t.status.err = s.status.err) : hostEncode ((a, b) :: rest) s = hostEncode rest (rebased t) := by
  rw [hostEncode, h]
  exact if_pos herr

end Sys2Proof.Proofs
end

section
/-!
PROOFS. A pass of PART1_ENCODE (46_coordinator.md R328) beside a host that runs the block segment by segment
(44_bitplane_coder.md R266): where the block may write, what it leaves in SEGTAB, and a step for each pass and each termination.
-/
namespace Sys2Proof.Proofs

open Sys2Proof.Machine Sys2Proof.Laws

/-! ### Where a block may write -/

/-- Memory m is m₀ but for the block's SEGTAB entries and its first `written` bytes. -/
def BlockFrame (c : Cfg) (m₀ : Memory) (written : Nat) (m : Memory) : Prop :=
  ∀ a, ¬ (segtabAddr 0 ≤ a ∧ a < segtabAddr (numPasses c.p)) →
    ¬ (byteAddr c.segbase.toNat ≤ a ∧ a < byteAddr (c.segbase.toNat + written)) → m.getByte a = m₀.getByte a

theorem BlockFrame.mono {c : Cfg} {m₀ m : Memory} {written written' : Nat} (h : BlockFrame c m₀ written m)
    (hle : written ≤ written') : BlockFrame c m₀ written' m := fun a htab hbyte => h a htab (by unfold byteAddr at hbyte ⊢; omega)

theorem BlockFrame.bytes {c : Cfg} {m₀ m m' : Memory} {written lo hi : Nat} (h : BlockFrame c m₀ written m)
    (hlo : c.segbase.toNat ≤ lo) (hhi : hi ≤ c.segbase.toNat + written)
    (hm : ∀ a, ¬ (byteAddr lo ≤ a ∧ a < byteAddr hi) → m'.getByte a = m.getByte a) : BlockFrame c m₀ written m' :=
  fun a htab hbyte => (hm a (by unfold byteAddr at hbyte ⊢; omega)).trans (h a htab hbyte)

theorem BlockFrame.setSegtab {c : Cfg} {m₀ m : Memory} {written k : Nat} (h : BlockFrame c m₀ written m) (hk : k < numPasses c.p)
    (v : Word) : BlockFrame c m₀ written (m.setWord (segtabAddr k) v) :=
  fun a htab hbyte => (getByte_setWord_out _ _ _ _ (by unfold segtabAddr at htab ⊢; omega)).trans (h a htab hbyte)

theorem numPasses_le (c : Cfg) : numPasses c.p ≤ 128 := by
  have := cfg_p_le c
  unfold numPasses
  omega

/-- Every word of COEF stays. -/
theorem BlockFrame.coef {c : Cfg} {m₀ m : Memory} {written : Nat} (h : BlockFrame c m₀ written m) (i : Nat) (hi : i < 4096) :
    m.getWord (coefAddr i) = m₀.getWord (coefAddr i) := by
  have hnp := numPasses_le c
  exact getWord_congr fun j hj => h _ (by unfold segtabAddr coefAddr; omega) (by unfold byteAddr coefAddr; omega)

/-- The SEGTAB entries before entry k read the same. -/
def EntriesKept (k : Nat) (m m' : Memory) : Prop := ∀ j < k, m'.getWord (segtabAddr j) = m.getWord (segtabAddr j)

theorem entriesKept_of_bytes {m m' : Memory} {lo hi k : Nat} (hk : k ≤ 128)
    (hm : ∀ a, ¬ (byteAddr lo ≤ a ∧ a < byteAddr hi) → m'.getByte a = m.getByte a) : EntriesKept k m m' :=
  fun j hj => getWord_congr fun i hi => hm _ (by unfold byteAddr segtabAddr; omega)

theorem EntriesKept.trans {k : Nat} {m m' m'' : Memory} (h : EntriesKept k m m') (h' : EntriesKept k m' m'') :
    EntriesKept k m m'' := fun j hj => (h' j hj).trans (h j hj)

theorem entriesKept_setSegtab (m : Memory) (k : Nat) (v : Word) : EntriesKept k m (m.setWord (segtabAddr k) v) :=
  fun j hj => getWord_congr fun i hi => getByte_setWord_out _ _ _ _ (by unfold segtabAddr; omega)

theorem Agree.setSegtab {n k : Nat} {m m' : Memory} (h : Agree n m m') (hk : k < n) (v : Word) :
    Agree n (m.setWord (segtabAddr k) v) m' :=
  fun a ha => (h a ha).trans (getByte_setWord_out _ _ _ _ (by unfold segtabAddr at ha ⊢; omega)).symm

/-! ### The entries a block leaves in SEGTAB -/

/-- The entries of the passes from k on: 0xFFFFFFFF where a pass ends no segment, else segment ends in [lo, hi] that do not
fall. -/
def Entries (c : Cfg) (m : Memory) (k lo hi : Nat) : Prop :=
  ∀ j, k ≤ j → j < numPasses c.p →
    (¬ endsSegment c (numPasses c.p) j → m.getWord (segtabAddr j) = some 0xFFFFFFFF) ∧
    (endsSegment c (numPasses c.p) j → ∃ v ∈ m.getWord (segtabAddr j), lo ≤ v.toNat ∧ v.toNat ≤ hi ∧
      ∀ i, k ≤ i → i < j → endsSegment c (numPasses c.p) i → ∃ u ∈ m.getWord (segtabAddr i), u.toNat ≤ v.toNat)

section Entries

variable {c : Cfg} {m : Memory} {k lo hi : Nat}

theorem entries_nil (h : numPasses c.p ≤ k) : Entries c m k lo hi := fun j hkj hj => absurd hj (by omega)

theorem Entries.cons_open (h : Entries c m (k + 1) lo hi) (hopen : ¬ endsSegment c (numPasses c.p) k)
    (hk : m.getWord (segtabAddr k) = some 0xFFFFFFFF) : Entries c m k lo hi := by
  intro j hkj hj
  by_cases heq : k = j
  · subst heq
    exact ⟨fun _ => hk, fun hend => absurd hend hopen⟩
  · obtain ⟨hnot, hends⟩ := h j (by omega) hj
    refine ⟨hnot, fun hend => ?_⟩
    obtain ⟨v, hv, hlo, hhi, hbefore⟩ := hends hend
    refine ⟨v, hv, hlo, hhi, fun i hki hij hi => ?_⟩
    by_cases hik : k = i
    · exact absurd (hik ▸ hi) hopen
    · exact hbefore i (by omega) hij hi

theorem Entries.cons_end {v : Word} (h : Entries c m (k + 1) v.toNat hi) (hend : endsSegment c (numPasses c.p) k)
    (hk : m.getWord (segtabAddr k) = some v) (hlo : lo ≤ v.toNat) (hhi : v.toNat ≤ hi) : Entries c m k lo hi := by
  intro j hkj hj
  by_cases heq : k = j
  · subst heq
    exact ⟨fun hnot => absurd hend hnot, fun _ => ⟨v, hk, hlo, hhi, fun i hki hik => absurd hik (by omega)⟩⟩
  · obtain ⟨hnot, hends⟩ := h j (by omega) hj
    refine ⟨hnot, fun hendj => ?_⟩
    obtain ⟨w, hw, hvw, hwhi, hbefore⟩ := hends hendj
    refine ⟨w, hw, Nat.le_trans hlo hvw, hwhi, fun i hki hij hi => ?_⟩
    by_cases hik : k = i
    · exact ⟨v, hik ▸ hk, hvw⟩
    · exact hbefore i (by omega) hij hi

end Entries

/-! ### The coordinator between two passes -/

/-- A block of configuration c that started with memory m₀: legal, its coefficients written, with room for what it can emit. -/
structure BlockSetting (c : Cfg) (m₀ : Memory) : Prop where
  shape : c.badShape = false
  coefs : ∀ i < c.w * c.h, (m₀.getWord (coefAddr i)).isSome = true
  room : c.segbase.toNat + blockRoom c ≤ Config.byteCap

/-- Between two segments: the block has `used` bytes, at most `limit`, and one after them may have been dropped. -/
structure BlockAt (c : Cfg) (m₀ : Memory) (limit used : Nat) (s : State) : Prop where
  cfg : s.cfg = c
  used_le : used ≤ limit
  frame : BlockFrame c m₀ (used + 1) s.mem

/-- The bytes a block has emitted at most before pass k. -/
def roomBefore (c : Cfg) (k : Nat) : Nat := k * (passRoom c + 2)

theorem roomBefore_succ (c : Cfg) (k : Nat) : roomBefore c (k + 1) = roomBefore c k + passRoom c + 2 := by
  unfold roomBefore
  rw [Nat.succ_mul, Nat.add_assoc]

theorem roomBefore_le (c : Cfg) {k : Nat} (hk : k ≤ numPasses c.p) : roomBefore c k ≤ blockRoom c :=
  Nat.mul_le_mul_right _ hk

/-- In a segment that starts `total` bytes into the block and has emitted what its MQ_BP says. -/
structure SegmentOpen (c : Cfg) (m₀ : Memory) (limit : Nat) (total : Word) (s : State) : Prop where
  cfg : s.cfg = c
  used_le : total.toNat + s.seg.bp.toNat ≤ limit
  frame : BlockFrame c m₀ (total.toNat + max 1 s.seg.bp.toNat) s.mem
  start : s.seg.start = c.segbase + total

section Setting

variable {c : Cfg} {m₀ : Memory} (hset : BlockSetting c m₀) {limit used a k : Nat} {total : Word} {s t u : State}
include hset

theorem SegmentOpen.coefsWritten (h : SegmentOpen c m₀ limit total s) : CoefsWritten s := by
  obtain ⟨-, -, hwh⟩ := shape_of_check hset.shape
  intro i hi
  rw [h.cfg] at hi
  rw [h.frame.coef i (by omega)]
  exact hset.coefs i hi

theorem segbase_add (h : total.toNat ≤ blockRoom c) : (c.segbase + total).toNat = c.segbase.toNat + total.toNat := by
  have hroom := hset.room
  have hcap := byteCap_le
  exact BitVec.toNat_add_of_lt (by omega)

theorem SegmentOpen.outOffset (h : SegmentOpen c m₀ limit total s) (hlimit : limit ≤ blockRoom c) :
    s.seg.outOffset = c.segbase.toNat + (total.toNat + s.seg.bp.toNat) := by
  have hle := h.used_le
  unfold SegRegs.outOffset
  rw [h.start, segbase_add hset (by omega), Nat.add_assoc]

theorem SegmentOpen.hasRoom (h : SegmentOpen c m₀ limit total s) (n : Nat) (hlimit : limit + n ≤ blockRoom c) : HasRoom s n := by
  have hle := h.used_le
  have hroom := hset.room
  unfold HasRoom
  rw [h.outOffset hset (by omega)]
  omega

theorem SegmentOpen.openOffset_ge (h : SegmentOpen c m₀ limit total s) (hlimit : limit ≤ blockRoom c) :
    c.segbase.toNat ≤ s.seg.openOffset := by
  have hle := h.used_le
  rw [openOffset_eq, h.start, segbase_add hset (by omega)]
  omega

/-- A pass in the open segment. -/
theorem SegmentOpen.pass (h : SegmentOpen c m₀ limit total s) (k : Nat) (hlimit : limit + passRoom c ≤ blockRoom c) :
    ∃ t, runPass .enc k s = .ok () t ∧ EncodedPass s t ∧ SegmentOpen c m₀ (limit + passRoom c) total t ∧
      EntriesKept 128 s.mem t.mem := by
  obtain ⟨t, hrun, hpass⟩ := encodePass_run k (s := s) (by rw [h.cfg]; exact hset.shape) (h.coefsWritten hset)
    (by rw [h.cfg]; exact h.hasRoom hset _ hlimit)
  obtain ⟨j, hj, hemit⟩ := hpass.emits
  rw [h.cfg] at hj
  have hle := h.used_le
  have hbp : t.seg.bp.toNat = s.seg.bp.toNat + j := hemit.bp
  have hout : t.seg.outOffset = s.seg.outOffset + j := hemit.outOffset
  rw [h.outOffset hset (by omega)] at hout
  have hcfg : t.cfg = c := by
    rw [hpass.state]
    exact h.cfg
  have hframe : BlockFrame c m₀ (total.toNat + max 1 t.seg.bp.toNat) t.mem :=
    (h.frame.mono (by omega)).bytes (h.openOffset_ge hset (by omega)) (by show t.seg.outOffset ≤ _; omega) hemit.outside
  exact ⟨t, hrun, hpass, ⟨hcfg, by omega, hframe, hemit.start.trans h.start⟩, entriesKept_of_bytes (Nat.le_refl _) hemit.outside⟩

/-- The end of the open segment. -/
theorem SegmentOpen.close (h : SegmentOpen c m₀ limit total s) (raw : Bool) (hlimit : limit + 2 ≤ blockRoom c) :
    ∃ x, closer raw c.predictable s = .ok () (withCoder s x) ∧ (total + x.1.bp).toNat = total.toNat + x.1.bp.toNat ∧
      BlockAt c m₀ (limit + 2) (total + x.1.bp).toNat (withCoder s x) ∧ EntriesKept 128 s.mem x.2 := by
  obtain ⟨x, hrun, n, hn, hends⟩ := closer_run raw c.predictable (h.hasRoom hset 2 hlimit)
  have hle := h.used_le
  have hroom := hset.room
  have hcap := byteCap_le
  have hbp_le : x.1.bp.toNat ≤ s.seg.bp.toNat + n := hends.bp_le
  have hle_bp : s.seg.bp.toNat + n ≤ x.1.bp.toNat + 1 := hends.le_bp
  have hsum : (total + x.1.bp).toNat = total.toNat + x.1.bp.toNat := BitVec.toNat_add_of_lt (by omega)
  have hout := h.outOffset hset (by omega)
  have hframe : BlockFrame c m₀ (total.toNat + x.1.bp.toNat + 1) x.2 :=
    (h.frame.mono (by omega)).bytes (h.openOffset_ge hset (by omega)) (by show s.seg.outOffset + n ≤ _; omega) hends.outside
  exact ⟨x, hrun, hsum, ⟨h.cfg, by omega, hsum ▸ hframe⟩, entriesKept_of_bytes (Nat.le_refl _) hends.outside⟩

end Setting

/-! ### A host beside the coordinator -/

/-- Between two segments: the host is where the coordinator is, with SEGBASE at the end of the last segment. -/
structure HostAt (c : Cfg) (total : Word) (s u : State) : Prop where
  twins : Twins (numPasses c.p) s u
  cfg : u.cfg = { c with segbase := c.segbase + total }

/-- In a segment of first pass a, before pass k: the host has run its first commands, from u₀ on. -/
structure HostOpen (c : Cfg) (a k : Nat) (total : Word) (s u₀ u : State) : Prop extends HostAt c total s u where
  cfg₀ : u₀.cfg = u.cfg
  mode : u.status.cmode = passMode .enc (passRaw c a)
  err : u.status.err = u₀.status.err
  run : execAll (openerOf (passRaw c a) :: passesFrom c .enc a (k - a)) u₀ = .next u

section Host

variable {c : Cfg} {a k : Nat} {total : Word} {s t u₀ u : State}

theorem HostAt.opened (h : HostAt c total s u) (k : Nat) :
    ∃ v, HostOpen c k k total (segmentOpened (passRaw c k) (c.segbase + total) s) u v := by
  have hbase : u.cfg.segbase = c.segbase + total := by rw [h.cfg]
  have htwins := h.twins.segmentOpened (passRaw c k) (c.segbase + total)
  refine ⟨_, ⟨htwins, h.cfg⟩, rfl, rfl, rfl, ?_⟩
  rw [execAll, exec_openerOf, hbase, Nat.sub_self]
  rfl

theorem HostOpen.pass (h : HostOpen c a k total s u₀ u) (hs : s.cfg = c) (hshape : c.badShape = false) (hk : k < numPasses c.p)
    (hak : a ≤ k) (hraw : passRaw c k = passRaw c a) (hrun : runPass .enc k s = .ok () t) (ht : t.cfg = s.cfg) :
    ∃ v, HostOpen c a (k + 1) total (afterReset c t) u₀ v := by
  subst hs
  obtain ⟨v, hexec, htwins, hcfg, -, herr, hmode⟩ := h.twins.execAll_pass (numPasses_le _) hk (h.mode.trans (by rw [hraw]))
    hshape hrun ht
  refine ⟨v, ⟨htwins, hcfg.trans h.cfg⟩, h.cfg₀.trans hcfg.symm, hmode.trans h.mode, herr.trans h.err, ?_⟩
  have hstep : passesFrom s.cfg .enc a (k + 1 - a) = passesFrom s.cfg .enc a (k - a) ++ passCommands u.cfg .enc k := by
    rw [show k + 1 - a = k - a + 1 from by omega, passesFrom_succ, show a + (k - a) = k from by omega, h.cfg]
    rfl
  rw [hstep, ← List.cons_append, execAll_append _ _ h.run]
  exact hexec

/-- The host ends its segment where the coordinator does. -/
theorem HostOpen.close (h : HostOpen c a (k + 1) total s u₀ u)
    (hrun : closer (passRaw c a) c.predictable s = .ok () t) (ht : t.cfg = s.cfg) :
    ∃ v, (∀ rest, hostEncode ((a, k) :: rest) u₀ = hostEncode rest v) ∧ HostAt c (total + t.seg.bp) t v := by
  obtain ⟨v, hexec, htwins, hcfg, herr, hnbytes⟩ := h.twins.exec_closerOf (numPasses_le _) h.mode hrun ht
  have hstyle : u₀.cfg = { c with segbase := c.segbase + total } := h.cfg₀.trans h.cfg
  have hsegment : execAll (segmentEncode u₀.cfg a k) u₀ = .next v := by
    rw [hstyle, segmentEncode_eq]
    show execAll (openerOf (passRaw c a) :: passesFrom c .enc a (k + 1 - a) ++ [closerOf (passRaw c a) c.predictable]) u₀ = _
    rw [execAll_append _ _ h.run, execAll_singleton, hexec]
  refine ⟨rebased v, fun rest => hostEncode_cons hsegment (herr.trans h.err), ⟨⟨?_, htwins.mem, ?_⟩, ?_⟩⟩
  · exact congrArg (fun w : State => { w with cfg := { w.cfg with segbase := w.cfg.segbase + w.out.nbytes } }) htwins.state
  · have hv := htwins.cfg
    exact congrArg (fun d : Cfg => { d with segbase := d.segbase + v.out.nbytes }) hv
  · show { v.cfg with segbase := v.cfg.segbase + v.out.nbytes } = _
    rw [hcfg, h.cfg, hnbytes, BitVec.add_assoc]

end Host

end Sys2Proof.Proofs
end

section
/-!
PROOFS. The induction over the passes of PART1_ENCODE (46_coordinator.md R328), and CB.ENCODE of a Part 1 block (O45).
-/
namespace Sys2Proof.Proofs

open Sys2Proof.Machine Sys2Proof.Laws

variable {c : Cfg} {m₀ : Memory} {n k a np limit : Nat} {total hi : Word} {s s' t u u₀ v : State} {segs : List (Nat × Nat)}

/-! ### One turn of PART1_ENCODE -/

theorem encodePasses_closed (np n : Nat) (total : Word) (s : State) : encodePasses np (n + 1) total false s =
    encodePasses np (n + 1) total true
      (segmentOpened (passRaw s.cfg (np - (n + 1))) (s.cfg.segbase + total) s) := by
  unfold encodePasses
  rw [see_bind, see_bind, if_pos rfl, if_neg Bool.false_ne_true, bind_of_ok (openSegment_run _ _ _)]
  rfl

/-- A pass that ends no segment: its entry is 0xFFFFFFFF. -/
theorem encodePasses_goes_on (hk : np - (n + 1) = k) (hrun : runPass .enc k s = .ok () t) (ht : t.cfg = s.cfg)
    (hend : ¬ endsSegment s.cfg np k) : encodePasses np (n + 1) total true s = encodePasses np n total true
      { afterReset s.cfg t with mem := t.mem.setWord (segtabAddr k) 0xFFFFFFFF } := by
  rw [encodePasses, see_bind, hk, if_pos rfl]
  dsimp only
  rw [bind_of_ok hrun, bind_of_ok (resetAfterPass_run t),
    if_neg (mt passTerminates_iff.1 hend), bind_of_ok (memWriteWord_run _ _ _), ht]
  rfl

/-- A pass that ends its segment: its entry is the end. -/
theorem encodePasses_ends (hk : np - (n + 1) = k) (hrun : runPass .enc k s = .ok () t) (ht : t.cfg = s.cfg)
    (hend : endsSegment s.cfg np k) (hclose : closer (passRaw s.cfg k) s.cfg.predictable (afterReset s.cfg t) = .ok () v) :
    encodePasses np (n + 1) total true s = encodePasses np n (total + v.seg.bp) false
      { v with mem := v.mem.setWord (segtabAddr k) (total + v.seg.bp) } := by
  have hclose' : closeSegment (passRaw s.cfg k) (afterReset t.cfg t) = .ok () v := by
    rw [closeSegment_eq, ht]
    rw [← ht] at hclose ⊢
    exact hclose
  rw [encodePasses, see_bind, hk, if_pos rfl]
  dsimp only
  rw [bind_of_ok hrun, bind_of_ok (resetAfterPass_run t),
    if_pos (passTerminates_iff.2 hend), bind_of_ok hclose', see_bind, bind_of_ok (memWriteWord_run _ _ _)]

/-! ### What the passes from k on leave -/

/-- Besides the coder, the arrays and memory only CMODE may differ. -/
def EncodeFrame (s t : State) : Prop :=
  t = { s with status := { s.status with cmode := t.status.cmode }, seg := t.seg, ctx := t.ctx, arr := t.arr, mem := t.mem }

theorem EncodeFrame.trans (h : EncodeFrame s t) (h' : EncodeFrame t u) : EncodeFrame s u := by
  unfold EncodeFrame at *
  rw [h] at h'
  exact h'

theorem EncodedPass.frame (h : EncodedPass s t) : EncodeFrame s t := by
  have ht := h.state
  unfold EncodeFrame
  rw [ht]

/-- The passes from k on, whose segments are `segs`, take the coordinator from s to s' with `hi` bytes in the block, and the host
from u on through the same segments: the SEGTAB entries, and what each of the two leaves. -/
structure PassesEncoded (c : Cfg) (m₀ : Memory) (k lo : Nat) (segs : List (Nat × Nat)) (s u s' : State) (hi : Word) : Prop where
  state : EncodeFrame s s'
  mag : s'.arr.mag = s.arr.mag
  block : BlockAt c m₀ (blockRoom c) hi.toNat s'
  lo_le : lo ≤ hi.toNat
  kept : EntriesKept k s.mem s'.mem
  entries : Entries c s'.mem k lo hi.toNat
  none : numPasses c.p ≤ k → hi.toNat = lo
  last : k < numPasses c.p → s'.mem.getWord (segtabAddr (numPasses c.p - 1)) = some hi
  host : ∃ u', hostEncode segs u = some u' ∧ Twins (numPasses c.p) s' u'
  segmentEnds : ∀ l ab rest, segs = l ++ ab :: rest →
    ∃ v, hostEncode (l ++ [ab]) u = some v ∧ s'.mem.getWord (segtabAddr ab.2) = some (v.cfg.segbase - c.segbase)

/-- No pass is left. -/
theorem passesEncoded_nil (hk : numPasses c.p ≤ k) (hkn : k ≤ numPasses c.p)
    (hblock : BlockAt c m₀ (roomBefore c k) total.toNat s) (hhost : HostAt c total s u) : PassesEncoded c m₀ k total.toNat [] s u s total where
  state := rfl
  mag := rfl
  block := ⟨hblock.cfg, Nat.le_trans hblock.used_le (roomBefore_le c hkn), hblock.frame⟩
  lo_le := Nat.le_refl _
  kept _ _ := rfl
  entries := entries_nil hk
  none _ := rfl
  last h := absurd h (by omega)
  host := ⟨u, rfl, hhost.twins⟩
  segmentEnds l ab rest h := by simp at h

/-- A pass before them that ends no segment. -/
theorem PassesEncoded.cons_open {lo : Nat} (h : PassesEncoded c m₀ (k + 1) lo segs
      { afterReset c t with mem := t.mem.setWord (segtabAddr k) 0xFFFFFFFF } u s' hi)
    (hpass : EncodedPass s t) (hkept : EntriesKept 128 s.mem t.mem) (hk : k + 1 < numPasses c.p)
    (hend : ¬ endsSegment c (numPasses c.p) k) : PassesEncoded c m₀ k lo segs s u s' hi where
  state := hpass.frame.trans h.state
  mag := h.mag.trans hpass.mag
  block := h.block
  lo_le := h.lo_le
  kept j hj := by
    have hnp := numPasses_le c
    rw [h.kept j (by omega)]
    exact (entriesKept_setSegtab _ k _ j hj).trans (hkept j (by omega))
  entries := h.entries.cons_open hend ((h.kept k (Nat.lt_succ_self k)).trans (getWord_setWord_same _ _ _))
  none hle := absurd hle (by omega)
  last _ := h.last hk
  host := h.host
  segmentEnds := h.segmentEnds

/-- A pass before them that ends its segment, whose host leaves v. -/
theorem PassesEncoded.cons_end {lo : Nat} {x : SegRegs × Memory} (h : PassesEncoded c m₀ (k + 1) (total + x.1.bp).toNat segs
      { withCoder (afterReset c t) x with mem := x.2.setWord (segtabAddr k) (total + x.1.bp) } v s' hi)
    (hpass : EncodedPass s t) (hkept : EntriesKept 128 s.mem t.mem) (hkept' : EntriesKept 128 t.mem x.2)
    (hk : k < numPasses c.p) (hend : endsSegment c (numPasses c.p) k) (hlo : lo ≤ (total + x.1.bp).toNat)
    (hhost : ∀ rest, hostEncode ((a, k) :: rest) u = hostEncode rest v) (hv : v.cfg.segbase = c.segbase + (total + x.1.bp)) :
    PassesEncoded c m₀ k lo ((a, k) :: segs) s u s' hi := by
  have hnp := numPasses_le c
  have hentry : s'.mem.getWord (segtabAddr k) = some (total + x.1.bp) :=
    (h.kept k (Nat.lt_succ_self k)).trans (getWord_setWord_same _ _ _)
  refine ⟨hpass.frame.trans h.state, h.mag.trans hpass.mag, h.block, Nat.le_trans hlo h.lo_le, fun j hj => ?kept,
    h.entries.cons_end hend hentry hlo h.lo_le, fun hle => absurd hle (by omega), fun _ => ?last, ?host,
    fun l ab rest hsegs => ?segmentEnds⟩
  case kept =>
    rw [h.kept j (by omega)]
    exact (entriesKept_setSegtab _ k _ j hj).trans ((hkept' j (by omega)).trans (hkept j (by omega)))
  case last =>
    rcases Nat.lt_or_ge (k + 1) (numPasses c.p) with hlt | hge
    · exact h.last hlt
    · have hhi : hi = total + x.1.bp := BitVec.eq_of_toNat_eq (h.none hge)
      rw [show numPasses c.p - 1 = k from by omega, hhi]
      exact hentry
  case host =>
    rw [hhost]
    exact h.host
  case segmentEnds =>
    cases l with
    | nil =>
      obtain ⟨rfl, rfl⟩ := List.cons.inj hsegs
      refine ⟨v, hhost [], ?_⟩
      rw [hentry, hv, BitVec.add_comm c.segbase, BitVec.add_sub_cancel]
    | cons y l =>
      obtain ⟨rfl, hrest⟩ := List.cons.inj hsegs
      obtain ⟨w, hw, hword⟩ := h.segmentEnds l ab rest hrest
      exact ⟨w, (hhost _).trans hw, hword⟩

/-! ### The induction -/

/-- The last pass ends its segment (44_bitplane_coder.md R262). -/
theorem endsSegment_last {c : Cfg} {np k : Nat} (h : k + 1 = np) : endsSegment c np k := .inl h

/-- Host and coordinator agree whatever the coordinator writes into the block's SEGTAB entries. -/
theorem HostAt.setSegtab (h : HostAt c total s u) (hk : k < numPasses c.p) (v : Word) :
    HostAt c total { s with mem := s.mem.setWord (segtabAddr k) v } u :=
  ⟨⟨h.twins.state, h.twins.mem.setSegtab hk v, h.twins.cfg⟩, h.cfg⟩

/-- What the induction says of the n passes left, in a closed and in an open segment. -/
structure PassesEncode (c : Cfg) (m₀ : Memory) (n : Nat) : Prop where
  closed : ∀ {k : Nat} {total : Word} {s u : State}, numPasses c.p - n = k →
    BlockAt c m₀ (roomBefore c k) total.toNat s → HostAt c total s u →
    ∃ s' hi, encodePasses (numPasses c.p) n total false s = .ok hi s' ∧
      PassesEncoded c m₀ k total.toNat (segmentsFrom c (numPasses c.p) n k) s u s' hi
  inside : ∀ {a k : Nat} {total : Word} {s u₀ u : State}, numPasses c.p - n = k → 1 ≤ n →
    SegmentOpen c m₀ (roomBefore c k) total s → HostOpen c a k total s u₀ u → a ≤ k →
    (∀ j, a ≤ j → j < k → ¬ endsSegment c (numPasses c.p) j) →
    ∃ s' hi, encodePasses (numPasses c.p) n total true s = .ok hi s' ∧
      PassesEncoded c m₀ k total.toNat (segmentsFrom c (numPasses c.p) n a) s u₀ s' hi

/-- A pass in an open segment, then the rest. -/
theorem PassesEncode.inside_succ (hset : BlockSetting c m₀) (h : PassesEncode c m₀ n) (hn : n + 1 ≤ numPasses c.p)
    (hk : numPasses c.p - (n + 1) = k) (hopen : SegmentOpen c m₀ (roomBefore c k) total s) (hhost : HostOpen c a k total s u₀ u)
    (hak : a ≤ k) (hgoes : ∀ j, a ≤ j → j < k → ¬ endsSegment c (numPasses c.p) j) :
    ∃ s' hi, encodePasses (numPasses c.p) (n + 1) total true s = .ok hi s' ∧
      PassesEncoded c m₀ k total.toNat (segmentsFrom c (numPasses c.p) (n + 1) a) s u₀ s' hi := by
  have hknp : k < numPasses c.p := by omega
  have hroom := roomBefore_le c (k := k + 1) (by omega)
  rw [roomBefore_succ] at hroom
  have hraw := passRaw_of_open hak hgoes
  obtain ⟨t, hrun, hpass, hopen', hkept⟩ := hopen.pass hset k (by omega)
  have ht : t.cfg = s.cfg := hopen'.cfg.trans hopen.cfg.symm
  obtain ⟨v, hhost'⟩ := hhost.pass hopen.cfg hset.shape hknp hak hraw hrun ht
  have hnext : numPasses c.p - n = k + 1 := by omega
  by_cases hend : endsSegment c (numPasses c.p) k
  · have hreset : SegmentOpen c m₀ (roomBefore c k + passRoom c) total (afterReset c t) :=
      ⟨hopen'.cfg, hopen'.used_le, hopen'.frame, hopen'.start⟩
    obtain ⟨x, hclose, hsum, hblock, hkept'⟩ := hreset.close hset (passRaw c a) (by omega)
    obtain ⟨w, hrest, hw⟩ := hhost'.close hclose rfl
    obtain ⟨s', hi, hruns, hencoded⟩ := h.closed (u := w) hnext
      (s := { withCoder (afterReset c t) x with mem := x.2.setWord (segtabAddr k) (total + x.1.bp) })
      ⟨hblock.cfg, by rw [roomBefore_succ]; exact hblock.used_le, hblock.frame.setSegtab hknp _⟩ (hw.setSegtab hknp _)
    refine ⟨s', hi, ?_, ?_⟩
    · rw [encodePasses_ends hk hrun ht (v := withCoder (afterReset c t) x) (by rw [hopen.cfg]; exact hend)
        (by rw [hopen.cfg, hraw]; exact hclose)]
      exact hruns
    · rw [segmentsFrom_ends (by rw [hk]; exact hend), hk]
      exact hencoded.cons_end hpass hkept hkept' hknp hend (by omega) hrest (by rw [hw.cfg]; rfl)
  · have hlast : k + 1 < numPasses c.p := by
      by_contra hle
      exact hend (endsSegment_last (by omega))
    have hused := hopen'.used_le
    obtain ⟨s', hi, hruns, hencoded⟩ := h.inside (a := a) (u₀ := u₀) (u := v) hnext (by omega)
      (s := { afterReset c t with mem := t.mem.setWord (segtabAddr k) 0xFFFFFFFF })
      ⟨hopen'.cfg, by rw [roomBefore_succ]; exact Nat.le_trans hused (by omega), hopen'.frame.setSegtab hknp _, hopen'.start⟩
      { hhost' with toHostAt := hhost'.toHostAt.setSegtab hknp _ } (by omega)
      fun j haj hjk => by
        by_cases hj : j = k
        · exact hj ▸ hend
        · exact hgoes j haj (by omega)
    refine ⟨s', hi, ?_, ?_⟩
    · rw [encodePasses_goes_on hk hrun ht (by rw [hopen.cfg]; exact hend), hopen.cfg]
      exact hruns
    · rw [segmentsFrom_goes_on (by rw [hk]; exact hend)]
      exact hencoded.cons_open hpass hkept hlast hend

/-- The start of a segment, then its passes. -/
theorem passesEncode (hset : BlockSetting c m₀) (n : Nat) (hn : n ≤ numPasses c.p) : PassesEncode c m₀ n := by
  induction n with
  | zero =>
    refine ⟨fun hk hblock hhost => ⟨_, _, rfl, ?_⟩, fun _ h => absurd h (by decide)⟩
    exact passesEncoded_nil (by omega) (by omega) hblock hhost
  | succ n ih =>
    have hrest := ih (by omega)
    refine ⟨fun {k total s u} hk hblock hhost => ?_,
      fun hk _ hopen hhost hak hgoes => hrest.inside_succ hset hn hk hopen hhost hak hgoes⟩
    obtain ⟨v, hhost'⟩ := hhost.opened k
    have hopen : SegmentOpen c m₀ (roomBefore c k) total (segmentOpened (passRaw c k) (c.segbase + total) s) := by
      have hbp : (segmentOpened (passRaw c k) (c.segbase + total) s).seg.bp.toNat = 0 := by
        rw [segmentOpened_bp]
        rfl
      refine ⟨hblock.cfg, ?_, ?_, segmentOpened_start _ _ _⟩
      · rw [hbp]
        exact hblock.used_le
      · rw [hbp]
        exact hblock.frame
    obtain ⟨s', hi, hruns, h⟩ := hrest.inside_succ hset hn hk hopen hhost' (Nat.le_refl k) fun j hkj hjk => absurd hjk (by omega)
    refine ⟨s', hi, ?_, ?_⟩
    · rw [encodePasses_closed, hk, hblock.cfg]
      exact hruns
    · exact { h with }

/-! ### CB.ENCODE (46_coordinator.md R350) -/

/-- The state a host starts a block in (R266). -/
def hostStarted (s : State) : State :=
  State.complete { s with status := { s.status with segmis := false }, ctx := initialCtx, arr := clearedArrays }

theorem hostStart_eq (s : State) : hostStart s = some (hostStarted s) := rfl

theorem blockSetting (hshape : s.cfg.badShape = false) (hcoefs : CoefsLegal s)
    (hroom : s.cfg.segbase.toNat + blockRoom s.cfg ≤ Config.byteCap) : BlockSetting s.cfg s.mem := by
  refine ⟨hshape, fun i hi => ?_, hroom⟩
  obtain ⟨q, hq, -⟩ := hcoefs i hi
  exact Option.isSome_iff_exists.2 ⟨q, hq⟩

theorem hostAt_start (s : State) : HostAt s.cfg 0 (blockStarted s) (hostStarted s) := by
  refine ⟨⟨rfl, fun _ _ => rfl, rfl⟩, ?_⟩
  show s.cfg = { s.cfg with segbase := s.cfg.segbase + 0#32 }
  rw [BitVec.add_zero]

/-- The passes of a legal block, from its start on. -/
theorem encodePasses_run (hset : BlockSetting s.cfg s.mem) :
    ∃ s' hi, encodePasses (numPasses s.cfg.p) (numPasses s.cfg.p) 0 false (blockStarted s) = .ok hi s' ∧
      PassesEncoded s.cfg s.mem 0 0 s.cfg.segments (blockStarted s) (hostStarted s) s' hi := by
  have hblock : BlockAt s.cfg s.mem (roomBefore s.cfg 0) (0 : Word).toNat (blockStarted s) :=
    ⟨rfl, Nat.zero_le _, fun _ _ _ => rfl⟩
  exact (passesEncode hset _ (Nat.le_refl _)).closed (Nat.sub_self _) hblock (hostAt_start s)

/-- PART1_ENCODE of a block with bit-planes (R328). -/
theorem part1Encode_planes (hp : 1 ≤ s.cfg.p)
    (h : encodePasses (numPasses s.cfg.p) (numPasses s.cfg.p) 0 false s = .ok hi t) :
    part1Encode s = .ok () { t with
      status := { t.status with cmode := .idle }
      out := { t.out with nbytes := hi, npassout := BitVec.ofNat 8 (numPasses s.cfg.p) } } := by
  unfold part1Encode
  rw [see_bind, if_neg (Nat.ne_of_gt hp)]
  exact (bind_of_ok h _).trans (endEncode_run _ _ _)

/-- Settles O45, by induction on the passes left: a host takes the same steps, segment by segment. -/
theorem cbEncodeCompletes : Obligations.CbEncodeCompletes := by
  intro s hshape hstyle hht hp hcoefs hroom
  obtain ⟨s', hi, hruns, h⟩ := encodePasses_run (blockSetting hshape hcoefs hroom)
  have hrun := part1Encode_planes (s := blockStarted s) hp hruns
  have hexec := exec_cbEncode hshape hstyle hcoefs
  rw [hht, if_neg Bool.false_ne_true, runCmd_of_ok hrun] at hexec
  have hstate := h.state
  obtain ⟨u, hhost, htwins⟩ := h.host
  have hu := htwins.state
  refine ⟨hi, s'.seg, s'.ctx, s'.arr, s'.mem, hexec.trans ?state, h.block.used_le, h.last (by unfold numPasses; omega),
    fun k hk hend => (h.entries k (Nat.zero_le k) hk).1 hend, fun k hk hend => ?ends,
    ⟨_, u, hostStart_eq s, hhost, ?seg, ?ctx, ?arr, fun a ha => (htwins.mem a ha).symm, h.segmentEnds⟩, h.mag,
    fun a htab hbyte => h.block.frame a htab hbyte⟩
  case state =>
    unfold EncodeFrame at hstate
    rw [hstate]
    rfl
  case ends =>
    obtain ⟨v, hv, -, hle, hbefore⟩ := (h.entries k (Nat.zero_le k) hk).2 hend
    exact ⟨v, hv, hle, fun j hjk hj => hbefore j (Nat.zero_le j) hjk hj⟩
  case seg => rw [hu]; rfl
  case ctx => rw [hu]; rfl
  case arr => rw [hu]; rfl

end Sys2Proof.Proofs
end

section
/-!
PROOFS. The decoder's segments, one step at a time (46_coordinator.md R346): the start of a decoder, and the passes of one segment
up to the fill truncation of R341, each beside a host that issues the commands.
-/
namespace Sys2Proof.Proofs

open Sys2Proof.Machine Sys2Proof.Laws

variable {s t u v x : State} {c : Cfg} {a k n : Nat}

/-! ### What a decode may change -/

/-- Besides the coder and the arrays only CMODE and SEGMIS may differ, and SEGMIS is set only where SEGMARK asks for the
symbol. -/
structure DecodeFrame (s t : State) : Prop where
  state : t = { s with
    status := { s.status with cmode := t.status.cmode, segmis := t.status.segmis }, seg := t.seg, ctx := t.ctx, arr := t.arr }
  segmis : t.status.segmis = true → s.status.segmis = true ∨ s.cfg.segmark = true

theorem DecodeFrame.cfg (h : DecodeFrame s t) : t.cfg = s.cfg := by rw [h.state]

theorem DecodeFrame.mem (h : DecodeFrame s t) : t.mem = s.mem := by rw [h.state]

theorem DecodeFrame.refl (s : State) : DecodeFrame s s := ⟨rfl, .inl⟩

theorem DecodeFrame.trans (h : DecodeFrame s t) (h' : DecodeFrame t u) : DecodeFrame s u := by
  have hcfg := h.cfg
  refine ⟨?_, fun hmiss => ?_⟩
  · have hu := h'.state
    rw [h.state] at hu
    exact hu
  · rcases h'.segmis hmiss with ht | hmark
    · exact h.segmis ht
    · exact .inr (hcfg ▸ hmark)

/-! ### The start of a decoder (46_coordinator.md R346) -/

/-- The initialisation of a decoder, and its command. -/
def decOpener (raw : Bool) : Cmd Unit := if raw then rawInitDec else mqInitDec

def decOpenerOf (raw : Bool) : Instr := if raw then .rawInitdec else .mqInitdec

/-- The segment latched (20_memory.md R80). -/
def latched (start stop : Word) (s : State) : State := { s with seg := { s.seg with start := start, stop := stop } }

/-- The decoder is ready in its mode. -/
def inMode (m : CMode) (s : State) : State := { s with status := { s.status with cmode := m } }

theorem decOpener_mirrors (raw : Bool) : Mirrors (decOpener raw) := .ite (.updSeg _) mqInitDec_mirrors

/-- It reads its segment and leaves the bounds. -/
theorem decOpener_run (raw : Bool) (h : SegmentWritten s) :
    ∃ r, decOpener raw s = .ok () { s with seg := r } ∧ r.start = s.seg.start ∧ r.stop = s.seg.stop := by
  cases raw with
  | true => exact ⟨_, rfl, rfl, rfl⟩
  | false => exact ⟨_, mqInitDec_run h rfl, rfl, rfl⟩

theorem openDecoder_run {g : SegUse} (h : decOpener (passRaw s.cfg g.a)
      (latched (s.cfg.segbase + BitVec.ofNat 32 g.lo) (s.cfg.segbase + BitVec.ofNat 32 g.hi) s) = .ok () t) :
    openDecoder g s = .ok () (inMode (passMode .dec (passRaw s.cfg g.a)) t) := by
  unfold openDecoder decOpener at *
  rw [see_bind]
  show (updSeg _ >>= _) s = _
  rw [updSeg_bind]
  cases hraw : passRaw s.cfg g.a with
  | true =>
    rw [hraw] at h
    exact bind_of_ok h _
  | false =>
    rw [hraw] at h
    exact bind_of_ok h _

theorem exec_decOpenerOf (raw : Bool) (hin : s.cfg.segbase.toNat + s.cfg.seglen.toNat ≤ Config.byteCap)
    (h : decOpener raw (latched s.cfg.segbase (s.cfg.segbase + s.cfg.seglen) s) = .ok () t) :
    exec (decOpenerOf raw) s = .next (inMode (passMode .dec raw) t).complete := by
  have hseg : s.cfg.segOutside = false := decide_eq_false (by omega)
  have hcheck : checkSegment s = .ok () s := by
    rw [checkSegment_run, hseg]
    rfl
  cases raw with
  | true => exact runCmd_of_ok ((bind_of_ok hcheck _).trans ((bind_of_ok (latchCfgSegment_run s) _).trans (bind_of_ok h _)))
  | false => exact runCmd_of_ok ((bind_of_ok hcheck _).trans ((bind_of_ok (latchCfgSegment_run s) _).trans (bind_of_ok h _)))

theorem Twins.latched (h : Twins n s u) (start stop : Word) : Twins n (latched start stop s) (latched start stop u) := by
  have hseg : u.seg = s.seg := by
    rw [h.state]
    rfl
  refine ⟨?_, h.mem, h.cfg⟩
  unfold Proofs.latched
  rw [hseg]
  exact congrArg (fun v : State => { v with seg := { s.seg with start := start, stop := stop } }) h.state

/-- A host that has set SEGBASE and SEGLEN to the segment starts its decoder as the coordinator does. -/
theorem Twins.exec_decOpenerOf (h : Twins n s u) (hn : n ≤ 128) (raw : Bool)
    (hin : u.cfg.segbase.toNat + u.cfg.seglen.toNat ≤ Config.byteCap) {start stop : Word} (hstart : u.cfg.segbase = start)
    (hstop : start + u.cfg.seglen = stop) (hrun : decOpener raw (Proofs.latched start stop s) = .ok () t) (ht : t.cfg = s.cfg) :
    ∃ v, exec (decOpenerOf raw) u = .next v ∧ Twins n (inMode (passMode .dec raw) t) v ∧ v.cfg = u.cfg ∧
      v.status.err = u.status.err ∧ v.status.cmode = passMode .dec raw := by
  have htwins := h.latched start stop
  obtain ⟨m, hmirror, hm⟩ := decOpener_mirrors raw hn htwins.mem hrun
  rw [← htwins.state, ← hstop, ← hstart] at hmirror
  have hcfg := h.cfg
  rw [← ht] at hcfg
  exact ⟨_, Proofs.exec_decOpenerOf raw hin hmirror, ⟨rfl, hm, hcfg⟩, rfl, rfl, rfl⟩

/-! ### One decoding pass -/

/-- A pass on a written segment completes: it reads the segment, and leaves memory and the latched bounds. -/
theorem decodePass_run (k : Nat) (hshape : s.cfg.badShape = false) (hwritten : SegmentWritten s) :
    ∃ t, runPass .dec k s = .ok () t ∧ DecodeFrame s t ∧ SegmentWritten t := by
  have hready : Ready (blockArgs s.cfg .dec k) s.mem (passRoom s.cfg) s := ⟨nofun, nofun, fun _ => hwritten⟩
  obtain ⟨l, t, hrun, hpass⟩ := runPass_run hshape hready
  have hdecoded : DecodedFrom (passRaw s.cfg k) s { t with arr := s.arr, status := s.status } :=
    hpass.coded.decoded rfl hwritten
  have hmem : t.mem = s.mem := hdecoded.mem
  have hregs : ReadsOnly s.seg t.seg := hdecoded.regs
  unfold ReadsOnly at hregs
  have hstate := hpass.state
  rw [hmem] at hstate
  refine ⟨t, hrun, ⟨?_, fun hmiss => ?_⟩, segmentWritten_of_eq hwritten hmem (by rw [hregs]) (by rw [hregs])⟩
  · rw [hstate]
  · rw [hpass.status] at hmiss
    rcases Bool.or_eq_true_iff.1 hmiss with hbefore | hmark
    · exact .inl hbefore
    · rw [(passOf_isPassOf s.cfg .dec k).missesMark_dec, Bool.and_eq_true, Bool.and_eq_true] at hmark
      obtain ⟨⟨-, hsegmark⟩, -⟩ := hmark
      exact .inr hsegmark

/-! ### The passes of one segment (46_coordinator.md R346, R341) -/

theorem passesFrom_cons (c : Cfg) (dir : Dir) (a n : Nat) :
    passesFrom c dir a (n + 1) = passCommands c dir a ++ passesFrom c dir (a + 1) n := by
  unfold passesFrom
  rw [List.range_succ_eq_map, List.flatMap_cons, List.flatMap_map]
  refine congrArg _ (List.flatMap_congr fun j _ => ?_)
  rw [Nat.succ_eq_add_one, Nat.add_assoc, Nat.add_comm 1 j]

/-- In a decoder segment, a host beside the coordinator. -/
structure Decoding (c : Cfg) (raw : Bool) (x u : State) : Prop where
  cfg : x.cfg = c
  written : SegmentWritten x
  twins : Twins 0 x u
  mode : u.status.cmode = passMode .dec raw

/-- The m passes from k on take the coordinator from x to x' and the host from u to u', j of them done: all, unless fill
truncation stopped them. -/
structure PassesDecoded (c : Cfg) (raw : Bool) (m j : Nat) (tr : Bool) (x u x' u' : State) : Prop where
  le : j ≤ m
  frame : DecodeFrame x x'
  decoding : Decoding c raw x' u'
  cfg : u'.cfg = u.cfg
  err : u'.status.err = u.status.err
  whole : tr = false → j = m ∧
    (1 ≤ m ∨ ¬ Config.truncFillLimit < x.seg.fillcnt.toNat → ¬ Config.truncFillLimit < x'.seg.fillcnt.toNat)
  cut : tr = true → 1 ≤ j ∧ Config.truncFillLimit < x'.seg.fillcnt.toNat

/-- One pass with its reset, by the coordinator and by the host. -/
theorem Decoding.pass {raw : Bool} (h : Decoding c raw x u) (hshape : c.badShape = false) (hk : k < numPasses c.p)
    (hraw : passRaw c k = raw) :
    ∃ x' u', (runPass .dec k >>= fun _ => resetAfterPass) x = .ok () x' ∧ execAll (passCommands c .dec k) u = .next u' ∧
      DecodeFrame x x' ∧ Decoding c raw x' u' ∧ u'.cfg = u.cfg ∧ u'.status.err = u.status.err := by
  obtain ⟨hc, hwritten, htwins, hmode⟩ := h
  subst hc
  obtain ⟨t, hrun, hframe, hwritten'⟩ := decodePass_run k hshape hwritten
  obtain ⟨v, hexec, htwins', hcfg, -, herr, hmode'⟩ := htwins.execAll_pass (by decide) hk (hmode.trans (by rw [hraw])) hshape
    hrun hframe.cfg
  have hcommands : passCommands u.cfg .dec k = passCommands x.cfg .dec k := by
    rw [htwins.cfg]
    rfl
  refine ⟨afterReset x.cfg t, v, ?_, hcommands ▸ hexec, ?_, ⟨hframe.cfg, ?_, htwins', hmode'.trans hmode⟩, hcfg, herr⟩
  · rw [bind_of_ok hrun, resetAfterPass_run, hframe.cfg]
  · refine hframe.trans ⟨rfl, .inl⟩
  · exact segmentWritten_of_eq hwritten' rfl rfl rfl

theorem decodePasses_run {raw : Bool} (hshape : c.badShape = false) (m k : Nat) (hm : k + m ≤ numPasses c.p)
    (hraw : ∀ j, k ≤ j → j < k + m → passRaw c j = raw) {x u : State} (h : Decoding c raw x u) :
    ∃ j tr x' u', decodePasses m k k x = .ok (k + j, tr) x' ∧ execAll (passesFrom c .dec k j) u = .next u' ∧
      PassesDecoded c raw m j tr x u x' u' := by
  induction m generalizing k x u with
  | zero =>
    exact ⟨0, false, x, u, rfl, rfl, Nat.le_refl 0, .refl x, h, rfl, rfl, fun _ => ⟨rfl, fun h => h.resolve_left (by decide)⟩,
      nofun⟩
  | succ m ih =>
    obtain ⟨x₁, u₁, hrun, hexec, hframe, hdecoding, hcfg, herr⟩ :=
      h.pass hshape (k := k) (by omega) (hraw k (Nat.le_refl k) (by omega))
    have hpass : decodePasses (m + 1) k k x =
        (if Config.truncFillLimit < x₁.seg.fillcnt.toNat then pure (k + 1, true) else decodePasses m (k + 1) (k + 1)) x₁ := by
      obtain ⟨⟨⟩, y, hpass, hreset⟩ := bind_eq_ok.1 hrun
      rw [decodePasses, bind_of_ok hpass, bind_of_ok hreset, see_bind]
    by_cases hfill : Config.truncFillLimit < x₁.seg.fillcnt.toNat
    · rw [if_pos hfill] at hpass
      refine ⟨1, true, x₁, u₁, hpass, ?_, by omega, hframe, hdecoding, hcfg, herr, nofun, fun _ => ⟨Nat.le_refl 1, hfill⟩⟩
      rw [passesFrom_cons, execAll_append _ _ hexec]
      rfl
    · rw [if_neg hfill] at hpass
      obtain ⟨j, tr, x', u', hrest, hexec', hle, hframe', hdecoding', hcfg', herr', hwhole, hcut⟩ :=
        ih (k + 1) (by omega) (fun i hi him => hraw i (by omega) (by omega)) hdecoding
      refine ⟨j + 1, tr, x', u', ?_, ?_, by omega, hframe.trans hframe', hdecoding', hcfg'.trans hcfg, herr'.trans herr, ?_, ?_⟩
      · rw [hpass, hrest, Nat.add_assoc, Nat.add_comm 1 j]
      · rw [passesFrom_cons, execAll_append _ _ hexec]
        exact hexec'
      · intro htr
        obtain ⟨hj, hno⟩ := hwhole htr
        exact ⟨by omega, fun _ => hno (.inr hfill)⟩
      · intro htr
        obtain ⟨hj, hover⟩ := hcut htr
        exact ⟨by omega, hover⟩

end Sys2Proof.Proofs
end

section
/-!
PROOFS. The segments of PART1_DECODE (46_coordinator.md R346) against a host that decodes the passes done (44_bitplane_coder.md
R266), by induction over the segments, and CB.DECODE of a Part 1 block (O48).
-/
namespace Sys2Proof.Proofs

open Sys2Proof.Machine Sys2Proof.Laws

variable {s t u x : State} {c : Cfg} {a b n : Nat} {l : List (Nat × Nat)} {ends : List Nat}

/-! ### The segments a decode uses (46_coordinator.md R331) -/

/-- The segments from pass `done` on that a decode of N passes uses, one after the other. -/
def UsedFrom (c : Cfg) (N : Nat) : Nat → List (Nat × Nat) → Prop
  | done, [] => done = N
  | done, (a, b) :: l => a = done ∧ a < N ∧ IsSegment c (numPasses c.p) a b ∧ UsedFrom c N (min (b + 1) N) l

theorem UsedFrom.le {N done : Nat} (h : UsedFrom c N done l) : done ≤ N := by
  cases l with
  | nil => exact Nat.le_of_eq h
  | cons ab l =>
    obtain ⟨rfl, hlt, -⟩ := h
    omega

/-- No segment starts before the first of them. -/
theorem UsedFrom.ge {N done : Nat} (h : UsedFrom c N done l) {ab : Nat × Nat} (hab : ab ∈ l) : done ≤ ab.1 := by
  induction l generalizing done with
  | nil => cases hab
  | cons xy l ih =>
    obtain ⟨rfl, hlt, ⟨hxy, -⟩, hrest⟩ := h
    rcases List.mem_cons.1 hab with rfl | hmem
    · exact Nat.le_refl _
    · have := ih hrest hmem
      omega

theorem usedFrom_filter {N : Nat} (hN : N ≤ numPasses c.p) (hl : Consecutive (numPasses c.p) a l)
    (hsegs : ∀ ab ∈ l, IsSegment c (numPasses c.p) ab.1 ab.2) :
    UsedFrom c N (min a N) (l.filter fun ab => ab.1 < N) := by
  induction l generalizing a with
  | nil => exact Nat.min_eq_right (Nat.le_trans hN hl)
  | cons xy l ih =>
    obtain ⟨x, y⟩ := xy
    obtain ⟨rfl, hxy, hy, hrest⟩ := hl
    have hnext := ih hrest fun ab hab => hsegs ab (List.mem_cons_of_mem _ hab)
    by_cases hlt : x < N
    · rw [List.filter_cons_of_pos (p := fun ab : Nat × Nat => decide (ab.1 < N)) (a := (x, y)) (decide_eq_true hlt)]
      exact ⟨by omega, hlt, hsegs _ List.mem_cons_self, hnext⟩
    · rw [List.filter_cons_of_neg (p := fun ab : Nat × Nat => decide (ab.1 < N)) (a := (x, y)) (by simpa using hlt)]
      rwa [show min x N = min (y + 1) N from by omega]

theorem usedFrom_usedSegments (hN : s.cfg.npass.toNat ≤ numPasses s.cfg.p) :
    UsedFrom s.cfg s.cfg.npass.toNat 0 (usedSegments s) := by
  have h := usedFrom_filter hN (segments_consecutive s.cfg) fun ab hab => mem_segments_iff.1 hab
  rwa [Nat.zero_min] at h

/-! ### The host's segments (44_bitplane_coder.md R266) -/

/-- The host's configuration for the segment [lo, hi) of the block. -/
def segmentCfg (s₀ : State) (lo hi : Nat) (u : State) : State := { u with
  cfg := { u.cfg with segbase := s₀.cfg.segbase + BitVec.ofNat 32 lo, seglen := BitVec.ofNat 32 (hi - lo) } }

theorem hostDecode_stop (s₀ : State) {n : Nat} (h : n ≤ a) (b : Nat) (l : List (Nat × Nat)) (lo : Nat) (u : State) :
    hostDecode s₀ n ((a, b) :: l) lo u = some u := by
  rw [hostDecode]
  exact if_pos h

theorem hostDecode_stop_of_ge (s₀ : State) {n : Nat} (h : ∀ ab ∈ l, n ≤ ab.1) (lo : Nat) (u : State) :
    hostDecode s₀ n l lo u = some u := by
  cases l with
  | nil => rfl
  | cons ab l => exact hostDecode_stop s₀ (h ab List.mem_cons_self) ab.2 l lo u

theorem execAll_cons {i : Instr} (h : exec i s = .next t) (l : List Instr) : execAll (i :: l) s = execAll l t := by
  rw [execAll, h]

theorem hostDecode_cons {s₀ v w : State} {hi lo : Nat} (hn : a < n) (hend : segEnd s₀ b = some hi)
    (hopen : exec (decOpenerOf (passRaw u.cfg a)) (segmentCfg s₀ lo hi u) = .next v)
    (hpasses : execAll (passesFrom u.cfg .dec a (min (b + 1) n - a)) v = .next w) (herr : w.status.err = u.status.err) :
    hostDecode s₀ n ((a, b) :: l) lo u = hostDecode s₀ n l hi w := by
  have hrun : execAll ((if rawSegment u.cfg a then Instr.rawInitdec else .mqInitdec) ::
      passesFrom u.cfg .dec a (min (b + 1) n - a)) (segmentCfg s₀ lo hi u) = .next w := by
    rw [rawSegment_eq]
    exact (execAll_cons hopen _).trans hpasses
  rw [hostDecode, if_neg (Nat.not_le.2 hn), hend]
  dsimp only [Option.getD_some]
  unfold segmentCfg at hrun
  rw [hrun]
  exact if_pos herr

/-! ### One segment -/

theorem decodeSegments_cons {g : SegUse} {y z : State} {d done : Nat} {tr : Bool} (h : ¬ x.cfg.seglen.toNat < g.hi)
    (hopen : openDecoder g x = .ok () y)
    (hpasses : decodePasses (min (g.b + 1) x.cfg.npass.toNat - g.a) g.a done y = .ok (d, tr) z) (rest : List SegUse) :
    decodeSegments (g :: rest) done x = (if tr then pure (d, true) else decodeSegments rest d) z := by
  rw [decodeSegments, see_bind, if_neg h, bind_of_ok hopen, bind_of_ok hpasses]

/-- A block to decode: a legal shape, and its segment written inside BYTE memory. -/
structure DecodeSetting (s : State) : Prop where
  shape : s.cfg.badShape = false
  passes : s.cfg.npass.toNat ≤ numPasses s.cfg.p
  inside : s.cfg.segbase.toNat + s.cfg.seglen.toNat ≤ Config.byteCap
  written : CfgSegmentWritten s

/-- The coordinator between two segments, and the host beside it. -/
structure BetweenSegments (s x u : State) : Prop where
  cfg : x.cfg = s.cfg
  mem : x.mem = s.mem
  twins : Twins 0 x u

section Setting

variable (hset : DecodeSetting s) {lo hi : Nat} (hlo : lo ≤ hi) (hhi : hi ≤ s.cfg.seglen.toNat)
include hset hlo hhi

/-- Where a segment [lo, hi) of the block starts and ends in BYTE memory. -/
theorem segment_bounds : (s.cfg.segbase + BitVec.ofNat 32 lo).toNat = s.cfg.segbase.toNat + lo ∧
    (s.cfg.segbase + BitVec.ofNat 32 hi).toNat = s.cfg.segbase.toNat + hi ∧
    s.cfg.segbase + BitVec.ofNat 32 lo + BitVec.ofNat 32 (hi - lo) = s.cfg.segbase + BitVec.ofNat 32 hi := by
  have hin := hset.inside
  have hcap := byteCap_le
  have hnat (k : Nat) (hk : k ≤ hi) : (s.cfg.segbase + BitVec.ofNat 32 k).toNat = s.cfg.segbase.toNat + k := by
    rw [BitVec.toNat_add, BitVec.toNat_ofNat]
    omega
  refine ⟨hnat lo hlo, hnat hi (Nat.le_refl _), ?_⟩
  rw [BitVec.add_assoc, ← BitVec.ofNat_add, Nat.add_sub_cancel' hlo]

theorem segmentWritten_latched (hx : x.mem = s.mem) :
    SegmentWritten (latched (s.cfg.segbase + BitVec.ofNat 32 lo) (s.cfg.segbase + BitVec.ofNat 32 hi) x) := by
  obtain ⟨hstart, hstop, -⟩ := segment_bounds hset hlo hhi
  intro j hj hle
  have hj' : j < s.cfg.segbase.toNat + hi := hstop ▸ hj
  have hle' : s.cfg.segbase.toNat + lo ≤ j := hstart ▸ hle
  show (x.mem.getByte (byteAddr j)).isSome = true
  rw [hx]
  exact hset.written j (by omega) (by omega)

/-- Its decoder is started, by both (R346). -/
theorem segment_open (h : BetweenSegments s x u) (a b : Nat) :
    ∃ y v, openDecoder ⟨a, b, lo, hi⟩ x = .ok () y ∧ exec (decOpenerOf (passRaw s.cfg a)) (segmentCfg s lo hi u) = .next v ∧
      Decoding s.cfg (passRaw s.cfg a) y v ∧ DecodeFrame x y ∧ v.status.err = u.status.err := by
  obtain ⟨hcfg, hmem, htwins⟩ := h
  obtain ⟨hstart, -, hsum⟩ := segment_bounds hset hlo hhi
  have hin := hset.inside
  have hwritten := segmentWritten_latched hset hlo hhi hmem
  obtain ⟨r, hopen, hrstart, hrstop⟩ := decOpener_run (passRaw s.cfg a) hwritten
  have htwins' : Twins 0 x (segmentCfg s lo hi u) :=
    ⟨congrArg (segmentCfg s lo hi) htwins.state, htwins.mem, congrArg
      (fun d : Cfg => { d with segbase := s.cfg.segbase + BitVec.ofNat 32 lo, seglen := BitVec.ofNat 32 (hi - lo) }) htwins.cfg⟩
  have hroom : (segmentCfg s lo hi u).cfg.segbase.toNat + (segmentCfg s lo hi u).cfg.seglen.toNat ≤ Config.byteCap := by
    show (s.cfg.segbase + BitVec.ofNat 32 lo).toNat + (BitVec.ofNat 32 (hi - lo)).toNat ≤ _
    have := Nat.mod_le (hi - lo) (2 ^ 32)
    rw [hstart, BitVec.toNat_ofNat]
    omega
  obtain ⟨v, hexec, htwinsv, -, herr, hmode⟩ := htwins'.exec_decOpenerOf (by decide) (passRaw s.cfg a) hroom rfl hsum hopen rfl
  rw [← hcfg] at hopen
  have hrun := openDecoder_run (g := ⟨a, b, lo, hi⟩) hopen
  rw [hcfg] at hrun
  exact ⟨_, v, hrun, hexec, ⟨hcfg, segmentWritten_of_eq hwritten rfl hrstart hrstop, htwinsv, hmode⟩, ⟨rfl, .inl⟩, herr⟩

end Setting

/-- The segment of passes a to b and bytes [lo, hi) takes the coordinator from x to x' and the host from u to w, j of its passes
done: all that are asked for, unless fill truncation stopped them (R341). -/
structure SegmentDecoded (s : State) (a b lo hi j : Nat) (tr : Bool) (x u x' w : State) : Prop where
  run : ∀ rest, decodeSegments (⟨a, b, lo, hi⟩ :: rest) a x =
    (if tr then pure (a + j, true) else decodeSegments rest (a + j)) x'
  host : ∀ n rest, a < n → min (b + 1) n - a = j → hostDecode s n ((a, b) :: rest) lo u = hostDecode s n rest hi w
  frame : DecodeFrame x x'
  between : BetweenSegments s x' w
  pos : 1 ≤ j
  le : a + j ≤ min (b + 1) s.cfg.npass.toNat
  whole : tr = false → a + j = min (b + 1) s.cfg.npass.toNat ∧ ¬ Config.truncFillLimit < x'.seg.fillcnt.toNat
  cut : tr = true → Config.truncFillLimit < x'.seg.fillcnt.toNat

theorem segment_run (hset : DecodeSetting s) {lo hi : Nat} (hlo : lo ≤ hi) (hhi : hi ≤ s.cfg.seglen.toNat)
    (h : BetweenSegments s x u) (hseg : IsSegment s.cfg (numPasses s.cfg.p) a b) (hend : segEnd s b = some hi)
    (ha : a < s.cfg.npass.toNat) : ∃ j tr x' w, SegmentDecoded s a b lo hi j tr x u x' w := by
  obtain ⟨hab, hb, -, -, hinner⟩ := hseg
  obtain ⟨y, v, hopen, hexec, hdecoding, hframe, herr⟩ := segment_open hset hlo hhi h a b
  have hcfgu : u.cfg = { s.cfg with segbase := u.cfg.segbase, seglen := u.cfg.seglen } := by
    rw [← h.cfg]
    exact h.twins.cfg
  have hraw (j : Nat) (haj : a ≤ j) (hj : j < a + (min (b + 1) s.cfg.npass.toNat - a)) : passRaw s.cfg j = passRaw s.cfg a :=
    passRaw_of_open haj fun i hai hij => hinner i hai (by omega)
  obtain ⟨j, tr, x', w, hrun, hexecs, hdone⟩ := decodePasses_run hset.shape _ a (by omega) hraw hdecoding
  have hframe' := hframe.trans hdone.frame
  refine ⟨j, tr, x', w, fun rest => ?run, fun n rest hn hj => ?host, hframe',
    ⟨hframe'.cfg.trans h.cfg, hframe'.mem.trans h.mem, hdone.decoding.twins⟩, ?pos, ?le, fun htr => ?whole,
    fun htr => (hdone.cut htr).2⟩
  case run =>
    refine decodeSegments_cons (by rw [h.cfg]; exact Nat.not_lt.2 hhi) hopen ?_ rest
    rw [h.cfg]
    exact hrun
  case host =>
    refine hostDecode_cons (v := v) hn hend ?_ ?_ (hdone.err.trans herr)
    · rw [hcfgu]
      exact hexec
    · rw [hcfgu, hj]
      exact hexecs
  case pos =>
    cases tr with
    | true => exact (hdone.cut rfl).1
    | false =>
      have := (hdone.whole rfl).1
      omega
  case le =>
    have := hdone.le
    omega
  case whole =>
    obtain ⟨hj, hfill⟩ := hdone.whole htr
    exact ⟨by omega, hfill (.inl (by omega))⟩

/-! ### The induction over the segments -/

/-- The segments l, the first of which starts with pass `done`, take the coordinator from x to x' with n passes done, truncated
(`tr`) or not, and the host from u on through the same passes. -/
structure SegmentsDecoded (s : State) (l : List (Nat × Nat)) (lo done n : Nat) (tr : Bool) (x u x' : State) : Prop where
  frame : DecodeFrame x x'
  done_le : done ≤ n
  le : n ≤ s.cfg.npass.toNat
  whole : tr = false → n = s.cfg.npass.toNat ∧ (1 ≤ n → ¬ Config.truncFillLimit < x'.seg.fillcnt.toNat)
  cut : tr = true → (∃ ab ∈ l, ab.1 = n ∧ ∃ e ∈ segEnd s ab.2, s.cfg.seglen.toNat < e) ∨
    (1 ≤ n ∧ Config.truncFillLimit < x'.seg.fillcnt.toNat)
  started : ∀ ab ∈ l, ab.1 < n → ∃ e ∈ segEnd s ab.2, e ≤ s.cfg.seglen.toNat
  host : ∃ u', hostDecode s n l lo u = some u' ∧ Twins 0 x' u'

/-- Nothing more is decoded: no segment is left, or the next one ends past SEGLEN. -/
theorem segmentsDecoded_stop {lo done : Nat} {tr : Bool} (h : BetweenSegments s x u)
    (hused : UsedFrom s.cfg s.cfg.npass.toNat done l)
    (hwhole : tr = false → done = s.cfg.npass.toNat ∧ (1 ≤ done → ¬ Config.truncFillLimit < x.seg.fillcnt.toNat))
    (hcut : tr = true → ∃ ab ∈ l, ab.1 = done ∧ ∃ e ∈ segEnd s ab.2, s.cfg.seglen.toNat < e) :
    SegmentsDecoded s l lo done done tr x u x where
  frame := .refl x
  done_le := Nat.le_refl _
  le := hused.le
  whole := hwhole
  cut htr := .inl (hcut htr)
  started ab hab hlt := absurd (hused.ge hab) (by omega)
  host := ⟨u, hostDecode_stop_of_ge s (fun ab hab => hused.ge hab) lo u, h.twins⟩

theorem decodeSegments_run (hset : DecodeSetting s) {lo done : Nat} (hused : UsedFrom s.cfg s.cfg.npass.toNat done l)
    (hends : l.map (fun ab => segEnd s ab.2) = ends.map some) (hchain : (lo :: ends).IsChain (· ≤ ·))
    (h : BetweenSegments s x u) (hfill : 1 ≤ done → ¬ Config.truncFillLimit < x.seg.fillcnt.toNat) :
    ∃ n tr x', decodeSegments (segUses l ends lo) done x = .ok (n, tr) x' ∧ SegmentsDecoded s l lo done n tr x u x' := by
  induction l generalizing ends lo done x u with
  | nil =>
    obtain rfl : ends = [] := by simpa using hends.symm
    exact ⟨done, false, x, rfl, segmentsDecoded_stop h hused (fun _ => ⟨hused, hfill⟩) nofun⟩
  | cons ab l ih =>
    obtain ⟨a, b⟩ := ab
    cases ends with
    | nil => cases hends
    | cons hi ends =>
      obtain ⟨hend, hrest⟩ := List.cons.inj hends
      obtain ⟨hlo, hchain'⟩ := List.isChain_cons_cons.1 hchain
      by_cases hhi : s.cfg.seglen.toNat < hi
      · refine ⟨done, true, x, decodeSegments_truncated (by rw [h.cfg]; exact hhi) _ done,
          segmentsDecoded_stop h hused nofun fun _ => ⟨(a, b), List.mem_cons_self, hused.1, hi, hend, hhi⟩⟩
      obtain ⟨rfl, ha, hseg, hused'⟩ := hused
      obtain ⟨j, tr, x', w, hs⟩ := segment_run hset hlo (Nat.not_lt.1 hhi) h hseg hend ha
      have hpos := hs.pos
      have hle := hs.le
      have hrun := hs.run (segUses l ends hi)
      cases tr with
      | true =>
        refine ⟨a + j, true, x', hrun, hs.frame, by omega, by omega, nofun, fun _ => .inr ⟨by omega, hs.cut rfl⟩, ?_, w, ?_,
          hs.between.twins⟩
        · intro xy hxy hlt
          rcases List.mem_cons.1 hxy with rfl | hmem
          · exact ⟨hi, hend, Nat.not_lt.1 hhi⟩
          · have := hused'.ge hmem
            omega
        · rw [hs.host (a + j) l (by omega) (by omega)]
          exact hostDecode_stop_of_ge s (fun xy hxy => Nat.le_trans hle (hused'.ge hxy)) hi w
      | false =>
        obtain ⟨hj, hfill'⟩ := hs.whole rfl
        rw [← hj] at hused'
        obtain ⟨n, tr, z, hruns, hz⟩ := ih hused' hrest hchain' hs.between fun _ => hfill'
        have hdone := hz.done_le
        have hN := hz.le
        refine ⟨n, tr, z, hrun.trans hruns, hs.frame.trans hz.frame, by omega, hN, hz.whole, fun htr => ?_, ?_, ?_⟩
        · refine (hz.cut htr).imp_left ?_
          rintro ⟨xy, hmem, hxy⟩
          exact ⟨xy, List.mem_cons_of_mem _ hmem, hxy⟩
        · intro xy hxy hlt
          rcases List.mem_cons.1 hxy with rfl | hmem
          · exact ⟨hi, hend, Nat.not_lt.1 hhi⟩
          · exact hz.started xy hmem hlt
        · rw [hs.host n l (by omega) (by omega)]
          exact hz.host

/-! ### CB.DECODE (46_coordinator.md R351) -/

theorem betweenSegments_start (s : State) : BetweenSegments s (blockStarted s) (hostStarted s) :=
  ⟨rfl, rfl, rfl, fun _ _ => rfl, rfl⟩

/-- The segments of a valid block, from its start on. -/
theorem usedSegments_run (hset : DecodeSetting s) (hfits : SegtabFits s) :
    ∃ uses n tr x', part1Uses s = .ok uses s ∧ decodeSegments uses 0 (blockStarted s) = .ok (n, tr) x' ∧
      SegmentsDecoded s (usedSegments s) 0 0 n tr (blockStarted s) (hostStarted s) x' := by
  obtain ⟨ends, hends, hsorted⟩ := hfits
  obtain ⟨n, tr, x', hrun, hdecoded⟩ := decodeSegments_run hset (usedFrom_usedSegments hset.passes) hends
    ((isChain_zero_cons ends).2 hsorted) (betweenSegments_start s) fun h => absurd h (by decide)
  exact ⟨_, n, tr, x', by rw [part1Uses_run hends, if_pos hsorted], hrun, hdecoded⟩

/-- The state a decode ends in, from the state its segments end in. -/
theorem decodeEnded_of_frame (h : DecodeFrame (blockStarted s) x) (n : Nat) (tr short : Bool) :
    decodeEnded x n tr short = { s with
      status := { s.status with
        cmode := .idle, segmis := x.status.segmis, trunc := tr, partialRes := if tr then s.cfg.tolerate else short }
      out := { s.out with npassout := BitVec.ofNat 8 n }
      seg := x.seg, ctx := x.ctx, arr := x.arr, mem := coefsStored x.arr.value s.mem (s.cfg.w * s.cfg.h) } := by
  have hx := h.state
  unfold decodeEnded
  rw [hx]
  simp [blockStarted]

/-- Settles O48: the segments as a list, and the decode by induction over those it uses. -/
theorem cbDecodeCompletes : Obligations.CbDecodeCompletes := by
  refine ⟨fun c a b => mem_segments_iff, fun s hshape hstyle hht hpasses hin hwritten hfits => ?_⟩
  have hmax : s.cfg.npass.toNat ≤ s.cfg.maxPasses := by
    rw [Cfg.maxPasses, hht]
    exact hpasses
  obtain ⟨uses, n, tr, x, huses, hrun, h⟩ := usedSegments_run ⟨hshape, hpasses, hin, hwritten⟩ hfits
  have hcfg : x.cfg = s.cfg := h.frame.cfg
  have hended := runCmd_endDecode x n tr (decide (s.cfg.npass.toNat < numPasses s.cfg.p))
  rw [decodeEnded_of_frame h.frame, hcfg] at hended
  have hdecode := part1Decode_of_ok hrun
  rw [hcfg] at hdecode
  have hexec := (exec_cbDecode_part1 hshape hstyle hmax hin hht huses).trans ((runCmd_congr hdecode).trans hended)
  obtain ⟨u, hhost, htwins⟩ := h.host
  have hu := htwins.state
  refine ⟨n, tr, x.status.segmis, x.seg, x.ctx, x.arr, _, hexec, h.le, fun htr => (h.whole htr).1, ⟨h.cut, ?cut⟩, h.started,
    ⟨_, u, hostStart_eq s, hhost, ?seg, ?ctx, ?arr, ?segmis⟩, fun hmiss => ?mark, fun i hi => coefsStored_getWord _ _ hi,
    fun a ha => coefsStored_outside _ _ _ ha⟩
  case cut =>
    intro htrunc
    by_contra htr
    obtain ⟨hn, hfill⟩ := h.whole (by simpa using htr)
    rcases htrunc with ⟨ab, hab, hstart, -⟩ | ⟨hpos, hover⟩
    · have hlt : ab.1 < s.cfg.npass.toNat := of_decide_eq_true (List.mem_filter.1 hab).2
      omega
    · exact hfill hpos hover
  case seg => rw [hu]; rfl
  case ctx => rw [hu]; rfl
  case arr => rw [hu]; rfl
  case segmis => rw [hu]; rfl
  case mark => exact (h.frame.segmis hmiss).resolve_left Bool.false_ne_true

end Sys2Proof.Proofs
end

section
/-!
PROOFS. The blocking ERR and the host's violations of the protocol (O7, O15), and the engines of a system (O56).
-/
namespace Sys2Proof.Proofs

open Sys2Proof.Machine Sys2Proof.Laws

/-! ### Errors block CMD until they are acknowledged (60_exceptions.md R366) -/

section Acknowledge

variable {s : State} {w : Word} {rest : List HostOp}

/-- A CMD write with ERR = 1 changes nothing. -/
theorem step_writeCmd_ignored (hp : s.bus.pending = .write 0x004 4 w :: rest) (hidle : s.status.inflight = none)
    (herr : s.status.err.isSome = true) : step s = .next { s with bus := { s.bus with pending := rest } } := by
  refine step_csrWrite hp hidle (by decide) ?_
  show some (writeCmd w _) = _
  rw [writeCmd, if_pos herr]

/-- A write to STATUS with BUSY = 0. -/
theorem step_writeStatus (hp : s.bus.pending = .write 0x008 4 w :: rest) (hidle : s.status.inflight = none) :
    step s = .next (writeStatus w { s with bus := { s.bus with pending := rest } }) :=
  step_csrWrite hp hidle (by decide) rfl

end Acknowledge

/-- Settles O7: the first CMD write by ERR = 1, the STATUS write by what it clears, the second CMD write as any accepted one. -/
theorem errorBlocksUntilAcknowledged : Obligations.ErrorBlocksUntilAcknowledged := by
  intro s e w v w' rest hp hidle herr hack
  let s1 : State := { s with bus := { s.bus with pending := .write 0x008 4 v :: .write 0x004 4 w' :: rest } }
  let s2 : State := writeStatus v { s1 with bus := { s1.bus with pending := .write 0x004 4 w' :: rest } }
  have h1 : step s = .next s1 := step_writeCmd_ignored hp hidle (by rw [herr]; rfl)
  have h2 : step s1 = .next s2 := step_writeStatus rfl hidle
  have hclear : s2.status.err = none := by rw [writeStatus_err, if_pos hack]
  have h3 := commandAccepted.1 s2 w' rest (by rw [writeStatus_bus]) (by rw [writeStatus_inflight]; exact hidle) hclear
  exact ⟨s1, s2, _, h1, h2, h3, rfl, hclear, (errcode_eq_zero _).2 hclear, rfl, hclear⟩

/-! ### Host protocol violations (60_exceptions.md R368) -/

/-- The reserved rows of 20_memory.md R70, and past BYTE memory (R79). -/
def Reserved (a : Nat) : Prop :=
  (0x00098 ≤ a ∧ a ≤ 0x00FFF) ∨ (0x01200 ≤ a ∧ a ≤ 0x03FFF) ∨ 0x10000 + Config.byteCap ≤ a

/-- Such an address is in no memory and in no window, and lies past the last CSR. -/
theorem Reserved.outside {a : Nat} (h : Reserved a) :
    isMemory a = false ∧ ¬ (flagsBase ≤ a ∧ a < 0x10000) ∧ 0x098 ≤ a := by
  unfold Reserved at h
  simp only [isMemory, flagsBase, Bool.or_eq_false_iff, Bool.and_eq_false_iff, decide_eq_false_iff_not]
  omega

/-- No CSR stands past MQ_B (20_memory.md R79). -/
theorem csrRead_past (s : State) {a : Nat} (h : 0x098 ≤ a) : csrRead s a = none := by
  unfold csrRead
  split
  case h_20 => exact dif_neg (by omega)
  all_goals omega

theorem csrWrite_past (w : Word) (s : State) {a : Nat} (h : 0x098 ≤ a) : csrWrite w s a = none := by
  unfold csrWrite
  split
  case h_20 => exact dif_neg (by omega)
  all_goals omega

theorem hostReadWord_reserved (s : State) {a : Nat} (h : Reserved a) : hostReadWord s a = .error .hostBadAccess := by
  obtain ⟨hmem, hwindow, hpast⟩ := h.outside
  unfold flagsBase at hwindow
  unfold hostReadWord flagsBase magBase
  rw [hmem, if_neg Bool.false_ne_true, if_neg (by omega), if_neg (by omega), csrRead_past s hpast]

theorem hostWriteWord_reserved (s : State) {a : Nat} (w : Word) (h : Reserved a) :
    hostWriteWord s a w = .error .hostBadAccess := by
  obtain ⟨hmem, hwindow, hpast⟩ := h.outside
  rw [hostWriteWord, hmem, if_neg Bool.false_ne_true, if_neg hwindow, csrWrite_past w s hpast]

/-- A word of memory reads when each of its bytes has been written, and faults otherwise (20_memory.md R87). -/
theorem hostReadWord_unwritten {s : State} {a j : Nat} (ha : InMemories a) (hj : j < 4)
    (hnone : s.mem.getByte (a + j) = none) : hostReadWord s a = .error .hostReadUnwritten := by
  have hword : s.mem.getWord a = none := by
    rw [← Option.not_isSome_iff_eq_none, getWord_isSome]
    intro hall
    simpa [hnone] using hall j hj
  rw [hostReadWord, if_pos (isMemory_iff.2 ha), hword]

theorem wholeWord_eq_false {a : Word} {n : Nat} (h : n ≠ 4 ∨ a.toNat % 4 ≠ 0) : wholeWord a n = false := by
  simpa [wholeWord, Classical.or_iff_not_imp_left] using h

section Violations

variable {s : State} {a w : Word} {n : Nat} {f : Fault}

theorem step_read {rest : List HostOp} (hp : s.bus.pending = .read a n :: rest) :
    step s = hostRead a n { s with bus := { s.bus with pending := rest } } := by
  unfold step
  rw [hp]

theorem step_write {rest : List HostOp} (hp : s.bus.pending = .write a n w :: rest) :
    step s = hostWrite a n w { s with bus := { s.bus with pending := rest } } := by
  unfold step
  rw [hp]

/-- An access that is no aligned word is the first violation looked for (log entry 7). -/
theorem hostRead_narrow (h : wholeWord a n = false) : hostRead a n s = .fault .hostBadAccess := by rw [hostRead, h]; rfl

theorem hostWrite_narrow (h : wholeWord a n = false) : hostWrite a n w s = .fault .hostBadAccess := by rw [hostWrite, h]; rfl

/-- While BUSY = 1 the host reads STATUS and ID alone (70_reset_and_hazards.md R406). -/
theorem hostRead_busy (hbusy : s.status.busy = true) (ha : a.toNat % 4 = 0) (h0 : a ≠ 0x000) (h8 : a ≠ 0x008) :
    hostRead a 4 s = .fault .hostWhileBusy := by
  rw [hostRead, wholeWord_four ha, hbusy, beq_false_of_ne h0, beq_false_of_ne h8]
  rfl

theorem hostWrite_busy (hbusy : s.status.busy = true) (ha : a.toNat % 4 = 0) :
    hostWrite a 4 w s = .fault .hostWhileBusy := by
  simp [hostWrite, wholeWord_four ha, hbusy]

/-- With BUSY = 0 an aligned access faults where its word does. -/
theorem hostRead_error (hidle : s.status.inflight = none) (ha : a.toNat % 4 = 0)
    (hf : hostReadWord s a.toNat = .error f) : hostRead a 4 s = .fault f := by
  simp [hostRead, wholeWord_four ha, Status.busy, hidle, hf]

theorem hostWrite_error (hidle : s.status.inflight = none) (ha : a.toNat % 4 = 0)
    (hf : hostWriteWord s a.toNat w = .error f) : hostWrite a 4 w s = .fault f := by
  simp [hostWrite, wholeWord_four ha, Status.busy, hidle, hf]

/-- A narrow, wide or unaligned access with BUSY = 0, or one to a reserved address (20_memory.md R79). -/
theorem hostRead_bad (hidle : s.status.inflight = none) (h : n ≠ 4 ∨ a.toNat % 4 ≠ 0 ∨ Reserved a.toNat) :
    hostRead a n s = .fault .hostBadAccess := by
  by_cases hword : n ≠ 4 ∨ a.toNat % 4 ≠ 0
  · exact hostRead_narrow (wholeWord_eq_false hword)
  · obtain ⟨rfl, ha⟩ : n = 4 ∧ a.toNat % 4 = 0 := by omega
    exact hostRead_error hidle ha (hostReadWord_reserved s (by simpa [ha] using h))

theorem hostWrite_bad (hidle : s.status.inflight = none) (h : n ≠ 4 ∨ a.toNat % 4 ≠ 0 ∨ Reserved a.toNat) :
    hostWrite a n w s = .fault .hostBadAccess := by
  by_cases hword : n ≠ 4 ∨ a.toNat % 4 ≠ 0
  · exact hostWrite_narrow (wholeWord_eq_false hword)
  · obtain ⟨rfl, ha⟩ : n = 4 ∧ a.toNat % 4 = 0 := by omega
    exact hostWrite_error hidle ha (hostWriteWord_reserved s w (by simpa [ha] using h))

end Violations

/-- Settles O15: each violation by the check of the host's access that finds it. -/
theorem hostViolationsFault : Obligations.HostViolationsFault := by
  refine ⟨fun s a w n rest hp hidle hbad => ?bad, fun s a w rest hbusy ha hp => ?busy,
    fun s a rest j hidle ha hm hp hj hnone => ?unwritten⟩
  case bad =>
    rcases hp with hp | hp
    · exact (step_read hp).trans (hostRead_bad hidle hbad)
    · exact (step_write hp).trans (hostWrite_bad hidle hbad)
  case busy =>
    rcases hp with hp | ⟨hp, h0, h8⟩
    · exact (step_write hp).trans (hostWrite_busy hbusy ha)
    · exact (step_read hp).trans (hostRead_busy hbusy ha h0 h8)
  case unwritten => exact (step_read hp).trans (hostRead_error hidle ha (hostReadWord_unwritten hm hj hnone))

/-! ### Engines share nothing (60_exceptions.md R384) -/

/-- A step of engine k of a system is a step of that engine, put back in its place. -/
theorem systemStep_next {sys : List State} {k : Nat} {s t : State} (hk : sys[k]? = some s) (e : step s = .next t) :
    systemStep k sys = .next (sys.set k t) := by
  simp only [systemStep, hk, e]

/-- Settles O56: both systems take engine k's own step, and no other place of either list is written. -/
theorem enginesIsolated : Obligations.EnginesIsolated := by
  intro sys sys' k s t hk hk' e
  have stepped {l : List State} (hl : l[k]? = some s) : (l.set k t)[k]? = some t :=
    List.getElem?_set_self (List.getElem?_eq_some_iff.1 hl).1
  have kept (l : List State) {j : Nat} (hj : j ≠ k) : (l.set k t)[j]? = l[j]? := List.getElem?_set_ne hj.symm
  exact ⟨_, _, systemStep_next hk e, systemStep_next hk' e, stepped hk, stepped hk', fun j hj =>
    ⟨kept sys hj, kept sys' hj⟩⟩

end Sys2Proof.Proofs
end

section
/-!
PROOFS. O55: where E_OVERFLOW comes from (20_memory.md R81, 60_exceptions.md R364): from EmitByte alone, at or past BYTE_CAP. A
triple does not tell one error from another, and the checks of a command raise theirs below BYTE_CAP too, so `Overflows` speaks of
this error only. A command codes first and writes its output registers last: `Coding` is said of the pieces that leave the outputs
alone, `Closing` of the whole.
-/
namespace Sys2Proof.Proofs

open Sys2Proof.Machine Sys2Proof.Laws

variable {α β : Type}

/-- Where c ends it moves the state along R. Where it raises E_OVERFLOW, w holds, the output registers are as they were, and the
next byte would lie past BYTE memory. -/
structure Overflows (w : Prop) (R : State → State → Prop) (c : Cmd α) : Prop where
  ok : ∀ {s a t}, c s = .ok a t → R s t
  full : ∀ {s t}, c s = .error (.err .overflow) t → w ∧ t.out = s.out ∧ Config.byteCap ≤ t.seg.outOffset

/-- ERR is as it was. -/
abbrev SameErr (s t : State) : Prop := t.status.err = s.status.err

/-- The output registers and ERR are as they were. -/
abbrev SameOutputs (s t : State) : Prop := (t.out, t.status.err) = (s.out, s.status.err)

/-- A piece that leaves the output registers alone. -/
abbrev Coding (w : Prop) (c : Cmd α) : Prop := Overflows w SameOutputs c

/-- A piece that may write the output registers. `Closing False` says that it raises no E_OVERFLOW. -/
abbrev Closing (w : Prop) (c : Cmd α) : Prop := Overflows w SameErr c

/-! ### Putting pieces together -/

section Rules

variable {w : Prop} {c : Cmd α} {f : α → Cmd β}

theorem Coding.closing (h : Coding w c) : Closing w c := ⟨fun e => congrArg Prod.snd (h.ok e), h.full⟩

/-- What follows a piece that leaves the output registers alone finds them as they were. -/
theorem Coding.before {R : State → State → Prop} (hc : Coding w c) (hf : ∀ a, Overflows w R (f a))
    (hR : ∀ {s t u}, SameOutputs s t → R t u → R s u) : Overflows w R (c >>= f) where
  ok e := by
    obtain ⟨a, t, e1, e2⟩ := bind_eq_ok.1 e
    exact hR (hc.ok e1) ((hf a).ok e2)
  full e := by
    rcases bind_eq_error.1 e with e1 | ⟨a, t, e1, e2⟩
    · exact hc.full e1
    · obtain ⟨hw, hout, hcap⟩ := (hf a).full e2
      exact ⟨hw, hout.trans (congrArg Prod.fst (hc.ok e1)), hcap⟩

theorem Coding.bind (hc : Coding w c) (hf : ∀ a, Coding w (f a)) : Coding w (c >>= f) :=
  hc.before hf fun h1 h2 => h2.trans h1

theorem Closing.bind (hc : Coding w c) (hf : ∀ a, Closing w (f a)) : Closing w (c >>= f) :=
  hc.before hf fun h1 h2 => h2.trans (congrArg Prod.snd h1)

/-- No byte follows once the output registers are written. -/
theorem Closing.last (hc : Closing w c) (hf : ∀ a, Closing False (f a)) : Closing w (c >>= f) where
  ok e := by
    obtain ⟨a, t, e1, e2⟩ := bind_eq_ok.1 e
    exact ((hf a).ok e2).trans (hc.ok e1)
  full e := by
    rcases bind_eq_error.1 e with e1 | ⟨a, t, -, e2⟩
    · exact hc.full e1
    · exact ((hf a).full e2).1.elim

theorem Overflows.ite {R : State → State → Prop} {p : Prop} [Decidable p] {c d : Cmd α} (hc : Overflows w R c)
    (hd : Overflows w R d) : Overflows w R (if p then c else d) := by
  split <;> assumption

theorem Overflows.upd {R : State → State → Prop} {f : State → State} (h : ∀ s, R s (f s)) : Overflows w R (upd f) :=
  ⟨fun e => (by cases e; exact h _), fun e => (by cases e)⟩

theorem Coding.ite {p : Prop} [Decidable p] {c d : Cmd α} (hc : Coding w c) (hd : Coding w d) :
    Coding w (if p then c else d) := Overflows.ite hc hd

theorem Coding.upd {f : State → State} (h : ∀ s, SameOutputs s (f s)) : Coding w (upd f) := Overflows.upd h

theorem Closing.ite {p : Prop} [Decidable p] {c d : Cmd α} (hc : Closing w c) (hd : Closing w d) :
    Closing w (if p then c else d) := Overflows.ite hc hd

theorem Closing.upd {f : State → State} (h : ∀ s, SameErr s (f s)) : Closing w (upd f) := Overflows.upd h

theorem Coding.seg {f : SegRegs → SegRegs} : Coding w (updSeg f) := .upd fun _ => rfl
theorem Coding.arr {f : Arrays → Arrays} : Coding w (updArr f) := .upd fun _ => rfl
theorem Coding.mem {f : State → Memory} : Coding w (Machine.upd fun s => { s with mem := f s }) := .upd fun _ => rfl
theorem Coding.ctx {f : State → Vector CtxEntry 19} : Coding w (Machine.upd fun s => { s with ctx := f s }) :=
  .upd fun _ => rfl
theorem Coding.mode {m : CMode} : Coding w (setMode m) := .upd fun _ => rfl
theorem Closing.mode {m : CMode} : Closing w (setMode m) := .upd fun _ => rfl
theorem Closing.out {f : State → Out} : Closing w (Machine.upd fun s => { s with out := f s }) := .upd fun _ => rfl

/-- A piece that raises no engine error at all. -/
theorem Coding.ofPreserves (h : ∀ s, Preserves (SameOutputs s) (fun _ => False) c) : Coding w c :=
  ⟨fun e => (h _).ok rfl e, fun e => ((h _).err rfl e).elim⟩

theorem Coding.pure {a : α} : Coding w (Pure.pure a : Cmd α) := .ofPreserves fun _ => .pure a

theorem Coding.see {g : State → α} : Coding w (see g) := .ofPreserves fun _ => .see g

/-- What is read from the state is one of its values. -/
theorem Coding.seeBind {g : State → α} (h : ∀ s, Coding w (f (g s))) : Coding w (Machine.see g >>= f) :=
  ⟨fun {s _ _} e => (h s).ok e, fun {s _} e => (h s).full e⟩

theorem Coding.raise {e : ErrCode} (he : e ≠ .overflow) : Coding w (raise e : Cmd α) :=
  ⟨fun x => (by cases x), fun x => (by cases x; exact absurd rfl he)⟩

theorem Coding.check (bad : Bool) {e : ErrCode} (he : e ≠ .overflow := by decide) : Coding w (check bad e) :=
  .ite (.raise he) .pure

theorem Coding.forEach {l : List β} {f : β → Cmd Unit} (h : ∀ x, Coding w (f x)) : Coding w (forEach l f) := by
  induction l with
  | nil => exact .pure
  | cons x l ih => exact .bind (h x) fun _ => ih

/-- What a whole command may leave (60_exceptions.md R364): no command sets ERR but by taking an error. -/
theorem Closing.runCmd {c : Cmd Unit} (h : Closing w c) {s t : State} (e : runCmd c s = .next t)
    (hs : s.status.err = none) (ht : t.status.err = some .overflow) :
    w ∧ t.out = s.out ∧ Config.byteCap ≤ t.seg.start.toNat + t.seg.bp.toNat := by
  rcases runCmd_eq_next.1 e with ⟨u, hu, rfl⟩ | ⟨x, u, hu, rfl⟩
  · have herr : some ErrCode.overflow = none := ht.symm.trans ((h.ok hu).trans hs)
    cases herr
  · obtain rfl : x = .overflow := Option.some.inj ht
    obtain ⟨hw, hout, hcap⟩ := h.full hu
    exact ⟨hw, hout, hcap⟩

end Rules

/-- No step of a bit coder writes an output register or ERR. -/
theorem sameOutputs_coderInv (s : State) (w : Prop) : CoderInv (SameOutputs s) w where

/-! ### The bit coders -/

section Coders

variable {w : Prop} (hw : w)
include hw

/-- EmitByte (20_memory.md R81) is where E_OVERFLOW is raised. -/
theorem emitByte_codes (v : Byte) : Coding w (emitByte v) where
  ok {s a t} e := by
    rw [emitByte_run] at e
    split at e
    · cases e
    · cases e; rfl
  full {s t} e := by
    rw [emitByte_run] at e
    split at e
    case isTrue hcap => cases e; exact ⟨hw, rfl, hcap⟩
    case isFalse => cases e

theorem stuffedOut_codes : Coding w stuffedOut :=
  .bind .seg fun _ => .bind .see fun _ => .bind (emitByte_codes hw _) fun _ => .seg

theorem plainOut_codes : Coding w plainOut :=
  .bind .seg fun _ => .bind .see fun _ => .bind (emitByte_codes hw _) fun _ => .seg

omit hw in
theorem setLastByte_codes (v : Byte) : Coding w (setLastByte v) := .bind .see fun _ => .ite .mem .pure

omit hw in
theorem dropTrailingFF_codes : Coding w dropTrailingFF := .bind .see fun _ => .ite .seg .pure

/-- BYTEOUT (42_mq_coder.md R164). -/
theorem byteOut_codes : Coding w byteOut := by
  refine .bind .see fun _ => .ite (stuffedOut_codes hw) (.ite (plainOut_codes hw) ?carry)
  case carry =>
    exact .bind .seg fun _ => .bind (setLastByte_codes _) fun _ =>
      .ite (.bind .seg fun _ => stuffedOut_codes hw) (plainOut_codes hw)

/-- RENORME (42_mq_coder.md R165). -/
theorem renormE_codes (n : Nat) : Coding w (renormE n) := by
  induction n with
  | zero => exact .pure
  | succ n ih =>
    have turn : Coding w renormEStep := .bind .seg fun _ => .bind .see fun _ => .ite (byteOut_codes hw) .pure
    exact .bind turn fun _ => .bind .see fun _ => .ite .pure ih

/-- ENCODE (42_mq_coder.md R166). -/
theorem mqEncode_codes (cx : Label) (d : Bool) : Coding w (mqEncode cx d) := by
  have renorm (v : CtxEntry) : Coding w (do setCtx cx v; renormE 16) := .bind .ctx fun _ => renormE_codes hw 16
  refine .bind .see fun e => .bind .seg fun _ => .ite ?mps ?lps
  case mps => exact .bind .see fun _ => .ite .seg (.ite (.bind .seg fun _ => renorm _) (.bind .seg fun _ => renorm _))
  case lps => exact .bind .see fun _ => .ite (.bind .seg fun _ => renorm _) (.bind .seg fun _ => renorm _)

/-- FLUSH (42_mq_coder.md R169). -/
theorem mqFlush_codes : Coding w mqFlush :=
  .bind .seg fun _ => .bind .seg fun _ => .bind (byteOut_codes hw) fun _ => .bind .seg fun _ =>
    .bind (byteOut_codes hw) fun _ => dropTrailingFF_codes

theorem ertermLoop_codes (n : Nat) (k : Int) : Coding w (ertermLoop n k) := by
  induction n generalizing k with
  | zero => exact .pure
  | succ n ih =>
    exact .ite (.bind .seg fun _ => .bind .seg fun _ => .bind (byteOut_codes hw) fun _ => .bind .see fun _ => ih _) .pure

/-- ERTERM (42_mq_coder.md R175). -/
theorem mqErterm_codes : Coding w mqErterm :=
  .bind .see fun _ => .bind (ertermLoop_codes hw _ _) fun _ => dropTrailingFF_codes

theorem emitAssembled_codes : Coding w emitAssembled :=
  .bind .see fun _ => .bind (emitByte_codes hw _) fun _ => .seg

theorem nextByte_codes : Coding w nextByte := .bind (emitAssembled_codes hw) fun _ => .seg

/-- RAWPUT (43_raw_bypass.md R212). -/
theorem rawPut_codes (d : Bool) : Coding w (rawPut d) :=
  .bind .seg fun _ => .bind .seg fun _ => .bind .see fun _ => .ite (nextByte_codes hw) .pure

omit hw in
theorem rawPad_codes (n : Nat) (b : Bool) : Coding w (rawPad n b) := by
  induction n generalizing b with
  | zero => exact .pure
  | succ n ih => exact .bind .seg fun _ => .bind .seg fun _ => ih _

/-- RAWFLUSH (43_raw_bypass.md R213). -/
theorem rawFlush_codes : Coding w rawFlush :=
  .bind .see fun _ => .ite
    (.bind (rawPad_codes _ _) fun _ => .bind (emitAssembled_codes hw) fun _ => .bind .seg fun _ => dropTrailingFF_codes)
    dropTrailingFF_codes

theorem melBit_codes (v : Bool) : Coding w (melBit v) :=
  .bind .seg fun _ => .bind .see fun _ => .ite (nextByte_codes hw) .pure

theorem melRunBits_codes (run : BitVec 16) (n : Nat) : Coding w (melRunBits run n) := by
  induction n with
  | zero => exact .pure
  | succ n ih => exact .bind (melBit_codes hw _) fun _ => ih

/-- MELPUT (45_ht_block_coder.md R284). -/
theorem melPut_codes (sym : Bool) : Coding w (melPut sym) := by
  refine .ite ?one ?zero
  case one => exact .bind .see fun _ => .bind (melBit_codes hw _) fun _ => .bind (melRunBits_codes hw _ _) fun _ => .seg
  case zero => exact .bind .seg fun _ => .bind .see fun _ => .ite (.bind (melBit_codes hw _) fun _ => .seg) .pure

theorem melOnes_codes (n : Nat) : Coding w (melOnes n) := by
  induction n with
  | zero => exact .pure
  | succ n ih => exact .bind (melBit_codes hw _) fun _ => ih

/-- MELFLUSH (45_ht_block_coder.md R284). -/
theorem melFlush_codes : Coding w melFlush := by
  have pad : Coding w (do
      let r ← see (·.seg)
      if r.ct < r.fullCt then melOnes r.ct.toNat else pure ()) := .bind .see fun _ => .ite (melOnes_codes hw _) .pure
  exact .bind .see fun _ => .ite pad (.bind (melBit_codes hw _) fun _ => .bind .seg fun _ => pad)

end Coders

/-! ### The passes -/

section Passes

variable {w : Prop} {pa : PassArgs} (hw : pa.dir = .enc → w)
include hw

/-- CODE (44_bitplane_coder.md R233): only a pass that encodes emits bytes. -/
theorem code_codes (cx : Label) {e : Cmd Bool} (he : Coding w e) : Coding w (code pa cx e) := by
  unfold code
  split
  case h_1 hd =>
    exact .bind he fun d => .ite (.bind (rawPut_codes (hw hd) d) fun _ => .pure)
      (.bind (mqEncode_codes (hw hd) cx d) fun _ => .pure)
  case h_2 =>
    have dec (s : State) : CoderInv (SameOutputs s) w := sameOutputs_coderInv s w
    exact .ite (.ofPreserves fun s => rawGet_preserves (dec s)) (.ofPreserves fun s => mqDecode_preserves (dec s) cx)

omit hw in
theorem coefSign_codes (i : Nat) : Coding w (coefSign i) := .ofPreserves fun _ => coefSign_reads i

omit hw in
theorem markMagBit_codes (i : Nat) : Coding w (markMagBit pa i) := .ite .arr .pure

/-- MAGBIT (44_bitplane_coder.md R235). -/
theorem magBit_codes (i : Nat) (cx : Label) : Coding w (magBit pa i cx) :=
  .bind (code_codes hw cx (.ofPreserves fun _ => coefBit_reads _ _)) fun _ =>
    .ite (.bind (markMagBit_codes i) fun _ => .pure) .pure

/-- SIGNSTEP (44_bitplane_coder.md R236). -/
theorem signStep_codes (x y : Nat) : Coding w (signStep pa x y) :=
  .ite (.bind (code_codes hw _ (coefSign_codes _)) fun _ => .arr)
    (.bind .see fun _ => .bind (code_codes hw _ (.bind (coefSign_codes _) fun _ => .pure)) fun _ => .arr)

/-- SPP (44_bitplane_coder.md R237). -/
theorem spp_codes : Coding w (spp pa) :=
  .forEach fun _ => .bind .see fun _ =>
    .ite (.bind (magBit_codes hw _ _) fun _ => .bind .arr fun _ => .ite (signStep_codes hw _ _) .pure) .pure

/-- MRP (44_bitplane_coder.md R238). -/
theorem mrp_codes : Coding w (mrp pa) :=
  .forEach fun _ => .bind .see fun _ => .ite (.bind (magBit_codes hw _ _) fun _ => .arr) .pure

theorem runColumn_codes (x y0 : Nat) : Coding w (runColumn pa x y0) := by
  have position (k : Nat) : Coding w (runPosition pa k) :=
    .bind (code_codes hw _ .pure) fun _ => .bind (code_codes hw _ .pure) fun _ => .pure
  refine .bind (.ofPreserves fun _ => columnRun_reads pa x y0) fun _ => .bind (code_codes hw _ .pure) fun _ => .ite ?_ .pure
  exact .bind (position _) fun _ => .bind (markMagBit_codes _) fun _ => .bind (signStep_codes hw _ _) fun _ => .pure

theorem cupVisit_codes (x y : Nat) : Coding w (cupVisit pa x y) :=
  .bind .see fun _ => .ite (.bind (magBit_codes hw _ _) fun _ => .ite (signStep_codes hw _ _) .pure) .pure

theorem cupColumn_codes (c : Nat × Nat) : Coding w (cupColumn pa c) := by
  refine .bind (.bind .see fun _ => .ite (runColumn_codes hw _ _) .pure) fun first => ?_
  cases first with
  | none => exact .pure
  | some y1 => exact .forEach fun _ => cupVisit_codes hw _ _

/-- SEGMARK (44_bitplane_coder.md R254). -/
theorem segMark_codes : Coding w (segMark pa) := by
  have coded (b : Bool) : Coding w (code pa 18 (pure b)) := code_codes hw 18 .pure
  exact .bind (coded _) fun _ => .bind (coded _) fun _ => .bind (coded _) fun _ => .bind (coded _) fun _ => .ite (.upd fun _ => rfl) .pure

/-- CUP (44_bitplane_coder.md R239). -/
theorem cup_codes : Coding w (cup pa) :=
  .bind (.forEach fun _ => cupColumn_codes hw _) fun _ => .bind .arr fun _ => .ite (segMark_codes hw) .pure

end Passes

/-! ### Blocks (46_coordinator.md) -/

section Blocks

variable {w : Prop}

theorem checkShape_codes : Coding w checkShape := .bind .see fun _ => .check _

theorem checkBlock_codes : Coding w checkBlock := .bind checkShape_codes fun _ => .bind .see fun _ => .check _

theorem checkCoefs_codes : Coding w checkCoefs :=
  .bind .see fun _ => .forEach fun _ => .bind (.ofPreserves fun _ => memReadWord_reads _) fun _ => .check _

theorem checkDecodeArgs_codes : Coding w checkDecodeArgs := .bind .see fun _ => .bind (.check _) fun _ => .check _

theorem blockStart_codes : Coding w blockStart := .bind (.upd fun _ => rfl) fun _ => .bind .arr fun _ => .ctx

/-- A pass of a block (44_bitplane_coder.md R256). -/
theorem runPass_codes {dir : Dir} (hw : dir = .enc → w) (k : Nat) : Coding w (runPass dir k) := by
  refine .bind .see fun c => ?_
  dsimp only
  split
  · exact spp_codes hw
  · exact mrp_codes hw
  · exact cup_codes hw

theorem resetAfterPass_codes : Coding w resetAfterPass := .bind .see fun _ => .ite .ctx .pure

/-! Encoding -/

theorem latchSegbase_codes : Coding w latchSegbase := .bind .see fun _ => .seg

theorem openSegment_codes (raw : Bool) (total : Word) : Coding w (openSegment raw total) :=
  .bind .see fun _ => .bind .seg fun _ => .ite (.bind .seg fun _ => .mode) (.bind .seg fun _ => .mode)

theorem closeSegment_codes (hw : w) (raw : Bool) : Coding w (closeSegment raw) :=
  .ite (rawFlush_codes hw) (.bind .see fun _ => .ite (mqErterm_codes hw) (mqFlush_codes hw))

/-- The passes of PART1_ENCODE (46_coordinator.md R328). -/
theorem encodePasses_codes (hw : w) (np n : Nat) (total : Word) (isOpen : Bool) :
    Coding w (encodePasses np n total isOpen) := by
  induction n generalizing total isOpen with
  | zero => exact .pure
  | succ n ih =>
    refine .bind .see fun c => .ite ?_ (.bind (openSegment_codes _ _) fun _ => ?_)
    all_goals
      refine .bind (runPass_codes (fun _ => hw) _) fun _ => .bind resetAfterPass_codes fun _ => .ite ?_ ?_
      · exact .bind (closeSegment_codes hw _) fun _ => .bind .see fun _ => .bind .mem fun _ => ih _ _
      · exact .bind .mem fun _ => ih _ _

/-- The outputs of an encode are written at its end (46_coordinator.md R328, R329). -/
theorem endEncode_closes (v : Word) (n : Nat) : Closing w (endEncode v n) :=
  .last .out fun _ => .last .out fun _ => .mode

/-- PART1_ENCODE (46_coordinator.md R328). -/
theorem part1Encode_closes (hw : w) : Closing w part1Encode := by
  refine .bind .see fun c => .ite ?empty ?passes
  case empty =>
    exact .bind latchSegbase_codes fun _ => .bind .seg fun _ => .bind (mqFlush_codes hw) fun _ => .bind .see fun _ =>
      endEncode_closes _ _
  case passes => exact .bind (encodePasses_codes hw _ _ _ _) fun _ => endEncode_closes _ _

/-- HT_ENCODE (46_coordinator.md R329). -/
theorem htEncode_closes (hw : w) : Closing w htEncode := by
  refine .bind .see fun c => .ite (endEncode_closes _ _) ?_
  exact .bind (.ofPreserves fun _ => readCoefs_reads _ _) fun q => .bind latchSegbase_codes fun _ => .bind .seg fun _ =>
    .bind (.forEach fun v => emitByte_codes hw v) fun _ => .bind .mem fun _ => endEncode_closes _ _

/-! Decoding -/

theorem mqInitDec_codes : Coding w mqInitDec := .ofPreserves fun s => mqInitDec_preserves (sameOutputs_coderInv s w)

theorem part1Uses_codes : Coding w part1Uses := by
  have ends (l : List (Nat × Nat)) (lo : Nat) : Coding w (part1Segments l lo) := by
    induction l generalizing lo with
    | nil => exact .pure
    | cons ab l ih =>
      exact .bind (.ofPreserves fun _ => segmentEnd_reads _) fun _ => .bind (.check _) fun _ => .bind (ih _) fun _ => .pure
  exact .bind .see fun _ => ends _ _

theorem htEnds_codes : Coding w htEnds := by
  have segtab (k : Nat) : Coding w (segtabEnd k) := .ofPreserves fun _ => segtabEnd_reads k
  exact .bind .see fun _ => .ite .pure (.bind (segtab _) fun _ => .ite .pure
    (.bind (segtab _) fun _ => .bind (.check _) fun _ => .pure))

theorem decodePasses_codes (n k done : Nat) : Coding w (decodePasses n k done) := by
  induction n generalizing k done with
  | zero => exact .pure
  | succ n ih =>
    exact .bind (runPass_codes (dir := .dec) nofun _) fun _ => .bind resetAfterPass_codes fun _ =>
      .bind .see fun _ => .ite .pure (ih _ _)

theorem openDecoder_codes (u : SegUse) : Coding w (openDecoder u) :=
  .bind .see fun _ => .bind .seg fun _ => .ite (.bind .seg fun _ => .mode) (.bind mqInitDec_codes fun _ => .mode)

theorem decodeSegments_codes (l : List SegUse) (done : Nat) : Coding w (decodeSegments l done) := by
  induction l generalizing done with
  | nil => exact .pure
  | cons u l ih =>
    exact .bind .see fun _ => .ite .pure (.bind (openDecoder_codes _) fun _ => .bind (decodePasses_codes _ _ _) fun _ =>
      .ite .pure (ih _))

theorem store_codes : Coding w store := .bind .see fun _ => .forEach fun _ => .bind .see fun _ => .mem

/-- The end of a decode raises E_TRUNCATED at most (46_coordinator.md R345). -/
theorem endDecode_closes (done : Nat) (trunc short : Bool) : Closing w (endDecode done trunc short) := by
  have flags : Coding False (do
      setMode .idle
      if trunc then do
        setTrunc
        if (← see (·.cfg.tolerate)) then setPartial else raise .truncated
      else if short then setPartial
      else pure ()) :=
    .bind .mode fun _ => .ite (.bind (.upd fun _ => rfl) fun _ => .bind .see fun _ => .ite (.upd fun _ => rfl) (.raise (by decide))) (.ite (.upd fun _ => rfl) .pure)
  exact .bind store_codes fun _ => .last .out fun _ => flags.closing

/-- PART1_DECODE (46_coordinator.md R346). -/
theorem part1Decode_closes (uses : List SegUse) : Closing w (part1Decode uses) :=
  .bind (decodeSegments_codes _ _) fun _ => .bind .see fun _ => endDecode_closes _ _ _

theorem storeHt_codes (l : List HtCoef) (k : Nat) : Coding w (storeHt l k) := by
  induction l generalizing k with
  | nil => exact .pure
  | cons x l ih => exact .bind .arr fun _ => ih _

/-- The call of HTCodec.decode raises E_HT_MALFORMED at most (46_coordinator.md R347). -/
theorem htDecodeBlock_codes (e0 e1 done : Nat) : Coding w (htDecodeBlock e0 e1 done) := by
  have bytes (n j : Nat) : Coding w (readBytes n j) := .ofPreserves fun _ => readBytes_reads n j
  refine .bind .see fun c => .bind (bytes _ _) fun cup => .ite (.bind (bytes _ _) fun refn => ?_) (.bind .pure fun refn => ?_)
  all_goals
    dsimp only
    generalize (if c.npass.toNat = 1 then 0 else 1) = z
    split
    · exact .raise (by decide)
    · exact storeHt_codes _ 0

/-- HT_DECODE (46_coordinator.md R347). -/
theorem htDecode_closes (ends : Nat × Nat) : Closing w (htDecode ends) :=
  .bind .see fun _ => .ite (.bind (htDecodeBlock_codes _ _ _) fun _ => endDecode_closes _ _ _) (endDecode_closes _ _ _)

end Blocks

/-! ### Every command -/

section Exec

variable {w : Prop}

theorem needMode_codes (m : CMode) : Coding w (needMode m) := .bind .see fun _ => .check _

theorem checkFields_codes (i : Instr) : Coding w (checkFields i) := .check _

theorem setResult_closes (v : Word) : Closing w (setResult v) := .out

theorem endSegment_closes : Closing w endSegment := .bind .see fun _ => .last .out fun _ => .mode

/-- A pass command (44_bitplane_coder.md R240) runs its pass in its direction. -/
theorem pass_codes {i : Instr} {plane : BitVec 5} {dir : Dir} {raw : Bool} {pass : PassArgs → Cmd Unit}
    (hw : dir = .enc → w) (hp : ∀ pa : PassArgs, (pa.dir = .enc → w) → Coding w (pass pa)) :
    Coding w (do checkFields i; pass (← passCommand plane dir raw)) := by
  refine .bind (checkFields_codes i) fun _ => ?_
  unfold passCommand
  rw [bind_assoc]
  refine .bind (needMode_codes _) fun _ => ?_
  rw [bind_assoc]
  exact .bind checkShape_codes fun _ => .seeBind fun _ => hp _ hw

section Shapes

variable {m : CMode}

/-- A decoder's command: a bit of the segment into RESULT. -/
theorem bit_closes {c : Cmd Bool} (hc : ∀ s, Preserves (SameOutputs s) (fun _ => False) c) :
    Closing w (do needMode m; setResult (zextBit (← c))) :=
  .bind (needMode_codes m) fun _ => .bind (.ofPreserves hc) fun _ => setResult_closes _

variable {c : Cmd Unit} (hc : Coding w c)
include hc

theorem put_codes : Coding w (do needMode m; c) := .bind (needMode_codes m) fun _ => hc

/-- A termination writes NBYTES after its last byte (10_state.md R33). -/
theorem terminate_closes : Closing w (do needMode m; c; endSegment) :=
  .bind (needMode_codes m) fun _ => .bind hc fun _ => endSegment_closes

theorem initenc_codes : Coding w (do latchSegbase; c; setMode m) :=
  .bind latchSegbase_codes fun _ => .bind hc fun _ => .mode

theorem initdec_codes : Coding w (do checkSegment; latchCfgSegment; c; setMode m) :=
  .bind (.bind .see fun _ => .check _) fun _ => .bind (.bind .see fun _ => .seg) fun _ => .bind hc fun _ => .mode

end Shapes

/-- Every command is a piece that raises E_OVERFLOW only if it may emit bytes, run to its end. -/
theorem exec_closes (i : Instr) : ∃ c, (∀ s, exec i s = runCmd c s) ∧ Closing (emitsBytes i = true) c := by
  have coder (s : State) : CoderInv (SameOutputs s) False := sameOutputs_coderInv s False
  cases i with
  | ctxZc o m | ctxSc w e' n s' | ctxMr r a => exact ⟨_, fun _ => rfl, setResult_closes _⟩
  | mqInitenc => exact ⟨_, fun _ => rfl, (initenc_codes (c := mqInitEnc) .seg).closing⟩
  | rawInitenc => exact ⟨_, fun _ => rfl, (initenc_codes (c := rawInitEnc) .seg).closing⟩
  | melInitenc => exact ⟨_, fun _ => rfl, (initenc_codes (c := melInitEnc) .seg).closing⟩
  | mqInitdec => exact ⟨_, fun _ => rfl, (initdec_codes mqInitDec_codes).closing⟩
  | rawInitdec => exact ⟨_, fun _ => rfl, (initdec_codes (c := rawInitDec) .seg).closing⟩
  | melInitdec => exact ⟨_, fun _ => rfl, (initdec_codes (c := melInitDec) .seg).closing⟩
  | mqEncode cx d =>
    exact ⟨_, fun _ => rfl, (Coding.bind (checkFields_codes _) fun _ => put_codes (mqEncode_codes rfl _ d)).closing⟩
  | rawPutbit d => exact ⟨_, fun _ => rfl, (put_codes (rawPut_codes rfl d)).closing⟩
  | melPut d => exact ⟨_, fun _ => rfl, (put_codes (melPut_codes rfl d)).closing⟩
  | mqFlush => exact ⟨_, fun _ => rfl, terminate_closes (mqFlush_codes rfl)⟩
  | mqErterm => exact ⟨_, fun _ => rfl, terminate_closes (mqErterm_codes rfl)⟩
  | rawFlush => exact ⟨_, fun _ => rfl, terminate_closes (rawFlush_codes rfl)⟩
  | melFlush => exact ⟨_, fun _ => rfl, terminate_closes (melFlush_codes rfl)⟩
  | mqDecode cx =>
    exact ⟨_, fun _ => rfl, .bind (checkFields_codes _) fun _ => bit_closes fun s => mqDecode_preserves (coder s) _⟩
  | rawGetbit => exact ⟨_, fun _ => rfl, bit_closes fun s => rawGet_preserves (coder s)⟩
  | melGet => exact ⟨_, fun _ => rfl, bit_closes fun s => melGet_preserves (coder s)⟩
  | mqResetctx => exact ⟨_, fun _ => rfl, (Coding.ctx : Coding _ resetContexts).closing⟩
  | bpcClear => exact ⟨_, fun _ => rfl, (Coding.arr : Coding _ clearArrays).closing⟩
  | bpcSpp p dir raw => exact ⟨_, fun _ => rfl, (pass_codes (by simp [emitsBytes]) fun _ => spp_codes).closing⟩
  | bpcMrp p dir raw => exact ⟨_, fun _ => rfl, (pass_codes (by simp [emitsBytes]) fun _ => mrp_codes).closing⟩
  | bpcCup p dir => exact ⟨_, fun _ => rfl, (pass_codes (by simp [emitsBytes]) fun _ => cup_codes).closing⟩
  | bpcStore => exact ⟨_, fun _ => rfl, (Coding.bind checkShape_codes fun _ => store_codes).closing⟩
  | cbEncode =>
    refine ⟨_, fun _ => rfl, ?_⟩
    exact .bind checkBlock_codes fun _ => .bind checkCoefs_codes fun _ => .bind blockStart_codes fun _ => .bind .see fun _ =>
      .ite (htEncode_closes rfl) (part1Encode_closes rfl)
  | cbDecode =>
    refine ⟨_, fun _ => rfl, ?_⟩
    refine .bind checkBlock_codes fun _ => .bind checkDecodeArgs_codes fun _ => .bind .see fun _ => .ite ?ht ?part1
    case ht => exact .bind htEnds_codes fun _ => .bind blockStart_codes fun _ => htDecode_closes _
    case part1 => exact .bind part1Uses_codes fun _ => .bind blockStart_codes fun _ => part1Decode_closes _

end Exec

/-- Settles O55: EmitByte alone raises E_OVERFLOW, and every command writes its output registers after its last byte. -/
theorem overflowKeepsOutputs : Obligations.OverflowKeepsOutputs := by
  intro i s t e hs ht
  obtain ⟨c, hrun, hc⟩ := exec_closes i
  exact hc.runCmd ((hrun s).symm.trans e) hs ht

end Sys2Proof.Proofs
end


section
/-!
PROOFS. O52: a command faults only where it reads memory that nothing has written (20_memory.md R76, R87), so every command
ends, in a completion or in taking an error (70_reset_and_hazards.md R404, R405). A triple says nothing of faults;
`FaultsOnRead` speaks of them alone.
-/
namespace Sys2Proof.Proofs

open Sys2Proof.Machine Sys2Proof.Laws

variable {α β : Type}

/-- Where c faults, it has read memory that nothing has written. -/
structure FaultsOnRead (c : Cmd α) : Prop where
  only : ∀ {s f t}, c s = .error (.fault f) t → f = .engineReadUnwritten

/-! ### Putting pieces together -/

section Rules

variable {c d : Cmd α}

theorem FaultsOnRead.pure {a : α} : FaultsOnRead (Pure.pure a : Cmd α) := ⟨nofun⟩
theorem FaultsOnRead.see {g : State → α} : FaultsOnRead (see g) := ⟨nofun⟩
theorem FaultsOnRead.upd {g : State → State} : FaultsOnRead (upd g) := ⟨nofun⟩
theorem FaultsOnRead.raise {e : ErrCode} : FaultsOnRead (raise e : Cmd α) := ⟨nofun⟩

theorem FaultsOnRead.bind {f : α → Cmd β} (hc : FaultsOnRead c) (hf : ∀ a, FaultsOnRead (f a)) : FaultsOnRead (c >>= f) where
  only e := by
    rcases bind_eq_error.1 e with e1 | ⟨a, t, -, e2⟩
    · exact hc.only e1
    · exact (hf a).only e2

theorem FaultsOnRead.ite {p : Prop} [Decidable p] (hc : FaultsOnRead c) (hd : FaultsOnRead d) :
    FaultsOnRead (if p then c else d) := by
  split <;> assumption

theorem FaultsOnRead.check {bad : Bool} {e : ErrCode} : FaultsOnRead (check bad e) := .ite .raise .pure

theorem FaultsOnRead.forEach {l : List β} {f : β → Cmd Unit} (h : ∀ x, FaultsOnRead (f x)) : FaultsOnRead (forEach l f) := by
  induction l with
  | nil => exact .pure
  | cons x l ih => exact .bind (h x) fun _ => ih

/-- The two reads of memory are where a command faults (20_memory.md R76, R87). -/
theorem memReadWord_faultsOnRead (a : Nat) : FaultsOnRead (memReadWord a) where
  only e := by
    rw [memReadWord_run] at e
    split at e <;> cases e
    rfl

theorem memReadByte_faultsOnRead (a : Nat) : FaultsOnRead (memReadByte a) where
  only e := by
    rw [memReadByte_run] at e
    split at e <;> cases e
    rfl

end Rules

/-! ### Bytes (20_memory.md R80, R81) -/

theorem emitByte_faultsOnRead (v : Byte) : FaultsOnRead (emitByte v) :=
  .bind .see fun _ => .bind .check fun _ => .bind .upd fun _ => .upd

theorem setLastByte_faultsOnRead (v : Byte) : FaultsOnRead (setLastByte v) := .bind .see fun _ => .ite .upd .pure

theorem dropTrailingFF_faultsOnRead : FaultsOnRead dropTrailingFF := .bind .see fun _ => .ite .upd .pure

theorem segByte_faultsOnRead (i : Nat) : FaultsOnRead (segByte i) :=
  .bind .see fun _ => .ite (.bind (memReadByte_faultsOnRead _) fun _ => .pure) .pure

theorem countFill_faultsOnRead (f : Bool) : FaultsOnRead (countFill f) := .ite .upd .pure

/-! ### The MQ coder (42_mq_coder.md) -/

theorem stuffedOut_faultsOnRead : FaultsOnRead stuffedOut :=
  .bind .upd fun _ => .bind .see fun _ => .bind (emitByte_faultsOnRead _) fun _ => .upd

theorem plainOut_faultsOnRead : FaultsOnRead plainOut :=
  .bind .upd fun _ => .bind .see fun _ => .bind (emitByte_faultsOnRead _) fun _ => .upd

/-- BYTEOUT (42_mq_coder.md R164). -/
theorem byteOut_faultsOnRead : FaultsOnRead byteOut := by
  refine .bind .see fun _ => .ite stuffedOut_faultsOnRead (.ite plainOut_faultsOnRead ?carry)
  case carry =>
    exact .bind .upd fun _ => .bind (setLastByte_faultsOnRead _) fun _ =>
      .ite (.bind .upd fun _ => stuffedOut_faultsOnRead) plainOut_faultsOnRead

/-- RENORME (42_mq_coder.md R165). -/
theorem renormE_faultsOnRead (n : Nat) : FaultsOnRead (renormE n) := by
  induction n with
  | zero => exact .pure
  | succ n ih =>
    have turn : FaultsOnRead renormEStep := .bind .upd fun _ => .bind .see fun _ => .ite byteOut_faultsOnRead .pure
    exact .bind turn fun _ => .bind .see fun _ => .ite .pure ih

/-- ENCODE (42_mq_coder.md R166). -/
theorem mqEncode_faultsOnRead (cx : Label) (d : Bool) : FaultsOnRead (mqEncode cx d) := by
  have renorm (v : CtxEntry) : FaultsOnRead (do setCtx cx v; renormE 16) := .bind .upd fun _ => renormE_faultsOnRead 16
  refine .bind .see fun e => .bind .upd fun _ => .ite ?mps ?lps
  case mps => exact .bind .see fun _ => .ite .upd (.ite (.bind .upd fun _ => renorm _) (.bind .upd fun _ => renorm _))
  case lps => exact .bind .see fun _ => .ite (.bind .upd fun _ => renorm _) (.bind .upd fun _ => renorm _)

/-- FLUSH (42_mq_coder.md R169). -/
theorem mqFlush_faultsOnRead : FaultsOnRead mqFlush :=
  .bind .upd fun _ => .bind .upd fun _ => .bind byteOut_faultsOnRead fun _ => .bind .upd fun _ =>
    .bind byteOut_faultsOnRead fun _ => dropTrailingFF_faultsOnRead

theorem ertermLoop_faultsOnRead (n : Nat) (k : Int) : FaultsOnRead (ertermLoop n k) := by
  induction n generalizing k with
  | zero => exact .pure
  | succ n ih =>
    exact .ite (.bind .upd fun _ => .bind .upd fun _ => .bind byteOut_faultsOnRead fun _ => .bind .see fun _ => ih _) .pure

/-- ERTERM (42_mq_coder.md R175). -/
theorem mqErterm_faultsOnRead : FaultsOnRead mqErterm :=
  .bind .see fun _ => .bind (ertermLoop_faultsOnRead _ _) fun _ => dropTrailingFF_faultsOnRead

theorem byteInBody_faultsOnRead : FaultsOnRead byteInBody := by
  have answer {g : SegRegs → SegRegs} {f : Bool} : FaultsOnRead (do updSeg g; Pure.pure f) := .bind .upd fun _ => .pure
  exact .bind .see fun _ => .bind (segByte_faultsOnRead _) fun _ => .bind (segByte_faultsOnRead _) fun _ =>
    .ite (.ite answer answer) answer

/-- INITDEC (42_mq_coder.md R181). -/
theorem mqInitDec_faultsOnRead : FaultsOnRead mqInitDec :=
  .bind .upd fun _ => .bind (segByte_faultsOnRead _) fun _ => .bind .upd fun _ => .bind byteInBody_faultsOnRead fun _ =>
    .bind (countFill_faultsOnRead _) fun _ => .upd

/-- RENORMD (42_mq_coder.md R184). -/
theorem renormD_faultsOnRead (n : Nat) : FaultsOnRead (renormD n) := by
  induction n with
  | zero => exact .pure
  | succ n ih =>
    have byteIn : FaultsOnRead byteIn := .bind byteInBody_faultsOnRead fun _ => countFill_faultsOnRead _
    have turn : FaultsOnRead renormDStep := .bind .see fun _ => .ite (.bind byteIn fun _ => .upd) .upd
    exact .bind turn fun _ => .bind .see fun _ => .ite .pure ih

/-- DECODE (42_mq_coder.md R185). -/
theorem mqDecode_faultsOnRead (cx : Label) : FaultsOnRead (mqDecode cx) := by
  refine .bind .see fun e => .bind .upd fun _ => .bind .see fun _ => .ite ?lps ?mps
  case lps =>
    exact .bind .see fun _ => .bind .upd fun _ => .bind .upd fun _ => .bind (renormD_faultsOnRead _) fun _ => .pure
  case mps =>
    exact .bind .upd fun _ => .bind .see fun _ => .ite .pure (.bind .upd fun _ =>
      .bind (renormD_faultsOnRead _) fun _ => .pure)

/-! ### The raw and MEL coders (43_raw_bypass.md, 45_ht_block_coder.md) -/

theorem emitAssembled_faultsOnRead : FaultsOnRead emitAssembled :=
  .bind .see fun _ => .bind (emitByte_faultsOnRead _) fun _ => .upd

theorem nextByte_faultsOnRead : FaultsOnRead nextByte := .bind emitAssembled_faultsOnRead fun _ => .upd

/-- RAWPUT (43_raw_bypass.md R212). -/
theorem rawPut_faultsOnRead (d : Bool) : FaultsOnRead (rawPut d) :=
  .bind .upd fun _ => .bind .upd fun _ => .bind .see fun _ => .ite nextByte_faultsOnRead .pure

theorem rawPad_faultsOnRead (n : Nat) (b : Bool) : FaultsOnRead (rawPad n b) := by
  induction n generalizing b with
  | zero => exact .pure
  | succ n ih => exact .bind .upd fun _ => .bind .upd fun _ => ih _

/-- RAWFLUSH (43_raw_bypass.md R213). -/
theorem rawFlush_faultsOnRead : FaultsOnRead rawFlush := by
  refine .bind .see fun _ => .ite ?padded dropTrailingFF_faultsOnRead
  case padded =>
    exact .bind (rawPad_faultsOnRead _ _) fun _ => .bind emitAssembled_faultsOnRead fun _ => .bind .upd fun _ =>
      dropTrailingFF_faultsOnRead

theorem takeBit_faultsOnRead : FaultsOnRead takeBit := .bind .upd fun _ => .see

/-- RAWGET (43_raw_bypass.md R217). -/
theorem rawGet_faultsOnRead : FaultsOnRead rawGet := by
  have filled {g : SegRegs → SegRegs} {f : Bool} : FaultsOnRead (do updSeg g; countFill f) :=
    .bind .upd fun _ => countFill_faultsOnRead f
  have byteIn : FaultsOnRead rawByteIn :=
    .bind .see fun _ => .bind (segByte_faultsOnRead _) fun _ => .ite (.ite filled filled) filled
  exact .bind .see fun _ => .ite (.bind byteIn fun _ => takeBit_faultsOnRead) takeBit_faultsOnRead

theorem melBit_faultsOnRead (v : Bool) : FaultsOnRead (melBit v) :=
  .bind .upd fun _ => .bind .see fun _ => .ite nextByte_faultsOnRead .pure

theorem melRunBits_faultsOnRead (run : BitVec 16) (n : Nat) : FaultsOnRead (melRunBits run n) := by
  induction n with
  | zero => exact .pure
  | succ n ih => exact .bind (melBit_faultsOnRead _) fun _ => ih

/-- MELPUT (45_ht_block_coder.md R284). -/
theorem melPut_faultsOnRead (sym : Bool) : FaultsOnRead (melPut sym) := by
  refine .ite ?one ?zero
  case one =>
    exact .bind .see fun _ => .bind (melBit_faultsOnRead _) fun _ => .bind (melRunBits_faultsOnRead _ _) fun _ => .upd
  case zero => exact .bind .upd fun _ => .bind .see fun _ => .ite (.bind (melBit_faultsOnRead _) fun _ => .upd) .pure

theorem melOnes_faultsOnRead (n : Nat) : FaultsOnRead (melOnes n) := by
  induction n with
  | zero => exact .pure
  | succ n ih => exact .bind (melBit_faultsOnRead _) fun _ => ih

/-- MELFLUSH (45_ht_block_coder.md R284). -/
theorem melFlush_faultsOnRead : FaultsOnRead melFlush := by
  have pad : FaultsOnRead (do
      let r ← see (·.seg)
      if r.ct < r.fullCt then melOnes r.ct.toNat else pure ()) := .bind .see fun _ => .ite (melOnes_faultsOnRead _) .pure
  exact .bind .see fun _ => .ite pad (.bind (melBit_faultsOnRead _) fun _ => .bind .upd fun _ => pad)

/-- MELGETBIT (45_ht_block_coder.md R287). -/
theorem melGetBit_faultsOnRead : FaultsOnRead melGetBit := by
  have byteIn : FaultsOnRead melByteIn :=
    .bind .see fun _ => .bind (segByte_faultsOnRead _) fun _ => .bind .upd fun _ => countFill_faultsOnRead _
  exact .bind .see fun _ => .ite (.bind byteIn fun _ => takeBit_faultsOnRead) takeBit_faultsOnRead

theorem melReadRun_faultsOnRead (n r : Nat) : FaultsOnRead (melReadRun n r) := by
  induction n generalizing r with
  | zero => exact .pure
  | succ n ih => exact .bind melGetBit_faultsOnRead fun _ => ih _

/-- MELGET (45_ht_block_coder.md R287). -/
theorem melGet_faultsOnRead : FaultsOnRead melGet := by
  have answer {g : SegRegs → SegRegs} {b : Bool} : FaultsOnRead (do updSeg g; Pure.pure b) := .bind .upd fun _ => .pure
  refine .bind .see fun _ => .ite answer (.ite answer ?new)
  case new =>
    exact .bind .see fun _ => .bind melGetBit_faultsOnRead fun _ => .ite answer
      (.bind (melReadRun_faultsOnRead _ _) fun _ => .bind .upd fun _ => .ite .pure answer)

/-! ### The passes (44_bitplane_coder.md) -/

section Passes

variable {pa : PassArgs}

/-- CODE (44_bitplane_coder.md R233). -/
theorem code_faultsOnRead (cx : Label) {e : Cmd Bool} (he : FaultsOnRead e) : FaultsOnRead (code pa cx e) := by
  unfold code
  split
  case h_1 =>
    exact .bind he fun d => .ite (.bind (rawPut_faultsOnRead d) fun _ => .pure)
      (.bind (mqEncode_faultsOnRead cx d) fun _ => .pure)
  case h_2 => exact .ite rawGet_faultsOnRead (mqDecode_faultsOnRead cx)

theorem coefBit_faultsOnRead (i p : Nat) : FaultsOnRead (coefBit i p) := .bind (memReadWord_faultsOnRead _) fun _ => .pure

theorem coefSign_faultsOnRead (i : Nat) : FaultsOnRead (coefSign i) := .bind (memReadWord_faultsOnRead _) fun _ => .pure

theorem markMagBit_faultsOnRead (i : Nat) : FaultsOnRead (markMagBit pa i) := .ite .upd .pure

/-- MAGBIT (44_bitplane_coder.md R235). -/
theorem magBit_faultsOnRead (i : Nat) (cx : Label) : FaultsOnRead (magBit pa i cx) :=
  .bind (code_faultsOnRead cx (coefBit_faultsOnRead _ _)) fun _ => .ite (.bind (markMagBit_faultsOnRead i) fun _ =>
    .pure) .pure

/-- SIGNSTEP (44_bitplane_coder.md R236). -/
theorem signStep_faultsOnRead (x y : Nat) : FaultsOnRead (signStep pa x y) :=
  .ite (.bind (code_faultsOnRead _ (coefSign_faultsOnRead _)) fun _ => .upd)
    (.bind .see fun _ => .bind (code_faultsOnRead _ (.bind (coefSign_faultsOnRead _) fun _ => .pure)) fun _ => .upd)

/-- SPP (44_bitplane_coder.md R237). -/
theorem spp_faultsOnRead : FaultsOnRead (spp pa) :=
  .forEach fun _ => .bind .see fun _ =>
    .ite (.bind (magBit_faultsOnRead _ _) fun _ => .bind .upd fun _ => .ite (signStep_faultsOnRead _ _) .pure) .pure

/-- MRP (44_bitplane_coder.md R238). -/
theorem mrp_faultsOnRead : FaultsOnRead (mrp pa) :=
  .forEach fun _ => .bind .see fun _ => .ite (.bind (magBit_faultsOnRead _ _) fun _ => .upd) .pure

theorem columnBits_faultsOnRead (x : Nat) (l : List Nat) : FaultsOnRead (columnBits pa x l) := by
  induction l with
  | nil => exact .pure
  | cons y l ih => exact .bind (coefBit_faultsOnRead _ _) fun _ => .bind ih fun _ => .pure

theorem columnRun_faultsOnRead (x y0 : Nat) : FaultsOnRead (columnRun pa x y0) := by
  unfold columnRun
  split
  case h_1 => exact .bind (columnBits_faultsOnRead _ _) fun _ => .pure
  case h_2 => exact .pure

theorem runColumn_faultsOnRead (x y0 : Nat) : FaultsOnRead (runColumn pa x y0) := by
  have position (k : Nat) : FaultsOnRead (runPosition pa k) :=
    .bind (code_faultsOnRead _ .pure) fun _ => .bind (code_faultsOnRead _ .pure) fun _ => .pure
  refine .bind (columnRun_faultsOnRead x y0) fun _ => .bind (code_faultsOnRead _ .pure) fun _ => .ite ?_ .pure
  exact .bind (position _) fun _ => .bind (markMagBit_faultsOnRead _) fun _ =>
    .bind (signStep_faultsOnRead _ _) fun _ => .pure

theorem cupVisit_faultsOnRead (x y : Nat) : FaultsOnRead (cupVisit pa x y) :=
  .bind .see fun _ => .ite (.bind (magBit_faultsOnRead _ _) fun _ => .ite (signStep_faultsOnRead _ _) .pure) .pure

theorem cupColumn_faultsOnRead (c : Nat × Nat) : FaultsOnRead (cupColumn pa c) := by
  refine .bind (.bind .see fun _ => .ite (runColumn_faultsOnRead _ _) .pure) fun first => ?_
  cases first with
  | none => exact .pure
  | some y1 => exact .forEach fun _ => cupVisit_faultsOnRead _ _

/-- SEGMARK (44_bitplane_coder.md R254). -/
theorem segMark_faultsOnRead : FaultsOnRead (segMark pa) := by
  have coded (b : Bool) : FaultsOnRead (code pa 18 (pure b)) := code_faultsOnRead 18 .pure
  exact .bind (coded _) fun _ => .bind (coded _) fun _ => .bind (coded _) fun _ => .bind (coded _) fun _ => .ite .upd .pure

/-- CUP (44_bitplane_coder.md R239). -/
theorem cup_faultsOnRead : FaultsOnRead (cup pa) :=
  .bind (.forEach fun _ => cupColumn_faultsOnRead _) fun _ => .bind .upd fun _ => .ite segMark_faultsOnRead .pure

end Passes

/-- A pass of a block (44_bitplane_coder.md R256). -/
theorem runPass_faultsOnRead (dir : Dir) (k : Nat) : FaultsOnRead (runPass dir k) := by
  refine .bind .see fun c => ?_
  dsimp only
  split
  · exact spp_faultsOnRead
  · exact mrp_faultsOnRead
  · exact cup_faultsOnRead

theorem resetAfterPass_faultsOnRead : FaultsOnRead resetAfterPass := .bind .see fun _ => .ite .upd .pure

/-! ### CB.ENCODE (46_coordinator.md) -/

theorem checkShape_faultsOnRead : FaultsOnRead checkShape := .bind .see fun _ => .check

theorem checkBlock_faultsOnRead : FaultsOnRead checkBlock := .bind checkShape_faultsOnRead fun _ => .bind .see fun _ => .check

theorem checkCoefs_faultsOnRead : FaultsOnRead checkCoefs :=
  .bind .see fun _ => .forEach fun _ => .bind (memReadWord_faultsOnRead _) fun _ => .check

theorem blockStart_faultsOnRead : FaultsOnRead blockStart := .bind .upd fun _ => .bind .upd fun _ => .upd

theorem latchSegbase_faultsOnRead : FaultsOnRead latchSegbase := .bind .see fun _ => .upd

theorem openSegment_faultsOnRead (raw : Bool) (total : Word) : FaultsOnRead (openSegment raw total) :=
  .bind .see fun _ => .bind .upd fun _ => .ite (.bind .upd fun _ => .upd) (.bind .upd fun _ => .upd)

theorem closeSegment_faultsOnRead (raw : Bool) : FaultsOnRead (closeSegment raw) :=
  .ite rawFlush_faultsOnRead (.bind .see fun _ => .ite mqErterm_faultsOnRead mqFlush_faultsOnRead)

/-- The passes of PART1_ENCODE (46_coordinator.md R328). -/
theorem encodePasses_faultsOnRead (np n : Nat) (total : Word) (isOpen : Bool) :
    FaultsOnRead (encodePasses np n total isOpen) := by
  induction n generalizing total isOpen with
  | zero => exact .pure
  | succ n ih =>
    refine .bind .see fun c => .ite ?_ (.bind (openSegment_faultsOnRead _ _) fun _ => ?_)
    all_goals
      refine .bind (runPass_faultsOnRead _ _) fun _ => .bind resetAfterPass_faultsOnRead fun _ => .ite ?_ ?_
      · exact .bind (closeSegment_faultsOnRead _) fun _ => .bind .see fun _ => .bind .upd fun _ => ih _ _
      · exact .bind .upd fun _ => ih _ _

theorem endEncode_faultsOnRead (v : Word) (n : Nat) : FaultsOnRead (endEncode v n) :=
  .bind .upd fun _ => .bind .upd fun _ => .upd

/-- PART1_ENCODE (46_coordinator.md R328). -/
theorem part1Encode_faultsOnRead : FaultsOnRead part1Encode := by
  refine .bind .see fun c => .ite ?empty ?passes
  case empty =>
    exact .bind latchSegbase_faultsOnRead fun _ => .bind .upd fun _ => .bind mqFlush_faultsOnRead fun _ => .bind .see fun _ =>
      endEncode_faultsOnRead _ _
  case passes => exact .bind (encodePasses_faultsOnRead _ _ _ _) fun _ => endEncode_faultsOnRead _ _

theorem readCoefs_faultsOnRead (n i : Nat) : FaultsOnRead (readCoefs n i) := by
  induction n generalizing i with
  | zero => exact .pure
  | succ n ih => exact .bind (memReadWord_faultsOnRead _) fun _ => .bind (ih _) fun _ => .pure

/-- HT_ENCODE (46_coordinator.md R329). -/
theorem htEncode_faultsOnRead : FaultsOnRead htEncode :=
  .bind .see fun _ => .ite (endEncode_faultsOnRead _ _) <| .bind (readCoefs_faultsOnRead _ _) fun _ =>
    .bind latchSegbase_faultsOnRead fun _ => .bind .upd fun _ => .bind (.forEach emitByte_faultsOnRead) fun _ =>
      .bind .upd fun _ => endEncode_faultsOnRead _ _

/-! ### CB.DECODE (46_coordinator.md) -/

theorem checkDecodeArgs_faultsOnRead : FaultsOnRead checkDecodeArgs := .bind .see fun _ => .bind .check fun _ => .check

theorem segtabEnd_faultsOnRead (k : Nat) : FaultsOnRead (segtabEnd k) :=
  .bind (memReadWord_faultsOnRead _) fun _ => .bind .see fun _ => .pure

theorem part1Segments_faultsOnRead (l : List (Nat × Nat)) (lo : Nat) : FaultsOnRead (part1Segments l lo) := by
  induction l generalizing lo with
  | nil => exact .pure
  | cons ab l ih =>
    have segEnd : FaultsOnRead (segmentEnd ab.2) := .bind .see fun _ => .ite (segtabEnd_faultsOnRead _) .pure
    exact .bind segEnd fun _ => .bind .check fun _ => .bind (ih _) fun _ => .pure

theorem part1Uses_faultsOnRead : FaultsOnRead part1Uses := .bind .see fun _ => part1Segments_faultsOnRead _ _

theorem htEnds_faultsOnRead : FaultsOnRead htEnds :=
  .bind .see fun _ => .ite .pure <| .bind (segtabEnd_faultsOnRead _) fun _ => .ite .pure <|
    .bind (segtabEnd_faultsOnRead _) fun _ => .bind .check fun _ => .pure

theorem decodePasses_faultsOnRead (n k done : Nat) : FaultsOnRead (decodePasses n k done) := by
  induction n generalizing k done with
  | zero => exact .pure
  | succ n ih =>
    exact .bind (runPass_faultsOnRead _ _) fun _ => .bind resetAfterPass_faultsOnRead fun _ => .bind .see fun _ =>
      .ite .pure (ih _ _)

theorem openDecoder_faultsOnRead (u : SegUse) : FaultsOnRead (openDecoder u) :=
  .bind .see fun _ => .bind .upd fun _ => .ite (.bind .upd fun _ => .upd) (.bind mqInitDec_faultsOnRead fun _ => .upd)

theorem decodeSegments_faultsOnRead (l : List SegUse) (done : Nat) : FaultsOnRead (decodeSegments l done) := by
  induction l generalizing done with
  | nil => exact .pure
  | cons u l ih =>
    exact .bind .see fun _ => .ite .pure <| .bind (openDecoder_faultsOnRead _) fun _ =>
      .bind (decodePasses_faultsOnRead _ _ _) fun _ =>
      .ite .pure (ih _)

theorem store_faultsOnRead : FaultsOnRead store := .bind .see fun _ => .forEach fun _ => .bind .see fun _ => .upd

/-- The end of a decode (46_coordinator.md R345). -/
theorem endDecode_faultsOnRead (done : Nat) (trunc short : Bool) : FaultsOnRead (endDecode done trunc short) :=
  .bind store_faultsOnRead fun _ => .bind .upd fun _ => .bind .upd fun _ =>
    .ite (.bind .upd fun _ => .bind .see fun _ => .ite .upd .raise) (.ite .upd .pure)

/-- PART1_DECODE (46_coordinator.md R346). -/
theorem part1Decode_faultsOnRead (uses : List SegUse) : FaultsOnRead (part1Decode uses) :=
  .bind (decodeSegments_faultsOnRead _ _) fun _ => .bind .see fun _ => endDecode_faultsOnRead _ _ _

theorem readBytes_faultsOnRead (n j : Nat) : FaultsOnRead (readBytes n j) := by
  induction n generalizing j with
  | zero => exact .pure
  | succ n ih => exact .bind (memReadByte_faultsOnRead _) fun _ => .bind (ih _) fun _ => .pure

theorem storeHt_faultsOnRead (l : List HtCoef) (k : Nat) : FaultsOnRead (storeHt l k) := by
  induction l generalizing k with
  | nil => exact .pure
  | cons x l ih => exact .bind .upd fun _ => ih _

/-- The call of HTCodec.decode (46_coordinator.md R347), a total function (45_ht_block_coder.md R296). -/
theorem htDecodeBlock_faultsOnRead (e0 e1 done : Nat) : FaultsOnRead (htDecodeBlock e0 e1 done) := by
  refine .bind .see fun c => .bind (readBytes_faultsOnRead _ _) fun cup =>
    .ite (.bind (readBytes_faultsOnRead _ _) fun refn => ?_) (.bind .pure fun refn => ?_)
  all_goals
    dsimp only
    generalize (if c.npass.toNat = 1 then 0 else 1) = z
    split
    · exact .raise
    · exact storeHt_faultsOnRead _ 0

/-- HT_DECODE (46_coordinator.md R347). -/
theorem htDecode_faultsOnRead (ends : Nat × Nat) : FaultsOnRead (htDecode ends) :=
  .bind .see fun _ => .ite (.bind (htDecodeBlock_faultsOnRead _ _ _) fun _ => endDecode_faultsOnRead _ _ _)
    (endDecode_faultsOnRead _ _ _)

/-! ### Every command -/

section Exec

theorem needMode_faultsOnRead (m : CMode) : FaultsOnRead (needMode m) := .bind .see fun _ => .check

/-- A pass command (44_bitplane_coder.md R240). -/
theorem pass_faultsOnRead {i : Instr} {plane : BitVec 5} {dir : Dir} {raw : Bool} {pass : PassArgs → Cmd Unit}
    (hp : ∀ pa, FaultsOnRead (pass pa)) : FaultsOnRead (do checkFields i; pass (← passCommand plane dir raw)) := by
  have args : FaultsOnRead (passCommand plane dir raw) :=
    .bind (needMode_faultsOnRead _) fun _ => .bind checkShape_faultsOnRead fun _ => .see
  exact .bind .check fun _ => .bind args hp

variable {m : CMode} {c : Cmd Unit} (hc : FaultsOnRead c)

/-- A decoder's command: a bit of the segment into RESULT. -/
theorem bit_faultsOnRead {c : Cmd Bool} (hc : FaultsOnRead c) : FaultsOnRead (do needMode m; setResult (zextBit (← c))) :=
  .bind (needMode_faultsOnRead m) fun _ => .bind hc fun _ => .upd

include hc

theorem put_faultsOnRead : FaultsOnRead (do needMode m; c) := .bind (needMode_faultsOnRead m) fun _ => hc

theorem terminate_faultsOnRead : FaultsOnRead (do needMode m; c; endSegment) :=
  .bind (needMode_faultsOnRead m) fun _ => .bind hc fun _ => .bind .see fun _ => .bind .upd fun _ => .upd

theorem initenc_faultsOnRead : FaultsOnRead (do latchSegbase; c; setMode m) :=
  .bind latchSegbase_faultsOnRead fun _ => .bind hc fun _ => .upd

theorem initdec_faultsOnRead : FaultsOnRead (do checkSegment; latchCfgSegment; c; setMode m) :=
  .bind (.bind .see fun _ => .check) fun _ => .bind (.bind .see fun _ => .upd) fun _ => .bind hc fun _ => .upd

end Exec

/-- Every command is a piece that faults only where it reads memory nothing has written, run to its end. -/
theorem exec_faultsOnRead (i : Instr) : ∃ c, (∀ s, exec i s = runCmd c s) ∧ FaultsOnRead c := by
  cases i with
  | ctxZc o m | ctxSc w e n s' | ctxMr r a => exact ⟨_, fun _ => rfl, .upd⟩
  | mqResetctx | bpcClear => exact ⟨_, fun _ => rfl, .upd⟩
  | mqInitenc => exact ⟨_, fun _ => rfl, initenc_faultsOnRead (c := mqInitEnc) .upd⟩
  | rawInitenc => exact ⟨_, fun _ => rfl, initenc_faultsOnRead (c := rawInitEnc) .upd⟩
  | melInitenc => exact ⟨_, fun _ => rfl, initenc_faultsOnRead (c := melInitEnc) .upd⟩
  | rawInitdec => exact ⟨_, fun _ => rfl, initdec_faultsOnRead (c := rawInitDec) .upd⟩
  | melInitdec => exact ⟨_, fun _ => rfl, initdec_faultsOnRead (c := melInitDec) .upd⟩
  | mqInitdec => exact ⟨_, fun _ => rfl, initdec_faultsOnRead mqInitDec_faultsOnRead⟩
  | mqEncode cx d => exact ⟨_, fun _ => rfl, .bind .check fun _ => put_faultsOnRead (mqEncode_faultsOnRead _ d)⟩
  | rawPutbit d => exact ⟨_, fun _ => rfl, put_faultsOnRead (rawPut_faultsOnRead d)⟩
  | melPut d => exact ⟨_, fun _ => rfl, put_faultsOnRead (melPut_faultsOnRead d)⟩
  | mqFlush => exact ⟨_, fun _ => rfl, terminate_faultsOnRead mqFlush_faultsOnRead⟩
  | mqErterm => exact ⟨_, fun _ => rfl, terminate_faultsOnRead mqErterm_faultsOnRead⟩
  | rawFlush => exact ⟨_, fun _ => rfl, terminate_faultsOnRead rawFlush_faultsOnRead⟩
  | melFlush => exact ⟨_, fun _ => rfl, terminate_faultsOnRead melFlush_faultsOnRead⟩
  | mqDecode cx => exact ⟨_, fun _ => rfl, .bind .check fun _ => bit_faultsOnRead (mqDecode_faultsOnRead _)⟩
  | rawGetbit => exact ⟨_, fun _ => rfl, bit_faultsOnRead rawGet_faultsOnRead⟩
  | melGet => exact ⟨_, fun _ => rfl, bit_faultsOnRead melGet_faultsOnRead⟩
  | bpcSpp p dir raw => exact ⟨_, fun _ => rfl, pass_faultsOnRead fun _ => spp_faultsOnRead⟩
  | bpcMrp p dir raw => exact ⟨_, fun _ => rfl, pass_faultsOnRead fun _ => mrp_faultsOnRead⟩
  | bpcCup p dir => exact ⟨_, fun _ => rfl, pass_faultsOnRead fun _ => cup_faultsOnRead⟩
  | bpcStore => exact ⟨_, fun _ => rfl, .bind checkShape_faultsOnRead fun _ => store_faultsOnRead⟩
  | cbEncode =>
    refine ⟨_, fun _ => rfl, ?_⟩
    exact .bind checkBlock_faultsOnRead fun _ => .bind checkCoefs_faultsOnRead fun _ =>
      .bind blockStart_faultsOnRead fun _ => .bind .see fun _ => .ite htEncode_faultsOnRead part1Encode_faultsOnRead
  | cbDecode =>
    refine ⟨_, fun _ => rfl, ?_⟩
    refine .bind checkBlock_faultsOnRead fun _ => .bind checkDecodeArgs_faultsOnRead fun _ => .bind .see fun _ =>
      .ite ?ht ?part1
    case ht => exact .bind htEnds_faultsOnRead fun _ => .bind blockStart_faultsOnRead fun _ => htDecode_faultsOnRead _
    case part1 =>
      exact .bind part1Uses_faultsOnRead fun _ => .bind blockStart_faultsOnRead fun _ => part1Decode_faultsOnRead _

/-- The end of a command, with or without an error, clears BUSY and sets DONE (60_exceptions.md R360, 70_reset_and_hazards.md
R404). -/
theorem runCmd_ended {c : Cmd Unit} {s t : State} (e : runCmd c s = .next t) :
    t.status.inflight = none ∧ t.status.done = true := by
  rcases runCmd_eq_next.1 e with ⟨u, -, rfl⟩ | ⟨x, u, -, rfl⟩
  · exact ⟨complete_inflight u, complete_done u⟩
  · exact ⟨takeError_inflight u x, takeError_done u x⟩

/-- No command writes a configuration register or the host's list. -/
theorem cfgBus_commandInv (i : Instr) (c : Cfg) (b : HostBus) : CommandInv i fun s => s.cfg = c ∧ s.bus = b where

/-- Settles O52: runCmd refuses nothing, the pieces of a command fault on unwritten memory alone, and no command changes the
configuration or the host's list. -/
theorem commandsComplete : Obligations.CommandsComplete := by
  intro i s
  obtain ⟨c, hrun, hc⟩ := exec_faultsOnRead i
  cases e : exec i s with
  | next t =>
    obtain ⟨hbusy, hdone⟩ := runCmd_ended ((hrun s).symm.trans e)
    obtain ⟨hcfg, hbus⟩ := exec_preserves (cfgBus_commandInv i s.cfg s.bus) ⟨rfl, rfl⟩ e
    exact .inr ⟨t, rfl, hbusy, hdone, hcfg, hbus⟩
  | fault f =>
    obtain ⟨t, ht⟩ := runCmd_eq_fault.1 ((hrun s).symm.trans e)
    exact .inl (congrArg _ (hc.only ht))
  | refused r => exact absurd ((hrun s).symm.trans e) (runCmd_ne_refused c s r)

end Sys2Proof.Proofs
end

section
/-!
PROOFS. O5, O16, O60: a step runs the command in flight; what reset leaves (70_reset_and_hazards.md R390).
-/
namespace Sys2Proof.Proofs

open Sys2Proof.Machine Sys2Proof.Laws

/-! ### The engine's turn (70_reset_and_hazards.md R404, R405) -/

/-- With a command in flight the engine's turn is the decoded command. -/
theorem engineStep_of_decode {s : State} {w : Word} {i : Instr} (hw : s.status.inflight = some w) (hi : decode w = .ok i) :
    engineStep s = exec i s := by
  unfold engineStep
  rw [hw]
  dsimp only
  rw [hi]

/-- Settles O5: with no host event before it the turn is the engine's. -/
theorem stepRunsDecoded : Obligations.StepRunsDecoded := by
  intro s w i hw hi
  refine ⟨fun hp => ?silent, fun rest hp => ?waiting⟩
  case silent =>
    calc step s = engineStep s := by unfold step; rw [hp]
      _ = exec i s := engineStep_of_decode hw hi
  case waiting =>
    calc step s = engineStep { s with bus := { s.bus with pending := rest } } := by unfold step; rw [hp]
      _ = exec i { s with bus := { s.bus with pending := rest } } := engineStep_of_decode hw hi

/-! ### The reset input (70_reset_and_hazards.md R390) -/

/-- The reset input is taken in every state, also with a command in flight. -/
theorem step_reset {s : State} {rest : List HostOp} (hp : s.bus.pending = .reset :: rest) :
    step s = .next (hardReset { s with bus := { s.bus with pending := rest } }) := by
  unfold step
  rw [hp]

/-- A word of STATE_FLAGS is 0 where all four arrays are. -/
theorem flagsWord_cleared (i : Nat) : clearedArrays.flagsWord i = 0 := by
  have sig : clearedArrays.sig.getLsbD i = false := BitVec.getLsbD_zero
  have sgn : clearedArrays.sgn.getLsbD i = false := BitVec.getLsbD_zero
  have visited : clearedArrays.visited.getLsbD i = false := BitVec.getLsbD_zero
  have refined : clearedArrays.refined.getLsbD i = false := BitVec.getLsbD_zero
  rw [Arrays.flagsWord, sig, sgn, visited, refined]
  rfl

/-- Settles O16: each register by evaluation, and the reset input by what it leaves. -/
theorem resetValues : Obligations.ResetValues := by
  refine ⟨by decide, rfl, rfl, rfl, rfl, rfl, rfl, fun i => ⟨flagsWord_cleared i, rfl⟩, fun _ => rfl, fun s rest hp => ?_⟩
  exact ⟨_, step_reset hp, rfl⟩

/-- What every step keeps holds after reset, since reset is one of the steps. -/
theorem StepInv.atReset {P : State → Prop} (h : StepInv P) : P State.reset := h.reset State.reset.bus

/-- Settles O60: the three invariants are kept by every step, the reset input among them. -/
theorem resetMeetsInvariants : Obligations.ResetMeetsInvariants := by
  obtain ⟨hsorted, hmapped⟩ := memory_stepInv.atReset
  exact ⟨hsorted, hmapped, arraysWf_stepInv.atReset, (registersWf_iff _).2 registersWf_stepInv.atReset⟩

end Sys2Proof.Proofs
end
